-- ==== Sys2Proof/Word.lean ====
section
/-! DEFINITION. The word types of the station and the order of slot numbers (spec/00_scope.md 3.1). -/

namespace Sys2Proof

/-- One byte of a page, a frame body, a header or the configuration record. -/
abbrev Byte := BitVec 8

/-- A house slot number (HSN) or programme slot number (PSN): 00 3.1, "a 32-bit value". -/
abbrev Slot := BitVec 32

/-- A page number, 0 to 65,535 (R19). -/
abbrev PageNo := BitVec 16

/-- A station or panel node number, 0 to 31 (R51, R179). -/
abbrev Station := Fin 32

/-- A plan digest (R66). -/
abbrev Digest := BitVec 32

/-- 00 3.1: A is later than B when A - B, modulo 2^32, lies in 1 to 2^31 - 1. -/
def later (a b : Slot) : Bool :=
  decide (1 ≤ (a - b).toNat) && decide ((a - b).toNat ≤ 2147483647)

/-- 00 3.1: A is earlier than B when B is later than A. -/
def earlier (a b : Slot) : Bool := later b a

/-- 00 3.1: "A at or after B" means that A equals B or is later than B. -/
def atOrAfter (a b : Slot) : Bool := a == b || later a b

/-- 00 3.1: the range [lo, hi] includes both ends. -/
def within (lo hi p : Slot) : Bool := atOrAfter p lo && atOrAfter hi p

/-- A distance between slot numbers, modulo 2^32 under the reading of 00 3.1: positive where `a` is the later
(DEDUCED, log entry 19). -/
def dist (a b : Slot) : Int := (a - b).toInt

/-- A number of slots as a slot number difference. -/
def slots (n : Nat) : Slot := BitVec.ofNat 32 n

end Sys2Proof
end

