-- ==== Sys2Proof/Config.lean ====
section
/-! DEFINITION. The device constants of spec/00_scope.md section 5, and the free values the spec leaves open. -/

namespace Sys2Proof.Config

abbrev pageSize : Nat := 8192
abbrev poolPages : Nat := 65536
abbrev quarterPages : Nat := 16384
abbrev largestBurst : Nat := 524288
abbrev indexCapacity : Nat := 4096
/-- The commit lead L. -/
abbrev commitLead : Nat := 3
abbrev delayCap : Int := 3800
abbrev widestCut : Nat := 3800
abbrev cutCapacity : Nat := 32
abbrev paceCapacity : Nat := 64
abbrev spanTimeout : Nat := 500
abbrev longestSpan : Nat := 1500
abbrev intakeQuota : Nat := 4
abbrev receiveCapacity : Nat := 32
abbrev holdAt : Nat := 24
abbrev resumeAt : Nat := 8
abbrev generalEntries : Nat := 16
abbrev holdTimeout : Nat := 100
abbrev vetoLimit : Nat := 16
abbrev markStaleness : Nat := 8
abbrev vetoCountTop : Nat := 255
abbrev quietAt : Nat := 128
abbrev historyCapacity : Nat := 64
abbrev listenPeriod : Nat := 300
abbrev joinRetry : Nat := 200
abbrev recapSilence : Nat := 100
abbrev laterFrames : Nat := 64
abbrev rescindMemory : Nat := 32
abbrev rescindStack : Nat := 8
/-- DUMP-AVAILABLE needs the dump length plus D_min + L = 8 (R186). -/
abbrev dumpMargin : Nat := 8
/-- R72: the line is idle once 11 consecutive recessive bits have been read. -/
abbrev busIdleBits : Nat := 11
/-- R80: a receiver that lost its place sends no start bit before 18 consecutive recessive bits. -/
abbrev recoverBits : Nat := 18

/-- FREE VALUE (log entry 8): how many bytes the output port had accepted of a burst that is ended short (R129);
the argument numbers the draws. -/
opaque sentBytes : Nat → Nat

/-- FREE VALUE (log entry 9): the slot number used where a rule asks for the current HSN and none is present (R1);
the argument numbers the draws. -/
opaque absentHsn : Nat → Slot

end Sys2Proof.Config
end

