-- ==== Sys2Proof/Syntax.lean ====
section
/-! DEFINITION. The commands of spec/opcode_table.json, one constructor of `Instr` per row, and their operands. -/

namespace Sys2Proof

/-- R179: "whether power-on or the reset line". -/
inductive ResetCause where
  | powerOn
  | resetLine
  deriving DecidableEq, Repr

/-- A contact's level: closed at the low level, open at the high level (11.2). -/
inductive Level where
  | opened
  | closed
  deriving DecidableEq, Repr

/-- The seven contact inputs (11.2). -/
inductive Contact where
  | dump
  | markIn
  | markOut
  | commitDrop
  | commitMask
  | abandon
  | rescind
  deriving DecidableEq, Repr

/-- One value for each of the seven contacts. -/
structure PerContact (α : Type) where
  dump : α
  markIn : α
  markOut : α
  commitDrop : α
  commitMask : α
  abandon : α
  rescind : α
  deriving DecidableEq, Repr

/-- The parts of one ordinary strobe, each a block's own taking of it (R2).
The spec lets two parts that reach one state be taken in either order (R17, R70, R158, R178). -/
inductive StrobePart where
  /-- The cue traffic unit's countdown of the held-by set and withdrawal of stale marks (R94, R99). -/
  | traffic
  /-- The ingress closes the slot and the slot index appends the record (R14, R42 to R44). -/
  | slotClose
  /-- The egress's output step, or its substitute bursts, with the head removal (R15, R16, R130, R141). -/
  | outputStep
  /-- The intake of up to four frames (R100). -/
  | intake
  /-- The regulator's proposal event, which follows the append (R152). -/
  | proposal
  /-- The alignment monitor's timers and peer checks (R160, R166 to R168, R174). -/
  | monitor
  deriving DecidableEq, Repr

/-- How one ordinary strobe is taken (log entries 5 and 6). -/
structure StrobeOrder where
  /-- The parts in the order in which they are taken. -/
  parts : List StrobePart
  /-- The expiries due at this strobe are left to their own commands (the rows LISTEN_TIMER_EXPIRY and so on);
  one not taken by then is taken when the next strobe or the loss of reference is taken. -/
  ownSteps : Bool
  deriving DecidableEq, Repr

/-- A header that has arrived complete on an input lane position (R35). -/
structure HeaderRead where
  /-- Its bytes (12.2). -/
  bytes : List Byte
  /-- A strobe was taken, or the reference was lost, while it was still incomplete (R35, log entry 48). -/
  interrupted : Bool
  deriving DecidableEq, Repr

/-- What a receiver reads of one frame on the cue link (R74, R79, R80); dominant is false, recessive true. -/
structure LineRead where
  /-- The bits from the start bit through the check, sync bits included, as this station reads them. -/
  bits : List Bool
  /-- The veto bit was read dominant, driven by another node. -/
  vetoBit : Bool
  /-- The echo bit was read dominant, driven by another node. -/
  echoBit : Bool
  /-- A dominant bit was read after this receiver's own veto slot and before the line next fell idle (R80). -/
  lateDominant : Bool
  /-- The consecutive recessive bits read on the line alone when the frame has ended (R72); read only where the
  place in the frame was lost. -/
  trailing : Nat
  deriving DecidableEq, Repr

/-- How a node whose own frame is vetoed reads its veto slot (R79). -/
inductive VetoSlot where
  /-- The veto bit is read dominant, its own veto (R81) or another node's. -/
  | vetoBit
  /-- The echo bit alone is read dominant. -/
  | echoOnly
  deriving DecidableEq, Repr

/-- The commands. -/
inductive Instr where
  /-- RESET (R179): the straps and raw contact levels are those at the end of the reset. -/
  | reset (cause : ResetCause) (straps : Station) (levels : PerContact Level)
  /-- CONFIG_READ_COMPLETE (R181): the bytes read, in address order. -/
  | configReadComplete (bytes : List Byte)
  /-- ORDINARY_STROBE (R2). -/
  | ordinaryStrobe (hsn : Slot) (order : StrobeOrder)
  /-- RETURN (R4). -/
  | referenceReturn (hsn : Slot)
  /-- REFERENCE_BREAK (R5). -/
  | referenceBreak (hsn : Slot)
  /-- REFERENCE_LOSS_TIMEOUT (R3). -/
  | referenceLossTimeout
  /-- LISTEN_TIMER_EXPIRY (R160). -/
  | listenTimerExpiry
  /-- JOIN_RETRY_EXPIRY (R167). -/
  | joinRetryExpiry
  /-- COLLECT_SILENCE_EXPIRY (R174). -/
  | collectSilenceExpiry
  /-- FOREIGN_RECAP_EXPIRY (R168). -/
  | foreignRecapExpiry
  /-- SPAN_TIMEOUT (R126), of the context of `origin`. -/
  | spanTimeout (origin : Station)
  /-- HOLD_TIMEOUT (R99), of the held-by entry of `station`. -/
  | holdTimeout (station : Station)
  /-- MARK_STALE_WITHDRAWAL (R94), of the general entry whose entry order is `entry`. -/
  | markStaleWithdrawal (entry : Nat)
  /-- REFUSED_PULSE_EXPIRY (R188). -/
  | refusedPulseExpiry
  /-- DEBOUNCE_STABLE (R184). -/
  | debounceStable (contact : Contact)
  /-- BURST_START (R35): a complete header of nine bytes on one of the four lane positions. -/
  | burstStart (position : Fin 4) (header : HeaderRead)
  /-- ESSENCE_BYTE (R37). -/
  | essenceByte (position : Fin 4) (byte : Byte)
  /-- BURST_END (R39). -/
  | burstEnd (position : Fin 4)
  /-- BUS_IDLE (R73): the idle count now stands at `recessive` consecutive recessive bits. -/
  | busIdle (recessive : Nat)
  /-- ARBITRATION_LOST (R77). -/
  | arbitrationLost
  /-- LINE_FAULT (R77, R84): dominant sent and recessive read; `recessive` consecutive recessive bits have been read, this
  one included (R72, log entry 50). -/
  | lineFault (recessive : Nat := 1)
  /-- CLASH (R84): recessive sent and dominant read after the key; `read` is the line frame then taken. -/
  | clash (read : LineRead)
  /-- FRAME_VETOED (R78, R79): the veto slot of the own frame was read as `slot` says (log entry 49). -/
  | frameVetoed (slot : VetoSlot := .vetoBit)
  /-- SENT (R91): both veto slot bits were read recessive but for this station's own veto (R81). -/
  | sent
  /-- FRAME_RECEIVED (R80). -/
  | frameReceived (read : LineRead)
  /-- HOLD_RECEIVED (R99): a HOLD of `sender` is taken without a line failure and stands. -/
  | holdReceived (sender : Station)
  /-- RESUME_RECEIVED (R99). -/
  | resumeReceived (sender : Station)
  /-- BEACON_RECEIVED (R164): a BEACON of `sender` with this body is taken and stands. -/
  | beaconReceived (sender : Station) (body : List Byte)
  /-- CONTACT_RAW_LEVEL_CHANGE (R184). -/
  | contactRawLevelChange (contact : Contact) (level : Level)
  /-- OUTPUT_BURST_END (R129): all bytes of the burst open on the position have been sent. -/
  | outputBurstEnd (position : Fin 4)
  /-- COURTESY_GAP_EXPIRY (R73): the countdown reaches 0 on an idle line. -/
  | courtesyGapExpiry
  deriving DecidableEq, Repr

end Sys2Proof
end

