-- ==== Sys2Proof/WellFormed.lean ====
section
/-! DEFINITION. Which operands a command can have. `exec` is total on the others too (log entry 35). -/

namespace Sys2Proof

/-- No part is named twice, and the proposal event follows the append it takes the report of (R152). -/
def StrobeOrder.wellFormed (o : StrobeOrder) : Bool :=
  decide o.parts.Nodup &&
    !(o.parts.takeWhile (· != .slotClose)).contains .proposal

/-- A line read begins with the dominant start bit (R74). -/
def LineRead.wellFormed (r : LineRead) : Bool := r.bits.head? == some false

/-- The operands the spec gives each command. -/
def Instr.wellFormed : Instr → Bool
  | .reset _ _ _ => true
  | .configReadComplete bytes => bytes.length == 64          -- R180: 64 bytes
  | .ordinaryStrobe _ o => o.wellFormed
  | .referenceReturn _ => true
  | .referenceBreak _ => true
  | .referenceLossTimeout => true
  | .listenTimerExpiry => true
  | .joinRetryExpiry => true
  | .collectSilenceExpiry => true
  | .foreignRecapExpiry => true
  | .spanTimeout _ => true
  | .holdTimeout _ => true
  | .markStaleWithdrawal _ => true
  | .refusedPulseExpiry => true
  | .debounceStable _ => true
  | .burstStart _ header => header.bytes.length == 9         -- 12.2: 9 bytes
  | .essenceByte _ _ => true
  | .burstEnd _ => true
  | .busIdle n => decide (11 ≤ n)                            -- R72: 11 consecutive recessive bits
  | .arbitrationLost => true
  | .lineFault n => decide (1 ≤ n)                           -- R72: the recessive bit read counts
  | .clash r => r.wellFormed
  | .frameVetoed _ => true
  | .sent => true
  | .frameReceived r => r.wellFormed
  | .holdReceived _ => true
  | .resumeReceived _ => true
  | .beaconReceived _ body => body.length == 21              -- R75: 21 bytes
  | .contactRawLevelChange _ _ => true
  | .outputBurstEnd _ => true
  | .courtesyGapExpiry => true

end Sys2Proof
end

