-- ==== Sys2Proof/Decode.lean ====
section
/-! DEFINITION. The host's word decoder. No row of spec/opcode_table.json gives bits (log entry 34). -/

namespace Sys2Proof

/-- The command a word spells by the table's bits: every row's "fields" is empty and none has "fixed" bits, so no word
spells one. -/
def decodeTableWord (_nbits _w : Nat) : Option Instr := none

end Sys2Proof
end

