-- ==== Sys2Proof/Machine/State.lean ====
section
/-! DEFINITION. The state of the station: every block's state as its chapter gives it, as plain data, and the values
after reset. -/

namespace Sys2Proof.Machine

/-! ## Configuration (R181, 12.3) -/

/-- The kind of a lane's essence. -/
inductive LaneKind where
  | picture
  | sound
  | data
  deriving DecidableEq, Repr

inductive RegulatorMode where
  | steady
  | proportional
  deriving DecidableEq, Repr

inductive SoundSubstitute where
  | silence
  | tone
  deriving DecidableEq, Repr

inductive PictureSubstitute where
  | held
  | black
  deriving DecidableEq, Repr

/-- The configuration record in force (R181, R182). The DATA substitute has one choice, empty. -/
structure Settings where
  planCode : Nat
  lanes : List LaneKind
  tCfg : Nat
  dumpLength : Nat
  pauseThreshold : Nat
  pauseRun : Nat
  normalRepeat : Nat
  mode : RegulatorMode
  windowLength : Nat
  budget : Nat
  gain : Nat
  spacing : Nat
  trimTolerance : Nat
  beaconPeriod : Nat
  bitRate : Nat
  courtesyGap : Nat
  breakEnabled : Bool
  maskEnabled : Bool
  breakTag : BitVec 16
  maskTag : BitVec 16
  maskTagLanes : BitVec 4
  commitMaskLanes : BitVec 4
  soundSubstitute : SoundSubstitute
  pictureSubstitute : PictureSubstitute
  readyTolerance : Nat
  deriving DecidableEq, Repr

/-! ## House reference unit (R1) -/

inductive RefFlag where
  | present
  | lost
  deriving DecidableEq, Repr

/-- R1: the current HSN, the reference flag and the reference-loss timer (log entry 31). -/
structure RefUnit where
  hsn : Option Slot
  flag : RefFlag
  timerRunning : Bool
  deriving DecidableEq, Repr

/-! ## Page store (chapter 2) -/

/-- The contents of the page pool: (address, byte) pairs, addresses strictly rising, no listed byte 00 (log entry 3).
Page `p`, offset `o` is address `8192 * p + o` (R19). -/
abbrev Memory := List Host.Cell

/-- One lane's free list, free count and pressure flag (R23, R28). -/
structure LaneStore where
  free : List PageNo
  count : Nat
  pressure : Bool
  deriving DecidableEq, Repr

/-- The accounts of the page store; no lanes until the lane plan comes into force (R22). -/
structure PageStore where
  lanes : List LaneStore
  exhausted : Bool
  deriving DecidableEq, Repr

/-! ## Slot index (1.5) -/

inductive Arrival where
  | whole
  | partly
  | void
  deriving DecidableEq, Repr

/-- One configured lane of a slot record (R14's table). -/
structure LaneRecord where
  present : Bool
  count : Nat
  pages : List PageNo
  truncated : Bool
  overlong : Bool
  deriving DecidableEq, Repr

/-- A slot record (R14's table). -/
structure SlotRecord where
  psn : Slot
  arrival : Arrival
  lanes : List LaneRecord
  peak : Nat
  quiet : Bool
  pauseEligible : Bool
  brk : Bool
  maskTag : Bool
  deriving DecidableEq, Repr

/-! ## Ingress (R33) -/

inductive BurstState where
  | none
  | opened
  | ended
  deriving DecidableEq, Repr

/-- A lane entry (R33's table). -/
structure LaneEntry where
  burst : BurstState
  declared : Option Nat
  received : Nat
  stored : Nat
  pages : List PageNo
  truncated : Bool
  overlong : Bool
  breakMatch : Bool
  maskMatch : Bool
  deriving DecidableEq, Repr

/-- An accepted burst being delivered on an input lane position (log entry 33). -/
structure PortBurst where
  position : Fin 4
  lane : Nat
  deriving DecidableEq, Repr

structure Ingress where
  period : Option Slot
  entries : List LaneEntry
  peak : Nat
  quietRun : Nat
  port : List PortBurst
  deriving DecidableEq, Repr

/-! ## Edit plan (chapter 4) -/

/-- A cut's kind with the lane mask of a MASK (R52). -/
inductive CutKind where
  | drop
  | mask (lanes : BitVec 4)
  deriving DecidableEq, Repr

inductive CutSource where
  | dump
  | span
  | tag
  deriving DecidableEq, Repr

inductive CutState where
  | armed
  | active
  deriving DecidableEq, Repr

/-- A cut's identifier (R51). -/
structure CutId where
  origin : Station
  count : Byte
  deriving DecidableEq, Repr

/-- A cut (R52). In a recap image the state is not read (R172). -/
structure Cut where
  id : CutId
  kind : CutKind
  start : Slot
  stop : Slot
  source : CutSource
  state : CutState
  deriving DecidableEq, Repr

/-- A pace entry (R55): count -1 is a trim, 1 to 8 a fill. -/
structure Pace where
  psn : Slot
  count : Int
  deriving DecidableEq, Repr

/-- A span context that is not IDLE (R56): OPEN without an out point, CLOSED with one. -/
structure Span where
  origin : Station
  inPoint : Slot
  outPoint : Option Slot
  last : Slot
  deriving DecidableEq, Repr

/-- The edit plan (R50). A span context with no entry in `spans` is IDLE; the entries stand in ascending origin. -/
structure Plan where
  cuts : List Cut
  paces : List Pace
  spans : List Span
  deriving DecidableEq, Repr

def Plan.empty : Plan := ⟨[], [], []⟩

/-! ## Cue frames (12.1) -/

/-- The frame kinds (R75). -/
inductive Kind where
  | dump
  | spanIn
  | spanOut
  | spanCommit
  | spanAbandon
  | tagMask
  | rescind
  | hold
  | resume
  | pace
  | recapHead
  | recapCut
  | recapPace
  | recapSpan
  | recapEnd
  | join
  | beacon
  deriving DecidableEq, Repr

/-- A frame to be sent; its key is its kind's class with this station's number (R88). -/
structure TxFrame where
  kind : Kind
  body : List Byte
  deriving DecidableEq, Repr

/-- A frame that stood: sender, kind, body, and the own mark (R82, R97). -/
structure RxFrame where
  sender : Station
  kind : Kind
  body : List Byte
  own : Bool
  deriving DecidableEq, Repr

/-! ## Cue link controller (R85) -/

inductive BusPhase where
  | idle
  | arbitrating
  | transmitting
  | receiving
  deriving DecidableEq, Repr

/-- Which entry or holder the current transmit frame lies in (R78). -/
inductive TxRef where
  | general (order : Nat)
  | beacon
  | flow
  deriving DecidableEq, Repr

/-- The bits of a veto slot that this station drives dominant (R79 to R81). -/
structure SlotDrive where
  veto : Bool
  echo : Bool
  deriving DecidableEq, Repr

structure Link where
  connected : Bool
  phase : BusPhase
  idleCount : Nat
  /-- No frame is held or taken until the idle count reaches 11 (R72, R77). -/
  awaitIdle : Bool
  lostPlace : Bool
  current : Option TxRef
  /-- An attempt is in flight: the controller is sending the current frame (R78). -/
  attempt : Bool
  vetoCount : Nat
  quiet : Bool
  clash : Bool
  gap : Nat
  /-- What this station drives in the veto slot of the frame that passes; nothing once the line has fallen idle (log
  entry 49). -/
  drive : SlotDrive
  deriving DecidableEq, Repr

/-! ## Cue traffic unit (R106) -/

/-- The block that added a frame (R88). -/
inductive Owner where
  | originator
  | regulator
  | monitor
  deriving DecidableEq, Repr

/-- A general entry in use (R88). -/
structure TxEntry where
  order : Nat
  /-- Absent while a stream holds the entry without a frame to offer (R96). -/
  frame : Option TxFrame
  owner : Owner
  vetoes : Nat
  cancelAsked : Bool
  /-- Cancelled or withdrawn between attempts: removed at the next bus idle (R93). -/
  drop : Bool
  /-- Withdrawn as stale while in an attempt: REFUSED pulses if the attempt does not end in SENT (R94). -/
  stale : Bool
  stamp : Option Slot
  stream : Bool
  deriving DecidableEq, Repr

/-- The frame in the beacon holder or the flow holder (R88). -/
structure Holder where
  frame : TxFrame
  vetoes : Nat
  cancelAsked : Bool
  drop : Bool
  deriving DecidableEq, Repr

inductive FlowState where
  | clear
  | asserted
  deriving DecidableEq, Repr

/-- A member of the held-by set (R99). -/
structure HeldBy where
  station : Station
  remaining : Nat
  deriving DecidableEq, Repr

structure Traffic where
  general : List TxEntry
  nextOrder : Nat
  beacon : Option Holder
  beaconNext : Option TxFrame
  flow : Option Holder
  flowNext : Option TxFrame
  received : List RxFrame
  flowState : FlowState
  heldBy : List HeldBy
  deriving DecidableEq, Repr

/-! ## Mark originator (R108) -/

structure Originator where
  count : Byte
  stack : List CutId
  deriving DecidableEq, Repr

/-! ## Egress (R128) -/

/-- The schedule point (R8, R128). -/
structure SchedPoint where
  hsn : Slot
  psn : Slot
  rep : Nat
  owed : Nat
  deriving DecidableEq, Repr

/-- An output history entry; it is pending while it has no digest (R138). -/
structure HistEntry where
  hsn : Slot
  psn : Slot
  rep : Nat
  digest : Option Digest
  deriving DecidableEq, Repr

/-- What the egress keeps for one configured lane (R128, R134). -/
inductive EgressLane where
  | picture (hold : List Byte)
  | sound (refLength : Nat)
  | data
  deriving DecidableEq, Repr

/-- The substitute kind of an output header (12.2). -/
inductive SubstKind where
  | stored
  | silence
  | tone
  | held
  | black
  | empty
  deriving DecidableEq, Repr

/-- The seven flags of an output header (R136). -/
structure OutFlags where
  rep : Bool
  masked : Bool
  substitute : Bool
  damaged : Bool
  notHeld : Bool
  jump : Bool
  point : Bool
  deriving DecidableEq, Repr

/-- An output burst in progress: its header's fields and its bytes (R129). -/
structure OutBurst where
  lane : Nat
  hsn : Slot
  psn : Slot
  rep : Nat
  subst : SubstKind
  flags : OutFlags
  bytes : List Byte
  deriving DecidableEq, Repr

structure Egress where
  point : Option SchedPoint
  history : List HistEntry
  jump : Bool
  lanes : List EgressLane
  out : List OutBurst
  deriving DecidableEq, Repr

/-! ## Rebuild regulator (R150) -/

inductive ProposalPlace where
  | queued
  | sent
  deriving DecidableEq, Repr

/-- The outstanding proposal; `entry` is the order of the general entry it was added in. -/
structure Proposal where
  psn : Slot
  count : Int
  stamp : Slot
  place : ProposalPlace
  entry : Nat
  deriving DecidableEq, Repr

structure Regulator where
  window : Option Nat
  used : Nat
  lastPace : Option Slot
  outstanding : Option Proposal
  deriving DecidableEq, Repr

/-! ## Alignment monitor (R159) -/

/-- The state a RESYNC station returns to (R159). -/
inductive Origin where
  | filling
  | aligned
  deriving DecidableEq, Repr

/-- The station state (R159); RESYNC carries its resync origin. -/
inductive Mode where
  | configuring
  | configFault
  | listening
  | joining
  | filling
  | aligned
  | resync (origin : Origin)
  | referenceLost
  deriving DecidableEq, Repr

structure Era where
  founding : Slot
  tEra : Nat
  deriving DecidableEq, Repr

/-- The state a peer's beacon gives (R162). -/
inductive PeerState where
  | filling
  | aligned
  | resync
  deriving DecidableEq, Repr

/-- A filled entry of the peer table (R162). -/
structure Peer where
  station : Station
  received : Slot
  period : Nat
  state : PeerState
  founding : Slot
  pressure : Bool
  deriving DecidableEq, Repr

/-- The frozen snapshot of a recap (R170); a span's `last` gives its age at `x0`. -/
structure Snapshot where
  x0 : Slot
  plan : Plan
  psn : Slot
  rep : Nat
  horizon : Slot
  digest : Digest
  era : Era
  deriving DecidableEq, Repr

/-- R159: none, HEAD PENDING, or IN PROGRESS with the snapshot and the number of stream frames filled so far. -/
inductive OwnRecap where
  | none
  | headPending
  | inProgress (snapshot : Snapshot) (filled : Nat)
  deriving DecidableEq, Repr

structure ForeignRecap where
  sender : Station
  silence : Nat
  deriving DecidableEq, Repr

/-- A frame recorded after the head (R173). -/
structure Recorded where
  frame : RxFrame
  hsn : Slot
  place : Nat
  deriving DecidableEq, Repr

/-- The collecting record (R172). -/
structure Collecting where
  sender : Station
  x0 : Slot
  image : Plan
  laterFrames : List Recorded
  rescinds : List Recorded
  silence : Nat
  lost : Bool
  deriving DecidableEq, Repr

structure Monitor where
  mode : Mode
  era : Option Era
  peers : List Peer
  listen : Option Nat
  retry : Option Nat
  ownRecap : OwnRecap
  foreign : Option ForeignRecap
  collecting : Option Collecting
  deriving DecidableEq, Repr

/-! ## Contact and tally unit (R184, R188) -/

/-- One contact's debouncer (R184); `timing` while the stable timer runs (log entry 31). -/
structure Debouncer where
  raw : Level
  timing : Bool
  debounced : Option Level
  deriving DecidableEq, Repr

structure Contacts where
  lines : PerContact Debouncer
  refused : Bool
  deriving DecidableEq, Repr

/-! ## The station -/

/-- The whole station: its blocks, the page contents, and the queue of commands that wait. -/
structure State where
  station : Station
  settings : Option Settings
  ref : RefUnit
  mem : Memory
  store : PageStore
  index : List SlotRecord
  ingress : Ingress
  plan : Plan
  link : Link
  traffic : Traffic
  orig : Originator
  egress : Egress
  reg : Regulator
  mon : Monitor
  contacts : Contacts
  free : Nat
  pending : List Instr
  deriving DecidableEq, Repr

/-- No command of this block ends in a fault: the station's own faults are flags of its state (R31, R83, R84, R183). -/
inductive Fault where
  deriving DecidableEq, Repr

/-- Why a command is refused. -/
inductive Refusal where
  /-- Raised by an arm of `exec` that has no meaning yet; safe. No arm of this model raises it. -/
  | notModelled (mnemonic : String)
  deriving DecidableEq, Repr

/-! ## Reset values -/

/-- R1. -/
def RefUnit.reset : RefUnit := ⟨none, .lost, false⟩
/-- R22, R31. -/
def PageStore.reset : PageStore := ⟨[], false⟩
/-- R33. -/
def Ingress.reset : Ingress := ⟨none, [], 0, 0, []⟩
/-- R79: the veto slot left recessive. -/
def SlotDrive.none : SlotDrive := ⟨false, false⟩
/-- R85. -/
def Link.reset : Link := ⟨false, .receiving, 0, true, false, none, false, 0, false, false, 0, .none⟩
/-- R106. -/
def Traffic.reset : Traffic := ⟨[], 0, none, none, none, none, [], .clear, []⟩
/-- R108. -/
def Originator.reset : Originator := ⟨0, []⟩
/-- R128. -/
def Egress.reset : Egress := ⟨none, [], false, [], []⟩
/-- R150. -/
def Regulator.reset : Regulator := ⟨none, 0, none, none⟩
/-- R159. -/
def Monitor.reset : Monitor := ⟨.configuring, none, [], none, none, .none, none, none⟩
/-- R184: the debounced level is absent and the stable timer starts. -/
def Debouncer.reset (raw : Level) : Debouncer := ⟨raw, true, none⟩
/-- R184, R188. -/
def Contacts.reset (raw : PerContact Level) : Contacts :=
  ⟨⟨.reset raw.dump, .reset raw.markIn, .reset raw.markOut, .reset raw.commitDrop, .reset raw.commitMask,
    .reset raw.abandon, .reset raw.rescind⟩, false⟩

/-- Every contact open: the raw levels of `State.reset` (DESIGN CHOICE, log entry 2). -/
def allOpened : PerContact Level := ⟨.opened, .opened, .opened, .opened, .opened, .opened, .opened⟩

/-- The station right after reset. The station number (log entry 1), the raw contact levels (log entry 2) and the page
contents (log entry 3) are the model's choices; every other value is the spec's. -/
def State.reset : State where
  station := 0
  settings := none
  ref := .reset
  mem := []
  store := .reset
  index := []
  ingress := .reset
  plan := .empty
  link := .reset
  traffic := .reset
  orig := .reset
  egress := .reset
  reg := .reset
  mon := .reset
  contacts := .reset allOpened
  free := 0
  pending := []

end Sys2Proof.Machine
end

