-- ==== Sys2Proof/Machine/Ops.lean ====
section
/-! DEFINITION. The named operations over the state: its updates, the page memory, the free lists, and the free values.
-/

namespace Sys2Proof.Machine

/-! ## Updates of one block -/

def State.withSettings (s : State) (v : Option Settings) : State := { s with settings := v }
def State.withRef (s : State) (v : RefUnit) : State := { s with ref := v }
def State.withMem (s : State) (v : Memory) : State := { s with mem := v }
def State.withStore (s : State) (v : PageStore) : State := { s with store := v }
def State.withIndex (s : State) (v : List SlotRecord) : State := { s with index := v }
def State.withIngress (s : State) (v : Ingress) : State := { s with ingress := v }
def State.withPlan (s : State) (v : Plan) : State := { s with plan := v }
def State.withLink (s : State) (v : Link) : State := { s with link := v }
def State.withTraffic (s : State) (v : Traffic) : State := { s with traffic := v }
def State.withOrig (s : State) (v : Originator) : State := { s with orig := v }
def State.withEgress (s : State) (v : Egress) : State := { s with egress := v }
def State.withReg (s : State) (v : Regulator) : State := { s with reg := v }
def State.withMon (s : State) (v : Monitor) : State := { s with mon := v }
def State.withContacts (s : State) (v : Contacts) : State := { s with contacts := v }
def State.withFree (s : State) (v : Nat) : State := { s with free := v }
def State.withPending (s : State) (v : List Instr) : State := { s with pending := v }

/-- R188: a trigger lights REFUSED and restarts its timer. -/
def State.pulseRefused (s : State) : State := s.withContacts { s.contacts with refused := true }

/-- The current HSN where a rule asks for it; a free value where none is present (R1, log entry 9). -/
def State.drawHsn (s : State) : Slot × State :=
  match s.ref.hsn with
  | some x => (x, s)
  | none => (Config.absentHsn s.free, s.withFree (s.free + 1))

/-! ## The page memory (R19, R20) -/

/-- What an address that is not listed reads as (log entry 3). -/
def unlistedByte : Byte := 0

/-- The byte at an address of the page pool. -/
def Memory.read (m : Memory) (a : Nat) : Byte :=
  match m with
  | [] => unlistedByte
  | (x, v) :: rest => if x = a then v else Memory.read rest a

/-- Writing one byte keeps the canonical form: the byte an unlisted address reads as is not listed. -/
def Memory.write (m : Memory) (a : Nat) (b : Byte) : Memory :=
  match m with
  | [] => if b = unlistedByte then [] else [(a, b)]
  | (x, v) :: rest =>
    if a < x then (if b = unlistedByte then (x, v) :: rest else (a, b) :: (x, v) :: rest)
    else if a = x then (if b = unlistedByte then rest else (a, b) :: rest)
    else (x, v) :: Memory.write rest a b

/-- Every address from `lo` on, rising, with no listed byte equal to the unlisted one. -/
def Memory.wfFrom (lo : Nat) : Memory → Bool
  | [] => true
  | (x, v) :: rest => decide (lo ≤ x) && v != unlistedByte && Memory.wfFrom (x + 1) rest

/-- The canonical form: addresses strictly rising, no entry equal to what an unlisted address reads as. -/
def Memory.wf (m : Memory) : Bool := Memory.wfFrom 0 m

/-- R19: the address of byte `offset` of a page. -/
def pageAddress (p : PageNo) (offset : Nat) : Nat := Config.pageSize * p.toNat + offset

/-- R19, R37: the address of byte `i` of a burst whose pages are listed in essence order. -/
def burstAddress (pages : List PageNo) (i : Nat) : Nat :=
  pageAddress (pages.getD (i / Config.pageSize) 0) (i % Config.pageSize)

/-- R135: `n` bytes of a burst from byte `i` on, read from its pages in order. -/
def readBurst (m : Memory) (pages : List PageNo) (i : Nat) : Nat → List Byte
  | 0 => []
  | n + 1 => m.read (burstAddress pages i) :: readBurst m pages (i + 1) n

/-! ## Lane plans (R21) -/

/-- R21: the quarters of each lane of a plan code, in lane order. -/
def planQuarters : Nat → List Nat
  | 1 => [4]
  | 2 => [3, 1]
  | 3 => [2, 2]
  | 4 => [2, 1, 1]
  | 5 => [1, 1, 1, 1]
  | _ => []

/-- R21: a lane's quota in pages. -/
def laneQuota (code lane : Nat) : Nat := (planQuarters code).getD lane 0 * Config.quarterPages

/-- R21: the first page of a lane; each lane's quarters are consecutive. -/
def laneFirst (code lane : Nat) : Nat := ((planQuarters code).take lane).sum * Config.quarterPages

/-- R23: every page of a lane in ascending order. -/
def lanePages (code lane : Nat) : List PageNo :=
  (List.range' (laneFirst code lane) (laneQuota code lane)).map (BitVec.ofNat 16)

/-! ## Free lists (R23 to R25, R32) -/

/-- R23, R28: a lane as the lane plan's coming into force fills it. -/
def LaneStore.full (code lane : Nat) : LaneStore := ⟨lanePages code lane, laneQuota code lane, false⟩

/-- R23, R32: every lane full. -/
def fullLanes (code : Nat) : List LaneStore :=
  (List.range (planQuarters code).length).map (LaneStore.full code)

/-- R28: one sixteenth of the quota. -/
def lowWatermark (code lane : Nat) : Nat := laneQuota code lane / 16

/-- R28: one eighth of the quota. -/
def highWatermark (code lane : Nat) : Nat := laneQuota code lane / 8

/-- R24, R28: take the page at the head of a lane's free list; `none` where the list is empty (R30). -/
def LaneStore.allocate (l : LaneStore) (low : Nat) : Option (PageNo × LaneStore) :=
  match l.free with
  | [] => none
  | p :: rest => some (p, ⟨rest, l.count - 1, l.pressure || decide (l.count - 1 < low)⟩)

/-- R25, R28: give a page back at the tail of a lane's free list. -/
def LaneStore.release (l : LaneStore) (high : Nat) (p : PageNo) : LaneStore :=
  ⟨l.free ++ [p], l.count + 1, l.pressure && !decide (high < l.count + 1)⟩

/-- R25: release pages of one lane in list order; no effect without the lane (R22). -/
def PageStore.releaseLane (st : PageStore) (code lane : Nat) (pages : List PageNo) : PageStore :=
  match st.lanes[lane]? with
  | none => st
  | some l => { st with lanes := st.lanes.set lane (pages.foldl (fun l p => l.release (highWatermark code lane) p) l) }

/-- R15, R46: release the pages of the lanes from number `lane` on, ascending lane number. -/
def PageStore.releaseLanes (st : PageStore) (code lane : Nat) : List (List PageNo) → PageStore
  | [] => st
  | pages :: rest => (st.releaseLane code lane pages).releaseLanes code (lane + 1) rest

/-- R15: release the pages of one record. -/
def PageStore.releaseRecord (st : PageStore) (code : Nat) (r : SlotRecord) : PageStore :=
  st.releaseLanes code 0 (r.lanes.map LaneRecord.pages)

/-- R32: the store discard with a lane plan in force. STORE-EXHAUSTED is kept. -/
def PageStore.discard (st : PageStore) (code : Nat) : PageStore := { st with lanes := fullLanes code }

/-- R29: the station pressure flag. -/
def PageStore.stationPressure (st : PageStore) : Bool := st.lanes.any LaneStore.pressure

/-! ## The slot index (R13) -/

/-- R13: the lookup of a PSN; `none` is "not held". -/
def lookupRecord (ix : List SlotRecord) (p : Slot) : Option SlotRecord := ix.find? (·.psn == p)

/-- The record's PSN is held (R13). -/
def holds (ix : List SlotRecord) (p : Slot) : Bool := (lookupRecord ix p).isSome

/-! ## One value per contact -/

/-- The value of one contact. -/
def contactOf {α : Type} (v : PerContact α) : Contact → α
  | .dump => v.dump
  | .markIn => v.markIn
  | .markOut => v.markOut
  | .commitDrop => v.commitDrop
  | .commitMask => v.commitMask
  | .abandon => v.abandon
  | .rescind => v.rescind

/-- One contact's value changed. -/
def setContact {α : Type} (v : PerContact α) (c : Contact) (x : α) : PerContact α :=
  match c with
  | .dump => { v with dump := x }
  | .markIn => { v with markIn := x }
  | .markOut => { v with markOut := x }
  | .commitDrop => { v with commitDrop := x }
  | .commitMask => { v with commitMask := x }
  | .abandon => { v with abandon := x }
  | .rescind => { v with rescind := x }

/-! ## The modes of the station state -/

/-- The states with a plan and a schedule (R15, R117): FILLING, ALIGNED, RESYNC. -/
def Mode.hasSchedule : Mode → Bool
  | .filling => true
  | .aligned => true
  | .resync _ => true
  | _ => false

def Mode.isResync : Mode → Bool
  | .resync _ => true
  | _ => false

/-- JOINING or RESYNC, the states that ask for a recap (R172). -/
def Mode.wantsRecap : Mode → Bool
  | .joining => true
  | .resync _ => true
  | _ => false

/-- The state a RESYNC station returns to. -/
def Origin.mode : Origin → Mode
  | .filling => .filling
  | .aligned => .aligned

end Sys2Proof.Machine
end

