-- ==== Sys2Proof/Machine/Operands.lean ====
section
/-! DEFINITION. The formats at the station's boundary (chapter 12, R74 to R76): checks, burst headers, the configuration
record, cue frame bits and cue frame bodies. -/

namespace Sys2Proof.Machine

/-! ## Bytes and bits, most significant first (chapter 12) -/

/-- The bits of a byte, most significant first. -/
def byteBits (b : Byte) : List Bool :=
  [b.getLsbD 7, b.getLsbD 6, b.getLsbD 5, b.getLsbD 4, b.getLsbD 3, b.getLsbD 2, b.getLsbD 1, b.getLsbD 0]

/-- The bits of bytes in order. -/
def bytesBits (bs : List Byte) : List Bool := bs.flatMap byteBits

/-- The number that bits spell, most significant first. -/
def bitsNat (bits : List Bool) : Nat := bits.foldl (fun acc b => 2 * acc + b.toNat) 0

/-- The low `w` bits of a number, most significant first. -/
def natBits : Nat → Nat → List Bool
  | 0, _ => []
  | w + 1, n => n.testBit w :: natBits w n

/-- The bytes that whole groups of eight bits spell. -/
def bitsBytes : List Bool → List Byte
  | a :: b :: c :: d :: e :: f :: g :: h :: rest =>
    BitVec.ofNat 8 (bitsNat [a, b, c, d, e, f, g, h]) :: bitsBytes rest
  | _ => []

/-- Two bytes, most significant first. -/
def be16 (a b : Byte) : Nat := a.toNat * 256 + b.toNat

/-- Four bytes, most significant first. -/
def be32 (a b c d : Byte) : Slot := a ++ b ++ c ++ d

/-- A number as two bytes, most significant first. -/
def bytes16 (n : Nat) : List Byte := [BitVec.ofNat 8 (n / 256), BitVec.ofNat 8 n]

/-- A slot number or digest as four bytes, most significant first. -/
def bytes32 (w : BitVec 32) : List Byte :=
  [w.extractLsb' 24 8, w.extractLsb' 16 8, w.extractLsb' 8 8, w.extractLsb' 0 8]

/-! ## Cyclic checks (R66, R76) -/

/-- One bit of a cyclic check: bits are taken most significant first. -/
def crcStep {w : Nat} (poly reg : BitVec w) (bit : Bool) : BitVec w :=
  if reg.msb != bit then (reg <<< 1) ^^^ poly else reg <<< 1

/-- R76: generator polynomial 1021, every bit set at the start, not inverted at the end. -/
def crc16 (bits : List Bool) : BitVec 16 := bits.foldl (crcStep 0x1021#16) 0xFFFF#16

/-- R66: generator polynomial 04C11DB7, every bit set at the start, not inverted at the end. -/
def crc32 (bits : List Bool) : BitVec 32 := bits.foldl (crcStep 0x04C11DB7#32) 0xFFFFFFFF#32

/-! ## Input burst headers (12.2, R191) -/

/-- The fields of an input burst header whose check is good. -/
structure BurstHeader where
  lane : Nat
  declared : Nat
  tag : BitVec 16
  deriving DecidableEq, Repr

/-- 12.2: nine bytes, the last two the check over the first seven; `none` where the check fails. -/
def parseHeader : List Byte → Option BurstHeader
  | [l, d3, d2, d1, d0, t1, t0, c1, c0] =>
    if (crc16 (bytesBits [l, d3, d2, d1, d0, t1, t0])).toNat = be16 c1 c0 then
      some ⟨l.toNat, (be32 d3 d2 d1 d0).toNat, BitVec.ofNat 16 (be16 t1 t0)⟩
    else none
  | _ => none

/-! ## The configuration record (12.3, R180, R181, R192) -/

/-- 12.3: the kind codes. -/
def laneKindOf : Nat → Option LaneKind
  | 1 => some .picture
  | 2 => some .sound
  | 3 => some .data
  | _ => none

/-- Byte `i` of the record as a number. -/
def recordByte (bytes : List Byte) (i : Nat) : Nat := (bytes.getD i 0).toNat

/-- Bytes `i` and `i + 1` of the record as a number. -/
def recordWord (bytes : List Byte) (i : Nat) : Nat := recordByte bytes i * 256 + recordByte bytes (i + 1)

/-- R180: 64 bytes, the check over bytes 0 to 61 in bytes 62 and 63. -/
def recordCheckGood (bytes : List Byte) : Bool :=
  bytes.length == 64 && (crc16 (bytesBits (bytes.take 62))).toNat == recordWord bytes 62

def inRange (lo hi n : Nat) : Bool := decide (lo ≤ n) && decide (n ≤ hi)

/-- R181, R192: a lane mask names 1 to 4 lanes and has bits 4 to 7 clear. -/
def laneMaskGood (n : Nat) : Bool := inRange 1 15 n

/-- R181, R192: every field lies in its range and encoding. -/
def recordFieldsGood (b : List Byte) : Bool :=
  inRange 1 5 (recordByte b 0) &&
  recordByte b 1 == (planQuarters (recordByte b 0)).length &&
  (List.range (recordByte b 1)).all (fun i => inRange 1 3 (recordByte b (2 + i))) &&
  inRange 100 3000 (recordWord b 6) &&
  inRange 25 1000 (recordWord b 8) &&
  inRange 1 16 (recordByte b 11) &&
  inRange 1 4 (recordByte b 12) &&
  inRange 1 2 (recordByte b 13) &&
  inRange 25 1000 (recordWord b 14) &&
  inRange 1 255 (recordByte b 16) &&
  inRange 1 255 (recordByte b 17) &&
  inRange 1 50 (recordByte b 18) &&
  inRange 0 200 (recordByte b 19) &&
  inRange 10 250 (recordByte b 20) &&
  inRange 1 2 (recordByte b 21) &&
  inRange 0 31 (recordByte b 22) &&
  inRange 0 3 (recordByte b 23) &&
  laneMaskGood (recordByte b 28) &&
  laneMaskGood (recordByte b 29) &&
  inRange 1 2 (recordByte b 30) &&
  inRange 1 2 (recordByte b 31) &&
  recordByte b 32 == 1 &&
  inRange 0 50 (recordByte b 33)

/-- 12.3: the fields of a record whose fields are good. -/
def recordFields (b : List Byte) : Settings where
  planCode := recordByte b 0
  lanes := (List.range (recordByte b 1)).filterMap (fun i => laneKindOf (recordByte b (2 + i)))
  tCfg := recordWord b 6
  dumpLength := recordWord b 8
  pauseThreshold := recordByte b 10
  pauseRun := recordByte b 11
  normalRepeat := recordByte b 12
  mode := if recordByte b 13 = 1 then .steady else .proportional
  windowLength := recordWord b 14
  budget := recordByte b 16
  gain := recordByte b 17
  spacing := recordByte b 18
  trimTolerance := recordByte b 19
  beaconPeriod := recordByte b 20
  bitRate := recordByte b 21
  courtesyGap := recordByte b 22
  breakEnabled := (recordByte b 23).testBit 0
  maskEnabled := (recordByte b 23).testBit 1
  breakTag := BitVec.ofNat 16 (recordWord b 24)
  maskTag := BitVec.ofNat 16 (recordWord b 26)
  maskTagLanes := BitVec.ofNat 4 (recordByte b 28)
  commitMaskLanes := BitVec.ofNat 4 (recordByte b 29)
  soundSubstitute := if recordByte b 30 = 1 then .silence else .tone
  pictureSubstitute := if recordByte b 31 = 1 then .held else .black
  readyTolerance := recordByte b 33

/-- R181: the record's settings; `none` where the record fails. -/
def parseRecord (b : List Byte) : Option Settings :=
  if recordCheckGood b && recordFieldsGood b then some (recordFields b) else none

/-! ## Cue frame kinds (R75, 12.1) -/

/-- 12.1: the kind codes. -/
def Kind.code : Kind → Nat
  | .dump => 1
  | .spanIn => 2
  | .spanOut => 3
  | .spanCommit => 4
  | .spanAbandon => 5
  | .tagMask => 6
  | .rescind => 7
  | .hold => 8
  | .resume => 9
  | .pace => 10
  | .recapHead => 11
  | .recapCut => 12
  | .recapPace => 13
  | .recapSpan => 14
  | .recapEnd => 15
  | .join => 16
  | .beacon => 17

/-- 12.1: code 0 and codes 18 to 31 name no kind. -/
def kindOfCode : Nat → Option Kind
  | 1 => some .dump
  | 2 => some .spanIn
  | 3 => some .spanOut
  | 4 => some .spanCommit
  | 5 => some .spanAbandon
  | 6 => some .tagMask
  | 7 => some .rescind
  | 8 => some .hold
  | 9 => some .resume
  | 10 => some .pace
  | 11 => some .recapHead
  | 12 => some .recapCut
  | 13 => some .recapPace
  | 14 => some .recapSpan
  | 15 => some .recapEnd
  | 16 => some .join
  | 17 => some .beacon
  | _ => none

/-- R75: the class of each kind. -/
def Kind.cls : Kind → Nat
  | .dump => 0
  | .spanIn => 0
  | .spanOut => 0
  | .spanCommit => 0
  | .spanAbandon => 0
  | .tagMask => 0
  | .rescind => 0
  | .hold => 1
  | .resume => 1
  | .pace => 2
  | .recapHead => 3
  | .recapCut => 3
  | .recapPace => 3
  | .recapSpan => 3
  | .recapEnd => 3
  | .join => 4
  | .beacon => 5

/-- R75: the body length each kind must carry. -/
def Kind.bodyLength : Kind → Nat
  | .dump => 13
  | .spanIn => 8
  | .spanOut => 8
  | .spanCommit => 7
  | .spanAbandon => 4
  | .tagMask => 10
  | .rescind => 6
  | .hold => 0
  | .resume => 0
  | .pace => 9
  | .recapHead => 8
  | .recapCut => 13
  | .recapPace => 5
  | .recapSpan => 12
  | .recapEnd => 22
  | .join => 5
  | .beacon => 21

/-- R75: the kinds the receive queue takes. -/
def Kind.queued : Kind → Bool
  | .hold => false
  | .resume => false
  | .beacon => false
  | _ => true

def Kind.isMark (k : Kind) : Bool := k.cls == 0
def Kind.isRecap (k : Kind) : Bool := k.cls == 3

/-- The span kinds (R101). -/
def Kind.isSpan : Kind → Bool
  | .spanIn => true
  | .spanOut => true
  | .spanCommit => true
  | .spanAbandon => true
  | _ => false

/-! ## Cue frame bits (R74, R76) -/

/-- R74: insert one sync bit, the opposite of the bit just before it, after every fourth data bit; `phase` counts the
data bits since the latest sync bit. -/
def insertSync (phase : Nat) : List Bool → List Bool
  | [] => []
  | b :: rest =>
    if phase = 3 then b :: (!b) :: insertSync 0 rest else b :: insertSync (phase + 1) rest

/-- R74, R75: key, kind and body length, most significant bit first. -/
def headBits (sender : Station) (k : Kind) (length : Nat) : List Bool :=
  natBits 3 k.cls ++ natBits 5 sender.val ++ natBits 5 k.code ++ natBits 5 length

/-- R74, R76: the data bits of a frame from the start bit through the check. -/
def dataBits (sender : Station) (k : Kind) (body : List Byte) : List Bool :=
  let checked := headBits sender k body.length ++ bytesBits body
  false :: checked ++ natBits 16 (crc16 checked).toNat

/-- The bits of a frame on the line from the start bit through the check, sync bits included. -/
def frameBits (sender : Station) (k : Kind) (body : List Byte) : List Bool :=
  insertSync 0 (dataBits sender k body)

/-- Take `n` data bits, checking each sync bit as it arrives: the data bits, the bits that follow, and the phase;
`none` on a sync failure. A line that ends early is a stopped sender, read as a sync failure (R74). -/
def takeData : Nat → Nat → List Bool → Option (List Bool × List Bool × Nat)
  | 0, phase, bits => some ([], bits, phase)
  | _ + 1, _, [] => none
  | n + 1, phase, b :: rest =>
    if phase = 3 then
      match rest with
      | [] => none
      | y :: rest' =>
        if y = b then none
        else (takeData n 0 rest').map (fun (d, r, p) => (b :: d, r, p))
    else (takeData n (phase + 1) rest).map (fun (d, r, p) => (b :: d, r, p))

/-- What a receiver makes of a frame (R80). -/
inductive ReadResult where
  /-- No start bit: no frame. -/
  | noFrame
  /-- A line failure in which the place in the frame was lost: a sync failure before the last bit of the length field,
  or a length of 25 to 31. The sender is known where the key passed its sync bits. -/
  | lostPlace (sender : Option Station)
  /-- A line failure with the veto slot placed; the key has passed its sync bits. -/
  | failure (sender : Station)
  /-- No line failure. -/
  | clean (sender : Station) (kind : Kind) (body : List Byte)
  deriving DecidableEq, Repr

/-- R75: the sender that a key of eight bits names, whatever bits follow it. -/
def senderOf (head : List Bool) : Station := Fin.ofNat 32 (bitsNat ((head.drop 3).take 5))

/-- R80, R83: the sender, where the start bit and the key have passed the sync bits within them. -/
def keySender (bits : List Bool) : Option Station := (takeData 9 0 bits).map (fun d => senderOf (d.1.drop 1))

/-- R74 to R76: judge a head of 18 bits and the bits after it once the length is known to be 0 to 24. -/
def judgeFrame (head tail : List Bool) (length : Nat) : ReadResult :=
  let body := tail.take (8 * length)
  if (crc16 (head ++ body)).toNat ≠ bitsNat (tail.drop (8 * length)) then .failure (senderOf head)
  else
    match kindOfCode (bitsNat ((head.drop 8).take 5)) with
    | none => .failure (senderOf head)
    | some k =>
      if bitsNat (head.take 3) ≠ k.cls ∨ length ≠ k.bodyLength then .failure (senderOf head)
      else .clean (senderOf head) k (bitsBytes body)

/-- R80: what a receiver makes of the bits it read from a start bit on. -/
def readFrame : List Bool → ReadResult
  | false :: rest =>
    match takeData 19 0 (false :: rest) with
    | none => .lostPlace (keySender (false :: rest))
    | some (taken, after, phase) =>
      let head := taken.drop 1
      let length := bitsNat (head.drop 13)
      if 24 < length then .lostPlace (some (senderOf head))
      else
        match takeData (8 * length + 16) phase after with
        | none => .failure (senderOf head)
        | some (tail, _, _) => judgeFrame head tail length
  | _ => .noFrame

/-! ## Cue frame bodies (12.1, R190) -/

/-- A count byte of PACE and RECAP-PACE: FF is -1, 1 to 8 are fills. -/
def paceCountOf (b : Byte) : Option Int :=
  if b = 0xFF#8 then some (-1) else if 1 ≤ b.toNat ∧ b.toNat ≤ 8 then some b.toNat else none

/-- The count byte of a pace count. -/
def paceCountByte (c : Int) : Byte := BitVec.ofInt 8 c

/-- A lane mask byte: bits 4 to 7 are zero. -/
def lanesOf (b : Byte) : Option (BitVec 4) := if b.toNat < 16 then some (BitVec.ofNat 4 b.toNat) else none

/-- The cut kind and lane mask bytes: the mask of a DROP is permitted and not kept (R58, R190). A mask with any of bits 4 to 7
set is not permitted, a DROP's too (R118, R190; DESIGN CHOICE, log entry 55). -/
def cutKindOf (k m : Byte) : Option CutKind :=
  match lanesOf m with
  | none => none
  | some lanes => if k = 0 then some .drop else if k = 1 then some (.mask lanes) else none

def stationOf (b : Byte) : Option Station := if h : b.toNat < 32 then some ⟨b.toNat, h⟩ else none

def stationByte (k : Station) : Byte := BitVec.ofNat 8 k.val

def cutKindBytes : CutKind → List Byte
  | .drop => [0, 0]
  | .mask lanes => [1, lanes.setWidth 8]

def sourceOf (b : Byte) : Option CutSource :=
  if b = 0 then some .dump else if b = 1 then some .span else if b = 2 then some .tag else none

def sourceByte : CutSource → Byte
  | .dump => 0
  | .span => 1
  | .tag => 2

/-- The content of a MARK frame (R111). -/
inductive Mark where
  | dump (stamp : Slot) (count : Byte) (start stop : Slot)
  | spanIn (stamp inPoint : Slot)
  | spanOut (stamp outPoint : Slot)
  | spanCommit (stamp : Slot) (count : Byte) (kind : CutKind)
  | spanAbandon (stamp : Slot)
  | tagMask (stamp : Slot) (count : Byte) (slot : Slot) (lanes : BitVec 4)
  | rescind (stamp : Slot) (id : CutId)
  deriving DecidableEq, Repr

def Mark.kind : Mark → Kind
  | .dump .. => .dump
  | .spanIn .. => .spanIn
  | .spanOut .. => .spanOut
  | .spanCommit .. => .spanCommit
  | .spanAbandon .. => .spanAbandon
  | .tagMask .. => .tagMask
  | .rescind .. => .rescind

def Mark.stamp : Mark → Slot
  | .dump s .. => s
  | .spanIn s _ => s
  | .spanOut s _ => s
  | .spanCommit s .. => s
  | .spanAbandon s => s
  | .tagMask s .. => s
  | .rescind s _ => s

/-- 12.1: the body of a MARK frame. -/
def Mark.body : Mark → List Byte
  | .dump s n a b => bytes32 s ++ [n] ++ bytes32 a ++ bytes32 b
  | .spanIn s p => bytes32 s ++ bytes32 p
  | .spanOut s q => bytes32 s ++ bytes32 q
  | .spanCommit s n k => bytes32 s ++ [n] ++ cutKindBytes k
  | .spanAbandon s => bytes32 s
  | .tagMask s n p m => bytes32 s ++ [n] ++ bytes32 p ++ [m.setWidth 8]
  | .rescind s id => bytes32 s ++ [stationByte id.origin, id.count]

/-- 12.1: the content of a MARK frame; `none` where the body holds an encoding the tables do not give (R190). -/
def parseMark : Kind → List Byte → Option Mark
  | .dump, [s3, s2, s1, s0, n, a3, a2, a1, a0, b3, b2, b1, b0] =>
    some (.dump (be32 s3 s2 s1 s0) n (be32 a3 a2 a1 a0) (be32 b3 b2 b1 b0))
  | .spanIn, [s3, s2, s1, s0, p3, p2, p1, p0] => some (.spanIn (be32 s3 s2 s1 s0) (be32 p3 p2 p1 p0))
  | .spanOut, [s3, s2, s1, s0, q3, q2, q1, q0] => some (.spanOut (be32 s3 s2 s1 s0) (be32 q3 q2 q1 q0))
  | .spanCommit, [s3, s2, s1, s0, n, k, m] =>
    (cutKindOf k m).map (fun kind => .spanCommit (be32 s3 s2 s1 s0) n kind)
  | .spanAbandon, [s3, s2, s1, s0] => some (.spanAbandon (be32 s3 s2 s1 s0))
  | .tagMask, [s3, s2, s1, s0, n, p3, p2, p1, p0, m] =>
    (lanesOf m).map (fun lanes => .tagMask (be32 s3 s2 s1 s0) n (be32 p3 p2 p1 p0) lanes)
  | .rescind, [s3, s2, s1, s0, o, n] =>
    (stationOf o).map (fun origin => .rescind (be32 s3 s2 s1 s0) ⟨origin, n⟩)
  | _, _ => none

/-- 12.1: PACE (R145). -/
def paceBody (stamp psn : Slot) (count : Int) : List Byte := bytes32 stamp ++ bytes32 psn ++ [paceCountByte count]

/-- A PACE's stamp, slot PSN and count; the count is `none` where the byte is not permitted (R190). -/
def parsePace : List Byte → Option (Slot × Slot × Option Int)
  | [s3, s2, s1, s0, p3, p2, p1, p0, c] =>
    some (be32 s3 s2 s1 s0, be32 p3 p2 p1 p0, paceCountOf c)
  | _ => none

/-- 12.1: RECAP-HEAD. -/
def headBody (stamp founding : Slot) : List Byte := bytes32 stamp ++ bytes32 founding

def parseHead : List Byte → Option (Slot × Slot)
  | [s3, s2, s1, s0, e3, e2, e1, e0] => some (be32 s3 s2 s1 s0, be32 e3 e2 e1 e0)
  | _ => none

/-- 12.1: RECAP-CUT; also a cut's part of the digest (R66). -/
def cutBytes (c : Cut) : List Byte :=
  [stationByte c.id.origin, c.id.count] ++ cutKindBytes c.kind ++ bytes32 c.start ++ bytes32 c.stop ++
    [sourceByte c.source]

/-- An image cut; `none` where an encoding is not permitted (R190). Its state is not read before adoption (R172). -/
def parseCut : List Byte → Option Cut
  | [o, n, k, m, a3, a2, a1, a0, b3, b2, b1, b0, src] =>
    match stationOf o, cutKindOf k m, sourceOf src with
    | some origin, some kind, some source =>
      some ⟨⟨origin, n⟩, kind, be32 a3 a2 a1 a0, be32 b3 b2 b1 b0, source, .armed⟩
    | _, _, _ => none
  | _ => none

/-- 12.1: RECAP-PACE; also an entry's part of the digest (R66). -/
def paceBytes (p : Pace) : List Byte := bytes32 p.psn ++ [paceCountByte p.count]

def parseRecapPace : List Byte → Option Pace
  | [p3, p2, p1, p0, c] => (paceCountOf c).map (fun count => ⟨be32 p3 p2 p1 p0, count⟩)
  | _ => none

/-- 12.1: the first ten bytes of RECAP-SPAN; a context's part of the digest (R66). An OPEN context sends out point 0. -/
def spanBytes (c : Span) : List Byte :=
  [stationByte c.origin, if c.outPoint.isSome then 2 else 1] ++ bytes32 c.inPoint ++ bytes32 (c.outPoint.getD 0)

/-- 12.1: RECAP-SPAN, with the age at `x0` (R170). -/
def recapSpanBody (x0 : Slot) (c : Span) : List Byte := spanBytes c ++ bytes16 (x0 - c.last).toNat

/-- An image context, its last-frame HSN `x0` less the carried age (R176). -/
def parseRecapSpan (x0 : Slot) : List Byte → Option Span
  | [o, st, i3, i2, i1, i0, q3, q2, q1, q0, a1, a0] =>
    match stationOf o with
    | none => none
    | some origin =>
      if 499 < be16 a1 a0 then none
      else if st = 1 then some ⟨origin, be32 i3 i2 i1 i0, none, x0 - slots (be16 a1 a0)⟩
      else if st = 2 then some ⟨origin, be32 i3 i2 i1 i0, some (be32 q3 q2 q1 q0), x0 - slots (be16 a1 a0)⟩
      else none
  | _ => none

/-- The content of a RECAP-END (R171). -/
structure RecapEnd where
  x0 : Slot
  delay : Nat
  rep : Nat
  horizonOffset : Nat
  cuts : Nat
  paces : Nat
  spans : Nat
  digest : Digest
  founding : Slot
  tEra : Nat
  deriving DecidableEq, Repr

/-- 12.1: RECAP-END. Two-byte differences are sent modulo 65,536 (log entry 20). -/
def recapEndBody (e : RecapEnd) : List Byte :=
  bytes32 e.x0 ++ bytes16 e.delay ++ [BitVec.ofNat 8 e.rep] ++ bytes16 e.horizonOffset ++
    [BitVec.ofNat 8 e.cuts, BitVec.ofNat 8 e.paces, BitVec.ofNat 8 e.spans] ++ bytes32 e.digest ++
    bytes32 e.founding ++ bytes16 e.tEra

/-- R190: a T_era outside 100 to 3,000 or a repeat index above 8 is not permitted. -/
def parseRecapEnd : List Byte → Option RecapEnd
  | [x3, x2, x1, x0, d1, d0, r, h1, h0, nc, np, ns, g3, g2, g1, g0, f3, f2, f1, f0, t1, t0] =>
    if inRange 100 3000 (be16 t1 t0) && decide (r.toNat ≤ 8) then
      some ⟨be32 x3 x2 x1 x0, be16 d1 d0, r.toNat, be16 h1 h0, nc.toNat, np.toNat, ns.toNat,
        be32 g3 g2 g1 g0, be32 f3 f2 f1 f0, be16 t1 t0⟩
    else none
  | _ => none

/-- 12.1: JOIN; the joiner state is 1 JOINING, 2 RESYNC. -/
def joinBody (stamp : Slot) (resync : Bool) : List Byte := bytes32 stamp ++ [if resync then 2 else 1]

/-- A JOIN's stamp; `none` where the joiner state is not permitted (R190). -/
def parseJoin : List Byte → Option Slot
  | [s3, s2, s1, s0, j] => if j = 1 ∨ j = 2 then some (be32 s3 s2 s1 s0) else none
  | _ => none

/-- The content of a BEACON (R163). -/
structure Beacon where
  stamp : Slot
  psn : Slot
  rep : Nat
  state : PeerState
  pressure : Bool
  exhausted : Bool
  quiet : Bool
  clash : Bool
  digest : Digest
  founding : Slot
  delay : Nat
  period : Nat
  deriving DecidableEq, Repr

/-- 12.1: the state bits of a status byte. -/
def peerStateBits : PeerState → Nat
  | .filling => 64
  | .aligned => 128
  | .resync => 192

/-- 12.1: the status byte. -/
def statusByte (b : Beacon) : Byte :=
  BitVec.ofNat 8 (peerStateBits b.state + 32 * b.pressure.toNat + 4 * b.exhausted.toNat + 2 * b.quiet.toNat +
    b.clash.toNat)

/-- 12.1: BEACON. -/
def beaconBody (b : Beacon) : List Byte :=
  bytes32 b.stamp ++ bytes32 b.psn ++ [BitVec.ofNat 8 b.rep, statusByte b] ++ bytes32 b.digest ++
    bytes32 b.founding ++ bytes16 b.delay ++ [BitVec.ofNat 8 b.period]

/-- 12.1: the state a status byte gives; `none` for state bits 00. -/
def peerStateOf (status : Byte) : Option PeerState :=
  match status.getLsbD 7, status.getLsbD 6 with
  | false, true => some .filling
  | true, false => some .aligned
  | true, true => some .resync
  | false, false => none

/-- R190: `none` for a beacon with state bits 00, bit 4 or 3 set, a period outside 10 to 250, or a repeat above 8. -/
def parseBeacon : List Byte → Option Beacon
  | [s3, s2, s1, s0, p3, p2, p1, p0, r, st, g3, g2, g1, g0, f3, f2, f1, f0, d1, d0, per] =>
    match peerStateOf st with
    | none => none
    | some state =>
      if !st.getLsbD 4 && !st.getLsbD 3 && inRange 10 250 per.toNat && decide (r.toNat ≤ 8) then
        some ⟨be32 s3 s2 s1 s0, be32 p3 p2 p1 p0, r.toNat, state, st.getLsbD 5, st.getLsbD 2, st.getLsbD 1,
          st.getLsbD 0, be32 g3 g2 g1 g0, be32 f3 f2 f1 f0, be16 d1 d0, per.toNat⟩
      else none
  | _ => none

end Sys2Proof.Machine
end

