-- ==== Sys2Proof/Machine/Plan.lean ====
section
/-! DEFINITION. The edit plan (chapter 4), the span contexts (7.6) and pace adoption (9.1) as rules over plain plans:
coverage, the schedule, the horizon, retirement, and the judgement of one MARK or PACE frame. The intake and the replay
of a recap (R176) both judge by these. -/

namespace Sys2Proof.Machine

/-! ## Coverage (R54) -/

/-- R51: identifiers are ordered by origin, then by origin count, without wrapping. -/
def CutId.before (a b : CutId) : Bool :=
  decide (a.origin.val < b.origin.val) || (a.origin == b.origin && decide (a.count.toNat < b.count.toNat))

/-- The cut's range includes `p` (3.1: both ends are in the range). -/
def Cut.covers (c : Cut) (p : Slot) : Bool := within c.start c.stop p

def CutKind.isDrop : CutKind → Bool
  | .drop => true
  | .mask _ => false

/-- The lanes a MASK names; none for a DROP (R52). -/
def CutKind.lanes : CutKind → BitVec 4
  | .drop => 0
  | .mask lanes => lanes

/-- R54. -/
inductive Coverage where
  | clear
  | masked (lanes : BitVec 4)
  | dropped
  deriving DecidableEq, Repr

/-- A DROP cut covers `p`. -/
def droppedBy (cuts : List Cut) (p : Slot) : Bool := cuts.any (fun c => c.kind.isDrop && c.covers p)

/-- R54: the union of the lane masks of every MASK that covers `p`. -/
def maskedLanes (cuts : List Cut) (p : Slot) : BitVec 4 :=
  cuts.foldl (fun m c => if c.covers p then m ||| c.kind.lanes else m) 0

/-- R54: the coverage of one PSN. -/
def coverage (cuts : List Cut) (p : Slot) : Coverage :=
  if droppedBy cuts p then .dropped
  else if cuts.any (·.covers p) then .masked (maskedLanes cuts p)
  else .clear

/-! ## The schedule (R9, R130, R131) -/

/-- The count of the pace entry at `p` (R55). -/
def paceAt (paces : List Pace) (p : Slot) : Option Int := (paces.find? (·.psn == p)).map Pace.count

/-- R55: a trim stands at `p`. -/
def trimmedAt (paces : List Pace) (p : Slot) : Bool := paceAt paces p == some (-1)

/-- R131: the repeats a first play of `p` owes. -/
def fillAt (paces : List Pace) (p : Slot) : Nat := ((paceAt paces p).getD 0).toNat

/-- R131: an advance passes over `p`. -/
def Plan.passesOver (pl : Plan) (p : Slot) : Bool := droppedBy pl.cuts p || trimmedAt pl.paces p

/-- The first PSN from `p` on that an advance does not pass over, searched over `fuel` PSNs. -/
def Plan.searchFrom (pl : Plan) (p : Slot) : Nat → Slot
  | 0 => p
  | n + 1 => if pl.passesOver p then pl.searchFrom (p + 1) n else p

/-- R131: the earliest PSN later than `p` that is neither DROPPED nor trimmed. Every PSN later than `p` is searched
(3.1: at most 2^31 - 1 later; log entry 39). -/
def Plan.advance (pl : Plan) (p : Slot) : Slot := pl.searchFrom (p + 1) 2147483646

/-- R130: one output step: a repeat while repeats are owed, else an advance. -/
def Plan.outStep (pl : Plan) (pt : SchedPoint) : SchedPoint :=
  if 0 < pt.owed then ⟨pt.hsn + 1, pt.psn, pt.rep + 1, pt.owed - 1⟩
  else ⟨pt.hsn + 1, pl.advance pt.psn, 0, fillAt pl.paces (pl.advance pt.psn)⟩

/-- `n` output steps. -/
def Plan.outSteps (pl : Plan) (pt : SchedPoint) : Nat → SchedPoint
  | 0 => pt
  | n + 1 => pl.outSteps (pl.outStep pt) n

/-- R9: the play scheduled for `y`, at or after the point's own HSN. -/
def Plan.playAt (pl : Plan) (pt : SchedPoint) (y : Slot) : SchedPoint := pl.outSteps pt (y - pt.hsn).toNat

/-- R10: the commit horizon of an intake at `x`. After a play with a repeat index above 0 the next first play is the
advance from its PSN. -/
def Plan.horizon (pl : Plan) (pt : SchedPoint) (x : Slot) : Slot :=
  let w := pl.playAt pt (x + slots Config.commitLead)
  if w.rep = 0 then w.psn else pl.advance w.psn

/-- R10: the end bound. -/
def endBound (x : Slot) : Slot := x - 3

/-- R8: the delay at `x`, played or scheduled. -/
def Plan.delayAt (pl : Plan) (pt : SchedPoint) (x : Slot) : Int := dist x (pl.playAt pt x).psn

/-! ## Projected delay (R57), retirement (R62, R63) and span expiry (R126) -/

/-- R57: the counts of the fills less the number of trims. -/
def paceSum (paces : List Pace) : Int := (paces.map Pace.count).sum

/-- R62: ACTIVE while the range includes the PSN played, else ARMED. -/
def Cut.stateAt (c : Cut) (q : Slot) : Cut := { c with state := if c.covers q then .active else .armed }

/-- R63, R62: the retirement due when `q` is played or scheduled, and the states of the cuts that remain. -/
def Plan.retire (pl : Plan) (q : Slot) : Plan :=
  { pl with
    cuts := (pl.cuts.filter (fun c => !earlier c.stop q)).map (·.stateAt q)
    paces := pl.paces.filter (fun e => !earlier e.psn q) }

/-- R56: the age of a context at `x`. -/
def Span.age (c : Span) (x : Slot) : Nat := (x - c.last).toNat

/-- R126: the context's age has reached the span timeout. -/
def Span.due (c : Span) (x : Slot) : Bool := decide (Config.spanTimeout ≤ c.age x)

/-- R126: the expiry due at `x`. -/
def Plan.expireSpans (pl : Plan) (x : Slot) : Plan := { pl with spans := pl.spans.filter (fun c => !c.due x) }

/-! ## The span contexts (R56) -/

/-- The context of an origin; `none` is IDLE. -/
def Plan.spanOf (pl : Plan) (k : Station) : Option Span := pl.spans.find? (·.origin == k)

/-- Return a context to IDLE. -/
def Plan.idleSpan (pl : Plan) (k : Station) : Plan := { pl with spans := pl.spans.filter (fun c => c.origin != k) }

/-- Put a context in its place in ascending origin. -/
def insertSpan (c : Span) : List Span → List Span
  | [] => [c]
  | d :: rest => if c.origin.val < d.origin.val then c :: d :: rest else d :: insertSpan c rest

/-- A context takes a new content. -/
def Plan.setSpan (pl : Plan) (c : Span) : Plan := { pl.idleSpan c.origin with spans := insertSpan c (pl.idleSpan c.origin).spans }

/-- The context is CLOSED. -/
def Plan.spanClosed (pl : Plan) (k : Station) : Bool :=
  match pl.spanOf k with
  | some c => c.outPoint.isSome
  | none => false

/-! ## The digest (R66) -/

/-- R66: the byte sequence of the plan. -/
def Plan.bytes (pl : Plan) : List Byte :=
  [BitVec.ofNat 8 pl.cuts.length] ++ pl.cuts.flatMap cutBytes ++
    [BitVec.ofNat 8 pl.paces.length] ++ pl.paces.flatMap paceBytes ++
    [BitVec.ofNat 8 pl.spans.length] ++ pl.spans.flatMap spanBytes

/-- R66: the plan digest. -/
def Plan.digest (pl : Plan) : Digest := crc32 (bytesBits pl.bytes)

/-! ## Verdicts (R68) -/

/-- R68: the refusal reasons. -/
inductive Reason where
  | late
  | full
  | duplicate
  | malformed
  | cap
  | stray
  | foreign
  | unknown
  | rescindLate
  deriving DecidableEq, Repr

/-- What the frames of one intake are judged against (R10, R57): its HSN, horizon, end bound and delay. -/
structure Bounds where
  x : Slot
  h : Slot
  e : Slot
  delay : Int
  deriving DecidableEq, Repr

/-- R10: the bounds of an intake at `x`. -/
def Plan.boundsAt (pl : Plan) (pt : SchedPoint) (x : Slot) : Bounds :=
  ⟨x, pl.horizon pt x, endBound x, pl.delayAt pt x⟩

/-- R57: the projected delay as the earlier frames of the batch have left it. -/
def Bounds.projected (b : Bounds) (paces : List Pace) : Int := b.delay + paceSum paces

/-- The judgement of one frame: the plan after it, the reason if it was refused, the cut inserted, the pace adopted. -/
structure Verdict where
  plan : Plan
  reason : Option Reason
  inserted : Option Cut
  adopted : Option Pace
  deriving DecidableEq, Repr

/-- R68: a refusal leaves the plan as it stood. -/
def Plan.refuse (pl : Plan) (r : Reason) : Verdict := ⟨pl, some r, none, none⟩

/-- An accepted frame that inserts no cut and adopts no pace. -/
def Plan.accept (pl : Plan) : Verdict := ⟨pl, none, none, none⟩

/-! ## Cut insertion (R58 to R60) -/

/-- R58: an insertion request. -/
structure CutRequest where
  id : CutId
  kind : CutKind
  start : Slot
  stop : Slot
  source : CutSource
  deriving DecidableEq, Repr

/-- R58: a reversed range, a range wider than 3,800, or a MASK without lanes. -/
def CutRequest.malformed (r : CutRequest) : Bool :=
  later r.start r.stop || decide (Config.widestCut < (r.stop - r.start).toNat) || r.kind == .mask 0

/-- R59: the start clipped by the horizon. -/
def CutRequest.clippedStart (r : CutRequest) (b : Bounds) : Slot := if earlier r.start b.h then b.h else r.start

/-- R59: the end of a DROP clipped by the end bound; a MASK end is not clipped. -/
def CutRequest.clippedStop (r : CutRequest) (b : Bounds) : Slot :=
  if r.kind.isDrop && later r.stop b.e then b.e else r.stop

/-- R60: the cut an accepted request becomes. -/
def CutRequest.cut (r : CutRequest) (b : Bounds) : Cut :=
  ⟨r.id, r.kind, r.clippedStart b, r.clippedStop b, r.source, .armed⟩

/-- R53: the place of a cut: start PSN, earliest first, then identifier. -/
def insertCut (c : Cut) : List Cut → List Cut
  | [] => [c]
  | d :: rest =>
    if earlier c.start d.start || (c.start == d.start && c.id.before d.id) then c :: d :: rest
    else d :: insertCut c rest

/-- The cut with an identifier. -/
def findCut (cuts : List Cut) (id : CutId) : Option Cut := cuts.find? (·.id == id)

/-- R60: the pace entries outside a DROP's clipped range; a MASK removes none. -/
def CutRequest.pacesKept (r : CutRequest) (b : Bounds) (paces : List Pace) : List Pace :=
  if r.kind.isDrop then paces.filter (fun e => !within (r.clippedStart b) (r.clippedStop b) e.psn) else paces

/-- R59 5: the removal of the covered pace entries would raise the projected delay above the cap. -/
def CutRequest.overCap (r : CutRequest) (b : Bounds) (paces : List Pace) : Bool :=
  r.kind.isDrop && decide (b.projected paces < b.projected (r.pacesKept b paces)) &&
    decide (Config.delayCap < b.projected (r.pacesKept b paces))

/-- R59, R60: the judgement of an insertion request. -/
def Plan.judgeInsert (pl : Plan) (b : Bounds) (r : CutRequest) : Verdict :=
  if r.malformed then pl.refuse .malformed
  else if later (r.clippedStart b) (r.clippedStop b) then pl.refuse .late
  else if (findCut pl.cuts r.id).isSome then pl.refuse .duplicate
  else if Config.cutCapacity ≤ pl.cuts.length then pl.refuse .full
  else if r.overCap b pl.paces then pl.refuse .cap
  else
    ⟨{ pl with cuts := insertCut (r.cut b) pl.cuts, paces := r.pacesKept b pl.paces }, none, some (r.cut b), none⟩

/-! ## Rescind (R64, R65) -/

/-- The number of the `n` PSNs from `p` on that no DROP of `cuts` covers. -/
def countUndropped (cuts : List Cut) (p : Slot) : Nat → Nat
  | 0 => 0
  | n + 1 => (if droppedBy cuts p then 0 else 1) + countUndropped cuts (p + 1) n

/-- R64 4: the number of PSNs in the cut's range that no other held DROP covers. -/
def restoredCount (cuts : List Cut) (c : Cut) : Nat :=
  countUndropped (cuts.filter (fun d => d.id != c.id)) c.start ((c.stop - c.start).toNat + 1)

/-- R64, R65: the judgement of a RESCIND of `id` by `sender`. Where the projected delay stands above the cap already, a
restored count of 0 is refused too (R64 4 as written, against R57's last sentence; DESIGN CHOICE, log entry 43). -/
def Plan.judgeRescind (pl : Plan) (b : Bounds) (sender : Station) (id : CutId) : Verdict :=
  match findCut pl.cuts id with
  | none => pl.refuse .unknown
  | some c =>
    if sender ≠ c.id.origin then pl.refuse .foreign
    else if earlier c.start b.h then pl.refuse .rescindLate
    else if c.kind.isDrop ∧ Config.delayCap < b.projected pl.paces + restoredCount pl.cuts c then pl.refuse .cap
    else ({ pl with cuts := pl.cuts.filter (fun d => d.id != id) } : Plan).accept

/-! ## Span frames (R121 to R125) -/

/-- R123: the out point is at or after the in point and at most 1,500 later. -/
def validOut (p q : Slot) : Bool := atOrAfter q p && decide ((q - p).toNat ≤ Config.longestSpan)

/-- R122. -/
def Plan.judgeSpanIn (pl : Plan) (b : Bounds) (sender : Station) (p : Slot) : Verdict :=
  (pl.setSpan ⟨sender, p, none, b.x⟩).accept

/-- R123. -/
def Plan.judgeSpanOut (pl : Plan) (b : Bounds) (sender : Station) (q : Slot) : Verdict :=
  match pl.spanOf sender with
  | none => pl.refuse .stray
  | some c =>
    if validOut c.inPoint q then (pl.setSpan ⟨sender, c.inPoint, some q, b.x⟩).accept
    else if c.outPoint.isSome then pl.refuse .malformed
    else (pl.idleSpan sender).refuse .malformed

/-- R124: in CLOSED an insertion is judged and the context returns to IDLE whatever the verdict. -/
def Plan.judgeSpanCommit (pl : Plan) (b : Bounds) (sender : Station) (count : Byte) (kind : CutKind) : Verdict :=
  match pl.spanOf sender with
  | some ⟨_, p, some q, _⟩ => (pl.idleSpan sender).judgeInsert b ⟨⟨sender, count⟩, kind, p, q, .span⟩
  | _ => pl.refuse .stray

/-- R125. -/
def Plan.judgeSpanAbandon (pl : Plan) (sender : Station) : Verdict := (pl.idleSpan sender).accept

/-! ## MARK frames (R118 to R120) -/

/-- R118 1 and 3: the stamp is later than the intake HSN, or a point or tag slot is later than the stamp. -/
def Mark.untimely (m : Mark) (x : Slot) : Bool :=
  later m.stamp x ||
    (match m with
    | .spanIn s p => later p s
    | .spanOut s q => later q s
    | .tagMask s _ p _ => later p s
    | _ => false)

/-- A MARK frame that passes R118, according to its kind. -/
def Plan.judgeContent (pl : Plan) (b : Bounds) (sender : Station) : Mark → Verdict
  | .dump _ n start stop => pl.judgeInsert b ⟨⟨sender, n⟩, .drop, start, stop, .dump⟩
  | .tagMask _ n p lanes => pl.judgeInsert b ⟨⟨sender, n⟩, .mask lanes, p, p, .tag⟩
  | .rescind _ id => pl.judgeRescind b sender id
  | .spanIn _ p => pl.judgeSpanIn b sender p
  | .spanOut _ q => pl.judgeSpanOut b sender q
  | .spanCommit _ n kind => pl.judgeSpanCommit b sender n kind
  | .spanAbandon _ => pl.judgeSpanAbandon sender

/-- R118, R124: a frame refused by the frame checks; a SPAN-COMMIT that meets a CLOSED context returns it to IDLE. -/
def Plan.refuseFrame (pl : Plan) (sender : Station) (kind : Kind) : Verdict :=
  if kind = .spanCommit ∧ pl.spanClosed sender then (pl.idleSpan sender).refuse .malformed else pl.refuse .malformed

/-- R118: mark handling of one MARK frame. -/
def Plan.judgeMark (pl : Plan) (b : Bounds) (sender : Station) (kind : Kind) (body : List Byte) : Verdict :=
  match parseMark kind body with
  | none => pl.refuseFrame sender kind
  | some m => if m.untimely b.x then pl.refuseFrame sender kind else pl.judgeContent b sender m

/-! ## PACE frames (R146, R147) -/

/-- R55: a pace entry takes its PSN place. -/
def insertPace (e : Pace) : List Pace → List Pace
  | [] => [e]
  | d :: rest => if earlier e.psn d.psn then e :: d :: rest else d :: insertPace e rest

/-- R146, R147: the judgement of a PACE with a permitted count. -/
def Plan.judgeEntry (pl : Plan) (b : Bounds) (stamp : Slot) (e : Pace) : Verdict :=
  if later stamp b.x ∨ ¬ earlier e.psn stamp ∨ droppedBy pl.cuts e.psn then pl.refuse .malformed
  else if earlier e.psn b.h ∨ (e.count = -1 ∧ later e.psn b.e) then pl.refuse .late
  else if (paceAt pl.paces e.psn).isSome then pl.refuse .duplicate
  else if Config.paceCapacity ≤ pl.paces.length then pl.refuse .full
  else if 0 < e.count ∧ Config.delayCap < b.projected pl.paces + e.count then pl.refuse .cap
  else ⟨{ pl with paces := insertPace e pl.paces }, none, none, some e⟩

/-- R146 1, R190: a PACE frame; a count byte that is not permitted is MALFORMED. -/
def Plan.judgePace (pl : Plan) (b : Bounds) (body : List Byte) : Verdict :=
  match parsePace body with
  | some (stamp, psn, some count) => pl.judgeEntry b stamp ⟨psn, count⟩
  | _ => pl.refuse .malformed

/-- The judgement of one MARK or PACE frame. -/
def Plan.judgeFrame (pl : Plan) (b : Bounds) (f : RxFrame) : Verdict :=
  if f.kind = .pace then pl.judgePace b f.body else pl.judgeMark b f.sender f.kind f.body

end Sys2Proof.Machine
end

