-- ==== Sys2Proof/Machine/Flags.lean ====
section
/-! DEFINITION. The flags the station computes: the level of a sample, the quiet and pause-eligible flags, the arrival
state, the output header with its flags, the veto count and QUIET, and the tallies. -/

namespace Sys2Proof.Machine

/-! ## The level detector (R40, R41) -/

/-- R40, 12.2: the value of a 24-bit two's complement sample, most significant byte first. -/
def sampleValue (a b c : Byte) : Int := (a ++ b ++ c).toInt

/-- R40: the magnitude divided by 32,768, rounded down; 256 is taken as 255. -/
def sampleLevel (a b c : Byte) : Nat := min 255 ((sampleValue a b c).natAbs / 32768)

/-- R41 2: the quiet flag of a record that is not VOID. -/
def quietSlot (soundPresent : Bool) (peak threshold : Nat) : Bool := soundPresent && decide (peak ≤ threshold)

/-- R41: the quiet run after a slot; it holds at 16. -/
def nextQuietRun (run : Nat) (quiet : Bool) : Nat := if quiet then min 16 (run + 1) else 0

/-- R41 4: the pause-eligible flag of a record that is not VOID; `run` counts this slot. -/
def pauseEligible (quiet brk : Bool) (run pauseRun : Nat) : Bool := (quiet && decide (pauseRun ≤ run)) || brk

/-! ## The arrival state (R43) -/

/-- R14's table, R43: VOID when every lane is ABSENT, WHOLE when every lane is PRESENT and none TRUNCATED. -/
def arrivalOf (lanes : List LaneRecord) : Arrival :=
  if lanes.all (fun l => !l.present) then .void
  else if lanes.all (fun l => l.present && !l.truncated) then .whole
  else .partly

/-! ## Output headers (R136, 12.2) -/

/-- 12.2: the substitute kind codes. -/
def SubstKind.code : SubstKind → Nat
  | .stored => 0
  | .silence => 1
  | .tone => 2
  | .held => 3
  | .black => 4
  | .empty => 5

/-- 12.2: the flags byte; bit 7 is zero. -/
def OutFlags.byte (f : OutFlags) : Byte :=
  BitVec.ofNat 8 (f.rep.toNat + 2 * f.masked.toNat + 4 * f.substitute.toNat + 8 * f.damaged.toNat +
    16 * f.notHeld.toNat + 32 * f.jump.toNat + 64 * f.point.toNat)

/-- 12.2: bytes 0 to 15 of an output burst header. -/
def OutBurst.headerFields (b : OutBurst) : List Byte :=
  [BitVec.ofNat 8 b.lane] ++ bytes32 (BitVec.ofNat 32 b.bytes.length) ++ bytes32 b.hsn ++ bytes32 b.psn ++
    [BitVec.ofNat 8 b.rep, BitVec.ofNat 8 b.subst.code, b.flags.byte]

/-- 12.2: the output burst header of 18 bytes, the check over bytes 0 to 15. -/
def OutBurst.header (b : OutBurst) : List Byte :=
  b.headerFields ++ bytes16 (crc16 (bytesBits b.headerFields)).toNat

/-! ## The veto count and QUIET (R83) -/

/-- R83: a frame taken with a line failure adds one; at 128 the station becomes QUIET. -/
def Link.countFailure (l : Link) : Link :=
  { l with
    vetoCount := min Config.vetoCountTop (l.vetoCount + 1)
    quiet := l.quiet || decide (Config.quietAt ≤ min Config.vetoCountTop (l.vetoCount + 1)) }

/-- R83: a frame taken without a line failure takes one away; QUIET ends at 0. -/
def Link.countClean (l : Link) : Link :=
  { l with vetoCount := l.vetoCount - 1, quiet := l.quiet && decide (l.vetoCount - 1 ≠ 0) }

/-! ## The tallies (R186 to R189; computed, log entry 30) -/

/-- R8, R138: the PSN that the output step at `x` played; `none` where the step at `x` has not been taken. -/
def playedAt (hist : List HistEntry) (x : Slot) : Option Slot := (hist.find? (·.hsn == x)).map HistEntry.psn

/-- R8: the delay at `x` of a station with the schedule point `pt`: from the PSN played at `x`, else from the PSN
scheduled for `x`. -/
def State.delayOf (s : State) (pt : SchedPoint) (x : Slot) : Int :=
  match playedAt s.egress.history x with
  | some q => dist x q
  | none => s.plan.delayAt pt x

/-- R8: the delay at the current HSN, where a schedule point is present. -/
def State.delay (s : State) : Option Int :=
  match s.egress.point, s.ref.hsn with
  | some pt, some x => some (s.delayOf pt x)
  | _, _ => none

/-- R186: READY is lit. -/
def readyLit (s : State) : Bool :=
  match s.settings, s.mon.era, s.delay with
  | some c, some era, some d => s.mon.mode == .aligned && decide ((era.tEra : Int) - c.readyTolerance ≤ d)
  | _, _, _ => false

/-- R186: DUMP-AVAILABLE is lit. -/
def dumpAvailableLit (s : State) : Bool :=
  match s.settings, s.delay with
  | some c, some d => s.mon.mode == .aligned && decide ((c.dumpLength : Int) + Config.dumpMargin ≤ d)
  | _, _ => false

/-- R187: ARMED is lit exactly while the cut table is not empty. -/
def armedLit (s : State) : Bool := !s.plan.cuts.isEmpty

/-- R188: REFUSED is lit. -/
def refusedLit (s : State) : Bool := s.contacts.refused

/-- R189: FAULT is lit. -/
def faultLit (s : State) : Bool :=
  s.mon.mode == .configuring || s.mon.mode == .configFault || s.ref.flag == .lost || s.link.clash ||
    s.store.exhausted || s.link.quiet

end Sys2Proof.Machine
end

