-- ==== Sys2Proof/Machine/Traffic.lean ====
section
/-! DEFINITION. The cue traffic unit (chapter 6): the transmit queue and its holders, cancellation and withdrawal, the
offer, the receive queue, the flow state and the held-by set. -/

namespace Sys2Proof.Machine

/-! ## Updates inside the unit -/

def State.withGeneral (s : State) (es : List TxEntry) : State := s.withTraffic { s.traffic with general := es }

/-- One general entry changed. -/
def State.changeEntry (s : State) (order : Nat) (f : TxEntry → TxEntry) : State :=
  s.withGeneral (s.traffic.general.map (fun e => if e.order = order then f e else e))

/-- A general entry becomes free. -/
def State.freeEntry (s : State) (order : Nat) : State :=
  s.withGeneral (s.traffic.general.filter (fun e => e.order != order))

/-- The general entry of an entry order. -/
def State.entry (s : State) (order : Nat) : Option TxEntry := s.traffic.general.find? (·.order == order)

def State.withCurrent (s : State) (r : Option TxRef) : State := s.withLink { s.link with current := r }

/-- The reference is the controller's current transmit frame (R78, R88). -/
def State.isCurrent (s : State) (r : TxRef) : Bool := s.link.current == some r

/-- The reference is CURRENT in an attempt (R93). -/
def State.inAttempt (s : State) (r : TxRef) : Bool := s.link.attempt && s.isCurrent r

/-- A frame that leaves the unit leaves the controller with it (R78). -/
def State.release (s : State) (r : TxRef) : State := if s.isCurrent r then s.withCurrent none else s

/-- The entry carries a frame of the class. -/
def TxEntry.hasClass (e : TxEntry) (cls : Nat) : Bool := e.frame.any (fun f => f.kind.cls == cls)

def TxEntry.isMark (e : TxEntry) : Bool := e.hasClass 0

def TxEntry.hasKind (e : TxEntry) (k : Kind) : Bool := e.frame.any (fun f => f.kind == k)

/-- Not cancelled and not withdrawn (R90). -/
def TxEntry.live (e : TxEntry) : Bool := !e.cancelAsked && !e.drop

def Holder.live (h : Holder) : Bool := !h.cancelAsked && !h.drop

/-! ## What an owner is told (R89 to R93, R156, R168, R171) -/

/-- The fates of a frame that the unit reports to its owner. -/
inductive Fate where
  | sent
  | sentAfterCancel
  | cancelled
  | abandoned
  deriving DecidableEq, Repr

/-- R156: the outstanding proposal after a report. -/
def Proposal.after (p : Proposal) : Fate → Option Proposal
  | .sent => some { p with place := .sent }
  | _ => none

/-- R156: the regulator is told of the entry that holds its outstanding proposal. -/
def State.tellRegulator (s : State) (order : Nat) (f : Fate) : State :=
  match s.reg.outstanding with
  | some p => if p.entry = order then s.withReg { s.reg with outstanding := p.after f } else s
  | none => s

/-- R168, R171: the own recap becomes none. -/
def State.endOwnRecap (s : State) : State := s.withMon { s.mon with ownRecap := .none }

/-- The owner of an entry is told of its fate. The mark originator keeps nothing by it, and the monitor's timers deal
with a JOIN. -/
def State.tell (s : State) (e : TxEntry) (f : Fate) : State :=
  match e.owner with
  | .originator => s
  | .regulator => s.tellRegulator e.order f
  | .monitor => if e.stream && f == .abandoned then s.endOwnRecap else s

/-! ## Addition (R89, R105, R106) -/

/-- R89: the addition of a general entry: its entry order, or `none` where it is refused. A MARK refused FULL or during
CLASH pulses REFUSED; before the controller is connected nothing pulses (R106). -/
def State.addEntry (s : State) (owner : Owner) (frame : TxFrame) (stamp : Option Slot) (stream : Bool) :
    State × Option Nat :=
  if !s.link.connected then (s, none)
  else if s.link.clash || decide (Config.generalEntries ≤ s.traffic.general.length) then
    (if frame.kind.isMark then s.pulseRefused else s, none)
  else
    (s.withTraffic
      { s.traffic with
        general := s.traffic.general ++ [⟨s.traffic.nextOrder, some frame, owner, 0, false, false, false, stamp, stream⟩]
        nextOrder := s.traffic.nextOrder + 1 },
      some s.traffic.nextOrder)

/-! ## Cancellation (R93) and withdrawal (R94) -/

/-- R93: a cancellation, by the frame's place. -/
def State.cancelEntry (s : State) (e : TxEntry) : State :=
  if s.inAttempt (.general e.order) then s.changeEntry e.order (fun e => { e with cancelAsked := true })
  else if s.isCurrent (.general e.order) then s.changeEntry e.order (fun e => { e with drop := true })
  else (s.freeEntry e.order).tell e .cancelled

/-- R93: cancel every entry that `p` picks. -/
def State.cancelWhere (s : State) (p : TxEntry → Bool) : State :=
  (s.traffic.general.filter p).foldl State.cancelEntry s

/-- R94: the withdrawal of a MARK, by the frame's place; a mark withdrawn before is not withdrawn again. -/
def State.withdrawEntry (s : State) (e : TxEntry) : State :=
  if !e.live then s
  else if s.inAttempt (.general e.order) then
    s.changeEntry e.order (fun e => { e with cancelAsked := true, stale := true })
  else if s.isCurrent (.general e.order) then
    (s.changeEntry e.order (fun e => { e with drop := true })).pulseRefused
  else ((s.freeEntry e.order).tell e .cancelled).pulseRefused

/-- R94: the mark is stale at the strobe of `x`. -/
def TxEntry.staleAt (e : TxEntry) (x : Slot) : Bool :=
  e.isMark && (e.stamp.any (fun st => atOrAfter x (st + slots Config.markStaleness)))

/-- R94: the withdrawal of stale marks at the strobe of `x`. -/
def State.withdrawStale (s : State) (x : Slot) : State :=
  (s.traffic.general.filter (·.staleAt x)).foldl State.withdrawEntry s

/-- R104: every MARK is withdrawn, whatever its stamp. -/
def State.withdrawMarks (s : State) : State := (s.traffic.general.filter TxEntry.isMark).foldl State.withdrawEntry s

/-! ## The recap stream (R96) -/

/-- R96: the stream is closed: an entry without a frame is freed, a frame is cancelled by its place (log entry 18). Where two
entries bear the stream mark, both are closed (DESIGN CHOICE, log entry 52). -/
def State.closeStream (s : State) : State :=
  (s.traffic.general.filter (·.stream)).foldl
    (fun s e => if e.frame.isNone then s.freeEntry e.order else s.cancelEntry e) s

/-- R96: the stream's entry takes its next frame as QUEUED with a count of 0. Where two live entries bear the stream mark, the
one of lowest entry order takes it (DESIGN CHOICE, log entry 52). -/
def State.fillStream (s : State) (f : TxFrame) : State :=
  match s.traffic.general.find? (fun e => e.stream && e.live && !s.inAttempt (.general e.order)) with
  | some e =>
    (s.changeEntry e.order (fun e => { e with frame := some f, vetoes := 0 })).release (.general e.order)
  | none => s

/-! ## The beacon holder (R95) and the flow holder (R98) -/

/-- R95: the placement of a beacon. Under CLASH the holder is not loaded (R105). -/
def State.placeBeacon (s : State) (f : TxFrame) : State :=
  if s.link.clash then s
  else if s.inAttempt .beacon then
    s.withTraffic
      { s.traffic with
        beacon := s.traffic.beacon.map (fun h => { h with cancelAsked := true }), beaconNext := some f }
  else (s.withTraffic { s.traffic with beacon := some ⟨f, 0, false, false⟩, beaconNext := none }).release .beacon

/-- R103: the beacon holder is emptied, under the conditions of R93. -/
def State.emptyBeacon (s : State) : State :=
  if s.inAttempt .beacon then
    s.withTraffic
      { s.traffic with
        beacon := s.traffic.beacon.map (fun h => { h with cancelAsked := true }), beaconNext := none }
  else if s.isCurrent .beacon then
    s.withTraffic { s.traffic with beacon := s.traffic.beacon.map (fun h => { h with drop := true }) }
  else s.withTraffic { s.traffic with beacon := none }

/-- R98: the frame that a flow state calls for. -/
def FlowState.frame : FlowState → TxFrame
  | .clear => ⟨.resume, []⟩
  | .asserted => ⟨.hold, []⟩

/-- R98: the flow holder is loaded with the frame of the flow state. Under CLASH it is not loaded (R105). -/
def State.loadFlow (s : State) : State :=
  if s.link.clash then s
  else if s.inAttempt .flow then
    s.withTraffic
      { s.traffic with
        flow := s.traffic.flow.map (fun h => { h with cancelAsked := true })
        flowNext := some s.traffic.flowState.frame }
  else
    (s.withTraffic { s.traffic with flow := some ⟨s.traffic.flowState.frame, 0, false, false⟩, flowNext := none }).release
      .flow

/-! ## The receive queue (R97, R98) -/

/-- R98: the flow state after a placement. -/
def State.afterPlacement (s : State) : State :=
  if s.traffic.flowState = .clear ∧ s.traffic.received.length = Config.holdAt then
    (s.withTraffic { s.traffic with flowState := .asserted }).loadFlow
  else s

/-- R98: the flow state after a removal. -/
def State.afterRemoval (s : State) : State :=
  if s.traffic.flowState = .asserted ∧ s.traffic.received.length ≤ Config.resumeAt then
    (s.withTraffic { s.traffic with flowState := .clear }).loadFlow
  else s

/-- The receive queue is full (R97). -/
def State.queueFull (s : State) : Bool := decide (Config.receiveCapacity ≤ s.traffic.received.length)

/-- R82: the placement of a frame that stood at the tail of the receive queue. -/
def State.placeFrame (s : State) (f : RxFrame) : State :=
  (s.withTraffic { s.traffic with received := s.traffic.received ++ [f] }).afterPlacement

/-- R100: the frame at the head leaves the queue. -/
def State.dropReceived (s : State) : State :=
  (s.withTraffic { s.traffic with received := s.traffic.received.tail }).afterRemoval

/-- R104: the receive queue is emptied. -/
def State.emptyReceived (s : State) : State := (s.withTraffic { s.traffic with received := [] }).afterRemoval

/-! ## The held-by set (R99) -/

/-- A station takes its place in the set, in ascending station number. -/
def insertHeld (h : HeldBy) : List HeldBy → List HeldBy
  | [] => [h]
  | d :: rest => if h.station.val < d.station.val then h :: d :: rest else d :: insertHeld h rest

/-- R99: a station is added or renewed with a remaining count of 100. -/
def holdFrom (set : List HeldBy) (k : Station) : List HeldBy :=
  insertHeld ⟨k, Config.holdTimeout⟩ (set.filter (fun h => h.station != k))

/-- R99: a station is removed. -/
def resumeFrom (set : List HeldBy) (k : Station) : List HeldBy := set.filter (fun h => h.station != k)

/-- R99: every remaining count falls by one. -/
def tickHeld (set : List HeldBy) : List HeldBy := set.map (fun h => { h with remaining := h.remaining - 1 })

/-- R99: the entries whose count has reached 0 are removed. -/
def dropLapsed (set : List HeldBy) : List HeldBy := set.filter (fun h => h.remaining != 0)

def State.withHeldBy (s : State) (set : List HeldBy) : State := s.withTraffic { s.traffic with heldBy := set }

/-- R99: the unit acts on a standing HOLD. -/
def State.takeHold (s : State) (k : Station) : State := s.withHeldBy (holdFrom s.traffic.heldBy k)

/-- R99: the unit acts on a standing RESUME. -/
def State.takeResume (s : State) (k : Station) : State := s.withHeldBy (resumeFrom s.traffic.heldBy k)

/-! ## The offer (R90) -/

/-- The first live entry of a class, in entry order. -/
def firstOfClass (es : List TxEntry) (cls : Nat) : Option TxRef :=
  (es.find? (fun e => e.live && e.hasClass cls)).map (fun e => .general e.order)

/-- The reference of a holder with a live frame. -/
def holderRef (h : Option Holder) (r : TxRef) : Option TxRef := if h.any Holder.live then some r else none

/-- R90: the frame that ranks first among the candidates; class 2 and above only while the held-by set is empty. -/
def Traffic.offer (t : Traffic) : Option TxRef :=
  firstOfClass t.general 0 <|> holderRef t.flow .flow <|>
    (if t.heldBy.isEmpty then
      firstOfClass t.general 2 <|> firstOfClass t.general 3 <|> firstOfClass t.general 4 <|> holderRef t.beacon .beacon
    else none)

/-! ## The bus idle: frames cancelled or withdrawn go back and are removed (R93) -/

/-- A holder loses a frame that was cancelled between attempts. -/
def purgeHolder (h : Option Holder) : Option Holder := if h.any Holder.live then h else none

/-- R93: at a bus idle every cancelled or withdrawn frame is removed and its owner is told CANCELLED. -/
def State.purgeCancelled (s : State) : State :=
  let s := (s.traffic.general.filter (fun e => !e.live)).foldl
    (fun s e => ((s.freeEntry e.order).tell e .cancelled).release (.general e.order)) s
  s.withTraffic { s.traffic with beacon := purgeHolder s.traffic.beacon, flow := purgeHolder s.traffic.flow }

/-! ## The end of an attempt (R78, R92 to R95, R98) -/

/-- R95, R98: when an attempt of a holder's frame ends, the frame that waits takes the holder. -/
def State.endHolderAttempt (s : State) (r : TxRef) : State :=
  match r with
  | .general _ => s
  | .beacon =>
    match s.traffic.beaconNext with
    | some f =>
      (s.withTraffic { s.traffic with beacon := some ⟨f, 0, false, false⟩, beaconNext := none }).release .beacon
    | none => s
  | .flow =>
    match s.traffic.flowNext with
    | some f => (s.withTraffic { s.traffic with flow := some ⟨f, 0, false, false⟩, flowNext := none }).release .flow
    | none => s

/-- R94: a mark withdrawn in an attempt pulses REFUSED at the end of an attempt in which it did not stand. -/
def State.endStale (s : State) (r : TxRef) : State :=
  match r with
  | .general o =>
    if (s.entry o).any (·.stale) then (s.changeEntry o (fun e => { e with stale := false })).pulseRefused else s
  | _ => s

/-- The attempt of the current frame ends without success. -/
def State.endAttempt (s : State) : State :=
  let s' := s.withLink { s.link with attempt := false }
  match s.link.current with
  | none => s'
  | some r => (s'.endStale r).endHolderAttempt r

/-- R92, R93: the unit's handling of an abandoned general entry. A stream frame's entry is freed, and where another entry bears
the stream mark that one stays (DESIGN CHOICE, log entry 52). -/
def State.abandonEntry (s : State) (e : TxEntry) : State :=
  if e.cancelAsked then (s.freeEntry e.order).tell e .cancelled
  else if e.isMark then s.changeEntry e.order (fun e => { e with vetoes := 0 })
  else (s.freeEntry e.order).tell e .abandoned

/-- R92: the current frame is abandoned after 16 consecutive vetoes; its attempt has ended. -/
def State.abandon (s : State) : State :=
  let s' := s.withCurrent none
  match s.link.current with
  | none => s
  | some (.general o) =>
    match s.entry o with
    | some e => s'.abandonEntry e
    | none => s'
  | some .beacon => s'.withTraffic { s'.traffic with beacon := none }
  | some .flow => s'.loadFlow

/-- The consecutive-veto count of a frame (R78). -/
def State.vetoesOf (s : State) : TxRef → Nat
  | .general o => ((s.entry o).map TxEntry.vetoes).getD 0
  | .beacon => (s.traffic.beacon.map Holder.vetoes).getD 0
  | .flow => (s.traffic.flow.map Holder.vetoes).getD 0

/-- R78: one veto more on a frame. -/
def State.addVeto (s : State) : TxRef → State
  | .general o => s.changeEntry o (fun e => { e with vetoes := e.vetoes + 1 })
  | .beacon =>
    s.withTraffic { s.traffic with beacon := s.traffic.beacon.map (fun h => { h with vetoes := h.vetoes + 1 }) }
  | .flow => s.withTraffic { s.traffic with flow := s.traffic.flow.map (fun h => { h with vetoes := h.vetoes + 1 }) }

/-- A holder's frame that a waiting frame has replaced at the attempt's end is gone already (R95, R98). -/
def State.abandonHeld (s : State) (r : TxRef) : State := if s.isCurrent r then s.abandon else s

/-- R78: the attempt of the current frame ends in a veto or a line fault: the count rises, and at 16 the frame is
abandoned. -/
def State.vetoAttempt (s : State) : State :=
  match s.link.current with
  | none => s
  | some r =>
    let s' := s.addVeto r
    if Config.vetoLimit ≤ s'.vetoesOf r then s'.endAttempt.abandonHeld r else s'.endAttempt

/-- R103: the unit at the loss of reference. -/
def State.loseTraffic (s : State) : State :=
  ((s.cancelWhere (fun e => e.hasClass 2 || e.hasClass 4)).closeStream).emptyBeacon

/-- R105: at CLASH every general entry and both holders are emptied; each removed MARK pulses REFUSED, and the owners are
told ABANDONED. A MARK that was itself in the attempt that met the clash pulses as the removed ones do (DESIGN CHOICE, log entry
58). -/
def State.purgeAll (s : State) : State :=
  let s := s.traffic.general.foldl
    (fun s e => if e.isMark then ((s.tell e .abandoned).pulseRefused) else s.tell e .abandoned) s
  (s.withTraffic { s.traffic with general := [], beacon := none, beaconNext := none, flow := none, flowNext := none }).withCurrent
    none

end Sys2Proof.Machine
end

