-- ==== Sys2Proof/Machine/Marks.lean ====
section
/-! DEFINITION. The mark originator (7.1 to 7.4): the building of MARK frames, the origin count and the rescind stack. -/

namespace Sys2Proof.Machine

/-! ## The origin count (R112) -/

/-- The cut table holds a cut of this identifier. -/
def holdsCut (cuts : List Cut) (id : CutId) : Bool := (findCut cuts id).isSome

/-- R112: the first value from `c` on whose identifier the cut table does not hold. With at most 32 cuts held it is found
within 33 values. -/
def freeCount (cuts : List Cut) (k : Station) (c : Byte) : Nat → Byte
  | 0 => c
  | n + 1 => if holdsCut cuts ⟨k, c⟩ then freeCount cuts k (c + 1) n else c

/-- R112: the origin count that is given out now. -/
def State.nextCount (s : State) : Byte := freeCount s.plan.cuts s.station s.orig.count Config.cutCapacity

/-- R112: the origin count after it has given out its next value. -/
def State.countGiven (s : State) : State := s.withOrig { s.orig with count := s.nextCount + 1 }

/-! ## Frames (R111) -/

/-- The frame of a MARK. -/
def Mark.frame (m : Mark) : TxFrame := ⟨m.kind, m.body⟩

/-- R109, R111: a MARK is added to the transmit queue; its entry takes its stamp. -/
def State.sendMark (s : State) (m : Mark) : State := (s.addEntry .originator m.frame (some m.stamp) false).1

/-! ## The rescind stack (R114, R115) -/

/-- R114: the push of an inserted own cut: no identifier twice, at most 8 entries, the newest on top. -/
def Originator.push (o : Originator) (id : CutId) : Originator :=
  { o with stack := (id :: o.stack.filter (· != id)).take Config.rescindStack }

/-- R115: the cut is held and ARMED. -/
def armedCut (cuts : List Cut) (id : CutId) : Bool :=
  match findCut cuts id with
  | some c => c.state == .armed
  | none => false

/-- R115: entries are popped until an ARMED cut is found: that identifier, and the stack left. -/
def popArmed (cuts : List Cut) : List CutId → Option CutId × List CutId
  | [] => (none, [])
  | id :: rest => if armedCut cuts id then (some id, rest) else popArmed cuts rest

/-- R115: a RESCIND press at HSN `x`. -/
def State.pressRescind (s : State) (x : Slot) : State :=
  let s' := s.withOrig { s.orig with stack := (popArmed s.plan.cuts s.orig.stack).2 }
  match (popArmed s.plan.cuts s.orig.stack).1 with
  | some id => s'.sendMark (.rescind x id)
  | none => s'.pulseRefused

/-! ## Presses (R109) and mask-tag requests (R110) -/

/-- R109, R111: a press handed to the originator at HSN `x`. -/
def State.pressAt (s : State) (c : Settings) (x : Slot) : Contact → State
  | .dump => s.countGiven.sendMark (.dump x s.nextCount (x - slots c.dumpLength) (x - 1))
  | .markIn => s.sendMark (.spanIn x x)
  | .markOut => s.sendMark (.spanOut x x)
  | .commitDrop => s.countGiven.sendMark (.spanCommit x s.nextCount .drop)
  | .commitMask => s.countGiven.sendMark (.spanCommit x s.nextCount (.mask c.commitMaskLanes))
  | .abandon => s.sendMark (.spanAbandon x)
  | .rescind => s.pressRescind x

/-- R109: a press; its stamp is the current HSN. -/
def State.press (s : State) (c : Settings) (contact : Contact) : State :=
  let (x, s) := s.drawHsn
  s.pressAt c x contact

/-- R110: the mask-tag request for the slot `p`, taken at the strobe of `p + 1`; declined without a plan. -/
def State.maskTagRequest (s : State) (c : Settings) (p : Slot) : State :=
  if s.mon.mode.hasSchedule then s.countGiven.sendMark (.tagMask (p + 1) s.nextCount p c.maskTagLanes) else s

end Sys2Proof.Machine
end

