-- ==== Sys2Proof/Machine/Contacts.lean ====
section
/-! DEFINITION. The contact and tally unit (11.2, R188): CONTACT_RAW_LEVEL_CHANGE, DEBOUNCE_STABLE and
REFUSED_PULSE_EXPIRY. -/

namespace Sys2Proof.Machine

/-- R184: a contact's debouncer. -/
def State.debouncer (s : State) (k : Contact) : Debouncer := contactOf s.contacts.lines k

/-- A contact's debouncer changed. -/
def State.setDebouncer (s : State) (k : Contact) (d : Debouncer) : State :=
  s.withContacts { s.contacts with lines := setContact s.contacts.lines k d }

/-- CONTACT_RAW_LEVEL_CHANGE (R184): the stable timer restarts; no effect where the level is the one last seen. -/
def execContactRawLevelChange (k : Contact) (level : Level) (s : State) : Host.Outcome State Fault Refusal :=
  if (s.debouncer k).raw = level then .next s
  else .next (s.setDebouncer k { s.debouncer k with raw := level, timing := true })

/-- R184: the debounced level takes the raw level. -/
def Debouncer.settled (d : Debouncer) : Debouncer := { d with debounced := some d.raw, timing := false }

/-- R184: the settling of the contact is a closing edge. -/
def Debouncer.closes (d : Debouncer) : Bool := d.debounced == some .opened && d.raw == .closed

/-- R185: the states in which an edge is handed on. -/
def Mode.takesPresses : Mode → Bool
  | .filling => true
  | .aligned => true
  | _ => false

/-- R185: a closing edge is handed to the mark originator in FILLING and ALIGNED, and discarded otherwise. -/
def State.closingEdge (s : State) (k : Contact) : State :=
  match s.settings with
  | some c => if s.mon.mode.takesPresses then s.press c k else s
  | none => s

/-- DEBOUNCE_STABLE (R184); no effect while the contact's stable timer is not running. -/
def execDebounceStable (k : Contact) (s : State) : Host.Outcome State Fault Refusal :=
  let d := s.debouncer k
  if d.timing then
    let s' := s.setDebouncer k d.settled
    .next (if d.closes then s'.closingEdge k else s')
  else .next s

/-- REFUSED_PULSE_EXPIRY (R188). -/
def execRefusedPulseExpiry (s : State) : Host.Outcome State Fault Refusal :=
  .next (s.withContacts { s.contacts with refused := false })

end Sys2Proof.Machine
end

