-- ==== Sys2Proof/Machine/Index.lean ====
section
/-! DEFINITION. The slot index (1.5): append, forced release and removal, with the output bursts that a removal ends. -/

namespace Sys2Proof.Machine

/-! ## Ending output bursts (R129, R134, R135) -/

/-- The picture lane's hold buffer takes new contents; the other kinds keep none (R128). -/
def EgressLane.hold (l : EgressLane) (bytes : List Byte) : EgressLane :=
  match l with
  | .picture _ => .picture bytes
  | .sound n => .sound n
  | .data => .data

/-- The lane is a PICTURE lane. -/
def EgressLane.isPicture : EgressLane → Bool
  | .picture _ => true
  | _ => false

/-- The hold buffer of a lane takes the bytes sent (R134). -/
def State.holdBytes (s : State) (lane : Nat) (bytes : List Byte) : State :=
  match s.egress.lanes[lane]? with
  | some l => s.withEgress { s.egress with lanes := s.egress.lanes.set lane (l.hold bytes) }
  | none => s

/-- The burst sends stored bytes on a PICTURE lane, so its end finishes a hold buffer (R134). -/
def State.feedsHold (s : State) (b : OutBurst) : Bool :=
  b.subst == .stored && (s.egress.lanes[b.lane]?.any EgressLane.isPicture)

/-- R129, R134: a burst ended short leaves in the hold buffer the bytes that were sent, fewer than its length; how many
were sent is a free value (log entry 8). -/
def State.endShort (s : State) (b : OutBurst) : State :=
  if s.feedsHold b then
    (s.holdBytes b.lane (b.bytes.take (Config.sentBytes s.free % b.bytes.length))).withFree (s.free + 1)
  else s

/-- End the open bursts that `p` picks, short of their length; they leave their lane positions. -/
def State.endBursts (s : State) (p : OutBurst → Bool) : State :=
  let s' := (s.egress.out.filter p).foldl State.endShort s
  s'.withEgress { s'.egress with out := s'.egress.out.filter (fun b => !p b) }

/-! ## Removal (R15 to R17) -/

/-- R135: the burst is being read from the record of `p`. -/
def OutBurst.reads (b : OutBurst) (p : Slot) : Bool := b.subst == .stored && b.psn == p

/-- R15, R135: what the leaving of one record does: its bursts end, and its pages go back. -/
def State.dropRecord (s : State) (code : Nat) (r : SlotRecord) : State :=
  let s' := s.endBursts (·.reads r.psn)
  s'.withStore (s'.store.releaseRecord code r)

/-- R15, R16: records leave one at a time from the head while `p` holds. -/
def State.removeHead (s : State) (code : Nat) (p : SlotRecord → Bool) : State :=
  ((s.index.takeWhile p).foldl (fun s r => s.dropRecord code r) s).withIndex (s.index.dropWhile p)

/-- R15: the head removal of an output step that has played `q`. -/
def State.removeBefore (s : State) (code : Nat) (q : Slot) : State := s.removeHead code (fun r => earlier r.psn q)

/-- R16: the removal by age at HSN `x`. -/
def State.removeAged (s : State) (code : Nat) (x : Slot) : State :=
  s.removeHead code (fun r => decide (Config.delayCap < dist x r.psn))

/-- R17: the forced release of the head record of a full index. -/
def State.forceRelease (s : State) (code : Nat) : State :=
  match s.index with
  | [] => s
  | r :: rest => if Config.indexCapacity ≤ s.index.length then (s.dropRecord code r).withIndex rest else s

/-- R14: append a record at the tail. -/
def State.append (s : State) (code : Nat) (r : SlotRecord) : State :=
  let s' := s.forceRelease code
  s'.withIndex (s'.index ++ [r])

end Sys2Proof.Machine
end

