-- ==== Sys2Proof/Machine/Ingress.lean ====
section
/-! DEFINITION. The ingress (chapter 3): BURST_START, ESSENCE_BYTE, BURST_END, the slot close and the loss of
reference. -/

namespace Sys2Proof.Machine

/-- R33: a lane entry in NONE. -/
def LaneEntry.fresh : LaneEntry := ⟨.none, none, 0, 0, [], false, false, false, false⟩

/-- R33: one fresh entry per configured lane. -/
def freshEntries (c : Settings) : List LaneEntry := c.lanes.map (fun _ => LaneEntry.fresh)

/-- The ingress with one lane entry changed. -/
def Ingress.setEntry (g : Ingress) (lane : Nat) (e : LaneEntry) : Ingress := { g with entries := g.entries.set lane e }

/-- No accepted burst is delivered on this position any more (log entry 33). -/
def Ingress.unport (g : Ingress) (pos : Fin 4) : Ingress := { g with port := g.port.filter (·.position != pos) }

/-- The lane of the accepted burst that a position delivers. -/
def Ingress.portLane (g : Ingress) (pos : Fin 4) : Option Nat := (g.port.find? (·.position == pos)).map PortBurst.lane

/-! ## BURST_START (R35, R36) -/

/-- R35 3, R36: an accepted burst, with the comparison of its tag word. -/
def LaneEntry.accepted (c : Settings) (h : BurstHeader) : LaneEntry :=
  ⟨.opened, some h.declared, 0, 0, [], false, false, c.breakEnabled && h.tag == c.breakTag,
    c.maskEnabled && h.tag == c.maskTag⟩

/-- R39: an OPEN burst ends; it is TRUNCATED if it is short. -/
def LaneEntry.finish (e : LaneEntry) : LaneEntry :=
  { e with burst := .ended, truncated := e.truncated || decide (e.received < e.declared.getD 0) }

/-- R35: the burst start, judged in the rule's order, while a slot period is open. -/
def Ingress.burstStart (g : Ingress) (c : Settings) (pos : Fin 4) (header : List Byte) : Ingress :=
  let g := g.unport pos
  match parseHeader header with
  | none => g
  | some h =>
    if Config.largestBurst < h.declared then g
    else
      match g.entries[h.lane]? with
      | none => g
      | some e =>
        match e.burst with
        | .none => { g.setEntry h.lane (.accepted c h) with port := ⟨pos, h.lane⟩ :: g.port }
        | .opened => g.setEntry h.lane e.finish
        | .ended => g

/-- R35: a header that was still incomplete at a strobe or at a loss of reference is discarded with its bytes. -/
def Ingress.takeHeader (g : Ingress) (c : Settings) (pos : Fin 4) (header : HeaderRead) : Ingress :=
  if header.interrupted then g.unport pos else g.burstStart c pos header.bytes

/-- BURST_START (R35); discarded while no slot period is open (R47, R49). -/
def execBurstStart (pos : Fin 4) (header : HeaderRead) (s : State) : Host.Outcome State Fault Refusal :=
  match s.settings, s.ingress.period with
  | some c, some _ => .next (s.withIngress (s.ingress.takeHeader c pos header))
  | _, _ => .next s

/-! ## ESSENCE_BYTE (R37, R38, R40) -/

/-- R40: the running peak after the byte stored last, the third of a sample. -/
def samplePeak (m : Memory) (e : LaneEntry) (peak : Nat) : Nat :=
  max peak (sampleLevel (m.read (burstAddress e.pages (e.stored - 3))) (m.read (burstAddress e.pages (e.stored - 2)))
    (m.read (burstAddress e.pages (e.stored - 1))))

/-- R37 4: the byte is written into the last page of the list, and a SOUND lane's sample is measured when complete. -/
def State.storeByte (s : State) (sound : Bool) (lane : Nat) (e : LaneEntry) (b : Byte) : State :=
  let e' := { e with stored := e.stored + 1 }
  let m := s.mem.write (burstAddress e.pages e.stored) b
  let g := s.ingress.setEntry lane e'
  (s.withMem m).withIngress
    (if sound && e'.stored % 3 == 0 then { g with peak := samplePeak m e' g.peak } else g)

/-- R37 3, R24, R30, R22: ask for a page; a refusal as exhaustion sets TRUNCATED and STORE-EXHAUSTED. -/
def State.storeOnNewPage (s : State) (c : Settings) (sound : Bool) (lane : Nat) (e : LaneEntry) (b : Byte) : State :=
  match s.store.lanes[lane]? with
  | none => s.withIngress (s.ingress.setEntry lane e)
  | some l =>
    match l.allocate (lowWatermark c.planCode lane) with
    | none =>
      (s.withStore { s.store with exhausted := true }).withIngress
        (s.ingress.setEntry lane { e with truncated := true })
    | some (p, l') =>
      (s.withStore { s.store with lanes := s.store.lanes.set lane l' }).storeByte sound lane
        { e with pages := e.pages ++ [p] } b

/-- R37: one byte of an OPEN burst, `e` being the lane's entry before it. -/
def State.takeByte (s : State) (c : Settings) (lane : Nat) (e : LaneEntry) (b : Byte) : State :=
  let sound := c.lanes[lane]? == some .sound
  let e' := { e with received := e.received + 1 }
  if e.declared.getD 0 < e'.received then s.withIngress (s.ingress.setEntry lane { e' with overlong := true })
  else if e.truncated then s.withIngress (s.ingress.setEntry lane e')
  else if e.stored % Config.pageSize = 0 then s.storeOnNewPage c sound lane e' b
  else s.storeByte sound lane e' b

/-- ESSENCE_BYTE (R37); a byte without an OPEN accepted burst is discarded (R38). -/
def execEssenceByte (pos : Fin 4) (b : Byte) (s : State) : Host.Outcome State Fault Refusal :=
  match s.settings, s.ingress.portLane pos with
  | some c, some lane =>
    match s.ingress.entries[lane]? with
    | some e => if e.burst = .opened then .next (s.takeByte c lane e b) else .next s
    | none => .next s
  | _, _ => .next s

/-! ## BURST_END (R39) -/

/-- R39: the end of the accepted burst on a position; ignored where the entry is not OPEN. -/
def Ingress.burstEnd (g : Ingress) (pos : Fin 4) : Ingress :=
  match g.portLane pos with
  | none => g
  | some lane =>
    match g.entries[lane]? with
    | some e => if e.burst = .opened then (g.setEntry lane e.finish).unport pos else g.unport pos
    | none => g.unport pos

/-- BURST_END (R39). -/
def execBurstEnd (pos : Fin 4) (s : State) : Host.Outcome State Fault Refusal :=
  .next (s.withIngress (s.ingress.burstEnd pos))

/-! ## Slot close (R41 to R43) -/

/-- R42: at the strobe every burst still OPEN is ended. -/
def LaneEntry.atStrobe (e : LaneEntry) : LaneEntry := if e.burst = .opened then e.finish else e

/-- R43: a lane of the record. -/
def LaneEntry.record (e : LaneEntry) : LaneRecord :=
  ⟨decide (1 ≤ e.stored), e.stored, e.pages, e.truncated, e.overlong⟩

/-- R41 2: at least one SOUND lane is PRESENT. -/
def soundPresent (c : Settings) (lanes : List LaneRecord) : Bool :=
  (c.lanes.zip lanes).any (fun (k, l) => k == .sound && l.present)

/-- R41 to R43: the record of period `x`, and the quiet run after it. -/
def Ingress.record (g : Ingress) (c : Settings) (x : Slot) : SlotRecord × Nat :=
  let entries := g.entries.map LaneEntry.atStrobe
  let lanes := entries.map LaneEntry.record
  let brk := entries.any (·.breakMatch)
  let mask := entries.any (·.maskMatch)
  let arrival := arrivalOf lanes
  if arrival = .void then (⟨x, arrival, lanes, g.peak, false, false, brk, mask⟩, 0)
  else
    let quiet := quietSlot (soundPresent c lanes) g.peak c.pauseThreshold
    let run := nextQuietRun g.quietRun quiet
    (⟨x, arrival, lanes, g.peak, quiet, pauseEligible quiet brk run c.pauseRun, brk, mask⟩, run)

/-- R34, R47: the ingress opens the period of `h` with fresh entries. -/
def Ingress.opening (c : Settings) (h : Slot) (run : Nat) : Ingress := ⟨some h, freshEntries c, 0, run, []⟩

/-- R7, R33, R34: the ingress and the slot index at the ordinary strobe of `h`. The first strobe after the lane plan came
into force opens a period and closes none. -/
def State.closeSlot (s : State) (c : Settings) (h : Slot) : State :=
  match s.ingress.period with
  | none => s.withIngress (.opening c h s.ingress.quietRun)
  | some x =>
    let (r, run) := s.ingress.record c x
    (s.withIngress (.opening c h run)).append c.planCode r

/-! ## Loss of reference (R46) -/

/-- R46: the open period is closed without a record, and every burst gives back its pages. -/
def State.loseIngress (s : State) (c : Settings) : State :=
  match s.ingress.period with
  | none => s
  | some _ =>
    (s.withStore (s.store.releaseLanes c.planCode 0 (s.ingress.entries.map LaneEntry.pages))).withIngress
      ⟨none, freshEntries c, 0, 0, []⟩

end Sys2Proof.Machine
end

