-- ==== Sys2Proof/Machine/Egress.lean ====
section
/-! DEFINITION. The egress (chapter 8): the output step, the building of the lanes, substitutes, the output history, and
OUTPUT_BURST_END. -/

namespace Sys2Proof.Machine

/-! ## Substitutes (R134) -/

/-- R134: the three bytes of a 24-bit sample, most significant first (12.2): +1,048,576 and -1,048,576. -/
def toneSample (positive : Bool) : List Byte := if positive then [0x10#8, 0#8, 0#8] else [0xF0#8, 0#8, 0#8]

/-- R134: `n` tone samples from sample number `i` on, in alternating runs of 24 that start positive. -/
def toneSamples (i : Nat) : Nat → List Byte
  | 0 => []
  | n + 1 => toneSample (i / 24 % 2 == 0) ++ toneSamples (i + 1) n

/-- R134: the substitute of a lane: its kind in the header and its bytes. -/
def substituteOf (c : Settings) : EgressLane → SubstKind × List Byte
  | .sound n =>
    match c.soundSubstitute with
    | .silence => (.silence, List.replicate (n / 3 * 3) 0)
    | .tone => (.tone, toneSamples 0 (n / 3))
  | .picture hold =>
    match c.pictureSubstitute with
    | .held => if hold.isEmpty then (.black, []) else (.held, hold)
    | .black => (.black, [])
  | .data => (.empty, [])

/-! ## Building a lane (R133, R136) -/

/-- A play: HSN, PSN and repeat index, its coverage, and the flags that every lane of the step shares. -/
structure Play where
  hsn : Slot
  psn : Slot
  rep : Nat
  cover : Coverage
  notHeld : Bool
  jump : Bool
  deriving DecidableEq, Repr

/-- R136: the flags of a lane of a play. -/
def Play.flags (p : Play) (masked subst damaged notHeld : Bool) : OutFlags :=
  ⟨decide (0 < p.rep), masked, subst, damaged, p.notHeld || notHeld, p.jump, true⟩

/-- R133: a lane of a play that carries its substitute. -/
def Play.substitute (p : Play) (c : Settings) (lane : Nat) (l : EgressLane) (masked damaged notHeld : Bool) : OutBurst :=
  ⟨lane, p.hsn, p.psn, p.rep, (substituteOf c l).1, p.flags masked true damaged notHeld, (substituteOf c l).2⟩

/-- R133: the coverage is MASKED and names the lane. -/
def Coverage.masks (v : Coverage) (lane : Nat) : Bool :=
  match v with
  | .masked lanes => lanes.getLsbD lane
  | _ => false

/-- R133: what the burst of one lane carries; the first case that applies decides. -/
def buildLane (c : Settings) (m : Memory) (r : Option SlotRecord) (p : Play) (lane : Nat) (l : EgressLane) : OutBurst :=
  match r.bind (fun r => r.lanes[lane]?) with
  | none => p.substitute c lane l false false true
  | some rec =>
    if p.cover.masks lane then p.substitute c lane l true false false
    else if rec.present then
      ⟨lane, p.hsn, p.psn, p.rep, .stored, p.flags false false (rec.truncated || rec.overlong) false,
        readBurst m rec.pages 0 rec.count⟩
    else p.substitute c lane l false rec.truncated false

/-- R133: the bursts of every configured lane, in lane order from `lane` on. -/
def buildLanes (c : Settings) (m : Memory) (r : Option SlotRecord) (p : Play) (lane : Nat) : List EgressLane → List OutBurst
  | [] => []
  | l :: rest => buildLane c m r p lane l :: buildLanes c m r p (lane + 1) rest

/-- R134: what a lane keeps when a burst begins on it: a stored burst empties the hold buffer and sets the reference
length. -/
def EgressLane.begin (l : EgressLane) (b : OutBurst) : EgressLane :=
  if b.subst = .stored then
    match l with
    | .picture _ => .picture []
    | .sound _ => .sound b.bytes.length
    | .data => .data
  else l

/-- The bursts begin on their lane positions. -/
def Egress.begin (e : Egress) (bs : List OutBurst) : Egress :=
  { e with out := bs, lanes := e.lanes.zipWith EgressLane.begin bs }

/-! ## The output step (R130 to R132) -/

/-- R130: the schedule point after the step at `x`; a point already at `x` plays as it stands. -/
def Plan.stepTo (pl : Plan) (pt : SchedPoint) (x : Slot) : SchedPoint :=
  if pt.hsn = x then pt else { pl.outStep pt with hsn := x }

/-- R138: the history with a pending entry opened; a 65th entry pushes the oldest out. -/
def openEntry (hist : List HistEntry) (pt : SchedPoint) : List HistEntry :=
  let hist' := hist ++ [⟨pt.hsn, pt.psn, pt.rep, none⟩]
  hist'.drop (hist'.length - Config.historyCapacity)

/-- The play of a schedule point. -/
def State.playOf (s : State) (pt : SchedPoint) : Play :=
  ⟨pt.hsn, pt.psn, pt.rep, coverage s.plan.cuts pt.psn, s.mon.mode == .filling, s.egress.jump⟩

/-- R133, R137, R138: the output of a play: its bursts, its history entry, and the jump flag cleared. -/
def State.output (s : State) (c : Settings) (pt : SchedPoint) : State :=
  s.withEgress
    { s.egress.begin (buildLanes c s.mem (lookupRecord s.index pt.psn) (s.playOf pt) 0 s.egress.lanes) with
      point := some pt, history := openEntry s.egress.history pt, jump := false }

/-- R142, R177: in FILLING a play whose PSN is held takes the station to ALIGNED. -/
def State.scheduleHeld (s : State) (q : Slot) : State :=
  if s.mon.mode = .filling ∧ holds s.index q then s.withMon { s.mon with mode := .aligned } else s

/-- R15, R132: the head removal of the play `pt`; at a repeat nothing is removed. At the first step after an adoption
into the middle of a slot's repeats, where R15 says both that the records behind the point leave and that a repeat
removes nothing, nothing is removed until the next first play (DESIGN CHOICE, log entry 42). -/
def State.removePassed (s : State) (c : Settings) (pt : SchedPoint) : State :=
  if pt.rep = 0 then s.removeBefore c.planCode pt.psn else s

/-- R132: what the step hands on for the play `pt`. Open bursts end first; the coverage is read as the step finds it. -/
def State.playStep (s : State) (c : Settings) (pt : SchedPoint) : State :=
  let s := s.endBursts (fun _ => true)
  let s := s.output c pt
  let s := s.withPlan (s.plan.retire pt.psn)
  (s.removePassed c pt).scheduleHeld pt.psn

/-- R130: the output step at `x`. -/
def State.outputStep (s : State) (c : Settings) (x : Slot) : State :=
  match s.egress.point with
  | some pt => s.playStep c (s.plan.stepTo pt x)
  | none => s

/-! ## Output without a schedule point (R141, R143, R144) -/

/-- R141: a substitute burst without a schedule point. -/
def bareBurst (c : Settings) (x : Slot) (lane : Nat) (l : EgressLane) : OutBurst :=
  ⟨lane, x, 0, 0, (substituteOf c l).1, ⟨false, false, true, false, true, false, false⟩, (substituteOf c l).2⟩

/-- R141: the substitute bursts of every configured lane from `lane` on. -/
def bareBursts (c : Settings) (x : Slot) (lane : Nat) : List EgressLane → List OutBurst
  | [] => []
  | l :: rest => bareBurst c x lane l :: bareBursts c x (lane + 1) rest

/-- R141: the substitute bursts at the strobe of `x`. -/
def State.substituteStep (s : State) (c : Settings) (x : Slot) : State :=
  let s := s.endBursts (fun _ => true)
  s.withEgress (s.egress.begin (bareBursts c x 0 s.egress.lanes))

/-- A lane without its hold buffer's contents (R139). -/
def EgressLane.clearHold (l : EgressLane) : EgressLane := l.hold []

/-- R139: the schedule point becomes absent; the history, the jump flag and the hold buffers go with it. -/
def Egress.clearSchedule (e : Egress) : Egress :=
  { e with point := none, history := [], jump := false, lanes := e.lanes.map EgressLane.clearHold }

/-- R143: the egress at a return: open bursts end, the schedule goes, and substitutes begin. -/
def State.returnEgress (s : State) (c : Settings) (x : Slot) : State :=
  let s := s.endBursts (fun _ => true)
  (s.withEgress s.egress.clearSchedule).substituteStep c x

/-- R144: the burst of a lane position in CONFIG-FAULT. -/
def faultBurst (x : Slot) (lane : Nat) : OutBurst :=
  ⟨lane, x, 0, 0, .empty, ⟨false, false, true, false, true, false, false⟩, []⟩

/-- R144: the bursts on the four lane positions in CONFIG-FAULT. -/
def State.faultOutput (s : State) (x : Slot) : State :=
  s.withEgress { s.egress with out := [faultBurst x 0, faultBurst x 1, faultBurst x 2, faultBurst x 3] }

/-! ## The schedule point set from outside (R137, R140) -/

/-- R137, R140: the point handed at an adoption replaces the old one. -/
def Egress.setPoint (e : Egress) (pt : SchedPoint) : Egress := { e with point := some pt }

/-- R137, R141: the egress has taken the strobe of `x`: the history has the entry of its step at `x`, or a burst that
began at `x` is open. -/
def Egress.tookStrobe (e : Egress) (x : Slot) : Bool := e.history.any (·.hsn == x) || e.out.any (·.hsn == x)

/-- R137: the HSN of the next output step at an intake of `x`. -/
def Egress.nextStepHsn (e : Egress) (x : Slot) : Slot := if e.tookStrobe x then x + 1 else x

/-- R137: the play (PSN and repeat index) of the next output step differs under the new plan and point. -/
def jumps (old new : Plan) (pt pt' : SchedPoint) (y : Slot) : Bool :=
  let a := old.playAt pt y
  let b := new.playAt pt' y
  a.psn != b.psn || a.rep != b.rep

/-! ## OUTPUT_BURST_END (R129, R134) -/

/-- R129, R134: the burst open on a lane position has been sent whole; a stored picture fills the hold buffer. -/
def State.finishBurst (s : State) (b : OutBurst) : State :=
  let s := if s.feedsHold b then s.holdBytes b.lane b.bytes else s
  s.withEgress { s.egress with out := s.egress.out.filter (fun d => d.lane != b.lane) }

/-- OUTPUT_BURST_END (R129); no effect where no burst is open on the position. -/
def execOutputBurstEnd (pos : Fin 4) (s : State) : Host.Outcome State Fault Refusal :=
  match s.egress.out.find? (fun b => b.lane == pos.val) with
  | some b => .next (s.finishBurst b)
  | none => .next s

end Sys2Proof.Machine
end

