-- ==== Sys2Proof/Machine/Regulator.lean ====
section
/-! DEFINITION. The rebuild regulator (chapter 9): windows and budget, the forming of a proposal, and the cancellation of
an outstanding one. The adoption checks of a PACE are `Plan.judgePace`. -/

namespace Sys2Proof.Machine

/-! ## The peer table as the regulator reads it (R162) -/

/-- R162: the entry is valid at `y`. -/
def Peer.validAt (p : Peer) (y : Slot) : Bool := later (p.received + slots (3 * p.period)) y

/-- R152: a valid entry shows its pressure flag set. -/
def peerPressure (peers : List Peer) (x : Slot) : Bool := peers.any (fun p => p.validAt x && p.pressure)

/-! ## Windows and the budget (R151) -/

/-- R151: at an event of another window the used budget starts from 0. -/
def Regulator.atEvent (r : Regulator) (c : Settings) (x : Slot) : Regulator :=
  if r.window = some (x.toNat / c.windowLength) then r
  else { r with window := some (x.toNat / c.windowLength), used := 0 }

/-- R151: the budget at the moment of reading. -/
def budgetOf (c : Settings) (deficit : Int) : Nat :=
  match c.mode with
  | .steady => c.budget
  | .proportional => min c.budget ((deficit.toNat * c.gain + 15) / 16)

/-- R150: the last pace PSN after an adoption at `p`. -/
def laterPace (last : Option Slot) (p : Slot) : Option Slot :=
  match last with
  | none => some p
  | some l => if later p l then some p else some l

/-- R147, R150, R151: the regulator at the adoption of an entry at the intake of `x`. The used budget is R151's sum; R150
gives it the range 0 to 2,040, and a sum that passes it is kept as it is (DESIGN CHOICE, log entry 46). -/
def Regulator.adopt (r : Regulator) (c : Settings) (x : Slot) (e : Pace) : Regulator :=
  let r := r.atEvent c x
  { r with used := r.used + e.count.toNat, lastPace := laterPace r.lastPace e.psn }

/-! ## The decision (R149, R152) -/

/-- R149: the projected delay that the regulator reads at `x`. The list is taken after the retirement due at `x` (R57, log
entry 24). It is R57's formula, by which a fill in its repeats counts in full, against R149's second item and the table of
9.7 (DESIGN CHOICE, log entry 54). -/
def State.projectedAt (s : State) (pt : SchedPoint) (x : Slot) : Int :=
  s.delayOf pt x + paceSum (s.plan.retire (s.plan.playAt pt x).psn).paces

/-- What R152 decides on. -/
inductive Decision where
  | fill
  | trim
  | nothing
  deriving DecidableEq, Repr

/-- R152: the decision from the projected delay, the era target and the pressure flags. -/
def decideProposal (c : Settings) (tEra : Nat) (projected : Int) (used : Nat) (own peers : Bool) : Decision :=
  let deficit : Int := tEra - projected
  if 0 < deficit ∧ !own ∧ !peers ∧ used < budgetOf c deficit then .fill
  else if (tEra : Int) + c.trimTolerance < projected ∨ (own ∧ (tEra : Int) - c.trimTolerance < projected) then .trim
  else .nothing

/-! ## The choice of a slot (R153) -/

/-- R153: a PSN meets every condition but the search range's. -/
def State.qualifies (s : State) (c : Settings) (x : Slot) (d : Decision) (p : Slot) : Bool :=
  match lookupRecord s.index p with
  | none => false
  | some r =>
    r.pauseEligible && (d != .fill || r.arrival == .whole) && coverage s.plan.cuts p == .clear &&
      (paceAt s.plan.paces p).isNone &&
      (match s.reg.lastPace with
        | none => true
        | some l => decide ((c.spacing : Int) ≤ dist p l)) &&
      (d != .trim || atOrAfter (endBound x) p)

/-- The first of `n` PSNs from `p` on that qualifies. -/
def State.firstQualifying (s : State) (c : Settings) (x : Slot) (d : Decision) (p : Slot) : Nat → Option Slot
  | 0 => none
  | n + 1 => if s.qualifies c x d p then some p else s.firstQualifying c x d (p + 1) n

/-- R153: the earliest qualifying PSN of the search range, which ends at h + 64. -/
def State.chooseSlot (s : State) (c : Settings) (x h : Slot) (d : Decision) : Option Slot :=
  if holds s.index (h + 2) then s.firstQualifying c x d (h + 2) 63 else s.firstQualifying c x d (h + 1) 64

/-- R154: the count of a proposal at a slot. -/
def proposalCount (c : Settings) (d : Decision) (deficit : Int) (used : Nat) (brk : Bool) : Int :=
  match d with
  | .fill =>
    (min (min deficit.toNat (if brk then 8 else c.normalRepeat)) (min (budgetOf c deficit - used) 8) : Nat)
  | _ => -1

/-- R156: a proposal's frame is added, and the proposal becomes outstanding where it is queued. -/
def State.propose (s : State) (x p : Slot) (count : Int) : State :=
  match s.addEntry .regulator ⟨.pace, paceBody x p count⟩ none false with
  | (s', some order) => s'.withReg { s'.reg with outstanding := some ⟨p, count, x, .queued, order⟩ }
  | (s', none) => s'

/-- R152 to R154: the proposal formed at `x` from a schedule point and the era target. -/
def State.formProposal (s : State) (c : Settings) (pt : SchedPoint) (tEra : Nat) (x : Slot) : State :=
  let projected := s.projectedAt pt x
  let d := decideProposal c tEra projected s.reg.used s.store.stationPressure (peerPressure s.mon.peers x)
  if d = .nothing then s
  else
    match s.chooseSlot c x (s.plan.horizon pt x) d with
    | none => s
    | some p =>
      s.propose x p
        (proposalCount c d (tEra - projected) s.reg.used ((lookupRecord s.index p).any SlotRecord.brk))

/-- The append of PSN `x - 1` at the strobe of `x` has been reported (R152). -/
def appendedAt (ix : List SlotRecord) (x : Slot) : Bool := ix.getLast?.any (fun r => r.psn == x - 1)

/-- R151, R152: the regulator's strobe and proposal event at `x`. -/
def State.proposalEvent (s : State) (c : Settings) (x : Slot) : State :=
  let s := s.withReg (s.reg.atEvent c x)
  match s.egress.point, s.mon.era with
  | some pt, some era =>
    if s.mon.mode = .aligned ∧ s.reg.outstanding.isNone ∧ !s.link.clash ∧ appendedAt s.index x then
      s.formProposal c pt era.tEra x
    else s
  | _, _ => s

/-! ## The outstanding proposal (R150, R157) -/

/-- R93: the regulator asks to cancel its proposal while it is QUEUED. -/
def State.cancelProposal (s : State) : State :=
  match s.reg.outstanding with
  | some p =>
    if p.place = .queued then
      match s.entry p.entry with
      | some e => s.cancelEntry e
      | none => s
    else s
  | none => s

/-- R157: a QUEUED proposal has become redundant at an intake that inserted `cuts`, with the horizon `h`. -/
def State.redundant (s : State) (c : Settings) (tEra : Nat) (projected : Int) (h : Slot) (cuts : List Cut) (p : Proposal) :
    Bool :=
  (paceAt s.plan.paces p.psn).isSome || cuts.any (·.covers p.psn) ||
    (decide (0 < p.count) && decide (budgetOf c (tEra - projected) ≤ s.reg.used)) || earlier p.psn h

/-- R157: the check at the end of an intake. -/
def State.checkProposal (s : State) (c : Settings) (b : Bounds) (cuts : List Cut) : State :=
  match s.reg.outstanding, s.mon.era with
  | some p, some era =>
    if p.place = .queued ∧ s.redundant c era.tEra (b.projected s.plan.paces) b.h cuts p then s.cancelProposal else s
  | _, _ => s

/-- R147, R156: an own PACE that names the PSN of the outstanding proposal ends it, whatever the verdict. A QUEUED proposal
ends so too, and its frame stays in the transmit queue (DESIGN CHOICE, log entry 23). -/
def Regulator.endProposal (r : Regulator) (p : Slot) : Regulator :=
  if r.outstanding.any (fun o => o.psn == p) then { r with outstanding := none } else r

end Sys2Proof.Machine
end

