-- ==== Sys2Proof/Machine/Align.lean ====
section
/-! DEFINITION. The alignment monitor (chapter 10): listening and founding, joins, beacons, RESYNC, recaps, the collecting
record and adoption; BEACON_RECEIVED is in Link.lean and the timers' expiries are in Expiry.lean. -/

namespace Sys2Proof.Machine

def State.withMode (s : State) (m : Mode) : State := s.withMon { s.mon with mode := m }

/-! ## LISTENING and founding (R160) -/

/-- R69, R116, R150: the plan discard, with the rescind stack and the regulator's state. -/
def State.discardPlan (s : State) : State :=
  ((s.withPlan .empty).withOrig { s.orig with stack := [] }).withReg .reset

/-- R160: the monitor on entry to LISTENING. -/
def Monitor.listening : Monitor := ⟨.listening, none, [], some Config.listenPeriod, none, .none, none, none⟩

/-- R160: entry to LISTENING. -/
def State.enterListening (s : State) : State :=
  (s.discardPlan.withEgress s.egress.clearSchedule).withMon .listening

/-- R160: the founding of an era at the strobe of `x`. -/
def State.found (s : State) (c : Settings) (x : Slot) : State :=
  (s.withEgress (s.egress.setPoint ⟨x, x - slots c.tCfg, 0, 0⟩)).withMon
    { s.mon with mode := .filling, era := some ⟨x, c.tCfg⟩, listen := none }

/-! ## JOIN (R166, R167) -/

/-- A JOIN of this station is still queued, not cancelled (log entry 28). -/
def State.joinQueued (s : State) : Bool := s.traffic.general.any (fun e => e.hasKind .join && e.live)

/-- R167: a JOIN is added, stamped with the current HSN and carrying the state. -/
def State.addJoin (s : State) : State :=
  let (x, s) := s.drawHsn
  (s.addEntry .monitor ⟨.join, joinBody x s.mon.mode.isResync⟩ none false).1

/-- R93: the queued JOIN is cancelled. -/
def State.cancelJoin (s : State) : State := s.cancelWhere (fun e => e.hasKind .join && e.live)

def State.withRetry (s : State) (r : Option Nat) : State := s.withMon { s.mon with retry := r }

/-- R167, R174: a JOIN, unless one is queued, and the join retry timer loaded with 200. -/
def State.askAgain (s : State) : State :=
  (if s.joinQueued then s else s.addJoin).withRetry (some Config.joinRetry)

/-- R167: entry to JOINING. -/
def State.enterJoining (s : State) : State :=
  ((s.withMon { s.mon with mode := .joining, listen := none }).addJoin).withRetry (some Config.joinRetry)

/-! ## RESYNC (R165, R166) -/

/-- R93, R166, R168: the queued RECAP-HEAD is cancelled. -/
def State.cancelHead (s : State) : State := s.cancelWhere (fun e => e.stream && e.hasKind .recapHead)

/-- R166: the own recap ends at the entry to RESYNC. -/
def State.leaveRecap (s : State) : State :=
  match s.mon.ownRecap with
  | .none => s
  | .headPending => s.cancelHead.endOwnRecap
  | .inProgress _ _ => s.closeStream.endOwnRecap

/-- R166, R150: entry to RESYNC. -/
def State.enterResync (s : State) (origin : Origin) : State :=
  (((s.cancelProposal.leaveRecap).withMode (.resync origin)).addJoin).withRetry (some Config.joinRetry)

/-- R165: FRAME-LOST, with the sender's station number where the receiver knows it (R83); the monitor acts alike
whoever the sender is. -/
def State.frameLost (s : State) (_sender : Option Station) : State :=
  match s.mon.mode with
  | .aligned => s.enterResync .aligned
  | .filling => s.enterResync .filling
  | .joining => s.withMon { s.mon with collecting := s.mon.collecting.map (fun r => { r with lost := true }) }
  | .resync _ => s.withMon { s.mon with collecting := s.mon.collecting.map (fun r => { r with lost := true }) }
  | _ => s

/-! ## The peer table (R162) -/

/-- A peer's entry takes its place in ascending station number. -/
def insertPeer (p : Peer) : List Peer → List Peer
  | [] => [p]
  | d :: rest => if p.station.val < d.station.val then p :: d :: rest else d :: insertPeer p rest

/-- R162: a beacon's contents fill its sender's entry. -/
def setPeer (peers : List Peer) (p : Peer) : List Peer := insertPeer p (peers.filter (fun d => d.station != p.station))

/-- R162: the entry of a beacon received at `x`. -/
def Beacon.peer (b : Beacon) (sender : Station) (x : Slot) : Peer := ⟨sender, x, b.period, b.state, b.founding, b.pressure⟩

/-- FILLING or ALIGNED. -/
def PeerState.onPlan : PeerState → Bool
  | .resync => false
  | _ => true

/-- A valid FILLING or ALIGNED entry (R166, R167). -/
def Peer.canServe (p : Peer) (x : Slot) : Bool := p.validAt x && p.state.onPlan

/-- R166, R167: some valid entry shows FILLING or ALIGNED. -/
def peerServes (peers : List Peer) (x : Slot) : Bool := peers.any (·.canServe x)

/-! ## Comparison (R164) -/

/-- R164: the station `me` with the era founded at `mine` yields to `them` with `theirs`. -/
def yields (mine theirs : Slot) (me them : Station) : Bool :=
  if later mine theirs then true else if later theirs mine then false else decide (them.val < me.val)

/-- R138: the complete history entry for an HSN. -/
def completeEntry (hist : List HistEntry) (y : Slot) : Option HistEntry :=
  hist.find? (fun e => e.hsn == y && e.digest.isSome)

/-- R164: the beacon is a mismatch with the history entry for its stamp. -/
def Beacon.mismatch (b : Beacon) (era : Era) (e : HistEntry) : Bool :=
  b.founding != era.founding || e.psn != b.psn || e.rep != b.rep || e.digest != some b.digest

/-- R164: a FILLING or ALIGNED station compares a beacon, and enters RESYNC where it differs and yields. -/
def State.compareBeacon (s : State) (sender : Station) (b : Beacon) (origin : Origin) : State :=
  match s.mon.era, completeEntry s.egress.history b.stamp with
  | some era, some e =>
    if b.state.onPlan && b.mismatch era e && yields era.founding b.founding s.station sender then
      s.enterResync origin
    else s
  | _, _ => s

/-- R164: what a beacon does once the peer table holds it. -/
def State.actOnBeacon (s : State) (sender : Station) (b : Beacon) : State :=
  match s.mon.mode with
  | .listening => if b.state.onPlan then s.enterJoining else s
  | .filling => s.compareBeacon sender b .filling
  | .aligned => s.compareBeacon sender b .aligned
  | _ => s

/-- R162: the states in which a beacon is taken. -/
def Mode.takesBeacons : Mode → Bool
  | .configuring => false
  | .configFault => false
  | .referenceLost => false
  | _ => true

/-- R162, R164, R190: a BEACON that stands is handed to the monitor. -/
def State.takeBeacon (s : State) (sender : Station) (body : List Byte) : State :=
  if !s.mon.mode.takesBeacons || sender == s.station then s
  else
    match parseBeacon body with
    | none => s
    | some b =>
      let (x, s) := s.drawHsn
      (s.withMon { s.mon with peers := setPeer s.mon.peers (b.peer sender x) }).actOnBeacon sender b

/-! ## Beacons sent (R163) -/

/-- R163: the state a beacon reports. -/
def Mode.peerState : Mode → PeerState
  | .aligned => .aligned
  | .resync _ => .resync
  | _ => .filling

/-- R163: a beacon is due at the strobe of `b`. -/
def State.beaconDue (s : State) (c : Settings) (b : Slot) : Bool :=
  s.mon.mode.hasSchedule && b.toNat % c.beaconPeriod == s.station.val % c.beaconPeriod

/-- R163: the content of the beacon for a complete history entry. -/
def State.beaconOf (s : State) (c : Settings) (era : Era) (e : HistEntry) (digest : Digest) : Beacon where
  stamp := e.hsn
  psn := e.psn
  rep := e.rep
  state := s.mon.mode.peerState
  pressure := s.store.stationPressure
  exhausted := s.store.exhausted
  quiet := s.link.quiet
  clash := s.link.clash
  digest := digest
  founding := era.founding
  delay := min 65535 (e.hsn - e.psn).toNat
  period := c.beaconPeriod

/-- R163: the beacon due at `x` is built from the complete history entry for `x` and placed in the holder. -/
def State.buildBeacon (s : State) (c : Settings) (x : Slot) : State :=
  if s.beaconDue c x then
    match s.mon.era, completeEntry s.egress.history x with
    | some era, some e =>
      match e.digest with
      | some d => s.placeBeacon ⟨.beacon, beaconBody (s.beaconOf c era e d)⟩
      | none => s
    | _, _ => s
  else s

/-! ## The recap sender (R168 to R171) -/

/-- R168: an ALIGNED station answers a JOIN taken at intake at `x`. -/
def State.answerJoin (s : State) (x : Slot) (era : Era) : State :=
  match s.addEntry .monitor ⟨.recapHead, headBody x era.founding⟩ none true with
  | (s', some _) => s'.withMon { s'.mon with ownRecap := .headPending }
  | (s', none) => s'

/-- R167, R168, R190: a JOIN taken at intake at `x`. -/
def State.takeJoin (s : State) (x : Slot) (f : RxFrame) : State :=
  match parseJoin f.body, s.mon.era with
  | some stamp, some era =>
    if later stamp x ∨ f.own ∨ s.mon.mode ≠ .aligned ∨ s.mon.ownRecap ≠ .none ∨ s.mon.foreign.isSome ∨ s.link.clash then s
    else s.answerJoin x era
  | _, _ => s

/-- R171: the RECAP-END of a snapshot. -/
def Snapshot.recapEnd (n : Snapshot) : RecapEnd where
  x0 := n.x0
  delay := (n.x0 - n.psn).toNat
  rep := n.rep
  horizonOffset := (n.horizon - n.psn).toNat
  cuts := n.plan.cuts.length
  paces := n.plan.paces.length
  spans := n.plan.spans.length
  digest := n.digest
  founding := n.era.founding
  tEra := n.era.tEra

/-- R171: the frames of the recap stream after the head, in their order. -/
def Snapshot.frames (n : Snapshot) : List TxFrame :=
  n.plan.cuts.map (fun c => ⟨.recapCut, cutBytes c⟩) ++ n.plan.paces.map (fun p => ⟨.recapPace, paceBytes p⟩) ++
    n.plan.spans.map (fun c => ⟨.recapSpan, recapSpanBody n.x0 c⟩) ++ [⟨.recapEnd, recapEndBody n.recapEnd⟩]

/-- R96, R171: the stream's entry is filled with the recap's next frame. -/
def State.nextStream (s : State) : State :=
  match s.mon.ownRecap with
  | .inProgress n filled =>
    match n.frames[filled]? with
    | some f => (s.fillStream f).withMon { s.mon with ownRecap := .inProgress n (filled + 1) }
    | none => s
  | _ => s

/-- R170: the snapshot of an intake at `b.x`. -/
def State.snapshot (s : State) (b : Bounds) (pt : SchedPoint) (era : Era) : Snapshot where
  x0 := b.x
  plan := s.plan
  psn := (s.plan.playAt pt b.x).psn
  rep := (s.plan.playAt pt b.x).rep
  horizon := b.h
  digest := s.plan.digest
  era := era

/-- R169: the station takes its own RECAP-HEAD at intake. -/
def State.takeOwnHead (s : State) (b : Bounds) : State :=
  match s.mon.mode, s.mon.ownRecap, s.mon.foreign, s.egress.point, s.mon.era with
  | .aligned, .headPending, none, some pt, some era =>
    (s.withMon { s.mon with ownRecap := .inProgress (s.snapshot b pt era) 0 }).nextStream
  | _, _, _, _, _ => s.closeStream.endOwnRecap

/-- R168: the foreign recap at another station's RECAP-HEAD with the era founded at `founding`. -/
def State.noteForeign (s : State) (sender : Station) (founding : Slot) : State :=
  match s.mon.foreign, s.mon.ownRecap with
  | some r, _ => if r.sender = sender then s.withMon { s.mon with foreign := some ⟨sender, Config.recapSilence⟩ } else s
  | none, .inProgress _ _ => s
  | none, own =>
    if s.mon.mode.hasSchedule && s.mon.era.any (fun e => e.founding == founding) then
      let s := s.withMon { s.mon with foreign := some ⟨sender, Config.recapSilence⟩ }
      if own = .headPending then s.cancelHead.endOwnRecap else s
    else s

/-- R168: a recap frame of the foreign recap's sender loads its silence count again. -/
def State.renewForeign (s : State) (sender : Station) : State :=
  s.withMon
    { s.mon with
      foreign := s.mon.foreign.map (fun r => if r.sender = sender then ⟨sender, Config.recapSilence⟩ else r) }

/-- R168: the foreign recap ends at its sender's RECAP-END. -/
def State.endForeign (s : State) (sender : Station) : State :=
  s.withMon { s.mon with foreign := s.mon.foreign.filter (fun r => r.sender != sender) }

/-! ## The joiner (R172 to R174) -/

/-- R172: the head's era would yield to the era of a valid FILLING or ALIGNED peer. -/
def headYields (peers : List Peer) (x : Slot) (sender : Station) (founding : Slot) : Bool :=
  peers.any (fun p => p.canServe x && p.founding != founding && yields founding p.founding sender p.station)

/-- R172: a collecting record starts from a head taken at `x`. -/
def State.startCollecting (s : State) (x : Slot) (sender : Station) : State :=
  (s.withMon { s.mon with collecting := some ⟨sender, x, .empty, [], [], Config.recapSilence, false⟩, retry := none }).cancelJoin

/-- R172: a joiner takes another station's RECAP-HEAD, whatever foreign recap is held (DESIGN CHOICE, log entry 61). -/
def State.joinerHead (s : State) (x : Slot) (sender : Station) (founding : Slot) : State :=
  if s.mon.mode.wantsRecap && s.mon.collecting.isNone && !headYields s.mon.peers x sender founding then
    s.startCollecting x sender
  else s

/-- R168, R169, R172, R190: a RECAP-HEAD taken at intake. One that R190 discards does not load the foreign recap's
silence count again (DESIGN CHOICE, log entry 47). One that R172 discards in RESYNC is noted as a foreign recap all the same
(DESIGN CHOICE, log entry 59). -/
def State.takeHead (s : State) (b : Bounds) (f : RxFrame) : State :=
  match parseHead f.body with
  | none => if f.own then s.closeStream.endOwnRecap else s
  | some (stamp, founding) =>
    if later stamp b.x then (if f.own then s.closeStream.endOwnRecap else s)
    else if f.own then s.takeOwnHead b
    else (s.noteForeign f.sender founding).joinerHead b.x f.sender founding

/-- R174: the collection fails. -/
def State.failCollection (s : State) : State := (s.withMon { s.mon with collecting := none }).askAgain

/-- R172: a cut joins the image in its order; skipped where its identifier is held or 32 cuts are. -/
def imageCut (pl : Plan) (c : Cut) : Plan :=
  if (findCut pl.cuts c.id).isSome ∨ Config.cutCapacity ≤ pl.cuts.length then pl
  else { pl with cuts := insertCut c pl.cuts }

/-- R172: a pace entry joins the image; skipped where its PSN is held or 64 entries are. -/
def imagePace (pl : Plan) (p : Pace) : Plan :=
  if (paceAt pl.paces p.psn).isSome ∨ Config.paceCapacity ≤ pl.paces.length then pl
  else { pl with paces := insertPace p pl.paces }

/-- R172: a context joins the image; skipped where the origin's context is not IDLE. -/
def imageSpan (pl : Plan) (c : Span) : Plan := if (pl.spanOf c.origin).isSome then pl else pl.setSpan c

/-- R172, R190: the image with the entry of a recap frame; `none` for an encoding that is not permitted. -/
def imageWith (r : Collecting) (f : RxFrame) : Option Plan :=
  match f.kind with
  | .recapCut => (parseCut f.body).map (imageCut r.image)
  | .recapPace => (parseRecapPace f.body).map (imagePace r.image)
  | .recapSpan => (parseRecapSpan r.x0 f.body).map (imageSpan r.image)
  | _ => some r.image

/-- R172, R190: a RECAP-CUT, RECAP-PACE or RECAP-SPAN taken at intake. One with an encoding that is not permitted loads
the foreign recap's silence count like any other (DESIGN CHOICE, log entry 47). -/
def State.takeImage (s : State) (f : RxFrame) : State :=
  if f.own then s
  else
    let s := s.renewForeign f.sender
    match s.mon.collecting with
    | none => s
    | some r =>
      if r.sender ≠ f.sender then s
      else
        match imageWith r f with
        | none => s.failCollection
        | some image =>
          s.withMon { s.mon with collecting := some { r with image := image, silence := Config.recapSilence } }

/-- R173: a MARK or PACE frame handed on at `x` is recorded; an overflow fails the collection. -/
def State.recordFrame (s : State) (x : Slot) (place : Nat) (f : RxFrame) : State :=
  match s.mon.collecting with
  | none => s
  | some r =>
    if f.kind = .rescind then
      if Config.rescindMemory ≤ r.rescinds.length then s.failCollection
      else s.withMon { s.mon with collecting := some { r with rescinds := r.rescinds ++ [⟨f, x, place⟩] } }
    else if Config.laterFrames ≤ r.laterFrames.length then s.failCollection
    else s.withMon { s.mon with collecting := some { r with laterFrames := r.laterFrames ++ [⟨f, x, place⟩] } }

/-! ## Adoption (R175, R176) -/

/-- R173, R176: the frames recorded for `y`, in the order of their places. -/
def Collecting.framesAt (r : Collecting) (y : Slot) : List RxFrame :=
  (List.range Config.intakeQuota).flatMap (fun k =>
    ((r.laterFrames ++ r.rescinds).filter (fun d => d.hsn == y && d.place == k)).map Recorded.frame)

/-- R176: frames taken again in their order. -/
def Plan.takeFrames (pl : Plan) (b : Bounds) (fs : List RxFrame) : Plan :=
  fs.foldl (fun pl f => (pl.judgeFrame b f).plan) pl

/-- The replay: a plan, its schedule point, and the bounds of the intake it has reached. -/
structure Replay where
  plan : Plan
  point : SchedPoint
  bounds : Bounds
  deriving DecidableEq, Repr

/-- R176: the replay of one HSN `y` after the snapshot's. -/
def Replay.step (p : Replay) (r : Collecting) (y : Slot) : Replay :=
  let pt := p.plan.outStep p.point
  let pl := (p.plan.retire pt.psn).expireSpans y
  let b := pl.boundsAt pt y
  ⟨pl.takeFrames b (r.framesAt y), pt, b⟩

/-- R176: the replay of `n` HSNs from `y` on. -/
def Replay.steps (p : Replay) (r : Collecting) (y : Slot) : Nat → Replay
  | 0 => p
  | n + 1 => (p.step r y).steps r (y + 1) n

/-- R176: the snapshot point that a RECAP-END carries. Where its repeat index exceeds the count of the image's fill, no repeat
is owed (DESIGN CHOICE, log entry 57). -/
def RecapEnd.point (e : RecapEnd) (image : Plan) : SchedPoint :=
  ⟨e.x0, e.x0 - slots e.delay, e.rep, fillAt image.paces (e.x0 - slots e.delay) - e.rep⟩

/-- R176: the bounds of the intake of the snapshot. -/
def RecapEnd.bounds (e : RecapEnd) : Bounds :=
  ⟨e.x0, e.x0 - slots e.delay + slots e.horizonOffset, endBound e.x0, dist e.x0 (e.x0 - slots e.delay)⟩

/-- R176: the replay from the image at `x0` to the intake of `x1`. -/
def replayOf (r : Collecting) (e : RecapEnd) (x1 : Slot) : Replay :=
  (Replay.mk (r.image.takeFrames e.bounds (r.framesAt e.x0)) (e.point r.image) e.bounds).steps r (e.x0 + 1)
    (x1 - e.x0).toNat

/-- R175: the checks of a RECAP-END. -/
def endChecks (r : Collecting) (e : RecapEnd) : Bool :=
  e.x0 == r.x0 && e.cuts == r.image.cuts.length && e.paces == r.image.paces.length && e.spans == r.image.spans.length &&
    e.digest == r.image.digest

/-- R150: the last pace PSN at a recap adoption. -/
def Regulator.takePlan (g : Regulator) (paces : List Pace) : Regulator :=
  match paces.getLast? with
  | none => g
  | some e => { g with lastPace := laterPace g.lastPace e.psn }

/-- R137, R140: the egress at an adoption at `x`; in RESYNC the next play is compared. -/
def State.adoptPoint (s : State) (pl : Plan) (pt : SchedPoint) (x : Slot) : Egress :=
  let e := s.egress.setPoint pt
  match s.egress.point with
  | some old =>
    if s.mon.mode.isResync && jumps s.plan pl old pt (s.egress.nextStepHsn x) then { e with jump := true } else e
  | none => e

/-- R176: the state that an adoption enters. -/
def Mode.adopted : Mode → Mode
  | .resync origin => origin.mode
  | _ => .filling

/-- The resync origin of a state. -/
def Mode.origin : Mode → Origin
  | .aligned => .aligned
  | _ => .filling

/-- R176: the adoption of a replayed plan at the intake of `x`. -/
def State.adopt (s : State) (r : Collecting) (e : RecapEnd) (p : Replay) (x : Slot) : State :=
  let pl := p.plan.retire p.point.psn
  let s' :=
    (((s.withEgress (s.adoptPoint pl p.point x)).withPlan pl).withReg (s.reg.takePlan pl.paces)).withMon
      { s.mon with
        mode := s.mon.mode.adopted, era := some ⟨e.founding, e.tEra⟩, collecting := none, retry := none }
  let s' := s'.cancelJoin
  if r.lost then s'.enterResync s'.mon.mode.origin else s'

/-- R171 to R176: a RECAP-END taken at intake; the bounds of a replay where one was adopted. -/
def State.takeEnd (s : State) (x : Slot) (f : RxFrame) : State × Option Bounds :=
  if f.own then
    (match s.mon.ownRecap with
      | .inProgress _ _ => s.endOwnRecap
      | _ => s, none)
  else
    let s := s.endForeign f.sender
    if !s.mon.mode.wantsRecap then (s, none)
    else
      match s.mon.collecting with
      | none => (s.askAgain, none)
      | some r =>
        if r.sender ≠ f.sender then (s, none)
        else
          match parseRecapEnd f.body with
          | none => (s.failCollection, none)
          | some e =>
            if endChecks r e then (s.adopt r e (replayOf r e x) x, some (replayOf r e x).bounds)
            else (s.failCollection, none)

/-! ## The monitor's strobe (R160, R166 to R168, R174) -/

/-- The slot-counted timers at a strobe; a timer at 0 is due. -/
def Monitor.tick (m : Monitor) : Monitor :=
  { m with
    listen := m.listen.map (· - 1)
    retry := m.retry.map (· - 1)
    foreign := m.foreign.map (fun r => { r with silence := r.silence - 1 })
    collecting := m.collecting.map (fun r => { r with silence := r.silence - 1 }) }

/-- R160: the listen timer is due. -/
def Monitor.listenDue (m : Monitor) : Bool := m.mode == .listening && m.listen == some 0

/-- R167: the join retry timer is due. -/
def Monitor.retryDue (m : Monitor) : Bool := m.retry == some 0

/-- R174: the silence count of the collecting record is due. -/
def Monitor.collectDue (m : Monitor) : Bool := m.collecting.any (fun r => r.silence == 0)

/-- R168: the silence count of the foreign recap is due. -/
def Monitor.foreignDue (m : Monitor) : Bool := m.foreign.any (fun r => r.silence == 0)

/-- R160: the listen timer's expiry, where it is due. -/
def State.expireListen (s : State) (c : Settings) (x : Slot) : State := if s.mon.listenDue then s.found c x else s

/-- R167: the join retry timer's expiry, where it is due. -/
def State.expireRetry (s : State) : State := if s.mon.retryDue then s.askAgain else s

/-- R174: the collecting record's silence, where it is due. -/
def State.expireCollect (s : State) : State := if s.mon.collectDue then s.failCollection else s

/-- R168: the foreign recap's silence, where it is due. -/
def State.expireForeign (s : State) : State :=
  if s.mon.foreignDue then s.withMon { s.mon with foreign := none } else s

/-- Every expiry of the monitor that is due at `x`. -/
def State.expireMonitor (s : State) (c : Settings) (x : Slot) : State :=
  (((s.expireCollect).expireForeign).expireRetry).expireListen c x

/-- R166: a RESYNC station without a peer returns to its resync origin. -/
def State.leaveResync (s : State) (origin : Origin) : State := ((s.withMode origin.mode).cancelJoin).withRetry none

/-- R166, R167: the peer checks at the strobe of `x`. -/
def State.checkPeers (s : State) (x : Slot) : State :=
  if s.mon.collecting.isSome || peerServes s.mon.peers x then s
  else
    match s.mon.mode with
    | .joining => s.cancelJoin.enterListening
    | .resync origin => s.leaveResync origin
    | _ => s

/-- The monitor's strobe at `x`: the expiries due are taken before the peer check (DESIGN CHOICE, log entry 53); with
`ownSteps` they are left to their own commands, after it (log entry 6). -/
def State.monitorStrobe (s : State) (c : Settings) (x : Slot) (ownSteps : Bool) : State :=
  let s := s.withMon s.mon.tick
  let s := if ownSteps then s else s.expireMonitor c x
  s.checkPeers x

/-- R161: the monitor at REFERENCE-LOST. -/
def State.loseMonitor (s : State) : State := s.endOwnRecap.withMode .referenceLost

end Sys2Proof.Machine
end

