-- ==== Sys2Proof/Machine/Intake.lean ====
section
/-! DEFINITION. The intake (R100, R101): the batch of one strobe and the handler of each of its frames. -/

namespace Sys2Proof.Machine

/-- The intake in progress: the state, the bounds in force where there is a schedule, and the cuts inserted so far. -/
structure Intake where
  state : State
  bounds : Option Bounds
  cuts : List Cut
  deriving DecidableEq, Repr

/-- R68, R127: a refused own frame pulses REFUSED. -/
def State.pulseIfRefused (s : State) (own : Bool) (reason : Option Reason) : State :=
  if own && reason.isSome then s.pulseRefused else s

/-- R60, R114: the insertion of a cut of this station's origin is reported and pushed. -/
def State.reportCut (s : State) (cut : Option Cut) : State :=
  match cut with
  | some c => if c.id.origin = s.station then s.withOrig (s.orig.push c.id) else s
  | none => s

/-- R117, R127: mark handling of a MARK frame in a state with a schedule. -/
def State.handleMark (s : State) (b : Bounds) (f : RxFrame) : State × Option Cut :=
  let v := s.plan.judgeMark b f.sender f.kind f.body
  (((s.withPlan v.plan).pulseIfRefused f.own v.reason).reportCut v.inserted, v.inserted)

/-- R147: the regulator after the judgement of a PACE frame. An own PACE ends the proposal it names before R157's check, a QUEUED
one too (DESIGN CHOICE, log entry 23). -/
def Regulator.afterPace (r : Regulator) (c : Settings) (x : Slot) (f : RxFrame) (adopted : Option Pace) : Regulator :=
  let r := match adopted with
    | some e => r.adopt c x e
    | none => r
  match parsePace f.body with
  | some (_, p, _) => if f.own then r.endProposal p else r
  | none => r

/-- R145 to R147: the adoption or refusal of a PACE frame in a state with a schedule. -/
def State.handlePace (s : State) (c : Settings) (b : Bounds) (f : RxFrame) : State :=
  let v := s.plan.judgePace b f.body
  ((s.withPlan v.plan).withReg (s.reg.afterPace c b.x f v.adopted)).pulseIfRefused f.own v.reason

/-- R101: a MARK frame of the batch; without a schedule it is discarded (R117). -/
def Intake.mark (k : Intake) (f : RxFrame) : Intake :=
  match k.bounds with
  | some b =>
    if k.state.mon.mode.hasSchedule then
      { k with state := (k.state.handleMark b f).1, cuts := k.cuts ++ (k.state.handleMark b f).2.toList }
    else k
  | none => k

/-- R101: a PACE frame of the batch; without a schedule it is discarded (R145). -/
def Intake.pace (k : Intake) (c : Settings) (f : RxFrame) : Intake :=
  match k.bounds with
  | some b => if k.state.mon.mode.hasSchedule then { k with state := k.state.handlePace c b f } else k
  | none => k

/-- R101: a RECAP-END; the frames after an adoption are judged against the replay's bounds (R176). Their projected delay starts
from the replay's delay too, whatever the step at `x` has played (DESIGN CHOICE, log entry 60). -/
def Intake.recapEnd (k : Intake) (x : Slot) (f : RxFrame) : Intake :=
  let (s, b) := k.state.takeEnd x f
  { k with state := s, bounds := b <|> k.bounds }

/-- R101: the handler of a frame follows from its kind. -/
def Intake.handle (k : Intake) (c : Settings) (x : Slot) (f : RxFrame) : Intake :=
  match f.kind with
  | .pace => k.pace c f
  | .recapHead => { k with state := k.state.takeHead (k.bounds.getD ⟨x, 0, 0, 0⟩) f }
  | .recapCut => { k with state := k.state.takeImage f }
  | .recapPace => { k with state := k.state.takeImage f }
  | .recapSpan => { k with state := k.state.takeImage f }
  | .recapEnd => k.recapEnd x f
  | .join => { k with state := k.state.takeJoin x f }
  | .hold => k
  | .resume => k
  | .beacon => k
  | _ => k.mark f

/-- R101, R173: in JOINING and RESYNC each MARK and PACE is then handed to the monitor. -/
def Intake.record (k : Intake) (x : Slot) (place : Nat) (f : RxFrame) : Intake :=
  if k.state.mon.mode.wantsRecap && (f.kind.isMark || f.kind == .pace) then
    { k with state := k.state.recordFrame x place f }
  else k

/-- R100, R101: one frame of the batch leaves the queue, is handled, and is handed to the monitor. -/
def Intake.take (k : Intake) (c : Settings) (x : Slot) (place : Nat) (f : RxFrame) : Intake :=
  (({ k with state := k.state.dropReceived } : Intake).handle c x f).record x place f

/-- R100: the frames of the batch in queue order, from place `place` on. -/
def Intake.takeAll (k : Intake) (c : Settings) (x : Slot) (place : Nat) : List RxFrame → Intake
  | [] => k
  | f :: rest => (k.take c x place f).takeAll c x (place + 1) rest

/-- R100: the batch fixed when the strobe is taken. -/
def batchOf (received : List RxFrame) : List RxFrame := received.take Config.intakeQuota

/-- R63, R126: the plan after the retirement due at `x`, where `q` is played or scheduled, and after the span expiry due
at `x` where the intake carries it out. -/
def Plan.retireDue (pl : Plan) (q : Slot) (x : Slot) (expire : Bool) : Plan :=
  if expire then (pl.retire q).expireSpans x else pl.retire q

/-- R63, R70, R126: the retirement due at `x`, with `pt` the play of `x`. Where the step at `x` has not been taken yet the
schedule point moves to its play first, so that retirement changes no scheduled play: the step then plays the point as it
stands (log entry 5). -/
def State.beforeIntake (s : State) (pt : SchedPoint) (x : Slot) (expire : Bool) : State :=
  (s.withEgress (s.egress.setPoint pt)).withPlan (s.plan.retireDue pt.psn x expire)

/-- R10, R57: the intake before its first frame. With `ownSteps` an empty batch leaves a due span to SPAN_TIMEOUT (log
entry 6). -/
def State.openIntake (s : State) (x : Slot) (ownSteps : Bool) : Intake :=
  match s.egress.point with
  | some pt =>
    if s.mon.mode.hasSchedule then
      let pt := s.plan.stepTo pt x
      let s := s.beforeIntake pt x (!ownSteps || !s.traffic.received.isEmpty)
      ⟨s, some (s.plan.boundsAt pt x), []⟩
    else ⟨s, none, []⟩
  | none => ⟨s, none, []⟩

/-- R157: the end of the intake. It is taken as an event of the regulator, so that it starts a new window (R151; DESIGN CHOICE,
log entry 56). -/
def Intake.close (k : Intake) (c : Settings) : State :=
  match k.bounds with
  | some b => (k.state.withReg (k.state.reg.atEvent c b.x)).checkProposal c b k.cuts
  | none => k.state

/-- R100: the intake at the strobe of `x`. -/
def State.intake (s : State) (c : Settings) (x : Slot) (ownSteps : Bool) : State :=
  ((s.openIntake x ownSteps).takeAll c x 0 (batchOf s.traffic.received)).close c

end Sys2Proof.Machine
end

