-- ==== Sys2Proof/Machine/Strobe.lean ====
section
/-! DEFINITION. The house reference unit (1.1) and what every block does at a strobe and at a loss: ORDINARY_STROBE,
RETURN, REFERENCE_BREAK and REFERENCE_LOSS_TIMEOUT. -/

namespace Sys2Proof.Machine

/-! ## The order of the parts (log entry 5) -/

/-- The parts in the order in which a station takes them that is given none. -/
def canonicalParts : List StrobePart := [.traffic, .slotClose, .outputStep, .intake, .proposal, .monitor]

/-- The first mention of each part. -/
def firstMentions : List StrobePart → List StrobePart
  | [] => []
  | p :: rest => p :: (firstMentions rest).filter (· != p)

/-- R152: the proposal event follows the append it takes the report of. -/
def afterClose (parts : List StrobePart) : List StrobePart :=
  if (parts.takeWhile (· != .slotClose)).contains .proposal then
    parts.flatMap (fun p =>
      match p with
      | .slotClose => [.slotClose, .proposal]
      | .proposal => []
      | p => [p])
  else parts

/-- Every part once: the given ones in their order, then the others. -/
def partSequence (o : StrobeOrder) : List StrobePart := afterClose (firstMentions (o.parts ++ canonicalParts))

/-! ## The history entry and the beacon of a strobe (R138, R163) -/

/-- The history holds a pending entry for `x`. -/
def pendingAt (hist : List HistEntry) (x : Slot) : Bool := hist.any (fun e => e.hsn == x && e.digest.isNone)

/-- R67, R138: the entry for `x` takes the digest at `x`. -/
def fillDigest (hist : List HistEntry) (x : Slot) (d : Digest) : List HistEntry :=
  hist.map (fun e => if e.hsn = x ∧ e.digest.isNone then { e with digest := some d } else e)

/-- R138, R163: once no change of the plan is due at `x` any more, the pending entry for `x` is completed and the beacon
due at `x` is built. -/
def State.completeEntryAt (s : State) (c : Settings) (x : Slot) : State :=
  if pendingAt s.egress.history x && !s.plan.spans.any (·.due x) then
    (s.withEgress { s.egress with history := fillDigest s.egress.history x s.plan.digest }).buildBeacon c x
  else s

/-! ## The parts (R2) -/

/-- R94, R99: the cue traffic unit at the strobe of `x`. -/
def State.trafficStrobe (s : State) (x : Slot) (ownSteps : Bool) : State :=
  let s := s.withHeldBy (tickHeld s.traffic.heldBy)
  if ownSteps then s else (s.withHeldBy (dropLapsed s.traffic.heldBy)).withdrawStale x

/-- R7, R43, R44, R110: the slot close at the strobe of `h`, with the mask-tag request of the record closed. -/
def State.closeAndTag (s : State) (c : Settings) (h : Slot) : State :=
  match s.ingress.period with
  | some x => if (s.ingress.record c x).1.maskTag then (s.closeSlot c h).maskTagRequest c x else s.closeSlot c h
  | none => s.closeSlot c h

/-- R130, R141, R15, R16: the output of the strobe of `x`, with the removal of the station state it finds: at the strobe of a
founding or a cold adoption that comes before it, already R15's (DESIGN CHOICE, log entry 51). -/
def State.strobeOutput (s : State) (c : Settings) (x : Slot) : State :=
  if s.mon.mode.hasSchedule then s.outputStep c x else (s.substituteStep c x).removeAged c.planCode x

/-- One part of the ordinary strobe of `x`. -/
def State.takePart (s : State) (c : Settings) (x : Slot) (ownSteps : Bool) : StrobePart → State
  | .traffic => s.trafficStrobe x ownSteps
  | .slotClose => s.closeAndTag c x
  | .outputStep => s.strobeOutput c x
  | .intake => s.intake c x ownSteps
  | .proposal => s.proposalEvent c x
  | .monitor => s.monitorStrobe c x ownSteps

/-- R138, R163: the part is the second of the output step and the intake, `done` being the parts taken before it. -/
def completesEntry (p : StrobePart) (done : List StrobePart) : Bool :=
  (p == .intake && done.contains .outputStep) || (p == .outputStep && done.contains .intake)

/-- R2, R163: the parts of the ordinary strobe of `x` in their order, `done` being those taken; when the second of the
output step and the intake is taken, the history entry for `x` is completed and the beacon due is built. -/
def State.takeParts (s : State) (c : Settings) (x : Slot) (ownSteps : Bool) (done : List StrobePart) :
    List StrobePart → State
  | [] => s
  | p :: rest =>
    (if completesEntry p done then (s.takePart c x ownSteps p).completeEntryAt c x
      else s.takePart c x ownSteps p).takeParts c x ownSteps (p :: done) rest

/-- Expiries that were due and not taken by their own commands (log entry 6). -/
def State.settle (s : State) (c : Settings) : State :=
  match s.ref.hsn with
  | none => s
  | some x =>
    let s := (s.withHeldBy (dropLapsed s.traffic.heldBy)).withdrawStale x
    let s := s.expireMonitor c x
    (if s.mon.mode.hasSchedule then s.withPlan (s.plan.expireSpans x) else s).completeEntryAt c x

/-- R1: the reference unit after a strobe of `h`. -/
def RefUnit.strobe (h : Slot) : RefUnit := ⟨some h, .present, true⟩

/-- R2: an ordinary strobe of a configured station. -/
def State.ordinaryStrobe (s : State) (c : Settings) (h : Slot) (o : StrobeOrder) : State :=
  let s := (s.settle c).withRef (.strobe h)
  s.takeParts c h o.ownSteps [] (partSequence o)

/-! ## Loss and return (R3 to R5) -/

/-- R3, R46, R103, R161: a loss of reference of a configured station. -/
def State.loseReference (s : State) (c : Settings) : State :=
  let s := s.settle c
  (((s.withRef { s.ref with flag := .lost, timerRunning := false }).loseIngress c).loseTraffic).loseMonitor

/-- R18, R32: the store discard at a return. -/
def State.discardStore (s : State) (c : Settings) : State :=
  (s.withIndex []).withStore (s.store.discard c.planCode)

/-- R104: the cue traffic unit at a return. -/
def State.returnTraffic (s : State) : State :=
  let s := s.emptyReceived.withdrawMarks
  s.withHeldBy (dropLapsed (tickHeld s.traffic.heldBy))

/-- R4, R47, R104, R143, R160: a return of a configured station. -/
def State.takeReturn (s : State) (c : Settings) (h : Slot) : State :=
  let s := (s.withRef (.strobe h)).returnEgress c h
  let s := (s.discardStore c).withIngress (.opening c h 0)
  s.returnTraffic.enterListening

/-! ## A strobe of any kind (log entry 4) -/

/-- The strobe of `h` is an ordinary strobe (R2). -/
def RefUnit.follows (r : RefUnit) (h : Slot) : Bool := r.hsn.any (fun x => h == x + 1)

/-- A strobe of a configured station: a return while LOST, an ordinary strobe where `h` follows, else a break. -/
def State.configuredStrobe (s : State) (c : Settings) (h : Slot) (o : StrobeOrder) : State :=
  if s.ref.flag = .lost then s.takeReturn c h
  else if s.ref.follows h then s.ordinaryStrobe c h o
  else (s.loseReference c).takeReturn c h

/-- R144, R180, R183: a strobe of a station without settings: the reference unit takes it, and in CONFIG-FAULT the egress
sends empty bursts. -/
def State.bareStrobe (s : State) (h : Slot) : State :=
  let s := s.withRef (.strobe h)
  if s.mon.mode = .configFault then s.faultOutput h else s

/-- A strobe that carries `h`, taken as the reference flag and the current HSN decide (R2, R4, R5). -/
def State.takeStrobe (s : State) (h : Slot) (o : StrobeOrder) : State :=
  match s.settings with
  | some c => s.configuredStrobe c h o
  | none => s.bareStrobe h

/-- ORDINARY_STROBE (R2). -/
def execOrdinaryStrobe (h : Slot) (o : StrobeOrder) (s : State) : Host.Outcome State Fault Refusal :=
  .next (s.takeStrobe h o)

/-- RETURN (R4). -/
def execReferenceReturn (h : Slot) (s : State) : Host.Outcome State Fault Refusal := .next (s.takeStrobe h ⟨[], false⟩)

/-- REFERENCE_BREAK (R5). -/
def execReferenceBreak (h : Slot) (s : State) : Host.Outcome State Fault Refusal := .next (s.takeStrobe h ⟨[], false⟩)

/-- R3: the reference-loss timer expires. -/
def State.timeoutReference (s : State) : State :=
  match s.settings with
  | some c => s.loseReference c
  | none => s.withRef { s.ref with flag := .lost, timerRunning := false }

/-- REFERENCE_LOSS_TIMEOUT (R3); no effect while the timer is stopped. -/
def execReferenceLossTimeout (s : State) : Host.Outcome State Fault Refusal :=
  if s.ref.timerRunning then .next s.timeoutReference else .next s

end Sys2Proof.Machine
end

