-- ==== Sys2Proof/Machine/Expiry.lean ====
section
/-! DEFINITION. The expiries of the slot-counted timers that the table gives rows of their own: each acts where it is due
at the current HSN, and has no effect otherwise (log entries 6 and 7). -/

namespace Sys2Proof.Machine

/-- LISTEN_TIMER_EXPIRY (R160): the station founds an era. -/
def execListenTimerExpiry (s : State) : Host.Outcome State Fault Refusal :=
  match s.settings, s.ref.hsn with
  | some c, some x => .next (s.expireListen c x)
  | _, _ => .next s

/-- JOIN_RETRY_EXPIRY (R167). -/
def execJoinRetryExpiry (s : State) : Host.Outcome State Fault Refusal := .next s.expireRetry

/-- COLLECT_SILENCE_EXPIRY (R174). -/
def execCollectSilenceExpiry (s : State) : Host.Outcome State Fault Refusal := .next s.expireCollect

/-- FOREIGN_RECAP_EXPIRY (R168). -/
def execForeignRecapExpiry (s : State) : Host.Outcome State Fault Refusal := .next s.expireForeign

/-- R126: the context of `origin` is due at `x`. -/
def Plan.spanDue (pl : Plan) (origin : Station) (x : Slot) : Bool := (pl.spanOf origin).any (·.due x)

/-- SPAN_TIMEOUT (R126): the context returns to IDLE; with the last one due the history entry is completed (R138). -/
def execSpanTimeout (origin : Station) (s : State) : Host.Outcome State Fault Refusal :=
  match s.settings, s.ref.hsn with
  | some c, some x =>
    if s.mon.mode.hasSchedule && s.plan.spanDue origin x then
      .next ((s.withPlan (s.plan.idleSpan origin)).completeEntryAt c x)
    else .next s
  | _, _ => .next s

/-- HOLD_TIMEOUT (R99): the entry whose remaining count has reached 0 is removed. -/
def execHoldTimeout (station : Station) (s : State) : Host.Outcome State Fault Refusal :=
  .next
    (s.withHeldBy (s.traffic.heldBy.filter (fun h => h.station != station || h.remaining != 0)))

/-- MARK_STALE_WITHDRAWAL (R94); no strobe is taken, and no mark withdrawn, while the reference is lost. -/
def execMarkStaleWithdrawal (order : Nat) (s : State) : Host.Outcome State Fault Refusal :=
  match s.entry order, s.ref.hsn with
  | some e, some x =>
    if s.ref.flag = .present ∧ e.staleAt x then .next (s.withdrawEntry e) else .next s
  | _, _ => .next s

end Sys2Proof.Machine
end

