-- ==== Sys2Proof/Machine/Link.lean ====
section
/-! DEFINITION. The cue link controller (chapter 5): BUS_IDLE, COURTESY_GAP_EXPIRY, ARBITRATION_LOST, LINE_FAULT, CLASH,
FRAME_VETOED, SENT, FRAME_RECEIVED, HOLD_RECEIVED, RESUME_RECEIVED and BEACON_RECEIVED. -/

namespace Sys2Proof.Machine

/-! ## The bus idle (R72, R73, R78, R90) -/

/-- R73: the recessive bits read in IDLE when the idle count has come to `n`. -/
def Link.idleBits (l : Link) (n : Nat) : Nat := if l.phase = .idle then n - l.idleCount else n - Config.busIdleBits

/-- R72, R73, R80: the controller once the idle count stands at `n`, at least 11. -/
def Link.atIdle (l : Link) (n : Nat) : Link :=
  { l with
    phase := .idle
    idleCount := n
    awaitIdle := false
    lostPlace := l.lostPlace && decide (n < Config.recoverBits)
    gap := l.gap - l.idleBits n
    drive := .none }

/-- R72: the consecutive recessive bits read stand at `n`; at 11 the phase is IDLE. The offer and the contention come with
the next BUS_IDLE (log entry 15). -/
def Link.counted (l : Link) (n : Nat) : Link :=
  if Config.busIdleBits ≤ n then l.atIdle n else { l with idleCount := n }

/-- R73: the controller contends: it holds a current frame, its gap is 0 and it has not lost its place. -/
def Link.mayContend (l : Link) : Bool := l.current.isSome && l.gap == 0 && !l.lostPlace

/-- R73, R72: the start bit is sent, and read back dominant. -/
def Link.contend (l : Link) : Link :=
  if l.mayContend then { l with phase := .arbitrating, attempt := true, idleCount := 0 } else l

/-- R78, R90, R93: the offer of a bus idle becomes the current frame. -/
def State.takeOffer (s : State) : State :=
  let s := s.purgeCancelled
  let s := s.withCurrent s.traffic.offer
  s.withLink s.link.contend

/-- R73: a bus idle with the idle count at `n`. Under CLASH the controller takes no offer (R78, R84). -/
def State.busIdle (s : State) (n : Nat) : State :=
  let s := s.withLink (s.link.atIdle n)
  if s.link.clash then s else s.takeOffer

/-- The controller is connected and no attempt of its own is in flight. -/
def Link.listens (l : Link) : Bool := l.connected && !l.attempt

/-- BUS_IDLE (R73); fewer than 11 recessive bits are no bus idle. -/
def execBusIdle (n : Nat) (s : State) : Host.Outcome State Fault Refusal :=
  if s.link.listens && decide (Config.busIdleBits ≤ n) then .next (s.busIdle n) else .next s

/-- COURTESY_GAP_EXPIRY (R73): the countdown reaches 0 on the idle line (log entry 15). -/
def execCourtesyGapExpiry (s : State) : Host.Outcome State Fault Refusal :=
  if s.link.listens && s.link.phase == .idle && s.link.gap != 0 then .next (s.busIdle (s.link.idleCount + s.link.gap))
  else .next s

/-! ## The attempt and its ends (R72, R77, R78) -/

/-- What passes with time alone: the key that is being sent ends, its last bit sent and read back alike, and the
controller has won the line (R72, log entry 14). -/
def State.elapse (s : State) : State :=
  if s.link.phase = .arbitrating then s.withLink { s.link with phase := .transmitting } else s

/-- R72: an attempt of the station's own is in its start bit or key. -/
def Link.sendsKey (l : Link) : Bool := l.attempt && l.phase == .arbitrating

/-- R72: the controller has won the line and is sending the rest of its frame. -/
def Link.sendsRest (l : Link) : Bool := l.attempt && l.phase == .transmitting

/-- R77, R72: the controller stops driving and goes to RECEIVING. -/
def Link.receiving (l : Link) : Link := { l with phase := .receiving, idleCount := 0, drive := .none }

/-- R77: a lost arbitration keeps the frame current, its count unchanged; the bit read is dominant. -/
def State.loseArbitration (s : State) : State := s.endAttempt.withLink s.endAttempt.link.receiving

/-- ARBITRATION_LOST (R77); no effect but in ARBITRATING (log entry 14). -/
def execArbitrationLost (s : State) : Host.Outcome State Fault Refusal :=
  if s.link.sendsKey then .next s.loseArbitration else .next s

/-- R77, R84: a line fault counts as a veto of the attempt. The controller holds no frame until the line is idle, which it
is already where `recessive`, the consecutive recessive bits read, is 11 or more (a fault in the start bit). -/
def State.lineFault (s : State) (recessive : Nat) : State :=
  s.vetoAttempt.withLink ({ s.vetoAttempt.link.receiving with awaitIdle := true }.counted recessive)

/-- LINE_FAULT (R77, R84); no effect without an attempt. -/
def execLineFault (s : State) (recessive : Nat := 1) : Host.Outcome State Fault Refusal :=
  if s.link.attempt then .next (s.lineFault recessive) else .next s

/-- R72: a node that took a frame sets its idle count to 0 at the first bit of the end field; the bits read after it
come with the next BUS_IDLE (log entry 15). The station has driven `d` in the veto slot. -/
def Link.afterSlot (l : Link) (phase : BusPhase) (d : SlotDrive) : Link :=
  { l with phase := phase, idleCount := 0, drive := d }

/-! ## The veto slot (R79 to R81) -/

/-- R79: the veto slot of a node that decides to veto or not, where the veto bit is read as `vetoBit` from the others. -/
def slotDrive (vetoes vetoBit : Bool) : SlotDrive := ⟨vetoes, vetoes || vetoBit⟩

/-- R80 2, R81, R86: the full receive queue cannot take a frame of this kind, and the reference is PRESENT. -/
def State.vetoesFull (s : State) (kind : Kind) : Bool := kind.queued && s.queueFull && s.ref.flag == .present

/-- The frame of a reference. -/
def State.frameOf (s : State) : TxRef → Option TxFrame
  | .general o => (s.entry o).bind TxEntry.frame
  | .beacon => s.traffic.beacon.map Holder.frame
  | .flow => s.traffic.flow.map Holder.frame

/-- R81: the station vetoes its own current frame. -/
def State.vetoesOwn (s : State) : Bool := (s.link.current.bind s.frameOf).any (fun f => s.vetoesFull f.kind)

/-- R78, R79, R81: the own frame is vetoed. The station drives the echo bit where it reads the veto bit dominant, its own or
another's; a slot whose echo bit alone is dominant it leaves recessive. -/
def State.ownVeto (s : State) (slot : VetoSlot) : State :=
  s.vetoAttempt.withLink (s.vetoAttempt.link.afterSlot .transmitting (slotDrive s.vetoesOwn (slot == .vetoBit)))

/-- FRAME_VETOED (R78, R79); no effect without an attempt. -/
def execFrameVetoed (s : State) (slot : VetoSlot := .vetoBit) : Host.Outcome State Fault Refusal :=
  if s.link.attempt then .next (s.ownVeto slot) else .next s

/-! ## SENT (R81, R82, R91, R96) -/

/-- R91: the courtesy gap after a frame of a class. -/
def State.loadGap (s : State) (k : Kind) : State :=
  match s.settings with
  | some c => if 2 ≤ k.cls then s.withLink { s.link with gap := c.courtesyGap } else s
  | none => s

/-- R91, R93: what the owner of a sent frame is told. -/
def TxEntry.sentFate (e : TxEntry) : Fate := if e.cancelAsked then .sentAfterCancel else .sent

/-- R96, R169: a head that was sent, after cancel too, holds the stream's entry, empty, until it is taken at intake. With
the reference lost a cancelled head's stream is closed already (R103, log entry 17). -/
def State.holdsHead (s : State) (e : TxEntry) : Bool :=
  e.hasKind .recapHead && (!e.cancelAsked || s.ref.flag == .present)

/-- R96: the stream's entry once its frame has been sent: held after a head, freed after an END and where the stream was
closed during the attempt, filled again otherwise. -/
def State.streamSent (s : State) (e : TxEntry) : State :=
  if s.holdsHead e then s.changeEntry e.order (fun e => { e with frame := none, vetoes := 0, cancelAsked := false })
  else if e.cancelAsked || e.hasKind .recapEnd then s.freeEntry e.order
  else (s.changeEntry e.order (fun e => { e with frame := none, vetoes := 0 })).nextStream

/-- R91, R95, R98: the entry or holder of a frame that was sent. -/
def State.afterSent (s : State) : TxRef → State
  | .general o =>
    match s.entry o with
    | some e => if e.stream then (s.tell e e.sentFate).streamSent e else (s.freeEntry o).tell e e.sentFate
    | none => s
  | .beacon =>
    s.withTraffic
      { s.traffic with beacon := s.traffic.beaconNext.map (fun f => ⟨f, 0, false, false⟩), beaconNext := none }
  | .flow =>
    s.withTraffic { s.traffic with flow := s.traffic.flowNext.map (fun f => ⟨f, 0, false, false⟩), flowNext := none }

/-- R82: self-reception of a frame that stood; a full queue without reference does not take it (R81). -/
def State.selfReceive (s : State) (f : TxFrame) : State :=
  if f.kind.queued && !s.queueFull then s.placeFrame ⟨s.station, f.kind, f.body, true⟩ else s

/-- R78, R91: the frame of a reference has stood. -/
def State.stood (s : State) (r : TxRef) (f : TxFrame) : State :=
  let s := s.withLink { s.link with attempt := false, current := none }
  let s := s.withLink (s.link.afterSlot .transmitting .none)
  ((s.afterSent r).loadGap f.kind).selfReceive f

/-- SENT (R91); no effect without an attempt. -/
def execSent (s : State) : Host.Outcome State Fault Refusal :=
  if s.link.attempt then
    match s.link.current with
    | none => .next s
    | some r =>
      match s.frameOf r with
      | some f => if s.vetoesFull f.kind then .next (s.ownVeto .vetoBit) else .next (s.stood r f)
      | none => .next s
  else .next s

/-! ## Reception (R80, R82, R83) -/

/-- R82: a frame that stands is handed on by its kind. -/
def State.handOn (s : State) (sender : Station) (kind : Kind) (body : List Byte) : State :=
  match kind with
  | .hold => s.takeHold sender
  | .resume => s.takeResume sender
  | .beacon => s.takeBeacon sender body
  | k => s.placeFrame ⟨sender, k, body, false⟩

/-- R80, R72: the receiver has lost its place in the frame, having driven `d`; it counts idle from the line alone, on which
the last `trailing` bits were recessive. -/
def Link.losePlace (l : Link) (trailing : Nat) (d : SlotDrive) : Link :=
  { l with phase := .receiving, awaitIdle := true, lostPlace := true, drive := d }.counted trailing

/-- R72, R80: the receiver has placed the frame's veto slot, where it drives `d`, and its end field. -/
def Link.placed (l : Link) (d : SlotDrive) : Link := { l.afterSlot .receiving d with lostPlace := false }

/-- What a receiver reads of a frame after its check, and knows of it when the line has next fallen idle. -/
structure SlotRead where
  vetoBit : Bool
  echoBit : Bool
  lateDominant : Bool
  trailing : Nat
  deriving DecidableEq, Repr

/-- What the line read says after the check. -/
def slotReadOf (r : LineRead) : SlotRead := ⟨r.vetoBit, r.echoBit, r.lateDominant, r.trailing⟩

/-- A frame that stands with nothing to be read after its check. -/
def SlotRead.stands : SlotRead := ⟨false, false, false, 0⟩

/-- R79: the node takes the frame as vetoed: it reads a dominant bit in the veto slot, its own or another's. -/
def SlotRead.vetoed (v : SlotRead) (d : SlotDrive) : Bool := v.vetoBit || v.echoBit || d.veto || d.echo

/-- R80 1: what the receiver drives after a line failure: it vetoes unless it is QUIET. -/
def State.failureDrive (s : State) (v : SlotRead) : SlotDrive := slotDrive (!s.link.quiet) v.vetoBit

/-- R80 2: what the receiver drives after a frame without a line failure: it vetoes for a full queue. -/
def State.cleanDrive (s : State) (kind : Kind) (v : SlotRead) : SlotDrive := slotDrive (s.vetoesFull kind) v.vetoBit

/-- R80 1, R83: a frame with a line failure whose veto slot was placed. A frame that stood, at a QUIET receiver, is
reported. A dominant bit after its own veto slot means that the slot was misplaced. -/
def State.takeFailure (s : State) (sender : Station) (v : SlotRead) : State :=
  let d := s.failureDrive v
  let l := s.link.countFailure
  if v.lateDominant then (s.withLink (l.losePlace v.trailing d)).frameLost (some sender)
  else if v.vetoed d then s.withLink (l.placed d)
  else (s.withLink (l.placed d)).frameLost (some sender)

/-- R80 2 and 3, R83: a frame without a line failure: void where it is vetoed, discarded where the queue is full and the
reference lost, handed on where it stands. A vetoed frame too takes one from the veto count, as R83 says of it and against
R79's last words (DESIGN CHOICE, log entry 44). -/
def State.takeClean (s : State) (sender : Station) (kind : Kind) (body : List Byte) (v : SlotRead) : State :=
  let d := s.cleanDrive kind v
  let s := s.withLink (s.link.countClean.placed d)
  if v.vetoed d || (kind.queued && s.queueFull) then s else s.handOn sender kind body

/-- R80: what a receiver makes of a frame. -/
def State.takeRead (s : State) (result : ReadResult) (v : SlotRead) : State :=
  match result with
  | .noFrame => s
  | .lostPlace sender => (s.withLink (s.link.countFailure.losePlace v.trailing .none)).frameLost sender
  | .failure sender => s.takeFailure sender v
  | .clean sender kind body => s.takeClean sender kind body v

/-- The controller takes frames as a receiver (R71, R72). -/
def Link.takes (l : Link) : Bool := l.connected && !l.awaitIdle

/-- An attempt of the station's own has lost the arbitration to the frame it receives (log entry 12). -/
def State.yieldLine (s : State) : State := if s.link.attempt then s.loseArbitration else s

/-- R80: the reception of a frame; no effect while the station is sending the rest of its own frame. -/
def State.receive (s : State) (result : ReadResult) (v : SlotRead) : State :=
  if s.link.takes && !s.link.sendsRest && result != .noFrame then s.yieldLine.takeRead result v else s

/-- FRAME_RECEIVED (R80). -/
def execFrameReceived (r : LineRead) (s : State) : Host.Outcome State Fault Refusal :=
  .next (s.receive (readFrame r.bits) (slotReadOf r))

/-- R82, R87, R99: a HOLD, RESUME or BEACON that stands is handed on; an attempt of the station's own goes on, and
without one the frame is received whole (log entry 13). -/
def State.arrive (s : State) (sender : Station) (kind : Kind) (body : List Byte) : State :=
  if s.link.takes && s.link.attempt then s.handOn sender kind body
  else s.receive (.clean sender kind body) .stands

/-- HOLD_RECEIVED (R99). -/
def execHoldReceived (sender : Station) (s : State) : Host.Outcome State Fault Refusal :=
  .next (s.arrive sender .hold [])

/-- RESUME_RECEIVED (R99). -/
def execResumeReceived (sender : Station) (s : State) : Host.Outcome State Fault Refusal :=
  .next (s.arrive sender .resume [])

/-- BEACON_RECEIVED (R164); a body of another length is a length failure (R75). -/
def execBeaconReceived (sender : Station) (body : List Byte) (s : State) : Host.Outcome State Fault Refusal :=
  if body.length = Kind.beacon.bodyLength then .next (s.arrive sender .beacon body)
  else .next (s.receive (.failure sender) .stands)

/-! ## CLASH (R84, R105) -/

/-- R84, R105: CLASH is set, and every frame to be sent is removed. -/
def State.setClash (s : State) : State :=
  let s := s.purgeAll.endOwnRecap
  s.withLink { s.link with clash := true, attempt := false, current := none }

/-- R84: the line frame that met the own attempt shows a line failure: the attempt counts as a veto; the frame changes no
veto count and reports nothing. A dominant bit after the veto slot it placed means that the place is lost (R80). -/
def State.clashFailure (s : State) (v : SlotRead) : State :=
  let d := s.failureDrive v
  let s := s.vetoAttempt
  s.withLink (if v.lateDominant then s.link.losePlace v.trailing d else s.link.placed d)

/-- R80, R84: the same, where the place in the line frame was lost. -/
def State.clashLost (s : State) (v : SlotRead) : State :=
  s.vetoAttempt.withLink (s.vetoAttempt.link.losePlace v.trailing .none)

/-- R84: recessive sent and dominant read after the key. A line frame that passes its check and has a kind or length
failure is taken as a line failure, and CLASH stays clear, although R84 says of a passed check that it sets CLASH (DESIGN
CHOICE, log entry 45). -/
def State.clashWith (s : State) (r : LineRead) : State :=
  match readFrame r.bits with
  | .clean sender kind body => s.setClash.takeClean sender kind body (slotReadOf r)
  | .noFrame => s
  | .failure _ => s.clashFailure (slotReadOf r)
  | .lostPlace _ => s.clashLost (slotReadOf r)

/-- CLASH (R84); no effect without an attempt. -/
def execClash (r : LineRead) (s : State) : Host.Outcome State Fault Refusal :=
  if s.link.attempt then .next (s.clashWith r) else .next s

end Sys2Proof.Machine
end

