-- ==== Sys2Proof/Machine/Startup.lean ====
section
/-! DEFINITION. Reset and start-up (11.1): RESET and CONFIG_READ_COMPLETE. -/

namespace Sys2Proof.Machine

/-! ## RESET (R179) -/

/-- Power-on leaves page contents unknown (log entry 3); the reset line does not clear a page (R19). -/
def memAfter (cause : ResetCause) (m : Memory) : Memory :=
  match cause with
  | .powerOn => []
  | .resetLine => m

/-- RESET: every block takes its reset values, the straps and the raw contact levels are sampled. The free values
already drawn stay drawn (log entry 37), and the queue is not the station's. -/
def execReset (cause : ResetCause) (straps : Station) (levels : PerContact Level) (s : State) :
    Host.Outcome State Fault Refusal :=
  .next
    { State.reset with
      station := straps
      mem := memAfter cause s.mem
      contacts := .reset levels
      free := s.free
      pending := s.pending }

/-! ## CONFIG_READ_COMPLETE (R181 to R183) -/

/-- R128: what the egress keeps for a lane when the lane plan comes into force. -/
def LaneKind.egress : LaneKind → EgressLane
  | .picture => .picture []
  | .sound => .sound 0
  | .data => .data

/-- R182: the record comes into force. -/
def State.configure (s : State) (c : Settings) : State :=
  let s := (s.withSettings (some c)).withStore { s.store with lanes := fullLanes c.planCode }
  let s := s.withIngress ⟨none, freshEntries c, 0, 0, []⟩
  let s := s.withEgress { s.egress with lanes := c.lanes.map LaneKind.egress }
  (s.withLink { s.link with connected := true }).enterListening

/-- R183: the entry to CONFIG-FAULT. -/
def State.failConfig (s : State) : State := (s.withIndex []).discardPlan.withMode .configFault

/-- CONFIG_READ_COMPLETE (R181); no effect outside CONFIGURING. -/
def execConfigReadComplete (bytes : List Byte) (s : State) : Host.Outcome State Fault Refusal :=
  if s.mon.mode = .configuring then
    match parseRecord bytes with
    | some c => .next (s.configure c)
    | none => .next s.failConfig
  else .next s

end Sys2Proof.Machine
end

