-- ==== Sys2Proof/Machine/Dispatch.lean ====
section
/-! DEFINITION. One arm per command: each calls its meaning. -/

namespace Sys2Proof.Machine

def exec (i : Instr) (s : State) : Host.Outcome State Fault Refusal :=
  match i with
  | .reset cause straps levels => Sys2Proof.Machine.execReset cause straps levels s
  | .configReadComplete bytes => Sys2Proof.Machine.execConfigReadComplete bytes s
  | .ordinaryStrobe hsn order => Sys2Proof.Machine.execOrdinaryStrobe hsn order s
  | .referenceReturn hsn => Sys2Proof.Machine.execReferenceReturn hsn s
  | .referenceBreak hsn => Sys2Proof.Machine.execReferenceBreak hsn s
  | .referenceLossTimeout => Sys2Proof.Machine.execReferenceLossTimeout s
  | .listenTimerExpiry => Sys2Proof.Machine.execListenTimerExpiry s
  | .joinRetryExpiry => Sys2Proof.Machine.execJoinRetryExpiry s
  | .collectSilenceExpiry => Sys2Proof.Machine.execCollectSilenceExpiry s
  | .foreignRecapExpiry => Sys2Proof.Machine.execForeignRecapExpiry s
  | .spanTimeout origin => Sys2Proof.Machine.execSpanTimeout origin s
  | .holdTimeout station => Sys2Proof.Machine.execHoldTimeout station s
  | .markStaleWithdrawal entry => Sys2Proof.Machine.execMarkStaleWithdrawal entry s
  | .refusedPulseExpiry => Sys2Proof.Machine.execRefusedPulseExpiry s
  | .debounceStable contact => Sys2Proof.Machine.execDebounceStable contact s
  | .burstStart position header => Sys2Proof.Machine.execBurstStart position header s
  | .essenceByte position byte => Sys2Proof.Machine.execEssenceByte position byte s
  | .burstEnd position => Sys2Proof.Machine.execBurstEnd position s
  | .busIdle recessive => Sys2Proof.Machine.execBusIdle recessive s
  | .arbitrationLost => Sys2Proof.Machine.execArbitrationLost s
  | .lineFault recessive => Sys2Proof.Machine.execLineFault s recessive
  | .clash read => Sys2Proof.Machine.execClash read s
  | .frameVetoed slot => Sys2Proof.Machine.execFrameVetoed s slot
  | .sent => Sys2Proof.Machine.execSent s
  | .frameReceived read => Sys2Proof.Machine.execFrameReceived read s
  | .holdReceived sender => Sys2Proof.Machine.execHoldReceived sender s
  | .resumeReceived sender => Sys2Proof.Machine.execResumeReceived sender s
  | .beaconReceived sender body => Sys2Proof.Machine.execBeaconReceived sender body s
  | .contactRawLevelChange contact level => Sys2Proof.Machine.execContactRawLevelChange contact level s
  | .outputBurstEnd position => Sys2Proof.Machine.execOutputBurstEnd position s
  | .courtesyGapExpiry => Sys2Proof.Machine.execCourtesyGapExpiry s

end Sys2Proof.Machine
end

