-- ==== Sys2Proof/Machine/Step.lean ====
section
/-! DEFINITION. One step: the command at the front of the queue is taken. -/

namespace Sys2Proof.Machine

/-- The station takes the command at the front of its queue; with an empty queue only time passes: a key that is being sent
ends, and else the block idles (log entries 14 and 32). -/
def step (s : State) : Host.Outcome State Fault Refusal :=
  match s.pending with
  | [] => .next s.elapse
  | i :: rest => exec i (s.withPending rest)

/-- The state with the command that a word spells at the front of its queue; no row of the table gives bits, so no word
spells one (log entry 34). -/
def State.withFetchWord (s : State) (nbits w : Nat) : State :=
  match decodeTableWord nbits w with
  | some i => s.withPending (i :: s.pending)
  | none => s

end Sys2Proof.Machine
end

