-- ==== Sys2Proof/Safety.lean ====
section
/-! DEFINITION. The invariants that every step keeps: the capacities of the station's lists, the order of the slot index,
and the account of the pages. -/

namespace Sys2Proof.Safety

open Sys2Proof.Machine

/-! ## Capacities -/

/-- Station numbers in strictly ascending order: one entry per station, so at most 32. -/
def OnePerStation (ks : List Station) : Prop := ks.Pairwise (· < ·) ∧ ks.length ≤ 32

/-- R53, R55, R56: at most 32 cuts with distinct identifiers, at most 64 pace entries at distinct PSNs, and one span
context per origin. -/
def PlanFits (pl : Plan) : Prop :=
  pl.cuts.length ≤ 32 ∧ (pl.cuts.map Cut.id).Nodup ∧ pl.paces.length ≤ 64 ∧ (pl.paces.map Pace.psn).Nodup ∧
    OnePerStation (pl.spans.map Span.origin)

/-- R172: the image, the later-frame list and the rescind memory of a collecting record. -/
def CollectingFits (r : Collecting) : Prop :=
  PlanFits r.image ∧ r.laterFrames.length ≤ 64 ∧ r.rescinds.length ≤ 32

/-- R99: one entry per station, each with a remaining count of at most 100. -/
def HeldByFits (set : List HeldBy) : Prop := OnePerStation (set.map HeldBy.station) ∧ ∀ h ∈ set, h.remaining ≤ 100

/-- R88: the entry orders of the general entries rise, and the next one given is above them. -/
def EntriesOrdered (t : Traffic) : Prop :=
  (t.general.map TxEntry.order).Pairwise (· < ·) ∧ ∀ e ∈ t.general, e.order < t.nextOrder

/-- The memory has its canonical form (R19), and every list of the station keeps within its capacity: the receive queue
(R97), the general entries (R88), the output history (R138), the rescind stack (R108), the plan and its span contexts (R53,
R55, R56), the collecting record (R172), the held-by set (R99), the peer table (R162) and the veto count (R83). The general
entries stand in their entry order (R88). -/
def Capacities (s : State) : Prop :=
  s.mem.wf = true ∧ s.traffic.received.length ≤ 32 ∧ s.traffic.general.length ≤ 16 ∧ s.egress.history.length ≤ 64 ∧
    s.orig.stack.length ≤ 8 ∧ PlanFits s.plan ∧ (∀ r, s.mon.collecting = some r → CollectingFits r) ∧
    HeldByFits s.traffic.heldBy ∧ OnePerStation (s.mon.peers.map Peer.station) ∧ s.link.vetoCount ≤ 255 ∧
    EntriesOrdered s.traffic

/-! ## The slot index (R13, R14) -/

/-- Each PSN is one later than the one before. -/
def Consecutive : List Slot → Prop
  | a :: b :: rest => b = a + 1 ∧ Consecutive (b :: rest)
  | _ => True

/-- A station without settings has no record and no open period, and only such a station is CONFIGURING (R22, R49). -/
def Unconfigured (s : State) : Prop :=
  (s.settings = none → s.index = [] ∧ s.ingress.period = none) ∧ (s.mon.mode = .configuring → s.settings = none)

/-- R13: the index holds at most 4,096 records whose PSNs rise by exactly one; while a period is open it is the one after
the tail's, and its HSN is the current one (R1, R7). -/
def IndexOrdered (s : State) : Prop :=
  Consecutive (s.index.map SlotRecord.psn) ∧ s.index.length ≤ 4096 ∧
    (∀ x, s.ingress.period = some x →
      s.ref.flag = .present ∧ s.ref.hsn = some x ∧ ∀ r, s.index.getLast? = some r → r.psn + 1 = x) ∧
    (s.ingress.period = none → s.ref.flag = .present → s.index = []) ∧ Unconfigured s

/-! ## The pages (R26, R28) -/

/-- The pages of one lane that the records of the index hold. -/
def recordPages (ix : List SlotRecord) (lane : Nat) : List PageNo :=
  ix.flatMap (fun r => ((r.lanes[lane]?).map LaneRecord.pages).getD [])

/-- The page list being built for one lane. -/
def burstPages (g : Ingress) (lane : Nat) : List PageNo := ((g.entries[lane]?).map LaneEntry.pages).getD []

/-- R28: a free count below the low watermark goes with a set flag, one above the high watermark with a clear flag. -/
def PressureAgrees (code lane : Nat) (l : LaneStore) : Prop :=
  (l.count < lowWatermark code lane → l.pressure = true) ∧ (highWatermark code lane < l.count → l.pressure = false)

/-- R26: the free pages of a lane, the pages of its records and the pages of its burst are together the lane's quota, each
page in one place; the free count is the number of free pages (R23). -/
def LaneAccount (s : State) (code lane : Nat) (l : LaneStore) : Prop :=
  l.count = l.free.length ∧
    (l.free ++ recordPages s.index lane ++ burstPages s.ingress lane).Perm (lanePages code lane) ∧
    PressureAgrees code lane l

/-- The store, the ingress and every record have one part per configured lane (R14, R23, R33). -/
def LanesMatch (s : State) (c : Settings) : Prop :=
  (planQuarters c.planCode).length = c.lanes.length ∧ s.store.lanes.length = c.lanes.length ∧
    s.ingress.entries.length = c.lanes.length ∧ ∀ r ∈ s.index, r.lanes.length = c.lanes.length

/-- R33: a lane entry in NONE lists no page, and while no slot period is open every entry is in NONE. -/
def EntriesClean (g : Ingress) : Prop :=
  (∀ e ∈ g.entries, e.burst = .none → e.pages = []) ∧ (g.period = none → ∀ e ∈ g.entries, e.burst = .none)

/-- R22, R26: the account of every page. -/
def PagesAccounted (s : State) : Prop :=
  EntriesClean s.ingress ∧
    (∀ c, s.settings = some c → LanesMatch s c ∧ ∀ i l, s.store.lanes[i]? = some l → LaneAccount s c.planCode i l) ∧
    (s.settings = none → s.store.lanes = []) ∧ Unconfigured s

end Sys2Proof.Safety
end

