-- ==== Sys2Proof/Certificates/Slice0/Obligations.lean ====
section
/-! DEFINITION. The statements for the provers. -/

open Sys2Proof Sys2Proof.Machine Sys2Proof.Safety

/-! ## The queue and the step -/

/-- A step takes the command at the front of the queue and runs it on the rest. On an empty queue only time passes: an
ARBITRATING controller goes to TRANSMITTING, and else the block idles (the model's form, log entries 14 and 32). -/
def Obligations.StepRunsFrontCommand : Prop :=
  (∀ (i : Instr) (rest : List Instr) (s : State), s.pending = i :: rest → step s = exec i (s.withPending rest)) ∧
    ∀ s : State, s.pending = [] →
      (s.link.phase ≠ .arbitrating → step s = .next s) ∧
      (s.link.phase = .arbitrating → step s = .next (s.withLink { s.link with phase := .transmitting }))

/-- Every command answers a next state, and leaves the queue alone. The queue is the model's form (log entry 32), and RESET
keeps it (37); a command whose event cannot happen, or whose timer is stopped or not due, has no effect (35, 7). -/
def Obligations.EveryCommandAnswersNext : Prop :=
  ∀ (i : Instr) (s : State), ∃ t, exec i s = .next t ∧ t.pending = s.pending

/-! ## Reset and start-up -/

/-- The blocks have the reset values of their chapters; the station number, the raw contact levels and the page contents,
which the model chose (log entries 1 to 3), are not named. -/
def Obligations.BlocksAtReset : Prop :=
  State.reset.settings = none ∧ State.reset.ref = ⟨none, .lost, false⟩ ∧ State.reset.store = ⟨[], false⟩ ∧
    State.reset.index = [] ∧ State.reset.ingress = ⟨none, [], 0, 0, []⟩ ∧ State.reset.plan = ⟨[], [], []⟩ ∧
    State.reset.link.connected = false ∧ State.reset.link.current = none ∧ State.reset.link.vetoCount = 0 ∧
    State.reset.link.quiet = false ∧ State.reset.link.clash = false ∧ State.reset.link.gap = 0 ∧
    State.reset.traffic = ⟨[], 0, none, none, none, none, [], .clear, []⟩ ∧ State.reset.orig = ⟨0, []⟩ ∧
    State.reset.egress = ⟨none, [], false, [], []⟩ ∧ State.reset.reg = ⟨none, 0, none, none⟩ ∧
    State.reset.mon = ⟨.configuring, none, [], none, none, .none, none, none⟩ ∧ State.reset.contacts.refused = false

/-- RESET takes the straps, restarts every debouncer on the raw level sampled, and gives every other block its reset
values; the reset line keeps the page contents. That RESET keeps the model's queue is the model's choice (log entry 37). -/
def Obligations.ResetCommand : Prop :=
  ∀ (cause : ResetCause) (straps : Station) (levels : PerContact Level) (s : State),
    ∃ t, exec (.reset cause straps levels) s = .next t ∧ t.station = straps ∧ t.settings = none ∧ t.ref = State.reset.ref ∧
      t.store = State.reset.store ∧ t.index = [] ∧ t.ingress = State.reset.ingress ∧ t.plan = State.reset.plan ∧
      t.link = State.reset.link ∧ t.traffic = State.reset.traffic ∧ t.orig = State.reset.orig ∧
      t.egress = State.reset.egress ∧ t.reg = State.reset.reg ∧ t.mon = State.reset.mon ∧
      (∀ k : Contact, contactOf t.contacts.lines k = (⟨contactOf levels k, true, none⟩ : Debouncer)) ∧ t.contacts.refused = false ∧
      (cause = .resetLine → t.mem = s.mem) ∧ t.pending = s.pending

/-- 12.3: an accepted record's settings, field by field. -/
def RecordSettings (b : List Byte) (c : Settings) : Prop :=
  c.planCode = recordByte b 0 ∧ c.lanes.length = recordByte b 1 ∧
    (∀ i, i < recordByte b 1 →
      (recordByte b (2 + i) = 1 → c.lanes[i]? = some .picture) ∧
      (recordByte b (2 + i) = 2 → c.lanes[i]? = some .sound) ∧
      (recordByte b (2 + i) = 3 → c.lanes[i]? = some .data)) ∧
    c.tCfg = recordWord b 6 ∧ c.dumpLength = recordWord b 8 ∧ c.pauseThreshold = recordByte b 10 ∧
    c.pauseRun = recordByte b 11 ∧ c.normalRepeat = recordByte b 12 ∧
    (recordByte b 13 = 1 → c.mode = .steady) ∧ (recordByte b 13 = 2 → c.mode = .proportional) ∧
    c.windowLength = recordWord b 14 ∧ c.budget = recordByte b 16 ∧ c.gain = recordByte b 17 ∧
    c.spacing = recordByte b 18 ∧ c.trimTolerance = recordByte b 19 ∧ c.beaconPeriod = recordByte b 20 ∧
    c.bitRate = recordByte b 21 ∧ c.courtesyGap = recordByte b 22 ∧
    (c.breakEnabled = true ↔ recordByte b 23 % 2 = 1) ∧ (c.maskEnabled = true ↔ recordByte b 23 / 2 % 2 = 1) ∧
    c.breakTag.toNat = recordWord b 24 ∧ c.maskTag.toNat = recordWord b 26 ∧
    c.maskTagLanes.toNat = recordByte b 28 ∧ c.commitMaskLanes.toNat = recordByte b 29 ∧
    (recordByte b 30 = 1 → c.soundSubstitute = .silence) ∧ (recordByte b 30 = 2 → c.soundSubstitute = .tone) ∧
    (recordByte b 31 = 1 → c.pictureSubstitute = .held) ∧ (recordByte b 31 = 2 → c.pictureSubstitute = .black) ∧
    c.readyTolerance = recordByte b 33

/-- A record is accepted exactly where its check is good and every field lies in its range, and gives the settings of its
fields. -/
def Obligations.RecordJudgement : Prop :=
  (∀ (b : List Byte) (c : Settings), parseRecord b = some c → RecordSettings b c) ∧
  ∀ b : List Byte,
    (parseRecord b).isSome = true ↔
      b.length = 64 ∧ (crc16 (bytesBits (b.take 62))).toNat = recordWord b 62 ∧
        (1 ≤ recordByte b 0 ∧ recordByte b 0 ≤ 5) ∧ recordByte b 1 = (planQuarters (recordByte b 0)).length ∧
        (∀ i, i < recordByte b 1 → 1 ≤ recordByte b (2 + i) ∧ recordByte b (2 + i) ≤ 3) ∧
        (100 ≤ recordWord b 6 ∧ recordWord b 6 ≤ 3000) ∧ (25 ≤ recordWord b 8 ∧ recordWord b 8 ≤ 1000) ∧
        (1 ≤ recordByte b 11 ∧ recordByte b 11 ≤ 16) ∧ (1 ≤ recordByte b 12 ∧ recordByte b 12 ≤ 4) ∧
        (1 ≤ recordByte b 13 ∧ recordByte b 13 ≤ 2) ∧ (25 ≤ recordWord b 14 ∧ recordWord b 14 ≤ 1000) ∧
        1 ≤ recordByte b 16 ∧ 1 ≤ recordByte b 17 ∧ (1 ≤ recordByte b 18 ∧ recordByte b 18 ≤ 50) ∧
        recordByte b 19 ≤ 200 ∧ (10 ≤ recordByte b 20 ∧ recordByte b 20 ≤ 250) ∧
        (1 ≤ recordByte b 21 ∧ recordByte b 21 ≤ 2) ∧ recordByte b 22 ≤ 31 ∧ recordByte b 23 ≤ 3 ∧
        (1 ≤ recordByte b 28 ∧ recordByte b 28 ≤ 15) ∧ (1 ≤ recordByte b 29 ∧ recordByte b 29 ≤ 15) ∧
        (1 ≤ recordByte b 30 ∧ recordByte b 30 ≤ 2) ∧ (1 ≤ recordByte b 31 ∧ recordByte b 31 ≤ 2) ∧
        recordByte b 32 = 1 ∧ recordByte b 33 ≤ 50

/-- R128: what the egress keeps for a lane of a kind when the lane plan comes into force. -/
def laneKept : LaneKind → EgressLane
  | .picture => .picture []
  | .sound => .sound 0
  | .data => .data

/-- An accepted record comes into force at once: free lists, lane entries, the egress's lanes, the link's connection, and
LISTENING. A record that fails takes the station to CONFIG-FAULT, with an empty plan and rescind stack, and leaves it off
the link. -/
def Obligations.ConfigRead : Prop :=
  ∀ (bytes : List Byte) (s : State), s.mon.mode = .configuring →
    (∀ c, parseRecord bytes = some c →
      ∃ t, exec (.configReadComplete bytes) s = .next t ∧ t.settings = some c ∧
        t.store.lanes.length = (planQuarters c.planCode).length ∧
        (∀ (i : Nat) (l : LaneStore), t.store.lanes[i]? = some l → l = ⟨lanePages c.planCode i, laneQuota c.planCode i, false⟩) ∧
        t.ingress.entries = c.lanes.map (fun _ => ⟨.none, none, 0, 0, [], false, false, false, false⟩) ∧
        t.ingress.period = none ∧ t.egress.lanes = c.lanes.map laneKept ∧ t.link.connected = true ∧
        t.mon.mode = .listening ∧ t.mon.listen = some 300 ∧
        t.mon.era = none ∧ t.mon.peers = [] ∧ t.plan = ⟨[], [], []⟩ ∧ t.ref = s.ref) ∧
    (parseRecord bytes = none → s.link.connected = false →
      ∃ t, exec (.configReadComplete bytes) s = .next t ∧ t.mon.mode = .configFault ∧ t.settings = s.settings ∧
        t.store = s.store ∧ t.index = [] ∧ t.plan = ⟨[], [], []⟩ ∧ t.orig.stack = [] ∧ t.orig.count = s.orig.count ∧
        t.link.connected = false ∧ t.link = s.link ∧ t.traffic = s.traffic ∧ faultLit t = true)

/-! ## The house reference -/

/-- The station takes the one frame `f` at the strobe of `x + 1`, with a schedule whose play there is `q`, and no span
context is due before. -/
def TakesOne (s : State) (c : Settings) (x : Slot) (q : SchedPoint) (f : RxFrame) : Prop :=
  s.settings = some c ∧ s.ref.flag = .present ∧ s.ref.hsn = some x ∧ s.mon.mode.hasSchedule = true ∧
    (∃ pt, s.egress.point = some pt ∧ pt.hsn = x ∧ q = s.plan.outStep pt) ∧ s.traffic.received = [f] ∧
    ∀ d ∈ s.plan.spans, (x - d.last).toNat < 500

/-- The plan that the intake of the play `q` judges by: after the retirement and the span expiry due. -/
def planTaken (s : State) (q : SchedPoint) : Plan := (s.plan.retire q.psn).expireSpans q.hsn

/-- The bounds of that intake. -/
def boundsTaken (s : State) (q : SchedPoint) : Bounds := (planTaken s q).boundsAt q q.hsn

/-- The verdict of that intake on its first frame. -/
def verdictOn (s : State) (q : SchedPoint) (f : RxFrame) : Verdict := (planTaken s q).judgeFrame (boundsTaken s q) f

/-- The intake takes the frame `f`, after an output step that played `q`: the plan takes its verdict, a refusal of an own
frame pulses REFUSED, and an inserted cut of the station's own origin goes on top of the rescind stack. -/
def VerdictTaken (s t : State) (q : SchedPoint) (f : RxFrame) : Prop :=
  let v := verdictOn s q f
  t.plan = v.plan ∧ (f.own = true → v.reason ≠ none → t.contacts.refused = true) ∧
    (∀ cut, v.inserted = some cut → cut.id.origin = s.station →
      t.orig.stack = (cut.id :: s.orig.stack.filter (· != cut.id)).take 8) ∧
    ((∀ cut, v.inserted = some cut → cut.id.origin ≠ s.station) → t.orig.stack = s.orig.stack)

/-- The flow state has become `flow`, and the flow holder takes the frame of it, without a body and with a count of 0; while
the holder's frame is in an attempt the frame waits, and under CLASH none is loaded. -/
def FlowLoaded (flow : FlowState) (k : Kind) (s t : State) : Prop :=
  t.traffic.flowState = flow ∧
    (s.link.clash = true → t.traffic.flow = s.traffic.flow ∧ t.traffic.flowNext = s.traffic.flowNext) ∧
    (s.link.clash = false → s.link.attempt = true → s.link.current = some .flow →
      t.traffic.flow = s.traffic.flow.map (fun h => { h with cancelAsked := true }) ∧
        t.traffic.flowNext = some ⟨k, []⟩) ∧
    (s.link.clash = false → s.link.attempt = false ∨ s.link.current ≠ some .flow →
      t.traffic.flow = some ⟨⟨k, []⟩, 0, false, false⟩ ∧ t.traffic.flowNext = none)

/-- The flow state and its holder are as they were. -/
def FlowKept (s t : State) : Prop :=
  t.traffic.flowState = s.traffic.flowState ∧ t.traffic.flow = s.traffic.flow ∧ t.traffic.flowNext = s.traffic.flowNext

/-- An ordinary strobe makes the delivered HSN current, opens its slot period with fresh entries and takes up to four
frames off the receive queue, whatever order the station takes its parts in. A removal that brings the queue to 8 or below
while the flow state is ASSERTED clears it and loads RESUME. With a schedule, a MARK or PACE frame is
judged against the plan after the retirement and the span expiry due, and its verdict is seen in the next state (the parts
in the model's own order, log entry 5). -/
def Obligations.OrdinaryStrobe : Prop :=
  (∀ (c : Settings) (x h : Slot) (o : StrobeOrder) (s : State), s.settings = some c → s.ref.flag = .present →
    s.ref.hsn = some x → h = x + 1 →
    ∃ t, exec (.ordinaryStrobe h o) s = .next t ∧ t.ref = ⟨some h, .present, true⟩ ∧ t.ingress.period = some h ∧
      t.ingress.entries = c.lanes.map (fun _ => ⟨.none, none, 0, 0, [], false, false, false, false⟩) ∧
      t.ingress.peak = 0 ∧ t.traffic.received = s.traffic.received.drop 4 ∧ t.mem = s.mem ∧ t.settings = some c ∧
      (s.traffic.flowState = .asserted → s.traffic.received ≠ [] → s.traffic.received.length ≤ 12 →
        FlowLoaded .clear .resume s t) ∧
      (s.traffic.flowState = .clear ∨ s.traffic.received = [] ∨ 12 < s.traffic.received.length → FlowKept s t)) ∧
  ∀ (c : Settings) (x : Slot) (q : SchedPoint) (f : RxFrame) (s : State), TakesOne s c x q f →
    f.kind.isMark = true ∨ f.kind = .pace →
    ∃ t, exec (.ordinaryStrobe (x + 1) ⟨[], false⟩) s = .next t ∧ VerdictTaken s t q f

/-- In LISTENING the record of the period just ended becomes the tail of the slot index. -/
def Obligations.OrdinaryStrobeAppends : Prop :=
  ∀ (c : Settings) (x : Slot) (n : Nat) (o : StrobeOrder) (s : State), s.settings = some c → s.ref.flag = .present →
    s.ref.hsn = some x → s.ingress.period = some x → s.mon.mode = .listening → s.mon.listen = some (n + 2) →
    s.mon.retry = none → s.mon.collecting = none →
    ∃ t, exec (.ordinaryStrobe (x + 1) o) s = .next t ∧ t.index.getLast? = some (s.ingress.record c x).1 ∧
      t.ingress.quietRun = (s.ingress.record c x).2 ∧ t.mon.mode = .listening ∧ t.mon.listen = some (n + 1)

/-- With a schedule, an ordinary strobe at which no RECAP-END is taken moves the schedule point by one output step of the
plan as it stood, whatever order the station takes its parts in, and the output history records the play. In ALIGNED, with
an empty plan, nothing to take and no repeat owed, the output advances to the next PSN, and the history holds the digest
of the empty plan. -/
def Obligations.OrdinaryStrobeAdvances : Prop :=
  (∀ (c : Settings) (x : Slot) (pt : SchedPoint) (o : StrobeOrder) (s : State), s.settings = some c →
    s.ref.flag = .present → s.ref.hsn = some x → s.mon.mode.hasSchedule = true → s.egress.point = some pt →
    pt.hsn = x → (∀ f ∈ s.traffic.received.take 4, f.kind ≠ .recapEnd) →
    ∃ t, exec (.ordinaryStrobe (x + 1) o) s = .next t ∧ t.egress.point = some (s.plan.outStep pt) ∧
      ∃ d, t.egress.history.getLast? = some ⟨x + 1, (s.plan.outStep pt).psn, (s.plan.outStep pt).rep, d⟩) ∧
  ∀ (c : Settings) (x p : Slot) (r : Nat) (o : StrobeOrder) (s : State), s.settings = some c → s.ref.flag = .present →
    s.ref.hsn = some x → s.mon.mode = .aligned → s.plan = ⟨[], [], []⟩ → s.traffic.received = [] →
    s.egress.point = some ⟨x, p, r, 0⟩ →
    ∃ t, exec (.ordinaryStrobe (x + 1) o) s = .next t ∧ t.egress.point = some ⟨x + 1, p + 1, 0, 0⟩ ∧
      t.egress.history.getLast? = some ⟨x + 1, p + 1, 0, some Plan.empty.digest⟩ ∧ t.plan = ⟨[], [], []⟩ ∧
      t.mon.mode = .aligned

/-- A burst without a schedule point carries the lane's substitute, with SUBSTITUTE and NOT-HELD set and no PSN; one begins
on each lane position, in lane order. -/
def substituteBursts (c : Settings) (x : Slot) (lanes : List EgressLane) : List OutBurst :=
  lanes.mapIdx (fun i l =>
    ⟨i, x, 0, 0, (substituteOf c l).1, ⟨false, false, true, false, true, false, false⟩, (substituteOf c l).2⟩)

/-- A lane with its hold buffer emptied; a reference length is kept. -/
def withoutHold : EgressLane → EgressLane
  | .picture _ => .picture []
  | .sound n => .sound n
  | .data => .data

/-- What a return leaves: the store discard, an empty plan, rescind stack and receive queue, no schedule, the substitute
bursts on lanes with empty hold buffers, the regulator as after reset (the model's reading, log entry 21), and LISTENING. -/
def ReturnLeaves (c : Settings) (h : Slot) (s t : State) : Prop :=
  t.ref = ⟨some h, .present, true⟩ ∧ t.index = [] ∧ t.store.lanes = fullLanes c.planCode ∧
    t.store.exhausted = s.store.exhausted ∧ t.ingress.period = some h ∧ t.ingress.quietRun = 0 ∧ t.ingress.peak = 0 ∧
    t.plan = ⟨[], [], []⟩ ∧ t.orig.stack = [] ∧ t.orig.count = s.orig.count ∧ t.traffic.received = [] ∧
    t.traffic.flowState = .clear ∧ t.egress.point = none ∧ t.egress.history = [] ∧ t.egress.jump = false ∧
    t.reg = ⟨none, 0, none, none⟩ ∧ t.mon.mode = .listening ∧ t.mon.listen = some 300 ∧ t.mon.era = none ∧
    t.mon.peers = [] ∧ t.mem = s.mem ∧ t.egress.lanes = s.egress.lanes.map withoutHold ∧
    t.egress.out = substituteBursts c h t.egress.lanes

/-- A strobe of a station without settings is taken by the reference unit, and in CONFIG-FAULT the egress begins an empty
burst on each of the four lane positions; nothing else changes. -/
def BareStrobe (h : Slot) (s t : State) : Prop :=
  (s.mon.mode ≠ .configFault → t = s.withRef ⟨some h, .present, true⟩) ∧
  (s.mon.mode = .configFault →
    t.egress.out =
      [0, 1, 2, 3].map (fun lane => ⟨lane, h, 0, 0, .empty, ⟨false, false, true, false, true, false, false⟩, []⟩) ∧
    t = (s.withRef ⟨some h, .present, true⟩).withEgress { s.egress with out := t.egress.out })

/-- A strobe while the reference flag is LOST is a return, whatever HSN it carries; a strobe with an unexpected HSN while
PRESENT leaves the same. In a return the regulator ends as after reset (the model's reading, log entry 21). A station
without settings takes each kind of strobe as `BareStrobe` says. -/
def Obligations.ReturnAndBreak : Prop :=
  (∀ (c : Settings) (h : Slot) (s : State), s.settings = some c →
    (s.ref.flag = .lost → ∃ t, exec (.referenceReturn h) s = .next t ∧ ReturnLeaves c h s t) ∧
    ∀ x, s.ref.flag = .present → s.ref.hsn = some x → h ≠ x + 1 →
      ∃ t, exec (.referenceBreak h) s = .next t ∧ ReturnLeaves c h s t) ∧
  ∀ (h : Slot) (o : StrobeOrder) (s : State), s.settings = none →
    ∃ t, exec (.ordinaryStrobe h o) s = .next t ∧ exec (.referenceReturn h) s = .next t ∧
      exec (.referenceBreak h) s = .next t ∧ BareStrobe h s t

/-- The reference-loss timer's expiry closes the open period without a record, takes the station to REFERENCE-LOST, keeps
the index and the receive queue, and cancels every PACE and JOIN of the transmit queue: none is offered again, and one in
an attempt has cancel asked set and may still stand. An own recap that was HEAD PENDING ends too (the model's inference,
log entry 18). -/
def Obligations.ReferenceLoss : Prop :=
  ∀ (c : Settings) (s : State), s.settings = some c → s.ref.timerRunning = true →
    ∃ t, exec .referenceLossTimeout s = .next t ∧ t.ref = ⟨s.ref.hsn, .lost, false⟩ ∧ t.ingress.period = none ∧
      t.index = s.index ∧ t.mem = s.mem ∧ t.mon.mode = .referenceLost ∧ t.mon.ownRecap = .none ∧
      t.traffic.received = s.traffic.received ∧
      (∀ e, e ∈ t.traffic.general → e.hasClass 2 = true ∨ e.hasClass 4 = true → e.live = false) ∧ faultLit t = true

/-! ## Ingress -/

/-- The lane entry of an accepted burst, with the comparison of its tag word. -/
def acceptedEntry (c : Settings) (h : BurstHeader) : LaneEntry :=
  ⟨.opened, some h.declared, 0, 0, [], false, false, c.breakEnabled && h.tag == c.breakTag,
    c.maskEnabled && h.tag == c.maskTag⟩

/-- The burst start leaves every lane entry as it was, and the position delivers nothing: the burst is discarded with its
bytes. -/
def BurstDiscarded (pos : Fin 4) (header : HeaderRead) (s : State) : Prop :=
  ∃ t, exec (.burstStart pos header) s = .next t ∧ t.ingress.entries = s.ingress.entries ∧
    t.ingress.portLane pos = none ∧ t = s.withIngress t.ingress

/-- A good header of a configured lane in NONE is accepted, and its tag word is compared. A header that was incomplete at
a strobe or a loss of reference (an operand of the command: the model's form, log entry 48), a header fault, an unconfigured
lane and a second burst change no lane entry; a second start on an OPEN entry ends the open burst. Which lane a position
delivers is the model's reading (log entry 33). -/
def Obligations.BurstStart : Prop :=
  ∀ (c : Settings) (x : Slot) (pos : Fin 4) (header : HeaderRead) (s : State),
    s.settings = some c → s.ingress.period = some x →
    (header.interrupted = true ∨ parseHeader header.bytes = none ∨
        (∃ h, parseHeader header.bytes = some h ∧
          (524288 < h.declared ∨ s.ingress.entries[h.lane]? = none ∨
            ∃ e, s.ingress.entries[h.lane]? = some e ∧ e.burst = .ended)) →
      BurstDiscarded pos header s) ∧
    ∀ h e, header.interrupted = false → parseHeader header.bytes = some h → h.declared ≤ 524288 →
      s.ingress.entries[h.lane]? = some e →
      (e.burst = .none →
        ∃ t, exec (.burstStart pos header) s = .next t ∧ t.ingress.entries[h.lane]? = some (acceptedEntry c h) ∧
          t.ingress.portLane pos = some h.lane ∧
          (∀ i, i ≠ h.lane → t.ingress.entries[i]? = s.ingress.entries[i]?) ∧ t = s.withIngress t.ingress) ∧
      (e.burst = .opened →
        ∃ t, exec (.burstStart pos header) s = .next t ∧
          t.ingress.entries[h.lane]? =
            some { e with burst := .ended, truncated := e.truncated || decide (e.received < e.declared.getD 0) } ∧
          t.ingress.portLane pos = none ∧
          (∀ i, i ≠ h.lane → t.ingress.entries[i]? = s.ingress.entries[i]?) ∧ t = s.withIngress t.ingress)

/-- The state delivers a byte of the accepted burst OPEN on `pos`: the lane, its entry `e` and its declared length. -/
def Delivers (s : State) (c : Settings) (pos : Fin 4) (lane : Nat) (e : LaneEntry) (declared : Nat) : Prop :=
  s.settings = some c ∧ s.ingress.portLane pos = some lane ∧ s.ingress.entries[lane]? = some e ∧ e.burst = .opened ∧
    e.declared = some declared

/-- R40: the running peak after a byte was stored as number `stored` of a burst on the pages `pages`; `m` is the memory
with the byte. -/
def PeakAfter (c : Settings) (lane stored : Nat) (pages : List PageNo) (m : Memory) (b : Byte) (peak peak' : Nat) : Prop :=
  (¬ (c.lanes[lane]? = some .sound ∧ (stored + 1) % 3 = 0) → peak' = peak) ∧
  (c.lanes[lane]? = some .sound ∧ (stored + 1) % 3 = 0 →
    peak' =
      max peak
        (min 255
          ((m.read (burstAddress pages (stored - 2)) ++ m.read (burstAddress pages (stored - 1)) ++ b).toInt.natAbs /
            32768)))

/-- A byte that fits the last page is stored at the burst's next position; every other byte of memory and every other
entry is unchanged, and nothing outside the ingress and the pages changes. On a SOUND lane the byte that completes a
sample raises the running peak to the sample's level. -/
def Obligations.EssenceStored : Prop :=
  ∀ (c : Settings) (pos : Fin 4) (b : Byte) (lane declared : Nat) (e : LaneEntry) (s : State),
    Delivers s c pos lane e declared → e.received < declared → e.truncated = false → e.stored % 8192 ≠ 0 →
    s.mem.wf = true →
    ∃ t, exec (.essenceByte pos b) s = .next t ∧ t.mem.read (burstAddress e.pages e.stored) = b ∧
      (∀ a, a ≠ burstAddress e.pages e.stored → t.mem.read a = s.mem.read a) ∧
      t.ingress.entries[lane]? = some { e with received := e.received + 1, stored := e.stored + 1 } ∧
      (∀ i, i ≠ lane → t.ingress.entries[i]? = s.ingress.entries[i]?) ∧
      PeakAfter c lane e.stored e.pages t.mem b s.ingress.peak t.ingress.peak ∧
      t = (s.withMem t.mem).withIngress t.ingress

/-- The first byte of a page takes the page at the head of the lane's free list, which may set the pressure flag; it may
complete a sample begun on the page before. Every other entry, lane and byte, and the rest of the state, is unchanged. -/
def Obligations.EssenceOnNewPage : Prop :=
  ∀ (c : Settings) (pos : Fin 4) (b : Byte) (lane declared : Nat) (e : LaneEntry) (l : LaneStore) (p : PageNo)
    (rest : List PageNo) (s : State),
    Delivers s c pos lane e declared → e.received < declared → e.truncated = false → e.stored % 8192 = 0 →
    s.mem.wf = true → s.store.lanes[lane]? = some l → l.free = p :: rest →
    ∃ t, exec (.essenceByte pos b) s = .next t ∧
      t.store.lanes[lane]? =
        some ⟨rest, l.count - 1, l.pressure || decide (l.count - 1 < laneQuota c.planCode lane / 16)⟩ ∧
      t.ingress.entries[lane]? =
        some { e with received := e.received + 1, stored := e.stored + 1, pages := e.pages ++ [p] } ∧
      (∀ i, i ≠ lane → t.ingress.entries[i]? = s.ingress.entries[i]?) ∧
      t.mem.read (burstAddress (e.pages ++ [p]) e.stored) = b ∧
      (∀ a, a ≠ burstAddress (e.pages ++ [p]) e.stored → t.mem.read a = s.mem.read a) ∧
      PeakAfter c lane e.stored (e.pages ++ [p]) t.mem b s.ingress.peak t.ingress.peak ∧
      t.store.exhausted = s.store.exhausted ∧ (∀ i, i ≠ lane → t.store.lanes[i]? = s.store.lanes[i]?) ∧
      t = ((s.withStore t.store).withMem t.mem).withIngress t.ingress

/-- Where the free list is empty the byte is discarded, the burst is TRUNCATED and STORE-EXHAUSTED is set; the plan, the
schedule and the station state do not change. A byte beyond the declared length sets OVERLONG and is discarded, and so
is a byte after exhaustion. -/
def Obligations.EssenceDiscarded : Prop :=
  ∀ (c : Settings) (pos : Fin 4) (b : Byte) (lane declared : Nat) (e : LaneEntry) (s : State),
    Delivers s c pos lane e declared →
    (declared ≤ e.received →
      ∃ t, exec (.essenceByte pos b) s = .next t ∧
        t.ingress.entries[lane]? = some { e with received := e.received + 1, overlong := true } ∧
        t = s.withIngress t.ingress) ∧
    (e.received < declared → e.truncated = true →
      ∃ t, exec (.essenceByte pos b) s = .next t ∧
        t.ingress.entries[lane]? = some { e with received := e.received + 1 } ∧ t = s.withIngress t.ingress) ∧
    (∀ l, e.received < declared → e.truncated = false → e.stored % 8192 = 0 → s.store.lanes[lane]? = some l →
      l.free = [] →
      ∃ t, exec (.essenceByte pos b) s = .next t ∧ t.store = { s.store with exhausted := true } ∧
        t.ingress.entries[lane]? = some { e with received := e.received + 1, truncated := true } ∧ t.mem = s.mem ∧
        t.plan = s.plan ∧ t.egress = s.egress ∧ t.mon = s.mon)

/-- The end of an OPEN burst ends it, TRUNCATED if it is short, and keeps what it stored; an end taken in any other state
of the entry, or without an accepted burst on the position, changes no entry. Bursts are told apart by their lane
position (the model's reading, log entry 33). -/
def Obligations.BurstEnd : Prop :=
  (∀ (pos : Fin 4) (s : State), s.ingress.portLane pos = none → exec (.burstEnd pos) s = .next s) ∧
  ∀ (pos : Fin 4) (lane : Nat) (e : LaneEntry) (s : State), s.ingress.portLane pos = some lane →
    s.ingress.entries[lane]? = some e →
    (e.burst = .opened →
      ∃ t, exec (.burstEnd pos) s = .next t ∧
        t.ingress.entries[lane]? =
          some { e with burst := .ended, truncated := e.truncated || decide (e.received < e.declared.getD 0) } ∧
        (∀ i, i ≠ lane → t.ingress.entries[i]? = s.ingress.entries[i]?) ∧ t = s.withIngress t.ingress) ∧
    (e.burst ≠ .opened →
      ∃ t, exec (.burstEnd pos) s = .next t ∧ t.ingress.entries = s.ingress.entries ∧ t = s.withIngress t.ingress)

/-- The record of a period: one lane per entry, TRUNCATED where the burst was cut at the strobe, the arrival state of its
lanes, and the BREAK and mask-tag flags of its entries. -/
def Obligations.RecordOfPeriod : Prop :=
  ∀ (g : Ingress) (c : Settings) (x : Slot),
    (g.record c x).1.psn = x ∧ (g.record c x).1.peak = g.peak ∧
      (∀ (i : Nat) (e : LaneEntry), g.entries[i]? = some e →
        (g.record c x).1.lanes[i]? =
          some
            (⟨decide (1 ≤ e.stored), e.stored, e.pages,
              e.truncated || (decide (e.burst = .opened) && decide (e.received < e.declared.getD 0)),
              e.overlong⟩ : LaneRecord)) ∧
      (g.record c x).1.lanes.length = g.entries.length ∧
      ((g.record c x).1.arrival = .void ↔ ∀ l ∈ (g.record c x).1.lanes, l.present = false) ∧
      (g.entries ≠ [] →
        ((g.record c x).1.arrival = .whole ↔
          ∀ l ∈ (g.record c x).1.lanes, l.present = true ∧ l.truncated = false)) ∧
      ((g.record c x).1.brk = true ↔ ∃ e ∈ g.entries, e.breakMatch = true) ∧
      ((g.record c x).1.maskTag = true ↔ ∃ e ∈ g.entries, e.maskMatch = true)

/-- The level detector's verdict: a VOID record clears quiet, the run and pause-eligible; otherwise quiet needs a SOUND
lane and a peak at or below the threshold, the run counts to 16, and pause-eligible needs the run or BREAK. -/
def Obligations.QuietRun : Prop :=
  ∀ (g : Ingress) (c : Settings) (x : Slot),
    ((g.record c x).1.arrival = .void →
      (g.record c x).1.quiet = false ∧ (g.record c x).1.pauseEligible = false ∧ (g.record c x).2 = 0) ∧
    ((g.record c x).1.arrival ≠ .void →
      ((g.record c x).1.quiet = true ↔
        soundPresent c (g.record c x).1.lanes = true ∧ g.peak ≤ c.pauseThreshold) ∧
      ((g.record c x).1.quiet = true → (g.record c x).2 = min 16 (g.quietRun + 1)) ∧
      ((g.record c x).1.quiet = false → (g.record c x).2 = 0) ∧
      ((g.record c x).1.pauseEligible = true ↔
        ((g.record c x).1.quiet = true ∧ c.pauseRun ≤ (g.record c x).2) ∨ (g.record c x).1.brk = true))

/-- The commands of the cue link. -/
def isLinkCommand : Instr → Bool
  | .busIdle _ | .courtesyGapExpiry | .arbitrationLost | .lineFault _ | .clash _ | .frameVetoed _ | .sent
  | .frameReceived _ | .holdReceived _ | .resumeReceived _ | .beaconReceived _ _ => true
  | _ => false

/-- The commands of the contacts, the timers and the output port. -/
def isOwnCommand : Instr → Bool
  | .listenTimerExpiry | .joinRetryExpiry | .collectSilenceExpiry | .foreignRecapExpiry | .spanTimeout _
  | .holdTimeout _ | .markStaleWithdrawal _ | .refusedPulseExpiry | .debounceStable _ | .contactRawLevelChange _ _
  | .outputBurstEnd _ => true
  | _ => false

/-- The commands of the input port. -/
def isInputCommand : Instr → Bool
  | .burstStart _ _ | .essenceByte _ _ | .burstEnd _ => true
  | _ => false

/-- What the commands leave alone. Page contents are changed by essence bytes only (of the other commands RESET alone may
leave them otherwise, at power-on). The cue link, the contacts, the timers and the output port change no page account,
no record and no lane entry, and the cue link changes no plan, rescind stack or output. The input port changes the page
contents, the page accounts and the ingress at most. -/
def Obligations.CommandFrames : Prop :=
  ∀ (i : Instr) (s t : State), exec i s = .next t →
    ((∀ pos b, i ≠ .essenceByte pos b) → (∀ k levels, i ≠ .reset .powerOn k levels) → t.mem = s.mem) ∧
    (isLinkCommand i = true ∨ isOwnCommand i = true →
      t.station = s.station ∧ t.settings = s.settings ∧ t.ref = s.ref ∧ t.store = s.store ∧ t.index = s.index ∧
        t.ingress = s.ingress) ∧
    (isLinkCommand i = true → t.plan = s.plan ∧ t.orig = s.orig ∧ t.egress = s.egress) ∧
    (isInputCommand i = true → t = { s with mem := t.mem, store := t.store, ingress := t.ingress })

/-! ## The edit plan -/

/-- The coverage of a PSN: a DROP outranks every MASK, and MASK cuts give the union of their lanes. -/
def Obligations.CoverageRule : Prop :=
  ∀ (cuts : List Cut) (p : Slot),
    ((∃ c ∈ cuts, c.kind = .drop ∧ c.covers p = true) → coverage cuts p = .dropped) ∧
    ((¬ ∃ c ∈ cuts, c.kind = .drop ∧ c.covers p = true) → (∃ c ∈ cuts, c.covers p = true) →
      ∃ lanes : BitVec 4, coverage cuts p = .masked lanes ∧
        ∀ i, lanes.getLsbD i = true ↔ ∃ c ∈ cuts, c.covers p = true ∧ c.kind.lanes.getLsbD i = true) ∧
    ((¬ ∃ c ∈ cuts, c.covers p = true) → coverage cuts p = .clear)

/-- `new` stands in the list `after` at its place among `before`: behind everything that it does not go before, and in
front of something that it goes before. -/
def PlacedIn {α : Type} (goesBefore : α → Prop) (new : α) (before after : List α) : Prop :=
  ∃ pre post, before = pre ++ post ∧ after = pre ++ new :: post ∧ (∀ d ∈ pre, ¬ goesBefore d) ∧
    ∀ d, post.head? = some d → goesBefore d

/-- An insertion request: the reasons in their order, and what an accepted one becomes. The new cut stands in the table in
the order of start PSN, then origin, then origin count. -/
def Obligations.InsertionJudgement : Prop :=
  ∀ (pl : Plan) (b : Bounds) (r : CutRequest),
    let bad := later r.start r.stop = true ∨ 3800 < (r.stop - r.start).toNat ∨ r.kind = .mask 0
    let start := if earlier r.start b.h then b.h else r.start
    let stop := if r.kind = .drop ∧ later r.stop b.e then b.e else r.stop
    let kept := if r.kind = .drop then pl.paces.filter (fun e => !within start stop e.psn) else pl.paces
    let cap := r.kind = .drop ∧ paceSum pl.paces < paceSum kept ∧ 3800 < b.delay + paceSum kept
    let held := ∃ d ∈ pl.cuts, d.id = r.id
    let goesBefore := fun d : Cut => earlier start d.start = true ∨
      start = d.start ∧ (r.id.origin.val < d.id.origin.val ∨
        r.id.origin = d.id.origin ∧ r.id.count.toNat < d.id.count.toNat)
    (bad → pl.judgeInsert b r = pl.refuse .malformed) ∧
    (¬ bad → later start stop = true → pl.judgeInsert b r = pl.refuse .late) ∧
    (¬ bad → later start stop = false → held → pl.judgeInsert b r = pl.refuse .duplicate) ∧
    (¬ bad → later start stop = false → ¬ held → 32 ≤ pl.cuts.length → pl.judgeInsert b r = pl.refuse .full) ∧
    (¬ bad → later start stop = false → ¬ held → pl.cuts.length < 32 → cap →
      pl.judgeInsert b r = pl.refuse .cap) ∧
    (¬ bad → later start stop = false → ¬ held → pl.cuts.length < 32 → ¬ cap →
      (pl.judgeInsert b r).reason = none ∧
      (pl.judgeInsert b r).inserted = some ⟨r.id, r.kind, start, stop, r.source, .armed⟩ ∧
      PlacedIn goesBefore ⟨r.id, r.kind, start, stop, r.source, .armed⟩ pl.cuts (pl.judgeInsert b r).plan.cuts ∧
      (pl.judgeInsert b r).plan.paces = kept ∧ (pl.judgeInsert b r).plan.spans = pl.spans)

/-- A RESCIND: the reasons in their order, and the removal of the named cut. The restored count is the number of PSNs in
the cut's range that no other held DROP covers; a count of 0 with the projected delay above the cap already is refused
too (the model's choice, log entry 43). -/
def Obligations.RescindJudgement : Prop :=
  ∀ (pl : Plan) (b : Bounds) (sender : Station) (id : CutId),
    ((∀ d ∈ pl.cuts, d.id ≠ id) → pl.judgeRescind b sender id = pl.refuse .unknown) ∧
    ∀ c, findCut pl.cuts id = some c →
      let restored := (List.range ((c.stop - c.start).toNat + 1)).countP (fun i =>
        !pl.cuts.any (fun d => d.id != id && d.kind == .drop && within d.start d.stop (c.start + slots i)))
      let cap := c.kind = .drop ∧ 3800 < b.delay + paceSum pl.paces + restored
      (sender ≠ id.origin → pl.judgeRescind b sender id = pl.refuse .foreign) ∧
      (sender = id.origin → earlier c.start b.h = true → pl.judgeRescind b sender id = pl.refuse .rescindLate) ∧
      (sender = id.origin → earlier c.start b.h = false → cap → pl.judgeRescind b sender id = pl.refuse .cap) ∧
      (sender = id.origin → earlier c.start b.h = false → ¬ cap →
        (pl.judgeRescind b sender id).reason = none ∧
        (pl.judgeRescind b sender id).plan.cuts = pl.cuts.filter (fun d => d.id != id) ∧
        (pl.judgeRescind b sender id).plan.paces = pl.paces ∧ (pl.judgeRescind b sender id).plan.spans = pl.spans)

/-- A PACE frame: a count that is not permitted is MALFORMED; with a permitted one the reasons come in their order, and
an adopted frame becomes an entry, in its place by PSN. -/
def Obligations.PaceJudgement : Prop :=
  (∀ (pl : Plan) (b : Bounds) (stamp psn : Slot) (c : Byte),
    (¬ (c = 0xFF#8 ∨ (1 ≤ c.toNat ∧ c.toNat ≤ 8)) →
      pl.judgePace b (bytes32 stamp ++ bytes32 psn ++ [c]) = pl.refuse .malformed) ∧
    (c = 0xFF#8 → pl.judgePace b (bytes32 stamp ++ bytes32 psn ++ [c]) = pl.judgeEntry b stamp ⟨psn, -1⟩) ∧
    (1 ≤ c.toNat ∧ c.toNat ≤ 8 →
      pl.judgePace b (bytes32 stamp ++ bytes32 psn ++ [c]) = pl.judgeEntry b stamp ⟨psn, c.toNat⟩)) ∧
  ∀ (pl : Plan) (b : Bounds) (stamp : Slot) (e : Pace),
    let bad := later stamp b.x = true ∨ earlier e.psn stamp = false ∨ coverage pl.cuts e.psn = .dropped
    let late := earlier e.psn b.h = true ∨ (e.count = -1 ∧ later e.psn b.e = true)
    let held := ∃ d ∈ pl.paces, d.psn = e.psn
    let cap := 0 < e.count ∧ 3800 < b.delay + paceSum pl.paces + e.count
    (bad → pl.judgeEntry b stamp e = pl.refuse .malformed) ∧
    (¬ bad → late → pl.judgeEntry b stamp e = pl.refuse .late) ∧
    (¬ bad → ¬ late → held → pl.judgeEntry b stamp e = pl.refuse .duplicate) ∧
    (¬ bad → ¬ late → ¬ held → 64 ≤ pl.paces.length → pl.judgeEntry b stamp e = pl.refuse .full) ∧
    (¬ bad → ¬ late → ¬ held → pl.paces.length < 64 → cap → pl.judgeEntry b stamp e = pl.refuse .cap) ∧
    (¬ bad → ¬ late → ¬ held → pl.paces.length < 64 → ¬ cap →
      (pl.judgeEntry b stamp e).reason = none ∧ (pl.judgeEntry b stamp e).adopted = some e ∧
      PlacedIn (fun d : Pace => earlier e.psn d.psn = true) e pl.paces (pl.judgeEntry b stamp e).plan.paces ∧
      (pl.judgeEntry b stamp e).plan.cuts = pl.cuts ∧ (pl.judgeEntry b stamp e).plan.spans = pl.spans)

/-- A SPAN-IN makes the sender's context OPEN at its in point and a SPAN-ABANDON returns it to IDLE, each in every state
of the context. -/
def Obligations.SpanInAndAbandon : Prop :=
  ∀ (pl : Plan) (b : Bounds) (k : Station) (p : Slot),
    ((pl.judgeSpanIn b k p).reason = none ∧ (pl.judgeSpanIn b k p).plan.spanOf k = some ⟨k, p, none, b.x⟩ ∧
      (∀ j, j ≠ k → (pl.judgeSpanIn b k p).plan.spanOf j = pl.spanOf j) ∧
      (pl.judgeSpanIn b k p).plan.cuts = pl.cuts ∧ (pl.judgeSpanIn b k p).plan.paces = pl.paces) ∧
    (pl.judgeSpanAbandon k).reason = none ∧ (pl.judgeSpanAbandon k).plan.spanOf k = none ∧
      (∀ j, j ≠ k → (pl.judgeSpanAbandon k).plan.spanOf j = pl.spanOf j) ∧
      (pl.judgeSpanAbandon k).plan.cuts = pl.cuts ∧ (pl.judgeSpanAbandon k).plan.paces = pl.paces

/-- A SPAN-OUT in each state of the sender's context. -/
def Obligations.SpanOutTransition : Prop :=
  ∀ (pl : Plan) (b : Bounds) (k : Station) (q : Slot),
    (pl.spanOf k = none → pl.judgeSpanOut b k q = pl.refuse .stray) ∧
    ∀ c, pl.spanOf k = some c →
      (atOrAfter q c.inPoint = true ∧ (q - c.inPoint).toNat ≤ 1500 →
        (pl.judgeSpanOut b k q).reason = none ∧
        (pl.judgeSpanOut b k q).plan.spanOf k = some ⟨k, c.inPoint, some q, b.x⟩) ∧
      (¬ (atOrAfter q c.inPoint = true ∧ (q - c.inPoint).toNat ≤ 1500) →
        (pl.judgeSpanOut b k q).reason = some .malformed ∧
        (c.outPoint = none → (pl.judgeSpanOut b k q).plan.spanOf k = none) ∧
        (c.outPoint ≠ none → (pl.judgeSpanOut b k q).plan = pl))

/-- The in point, out point or tag slot of a MARK frame, which may not be later than its stamp. -/
def markPoint : Mark → Option Slot
  | .spanIn _ p => some p
  | .spanOut _ q => some q
  | .tagMask _ _ p _ => some p
  | _ => none

/-- The frame checks fail: an encoding that is not permitted, a stamp later than the intake HSN, or a point later than
the stamp. -/
def FailsChecks (x : Slot) (kind : Kind) (body : List Byte) : Prop :=
  parseMark kind body = none ∨
    ∃ m, parseMark kind body = some m ∧ (later m.stamp x = true ∨ ∃ p, markPoint m = some p ∧ later p m.stamp = true)

/-- A MARK frame that passes the frame checks goes to the judgement of its kind; one that fails them is MALFORMED and
changes nothing, but a SPAN-COMMIT that meets a CLOSED context returns it to IDLE. -/
def MarkChecks : Prop :=
  ∀ (pl : Plan) (b : Bounds) (k : Station) (kind : Kind) (body : List Byte),
    (FailsChecks b.x kind body →
      (pl.judgeMark b k kind body).reason = some .malformed ∧ (pl.judgeMark b k kind body).plan.cuts = pl.cuts ∧
      (pl.judgeMark b k kind body).plan.paces = pl.paces ∧
      (∀ j, j ≠ k → (pl.judgeMark b k kind body).plan.spanOf j = pl.spanOf j) ∧
      (kind = .spanCommit ∧ (∃ d q, pl.spanOf k = some d ∧ d.outPoint = some q) →
        (pl.judgeMark b k kind body).plan.spanOf k = none) ∧
      (¬ (kind = .spanCommit ∧ ∃ d q, pl.spanOf k = some d ∧ d.outPoint = some q) →
        (pl.judgeMark b k kind body).plan = pl)) ∧
    (¬ FailsChecks b.x kind body →
      (∀ st n p q, parseMark kind body = some (.dump st n p q) →
        pl.judgeMark b k kind body = pl.judgeInsert b ⟨⟨k, n⟩, .drop, p, q, .dump⟩) ∧
      (∀ st n p lanes, parseMark kind body = some (.tagMask st n p lanes) →
        pl.judgeMark b k kind body = pl.judgeInsert b ⟨⟨k, n⟩, .mask lanes, p, p, .tag⟩) ∧
      (∀ st id, parseMark kind body = some (.rescind st id) →
        pl.judgeMark b k kind body = pl.judgeRescind b k id) ∧
      (∀ st p, parseMark kind body = some (.spanIn st p) → pl.judgeMark b k kind body = pl.judgeSpanIn b k p) ∧
      (∀ st q, parseMark kind body = some (.spanOut st q) → pl.judgeMark b k kind body = pl.judgeSpanOut b k q) ∧
      (∀ st n cut, parseMark kind body = some (.spanCommit st n cut) →
        pl.judgeMark b k kind body = pl.judgeSpanCommit b k n cut) ∧
      ∀ st, parseMark kind body = some (.spanAbandon st) → pl.judgeMark b k kind body = pl.judgeSpanAbandon k)

/-- A SPAN-COMMIT is STRAY unless the context is CLOSED; there an insertion is judged over its points, and the context
returns to IDLE whatever the verdict. The frame checks of every MARK frame come before the judgement of its kind. -/
def Obligations.SpanCommitTransition : Prop :=
  (∀ (pl : Plan) (b : Bounds) (k : Station) (n : Byte) (kind : CutKind),
    (pl.spanOf k = none → pl.judgeSpanCommit b k n kind = pl.refuse .stray) ∧
    (∀ c, pl.spanOf k = some c → c.outPoint = none → pl.judgeSpanCommit b k n kind = pl.refuse .stray) ∧
    ∀ c q, pl.spanOf k = some c → c.outPoint = some q →
      (pl.judgeSpanCommit b k n kind).reason =
        (pl.judgeInsert b ⟨⟨k, n⟩, kind, c.inPoint, q, .span⟩).reason ∧
      (pl.judgeSpanCommit b k n kind).plan.cuts = (pl.judgeInsert b ⟨⟨k, n⟩, kind, c.inPoint, q, .span⟩).plan.cuts ∧
      (pl.judgeSpanCommit b k n kind).plan.paces = (pl.judgeInsert b ⟨⟨k, n⟩, kind, c.inPoint, q, .span⟩).plan.paces ∧
      (pl.judgeSpanCommit b k n kind).plan.spanOf k = none ∧
      ∀ j, j ≠ k → (pl.judgeSpanCommit b k n kind).plan.spanOf j = pl.spanOf j) ∧
  MarkChecks

/-- Retirement removes the cuts that end, and the pace entries that lie, before the PSN played; the cuts that remain are
ACTIVE while their range includes it and ARMED otherwise; span contexts are not retired. -/
def Obligations.RetirementRule : Prop :=
  ∀ (pl : Plan) (q : Slot),
    (∀ c, c ∈ (pl.retire q).cuts ↔
      ∃ d ∈ pl.cuts, earlier d.stop q = false ∧
        c = { d with state := if within d.start d.stop q then .active else .armed }) ∧
    (∀ e, e ∈ (pl.retire q).paces ↔ e ∈ pl.paces ∧ earlier e.psn q = false) ∧ (pl.retire q).spans = pl.spans

/-- An output step repeats while repeats are owed; otherwise it advances past every dropped or trimmed PSN to the first
that is neither, and takes the repeats of a fill there. -/
def Obligations.OutputStepRule : Prop :=
  ∀ (pl : Plan) (pt : SchedPoint),
    (0 < pt.owed → pl.outStep pt = ⟨pt.hsn + 1, pt.psn, pt.rep + 1, pt.owed - 1⟩) ∧
    (pt.owed = 0 → ∀ n : Nat, n < 2147483646 →
      (∀ i, i < n → coverage pl.cuts (pt.psn + 1 + slots i) = .dropped ∨
        paceAt pl.paces (pt.psn + 1 + slots i) = some (-1)) →
      coverage pl.cuts (pt.psn + 1 + slots n) ≠ .dropped → paceAt pl.paces (pt.psn + 1 + slots n) ≠ some (-1) →
      pl.outStep pt =
        ⟨pt.hsn + 1, pt.psn + 1 + slots n, 0, ((paceAt pl.paces (pt.psn + 1 + slots n)).getD 0).toNat⟩)

/-! ## Egress -/

/-- A 24-bit sample as three bytes, most significant first. -/
def bytes24 (v : Int) : List Byte :=
  [(BitVec.ofInt 24 v).extractLsb' 16 8, (BitVec.ofInt 24 v).extractLsb' 8 8, (BitVec.ofInt 24 v).extractLsb' 0 8]

/-- The substitute of each lane kind: silence or the alternating tone in the lane's reference length rounded down to whole
samples, the held picture or BLACK, and EMPTY. -/
def SubstituteRule (c : Settings) : Prop :=
  (∀ n, c.soundSubstitute = .silence → substituteOf c (.sound n) = (.silence, List.replicate (n / 3 * 3) 0)) ∧
  (∀ n, c.soundSubstitute = .tone →
    (substituteOf c (.sound n)).1 = .tone ∧ (substituteOf c (.sound n)).2.length = n / 3 * 3 ∧
    ∀ i, i < n / 3 →
      ((substituteOf c (.sound n)).2.drop (3 * i)).take 3 =
        if i / 24 % 2 = 0 then bytes24 1048576 else bytes24 (-1048576)) ∧
  (∀ hold, c.pictureSubstitute = .held → hold ≠ [] → substituteOf c (.picture hold) = (.held, hold)) ∧
  (c.pictureSubstitute = .held → substituteOf c (.picture []) = (.black, [])) ∧
  (∀ hold, c.pictureSubstitute = .black → substituteOf c (.picture hold) = (.black, [])) ∧
  substituteOf c .data = (.empty, [])

/-- The lanes of the egress once every open burst has ended at a strobe: a stored burst still open on a PICTURE lane leaves
in its hold buffer the bytes that were sent, fewer than it has (how many is a free value, log entry 8); every other lane
is as it was. -/
def BurstsEnded (s : State) (lanes : List EgressLane) : Prop :=
  lanes.length = s.egress.lanes.length ∧
  ∀ (i : Nat) (l : EgressLane), s.egress.lanes[i]? = some l →
    ((∀ hold, l ≠ .picture hold) ∨ (∀ b ∈ s.egress.out, b.lane = i → b.subst ≠ .stored) → lanes[i]? = some l) ∧
    ((∃ hold, l = .picture hold) → (∃ b ∈ s.egress.out, b.lane = i ∧ b.subst = .stored) →
      ∃ b ∈ s.egress.out, b.lane = i ∧ b.subst = .stored ∧
        ∃ n, (b.bytes = [] ∨ n < b.bytes.length) ∧ lanes[i]? = some (.picture (b.bytes.take n)))

/-- What the lane `l` has become once the burst `b` has begun on it: a stored burst empties the hold buffer and sets the
reference length, a substitute leaves both. -/
def LaneBegun (l : EgressLane) (b : OutBurst) (l' : EgressLane) : Prop :=
  (b.subst ≠ .stored → l' = l) ∧
  (b.subst = .stored →
    (∀ hold, l = .picture hold → l' = .picture []) ∧ (∀ n, l = .sound n → l' = .sound b.bytes.length) ∧
    (l = .data → l' = .data))

/-- With a schedule, an ordinary strobe at which no RECAP-END is taken begins one burst on each lane, in lane order, for the
play of the step: from the record that the index holds, with the coverage of the plan, with NOT-HELD in FILLING, and with
JUMP from the flag, which is then clear. -/
def StepBegins : Prop :=
  ∀ (c : Settings) (x : Slot) (pt : SchedPoint) (s : State), s.settings = some c → s.ref.flag = .present →
    s.ref.hsn = some x → s.mon.mode.hasSchedule = true → s.egress.point = some pt → pt.hsn = x →
    (∀ f ∈ s.traffic.received.take 4, f.kind ≠ .recapEnd) →
    ∃ t lanes, exec (.ordinaryStrobe (x + 1) ⟨[], false⟩) s = .next t ∧ BurstsEnded s lanes ∧
      let q := s.plan.outStep pt
      let play : Play :=
        ⟨x + 1, q.psn, q.rep, coverage s.plan.cuts q.psn, decide (s.mon.mode = .filling), s.egress.jump⟩
      t.egress.out = lanes.mapIdx (fun i l => buildLane c s.mem (lookupRecord t.index q.psn) play i l) ∧
      t.egress.jump = false ∧ t.egress.lanes.length = lanes.length ∧
      ∀ (i : Nat) (l l' : EgressLane) (b : OutBurst), lanes[i]? = some l → t.egress.lanes[i]? = some l' →
        t.egress.out[i]? = some b → LaneBegun l b l'

/-- In LISTENING and JOINING, without a schedule point, an ordinary strobe begins a substitute burst on each lane. -/
def SubstitutesBegin : Prop :=
  ∀ (c : Settings) (x : Slot) (s : State), s.settings = some c → s.ref.flag = .present → s.ref.hsn = some x →
    (s.mon.mode = .listening ∧ s.mon.listen ≠ some 0) ∨ s.mon.mode = .joining →
    ∃ t lanes, exec (.ordinaryStrobe (x + 1) ⟨[], false⟩) s = .next t ∧ BurstsEnded s lanes ∧
      t.egress.out = substituteBursts c (x + 1) lanes

/-- What the burst of one lane carries, and its flags; and the bursts that an ordinary strobe begins, one on each lane in
lane order, with what they leave in the hold buffers and the reference lengths: those of a play, or, without a schedule,
the substitutes (the parts of the strobe in the model's own order, log entry 5). -/
def Obligations.LaneBuilding : Prop :=
  StepBegins ∧ SubstitutesBegin ∧ (∀ c : Settings, SubstituteRule c) ∧
  ∀ (c : Settings) (m : Memory) (p : Play) (lane : Nat) (l : EgressLane),
    let sub := substituteOf c l
    let flags := fun masked subst damaged notHeld : Bool =>
      (⟨decide (0 < p.rep), masked, subst, damaged, notHeld, p.jump, true⟩ : OutFlags)
    buildLane c m none p lane l =
        ⟨lane, p.hsn, p.psn, p.rep, sub.1, flags false true false true, sub.2⟩ ∧
    ∀ (r : SlotRecord) (rec : LaneRecord), r.lanes[lane]? = some rec →
      ((∃ lanes, p.cover = .masked lanes ∧ lanes.getLsbD lane = true) →
        buildLane c m (some r) p lane l =
          ⟨lane, p.hsn, p.psn, p.rep, sub.1, flags true true false p.notHeld, sub.2⟩) ∧
      ((¬ ∃ lanes, p.cover = .masked lanes ∧ lanes.getLsbD lane = true) → rec.present = false →
        buildLane c m (some r) p lane l =
          ⟨lane, p.hsn, p.psn, p.rep, sub.1, flags false true rec.truncated p.notHeld, sub.2⟩) ∧
      ((¬ ∃ lanes, p.cover = .masked lanes ∧ lanes.getLsbD lane = true) → rec.present = true →
        buildLane c m (some r) p lane l =
          ⟨lane, p.hsn, p.psn, p.rep, .stored, flags false false (rec.truncated || rec.overlong) p.notHeld,
            readBurst m rec.pages 0 rec.count⟩)

/-- The end of an output burst leaves its lane position empty; a stored picture fills the lane's hold buffer. -/
def Obligations.OutputBurstEnd : Prop :=
  ∀ (pos : Fin 4) (b : OutBurst) (s : State), s.egress.out.find? (fun d => d.lane == pos.val) = some b →
    ∃ t, exec (.outputBurstEnd pos) s = .next t ∧
      t.egress.out = s.egress.out.filter (fun d => d.lane != pos.val) ∧
      (∀ hold, b.subst = .stored → s.egress.lanes[pos.val]? = some (.picture hold) →
        t.egress.lanes[pos.val]? = some (.picture b.bytes)) ∧
      (b.subst ≠ .stored → t.egress.lanes = s.egress.lanes) ∧ t = s.withEgress t.egress

/-! ## The rebuild regulator -/

/-- The budget at the moment of reading: B in STEADY mode; in PROPORTIONAL mode the lesser of B and the deficit times the
gain in sixteenths, rounded up, and 0 without a deficit. -/
def BudgetRule (c : Settings) (deficit : Int) : Prop :=
  (c.mode = .steady → budgetOf c deficit = c.budget) ∧
  (c.mode = .proportional → deficit ≤ 0 → budgetOf c deficit = 0) ∧
  ∀ k : Nat, c.mode = .proportional → 0 < deficit → deficit * c.gain ≤ 16 * k → 16 * k < deficit * c.gain + 16 →
    budgetOf c deficit = min c.budget k

/-- A PSN meets every condition for a fill or a trim at `x` but the search range's. -/
def SlotMeets (s : State) (c : Settings) (x : Slot) (d : Decision) (p : Slot) : Prop :=
  ∃ r, lookupRecord s.index p = some r ∧ r.pauseEligible = true ∧ (d = .fill → r.arrival = .whole) ∧
    coverage s.plan.cuts p = .clear ∧ (∀ e ∈ s.plan.paces, e.psn ≠ p) ∧
    (∀ l, s.reg.lastPace = some l → (c.spacing : Int) ≤ (p - l).toInt) ∧
    (d = .trim → p = x - 3 ∨ later (x - 3) p = true)

/-- The slot chosen is the earliest of the search range, `h + 2` or `h + 1` to `h + 64`, that meets every condition. -/
def ChoiceRule (s : State) (c : Settings) (x h : Slot) (d : Decision) : Prop :=
  let first := if (∃ r ∈ s.index, r.psn = h + 2) then 2 else 1
  (∀ i : Nat, first ≤ i → i ≤ 64 → SlotMeets s c x d (h + slots i) →
    (∀ j, first ≤ j → j < i → ¬ SlotMeets s c x d (h + slots j)) → s.chooseSlot c x h d = some (h + slots i)) ∧
  ((∀ i, first ≤ i → i ≤ 64 → ¬ SlotMeets s c x d (h + slots i)) → s.chooseSlot c x h d = none)

/-- The used budget at an event of HSN `y`: in another window it starts from 0. -/
def usedAt (g : Regulator) (c : Settings) (y : Slot) : Nat :=
  if g.window = some (y.toNat / c.windowLength) then g.used else 0

/-- At the strobe of `x + 1` an ALIGNED station without an outstanding proposal decides from its projected delay, its budget
and the pressure flags, as the strobe leaves them. A fill or trim with a slot adds its PACE to the transmit queue, and the
proposal is outstanding; without one, under CLASH, or with a full queue none is. -/
def ProposalFormed : Prop :=
  ∀ (c : Settings) (x : Slot) (pt : SchedPoint) (era : Era) (s : State), s.settings = some c → s.ref.flag = .present →
    s.ref.hsn = some x → s.ingress.period = some x → s.mon.mode = .aligned → s.mon.era = some era →
    s.mon.retry = none → s.mon.collecting = none → s.egress.point = some pt → pt.hsn = x →
    (∀ d ∈ s.egress.history, d.hsn ≠ x + 1) → s.traffic.received = [] → s.link.connected = true →
    s.reg.outstanding = none →
    ∃ t, exec (.ordinaryStrobe (x + 1) ⟨[], false⟩) s = .next t ∧
      let q := s.plan.outStep pt
      let deficit : Int := era.tEra - ((x + 1 - q.psn).toInt + paceSum t.plan.paces)
      let used := usedAt s.reg c (x + 1)
      let d := decideProposal c era.tEra ((x + 1 - q.psn).toInt + paceSum t.plan.paces) used t.store.stationPressure
        (peerPressure s.mon.peers (x + 1))
      let slot := t.chooseSlot c (x + 1) (t.plan.horizon q (x + 1)) d
      t.reg.window = some ((x + 1).toNat / c.windowLength) ∧ t.reg.used = used ∧ t.reg.lastPace = s.reg.lastPace ∧
      (s.link.clash = true ∨ d = .nothing ∨ slot = none ∨
          16 ≤ s.traffic.general.length ∧ (∀ e ∈ s.traffic.general, e.isMark = false) →
        t.reg.outstanding = none) ∧
      ∀ p, s.link.clash = false → d ≠ .nothing → slot = some p → s.traffic.general.length < 15 →
        let count := proposalCount c d deficit used ((lookupRecord t.index p).any SlotRecord.brk)
        ∃ e ∈ t.traffic.general, e.owner = .regulator ∧ e.frame = some ⟨.pace, paceBody (x + 1) p count⟩ ∧
          t.reg.outstanding = some ⟨p, count, x + 1, .queued, e.order⟩

/-- A PACE taken at intake: an adoption adds a fill's count to the used budget and brings the last pace PSN forward, a
refusal leaves both; an own PACE that names the outstanding proposal ends it, whatever the verdict, a QUEUED one too (the
model's choice, log entry 23). -/
def AdoptionCounts : Prop :=
  ∀ (c : Settings) (x : Slot) (q : SchedPoint) (f : RxFrame) (s : State), TakesOne s c x q f → f.kind = .pace →
    ∃ t, exec (.ordinaryStrobe (x + 1) ⟨[], false⟩) s = .next t ∧
      t.reg.window = some ((x + 1).toNat / c.windowLength) ∧
      ((verdictOn s q f).adopted = none →
        t.reg.used = usedAt s.reg c (x + 1) ∧ t.reg.lastPace = s.reg.lastPace) ∧
      (∀ e, (verdictOn s q f).adopted = some e →
        t.reg.used = usedAt s.reg c (x + 1) + e.count.toNat ∧
        (s.reg.lastPace = none → t.reg.lastPace = some e.psn) ∧
        ∀ l, s.reg.lastPace = some l → t.reg.lastPace = some (if later e.psn l then e.psn else l)) ∧
      ∀ stamp p n o, f.own = true → parsePace f.body = some (stamp, p, n) → s.reg.outstanding = some o → o.psn = p →
        (s.link.clash = true → t.reg.outstanding = none) ∧
        ∀ o', t.reg.outstanding = some o' → o'.place = .queued ∧ o'.stamp = x + 1

/-- At an intake a QUEUED proposal is redundant where an entry stands at its PSN, a cut inserted there covers it, it is a
fill with the budget used up, or its PSN is earlier than the horizon. A redundant one is cancelled by its place: out of the
queue, it is outstanding no more (a new one may be formed at the same strobe). Any other stays. -/
def ProposalChecked : Prop :=
  ∀ (c : Settings) (x : Slot) (q : SchedPoint) (f : RxFrame) (era : Era) (o : Proposal) (e : TxEntry) (body : List Byte)
    (s : State), TakesOne s c x q f → f.kind.isMark = true ∨ f.kind = .pace → f.own = false → s.mon.era = some era →
    s.reg.outstanding = some o → o.place = .queued → s.entry o.entry = some e → e.owner = .regulator →
    e.frame = some ⟨.pace, body⟩ → EntriesOrdered s.traffic →
    ∃ t, exec (.ordinaryStrobe (x + 1) ⟨[], false⟩) s = .next t ∧
      let v := verdictOn s q f
      let b := boundsTaken s q
      let used := usedAt s.reg c (x + 1) + ((v.adopted.map (fun a => a.count.toNat)).getD 0)
      let redundant := (∃ a ∈ v.plan.paces, a.psn = o.psn) ∨
        (∃ cut, v.inserted = some cut ∧ within cut.start cut.stop o.psn = true) ∨
        (0 < o.count ∧ budgetOf c (era.tEra - (b.delay + paceSum v.plan.paces)) ≤ used) ∨ earlier o.psn b.h = true
      (¬ redundant → t.reg.outstanding = some o ∧ t.entry o.entry = some e) ∧
      (redundant → s.link.current ≠ some (.general o.entry) →
        t.entry o.entry = none ∧ ∀ o', t.reg.outstanding = some o' → o'.place = .queued ∧ o'.stamp = x + 1) ∧
      (redundant → s.link.current = some (.general o.entry) →
        t.reg.outstanding = some o ∧
        (s.link.attempt = true → t.entry o.entry = some { e with cancelAsked := true }) ∧
        (s.link.attempt = false → t.entry o.entry = some { e with drop := true }))

/-- The regulator proposes a fill, a trim or nothing. A trim's count is -1; a fill's is the least of the deficit, the
repeat limit of the slot, the budget that is left and 8, which is at least 1. The budget and the slot chosen are those of
`BudgetRule` and `ChoiceRule`. A strobe forms the proposal, counts an adopted PACE in the used budget and the last pace PSN,
and cancels a QUEUED proposal that is redundant (the parts in the model's own order, log entry 5; the window of an intake is
the model's choice, log entry 56, and so is the end of a QUEUED proposal by an own PACE, log entry 23). -/
def Obligations.ProposalDecision : Prop :=
  ProposalFormed ∧ AdoptionCounts ∧ ProposalChecked ∧ (∀ (c : Settings) (deficit : Int), BudgetRule c deficit) ∧
  (∀ (s : State) (c : Settings) (x h : Slot) (d : Decision), ChoiceRule s c x h d) ∧
  ∀ (c : Settings) (tEra : Nat) (projected : Int) (used : Nat) (own peers : Bool),
    let deficit : Int := tEra - projected
    let fills := 0 < deficit ∧ own = false ∧ peers = false ∧ used < budgetOf c deficit
    let trims := (tEra : Int) + c.trimTolerance < projected ∨
      (own = true ∧ (tEra : Int) - c.trimTolerance < projected)
    (fills → decideProposal c tEra projected used own peers = .fill) ∧
    (¬ fills → trims → decideProposal c tEra projected used own peers = .trim) ∧
    (¬ fills → ¬ trims → decideProposal c tEra projected used own peers = .nothing) ∧
    (∀ brk, proposalCount c .trim deficit used brk = -1) ∧
    (fills → ∀ brk,
      proposalCount c .fill deficit used brk =
        min (min deficit (if brk = true then 8 else c.normalRepeat)) (min ((budgetOf c deficit : Int) - used) 8) ∧
      (1 ≤ c.normalRepeat → 1 ≤ proposalCount c .fill deficit used brk))

/-! ## The cue link and its traffic -/

/-- The traffic unit offers no frame of class 2 or above while the held-by set is not empty, and a MARK before all. -/
def Obligations.OfferRanking : Prop :=
  ∀ t : Traffic,
    ((∃ e ∈ t.general, e.live = true ∧ e.hasClass 0 = true) →
      ∃ e ∈ t.general, e.live = true ∧ e.hasClass 0 = true ∧ t.offer = some (.general e.order)) ∧
    (t.heldBy ≠ [] → ∀ r, t.offer = some r →
      r = .flow ∨ ∃ e ∈ t.general, e.live = true ∧ e.hasClass 0 = true ∧ r = .general e.order)

/-- Every frame of the transmit queue and its holders is live: none was cancelled or withdrawn. -/
def AllLive (t : Traffic) : Prop :=
  (∀ e ∈ t.general, e.live = true) ∧ (∀ h, t.beacon = some h → h.live = true) ∧ ∀ h, t.flow = some h → h.live = true

/-- The controller contends: its start bit is sent, and read back dominant. -/
def Contends (t : State) : Prop := t.link.phase = .arbitrating ∧ t.link.attempt = true ∧ t.link.idleCount = 0

/-- The controller stays in IDLE with the idle count at `n`. -/
def StaysIdle (t : State) (n : Nat) : Prop := t.link.phase = .idle ∧ t.link.attempt = false ∧ t.link.idleCount = n

/-- At a bus idle a connected controller without CLASH takes the offer and sends its start bit, unless its courtesy gap
still runs or it has lost its place and fewer than 18 recessive bits have been read; the gap falls by the recessive bits
read in IDLE. The expiry of the courtesy gap, which the model takes as a bus idle of its own (log entry 15), lets it
contend. -/
def Obligations.BusIdleContends : Prop :=
  ∀ (r : TxRef) (s : State), s.link.connected = true → s.link.attempt = false → s.link.clash = false →
    AllLive s.traffic → s.traffic.offer = some r →
    (∀ n, 11 ≤ n →
      ∃ t, exec (.busIdle n) s = .next t ∧ t.link.current = some r ∧
        (s.link.gap = 0 → s.link.lostPlace = false ∨ 18 ≤ n → Contends t) ∧
        (s.link.lostPlace = true → n < 18 → StaysIdle t n) ∧
        (s.link.phase ≠ .idle → n - 11 < s.link.gap → StaysIdle t n ∧ t.link.gap = s.link.gap - (n - 11)) ∧
        (s.link.phase = .idle → n - s.link.idleCount < s.link.gap →
          StaysIdle t n ∧ t.link.gap = s.link.gap - (n - s.link.idleCount))) ∧
    (s.link.phase = .idle → 0 < s.link.gap → s.link.lostPlace = false → 11 ≤ s.link.idleCount →
      ∃ t, exec .courtesyGapExpiry s = .next t ∧ t.link.gap = 0 ∧ t.link.current = some r ∧ Contends t)

/-- The attempt of the frame in the beacon or the flow holder has ended short of success, with a count of `vetoes` on it: a
frame that waits has taken the holder with a count of 0, and else the holder's frame is current still. -/
def HolderKept (s t : State) (vetoes : Nat) : Prop :=
  (∀ h, s.link.current = some .beacon → s.traffic.beacon = some h →
    (s.traffic.beaconNext = none → t.traffic.beacon = some { h with vetoes := vetoes } ∧ t.link.current = some .beacon) ∧
    (∀ f, s.traffic.beaconNext = some f →
      t.traffic.beacon = some ⟨f, 0, false, false⟩ ∧ t.traffic.beaconNext = none ∧ t.link.current = none)) ∧
  (∀ h, s.link.current = some .flow → s.traffic.flow = some h →
    (s.traffic.flowNext = none → t.traffic.flow = some { h with vetoes := vetoes } ∧ t.link.current = some .flow) ∧
    (∀ f, s.traffic.flowNext = some f →
      t.traffic.flow = some ⟨f, 0, false, false⟩ ∧ t.traffic.flowNext = none ∧ t.link.current = none))

/-- The holder that the current frame lies in. -/
def currentHolder (s : State) : Option Holder :=
  match s.link.current with
  | some .beacon => s.traffic.beacon
  | some .flow => s.traffic.flow
  | _ => none

/-- A lost arbitration keeps the frame current with its count, and pulses REFUSED for a mark withdrawn meanwhile; such a
mark keeps its entry until the next bus idle (the model's reading of R93 and R94, log entry 16). Outside ARBITRATING no
arbitration is lost, and the command has no effect (the model's choice, log entry 14). -/
def Obligations.ArbitrationLost : Prop :=
  (∀ (o : Nat) (e : TxEntry) (s : State), s.link.phase = .arbitrating → s.link.attempt = true →
    s.link.current = some (.general o) → s.entry o = some e →
    ∃ t, exec .arbitrationLost s = .next t ∧ t.link.current = some (.general o) ∧ t.link.attempt = false ∧
      t.link.phase = .receiving ∧ t.link.idleCount = 0 ∧ t.entry o = some { e with stale := false } ∧
      (e.stale = true → t.contacts.refused = true) ∧ (e.stale = false → t.traffic = s.traffic)) ∧
  (∀ (h : Holder) (s : State), s.link.phase = .arbitrating → s.link.attempt = true → currentHolder s = some h →
    ∃ t, exec .arbitrationLost s = .next t ∧ t.link.attempt = false ∧ t.link.phase = .receiving ∧
      HolderKept s t h.vetoes ∧ t.traffic.general = s.traffic.general) ∧
  ∀ s : State, s.link.phase ≠ .arbitrating → exec .arbitrationLost s = .next s

/-- A line fault, or an own frame whose veto slot is read dominant in either way. -/
def EndsInVeto (i : Instr) : Prop := (∃ slot, i = .frameVetoed slot) ∨ ∃ n, i = .lineFault n

/-- The attempt of the entry's frame ends in a veto: a veto slot read dominant, a line fault, or the station's own veto of
a frame that its full receive queue cannot take. -/
def Vetoed (i : Instr) (e : TxEntry) (s : State) : Prop :=
  EndsInVeto i ∨
    (i = .sent ∧ ∃ f, e.frame = some f ∧ f.kind.queued = true ∧ 32 ≤ s.traffic.received.length ∧ s.ref.flag = .present)

/-- The controller counts idle from the line alone, on which the last `n` bits read were recessive: below 11 it waits in
RECEIVING with no frame held, and from 11 on it is IDLE and drives nothing. -/
def CountsFromLine (n : Nat) (t : State) : Prop :=
  t.link.idleCount = n ∧ (n < 11 → t.link.phase = .receiving ∧ t.link.awaitIdle = true) ∧
    (11 ≤ n → t.link.phase = .idle ∧ t.link.awaitIdle = false ∧ t.link.drive = ⟨false, false⟩)

/-- The link after a line fault: it drives nothing and counts from the line. The link after a vetoed own frame: the station
drives the veto bit where its own full queue vetoes the frame, and the echo bit where it has read the veto bit dominant,
its own included. -/
def VetoedLink : Prop :=
  (∀ (n : Nat) (s : State), s.link.attempt = true →
    ∃ t, exec (.lineFault n) s = .next t ∧ CountsFromLine n t ∧ t.link.drive = ⟨false, false⟩) ∧
  ∀ (slot : VetoSlot) (o : Nat) (e : TxEntry) (f : TxFrame) (s : State), s.link.attempt = true →
    s.link.current = some (.general o) → s.entry o = some e → e.frame = some f →
    ∃ t, exec (.frameVetoed slot) s = .next t ∧ t.link.phase = .transmitting ∧ t.link.idleCount = 0 ∧
      (t.link.drive.veto = true ↔
        f.kind.queued = true ∧ 32 ≤ s.traffic.received.length ∧ s.ref.flag = .present) ∧
      (t.link.drive.echo = true ↔ slot = .vetoBit ∨ t.link.drive.veto = true)

/-- A veto counts one on the frame; below 16 it stays current. The frame is placed nowhere. A mark withdrawn in the
attempt stays current with its entry until the next bus idle (the model's reading of R93 and R94, log entry 16). After a
line fault the idle count is the one the command brings; the veto slot of a vetoed own frame is echoed where its veto bit
was read dominant (both operands are the model's form, log entries 49 and 50). -/
def Obligations.VetoCounted : Prop :=
  (∀ (i : Instr) (o : Nat) (e : TxEntry) (s : State), Vetoed i e s → s.link.attempt = true →
    s.link.current = some (.general o) → s.entry o = some e → e.vetoes + 1 < 16 →
    ∃ t, exec i s = .next t ∧ t.entry o = some { e with vetoes := e.vetoes + 1, stale := false } ∧
      t.link.current = some (.general o) ∧ t.link.attempt = false ∧ t.link.vetoCount = s.link.vetoCount ∧
      t.traffic.received = s.traffic.received) ∧
  VetoedLink ∧
  ∀ (i : Instr) (h : Holder) (s : State), EndsInVeto i → s.link.attempt = true →
    currentHolder s = some h → h.vetoes + 1 < 16 →
    ∃ t, exec i s = .next t ∧ t.link.attempt = false ∧ HolderKept s t (h.vetoes + 1) ∧
      t.link.vetoCount = s.link.vetoCount ∧ t.traffic.received = s.traffic.received ∧
      t.traffic.general = s.traffic.general

/-- At the sixteenth veto a MARK stays queued with a count of 0; a PACE, RECAP or JOIN is removed; a frame whose
cancellation was asked is removed whatever its class. The beacon holder is emptied, and the flow holder is loaded with the
frame of the present flow state; a frame that waits takes its holder. -/
def Obligations.SixteenthVeto : Prop :=
  (∀ (i : Instr) (o : Nat) (e : TxEntry) (s : State), Vetoed i e s → s.link.attempt = true →
    s.link.current = some (.general o) → s.entry o = some e → e.vetoes = 15 →
    ∃ t, exec i s = .next t ∧ t.link.current = none ∧ t.link.attempt = false ∧
      (e.isMark = true → e.cancelAsked = false → t.entry o = some { e with vetoes := 0, stale := false }) ∧
      (e.isMark = false ∨ e.cancelAsked = true → t.entry o = none)) ∧
  ∀ (i : Instr) (h : Holder) (s : State), EndsInVeto i → s.link.attempt = true →
    s.link.clash = false → currentHolder s = some h → h.vetoes = 15 →
    ∃ t, exec i s = .next t ∧ t.link.current = none ∧ t.link.attempt = false ∧
      (s.link.current = some .beacon →
        t.traffic.beacon = s.traffic.beaconNext.map (fun f => ⟨f, 0, false, false⟩) ∧ t.traffic.beaconNext = none) ∧
      (s.link.current = some .flow → s.traffic.flowNext = none →
        t.traffic.flow =
          some ⟨⟨if s.traffic.flowState = .asserted then .hold else .resume, []⟩, 0, false, false⟩) ∧
      ∀ f, s.link.current = some .flow → s.traffic.flowNext = some f → t.traffic.flow = some ⟨f, 0, false, false⟩

/-- What the link and the receive queue are after the frame `f` was sent: the frame has left the controller, the courtesy
gap is loaded from class 2 on, and the station receives its own frame, with the own mark, where the queue takes its kind;
the placement that brings the queue to 24 asserts the flow state. -/
def SentLeaves (c : Settings) (f : TxFrame) (s t : State) : Prop :=
  t.link.current = none ∧ t.link.attempt = false ∧ t.link.vetoCount = s.link.vetoCount ∧
    t.link.gap = (if 2 ≤ f.kind.cls then c.courtesyGap else s.link.gap) ∧
    (f.kind.queued = true → t.traffic.received = s.traffic.received ++ [⟨s.station, f.kind, f.body, true⟩]) ∧
    (f.kind.queued = true → s.traffic.flowState = .clear → s.traffic.received.length = 23 →
      t.traffic.flowState = .asserted ∧
        (s.link.clash = false → t.traffic.flow = some ⟨⟨.hold, []⟩, 0, false, false⟩)) ∧
    (f.kind.queued = false ∨ s.traffic.flowState = .asserted ∨ s.traffic.received.length ≠ 23 →
      t.traffic.flowState = s.traffic.flowState) ∧
    (f.kind.queued = false → t.traffic.received = s.traffic.received)

/-- A frame of the recap stream stood: a head's entry stays held without a frame, a RECAP-END's is freed, and another's is
filled with the next frame of the recap. -/
def StreamSent : Prop :=
  ∀ (c : Settings) (o : Nat) (e : TxEntry) (f : TxFrame) (s : State), s.settings = some c → s.link.attempt = true →
    s.link.current = some (.general o) → s.entry o = some e → e.frame = some f → e.stream = true →
    e.owner = .monitor → e.cancelAsked = false → e.drop = false → (∀ d ∈ s.traffic.general, d.stream = true → d = e) →
    f.kind.queued = true → s.traffic.received.length < 32 →
    ∃ t, exec .sent s = .next t ∧ SentLeaves c f s t ∧
      (f.kind = .recapHead → t.entry o = some { e with frame := none, vetoes := 0 } ∧ t.mon = s.mon) ∧
      (f.kind = .recapEnd → t.entry o = none ∧ t.mon = s.mon) ∧
      ∀ n filled g, f.kind ≠ .recapHead → f.kind ≠ .recapEnd → s.mon.ownRecap = .inProgress n filled →
        n.frames[filled]? = some g →
        t.entry o = some { e with frame := some g, vetoes := 0 } ∧
          t.mon = { s.mon with ownRecap := .inProgress n (filled + 1) }

/-- A frame of a general entry that stands leaves its entry, loads the courtesy gap from class 2 on, and is received by
its own station with the own mark. A frame of a holder leaves it to the frame that waits, and is not self-received. -/
def Obligations.SentFrame : Prop :=
  (∀ (c : Settings) (o : Nat) (e : TxEntry) (f : TxFrame) (s : State), s.settings = some c → s.link.attempt = true →
    s.link.current = some (.general o) → s.entry o = some e → e.frame = some f → e.stream = false →
    f.kind.queued = true → s.traffic.received.length < 32 →
    ∃ t, exec .sent s = .next t ∧ t.entry o = none ∧ SentLeaves c f s t) ∧
  StreamSent ∧
  ∀ (c : Settings) (h : Holder) (s : State), s.settings = some c → s.link.attempt = true →
    currentHolder s = some h → h.frame.kind.queued = false →
    ∃ t, exec .sent s = .next t ∧ SentLeaves c h.frame s t ∧
      (s.link.current = some .beacon →
        t.traffic.beacon = s.traffic.beaconNext.map (fun f => ⟨f, 0, false, false⟩) ∧ t.traffic.beaconNext = none) ∧
      (s.link.current = some .flow →
        t.traffic.flow = s.traffic.flowNext.map (fun f => ⟨f, 0, false, false⟩) ∧ t.traffic.flowNext = none)

/-- The controller takes frames as a receiver, with no attempt of its own. -/
def Receives (s : State) : Prop := s.link.connected = true ∧ s.link.awaitIdle = false ∧ s.link.attempt = false

/-- A frame taken without a line failure takes one from the veto count, vetoed or not (the model follows R83, log entry
44), ends QUIET at 0, and is placed at the tail of the receive queue where it stands and the queue has room. A placement that
brings the queue to 24 while the flow state is CLEAR asserts it and loads HOLD. The receiver
vetoes it for a full queue while the reference is PRESENT, and echoes the veto bit of another node; the bits driven are
state (the model's form, log entry 49). -/
def Obligations.CleanFrame : Prop :=
  ∀ (r : LineRead) (k : Station) (kind : Kind) (body : List Byte) (s : State), Receives s →
    readFrame r.bits = .clean k kind body → kind.queued = true →
    ∃ t, exec (.frameReceived r) s = .next t ∧ t.link.vetoCount = s.link.vetoCount - 1 ∧
      (t.link.quiet = true ↔ s.link.quiet = true ∧ s.link.vetoCount - 1 ≠ 0) ∧
      (t.link.drive.veto = true ↔ 32 ≤ s.traffic.received.length ∧ s.ref.flag = .present) ∧
      (t.link.drive.echo = true ↔ t.link.drive.veto = true ∨ r.vetoBit = true) ∧
      (r.vetoBit = false → r.echoBit = false → s.traffic.received.length < 32 →
        t.traffic.received = s.traffic.received ++ [⟨k, kind, body, false⟩] ∧
        (s.traffic.flowState = .clear → s.traffic.received.length = 23 → FlowLoaded .asserted .hold s t) ∧
        (s.traffic.flowState = .asserted ∨ s.traffic.received.length ≠ 23 → FlowKept s t)) ∧
      (r.vetoBit = true ∨ r.echoBit = true ∨ 32 ≤ s.traffic.received.length → t.traffic = s.traffic)

/-- What every line failure does to the veto count and QUIET. -/
def FailureCounted (s t : State) : Prop :=
  t.link.vetoCount = min 255 (s.link.vetoCount + 1) ∧
    (t.link.quiet = true ↔ s.link.quiet = true ∨ 128 ≤ min 255 (s.link.vetoCount + 1)) ∧
    t.traffic.received = s.traffic.received

/-- The receiver has lost its place in a frame after which the last `n` bits read were recessive: it may contend again once
18 have been read. -/
def LostPlace (n : Nat) (t : State) : Prop := CountsFromLine n t ∧ (t.link.lostPlace = true ↔ n < 18)

/-- A frame with a line failure adds one to the veto count, and at 128 the station is QUIET. A receiver that is not QUIET
vetoes the frame where its veto slot is placed; every receiver echoes another's veto bit. Only a QUIET station that lost a
standing frame, or one that lost its place, reports FRAME-LOST, which takes an ALIGNED station to RESYNC. One that lost
its place counts idle from the line alone, and is IDLE where 11 recessive bits have been read. The bits driven are state,
until the line has fallen idle (the model's form, log entry 49). -/
def Obligations.FailedFrame : Prop :=
  (∀ (r : LineRead) (k : Station) (s : State), Receives s → readFrame r.bits = .failure k →
    ∃ t, exec (.frameReceived r) s = .next t ∧ FailureCounted s t ∧
      (r.lateDominant = false ∨ r.trailing < 11 →
        (t.link.drive.veto = true ↔ s.link.quiet = false) ∧
        (t.link.drive.echo = true ↔ s.link.quiet = false ∨ r.vetoBit = true)) ∧
      (r.lateDominant = false → s.link.quiet = false ∨ r.vetoBit = true ∨ r.echoBit = true →
        t.mon = s.mon ∧ t.traffic = s.traffic) ∧
      (r.lateDominant = true ∨ s.link.quiet = true ∧ r.vetoBit = false ∧ r.echoBit = false → s.mon.mode = .aligned →
        t.mon.mode = .resync .aligned ∧ t.mon.retry = some 200) ∧
      (r.lateDominant = true → LostPlace r.trailing t)) ∧
  ∀ (r : LineRead) (k : Option Station) (s : State), Receives s → readFrame r.bits = .lostPlace k →
    ∃ t, exec (.frameReceived r) s = .next t ∧ FailureCounted s t ∧ t.link.drive = ⟨false, false⟩ ∧
      LostPlace r.trailing t ∧
      (s.mon.mode = .aligned → t.mon.mode = .resync .aligned ∧ t.mon.retry = some 200)

/-- CLASH: the sticky fault is set, nothing is left to send, and REFUSED pulses for a MARK that was held, the one in the attempt
among them (the model's choice, log entry 58). A line frame that shows a line failure, a kind or length
failure among them (the model's choice, log entry 45), leaves CLASH clear: the attempt counts as a veto of its frame, the
veto count stays and nothing is reported. -/
def Obligations.ClashSet : Prop :=
  (∀ (r : LineRead) (k : Station) (kind : Kind) (body : List Byte) (s : State), s.link.attempt = true →
    readFrame r.bits = .clean k kind body →
    ∃ t, exec (.clash r) s = .next t ∧ t.link.clash = true ∧ t.link.attempt = false ∧ t.link.current = none ∧
      t.traffic.general = [] ∧ t.traffic.beacon = none ∧ t.traffic.flow = none ∧ t.mon.ownRecap = .none ∧
      ((∃ e ∈ s.traffic.general, e.isMark = true) → t.contacts.refused = true) ∧ faultLit t = true) ∧
  ∀ (r : LineRead) (o : Nat) (e : TxEntry) (s : State), s.link.attempt = true → s.link.current = some (.general o) →
    s.entry o = some e → e.vetoes + 1 < 16 →
    (∃ k, readFrame r.bits = .failure k) ∨ (∃ k, readFrame r.bits = .lostPlace k) →
    ∃ t, exec (.clash r) s = .next t ∧ t.link.clash = s.link.clash ∧ t.link.attempt = false ∧
      t.link.current = some (.general o) ∧ t.entry o = some { e with vetoes := e.vetoes + 1, stale := false } ∧
      t.link.vetoCount = s.link.vetoCount ∧ t.link.quiet = s.link.quiet ∧ t.mon = s.mon ∧
      t.traffic.received = s.traffic.received

/-- Only RESET clears CLASH and STORE-EXHAUSTED. -/
def Obligations.StickyFaults : Prop :=
  ∀ (i : Instr) (s t : State), exec i s = .next t → (∀ cause k levels, i ≠ .reset cause k levels) →
    (s.link.clash = true → t.link.clash = true) ∧ (s.store.exhausted = true → t.store.exhausted = true)

/-- A standing HOLD puts its sender into the held-by set with a count of 100, a standing RESUME takes it out, and neither
enters the receive queue. Each is a whole reception, and during an attempt the handing on alone (the model's choice, log
entries 12 and 13). -/
def Obligations.HoldAndResume : Prop :=
  ∀ (k : Station) (s : State), s.link.connected = true → s.link.awaitIdle = false →
    (∃ t, exec (.holdReceived k) s = .next t ∧
      (∀ h, h ∈ t.traffic.heldBy ↔ h = ⟨k, 100⟩ ∨ h ∈ s.traffic.heldBy ∧ h.station ≠ k) ∧
      t.traffic.received = s.traffic.received) ∧
    (∃ t, exec (.resumeReceived k) s = .next t ∧
      (∀ h, h ∈ t.traffic.heldBy ↔ h ∈ s.traffic.heldBy ∧ h.station ≠ k) ∧
      t.traffic.received = s.traffic.received)

/-- R164: a beacon compared with the history entry for its stamp differs in founding, play or digest, and the station's era
yields to the beacon's: it is later, or they tie and the sender's number is the lower. -/
def MismatchYields (s : State) (k : Station) (b : Beacon) (era : Era) (e : HistEntry) : Prop :=
  (b.founding ≠ era.founding ∨ e.psn ≠ b.psn ∨ e.rep ≠ b.rep ∨ e.digest ≠ some b.digest) ∧
    (later era.founding b.founding = true ∨ later b.founding era.founding = false ∧ k.val < s.station.val)

/-- A BEACON of another station fills its entry of the peer table; in LISTENING one that shows FILLING or ALIGNED takes
the station to JOINING with a JOIN queued. In FILLING and ALIGNED one that shows FILLING or ALIGNED, and whose stamp has a
complete history entry, is compared, and a mismatch that yields takes the station to RESYNC with a JOIN queued. The row
is a whole reception, and during an attempt the handing on alone (the model's choice, log entries 12 and 13). -/
def Obligations.BeaconTaken : Prop :=
  ∀ (k : Station) (body : List Byte) (b : Beacon) (x : Slot) (s : State), s.link.connected = true →
    s.link.awaitIdle = false → s.mon.mode.takesBeacons = true → k ≠ s.station → parseBeacon body = some b →
    s.ref.hsn = some x →
    ∃ t, exec (.beaconReceived k body) s = .next t ∧
      t.mon.peers.find? (fun p => p.station == k) = some ⟨k, x, b.period, b.state, b.founding, b.pressure⟩ ∧
      (s.mon.mode = .listening → b.state ≠ .resync →
        t.mon.mode = .joining ∧ t.mon.retry = some 200 ∧ t.mon.listen = none ∧
        (s.link.clash = false → s.traffic.general.length < 16 →
          ∃ e ∈ t.traffic.general, e.frame = some ⟨.join, joinBody x false⟩)) ∧
      (s.mon.mode = .listening → b.state = .resync → t.mon.mode = .listening) ∧
      ∀ origin, s.mon.mode = Origin.mode origin →
        (∀ era e, b.state ≠ .resync → s.mon.era = some era →
          s.egress.history.find? (fun d => d.hsn == b.stamp && d.digest.isSome) = some e →
          MismatchYields s k b era e →
          t.mon.mode = .resync origin ∧ t.mon.retry = some 200 ∧
          (s.link.clash = false → s.traffic.general.length < 16 →
            ∃ d ∈ t.traffic.general, d.frame = some ⟨.join, joinBody x true⟩)) ∧
        (b.state = .resync ∨
          (∀ d ∈ s.egress.history, d.hsn = b.stamp → d.digest = none) ∨
          (∃ era e, s.mon.era = some era ∧
            s.egress.history.find? (fun d => d.hsn == b.stamp && d.digest.isSome) = some e ∧
            ¬ MismatchYields s k b era e) →
          t.mon.mode = s.mon.mode ∧ t.traffic = s.traffic)

/-! ## Marks and contacts -/

/-- A change of the raw level restarts the contact's stable timer and changes nothing else. A contact that settles takes
its raw level; only a change from OPEN to CLOSED in FILLING or ALIGNED is handed on. -/
def Obligations.ContactDebounce : Prop :=
  ∀ (k : Contact) (s : State),
    (∀ level, (contactOf s.contacts.lines k).raw ≠ level →
      ∃ t, exec (.contactRawLevelChange k level) s = .next t ∧
        contactOf t.contacts.lines k = (⟨level, true, (contactOf s.contacts.lines k).debounced⟩ : Debouncer) ∧
        (∀ j, j ≠ k → contactOf t.contacts.lines j = contactOf s.contacts.lines j) ∧
        t.contacts.refused = s.contacts.refused ∧ t = s.withContacts t.contacts) ∧
    ((contactOf s.contacts.lines k).timing = true →
      (contactOf s.contacts.lines k).debounced ≠ some .opened ∨ (contactOf s.contacts.lines k).raw = .opened ∨
        (s.mon.mode ≠ .filling ∧ s.mon.mode ≠ .aligned) →
      ∃ t, exec (.debounceStable k) s = .next t ∧
        contactOf t.contacts.lines k =
          (⟨(contactOf s.contacts.lines k).raw, false, some (contactOf s.contacts.lines k).raw⟩ : Debouncer) ∧
        (∀ j, j ≠ k → contactOf t.contacts.lines j = contactOf s.contacts.lines j) ∧
        t.contacts.refused = s.contacts.refused ∧ t = s.withContacts t.contacts)

/-- The MARK that a press builds, with the stamp and the origin count; RESCIND is not one of them. -/
def pressedMark (c : Settings) (x : Slot) (n : Byte) : Contact → Option Mark
  | .dump => some (.dump x n (x - slots c.dumpLength) (x - 1))
  | .markIn => some (.spanIn x x)
  | .markOut => some (.spanOut x x)
  | .commitDrop => some (.spanCommit x n .drop)
  | .commitMask => some (.spanCommit x n (.mask c.commitMaskLanes))
  | .abandon => some (.spanAbandon x)
  | .rescind => none

/-- A closing edge in FILLING or ALIGNED adds one MARK frame to the transmit queue, stamped with the current HSN. Where all
16 entries hold frames, or under CLASH, the queue stays as it is and REFUSED pulses; the origin count is given out all the
same. -/
def Obligations.PressBuildsFrame : Prop :=
  ∀ (k : Contact) (c : Settings) (x : Slot) (m : Mark) (s : State), s.settings = some c → s.ref.hsn = some x →
    s.mon.mode = .filling ∨ s.mon.mode = .aligned → contactOf s.contacts.lines k = ⟨.closed, true, some .opened⟩ →
    pressedMark c x s.nextCount k = some m → s.link.connected = true →
    ∃ t, exec (.debounceStable k) s = .next t ∧
      (s.link.clash = false → s.traffic.general.length < 16 →
        t.traffic.general =
          s.traffic.general ++
            [⟨s.traffic.nextOrder, some ⟨m.kind, m.body⟩, .originator, 0, false, false, false, some x, false⟩] ∧
        t.contacts.refused = s.contacts.refused) ∧
      (s.link.clash = true ∨ 16 ≤ s.traffic.general.length →
        t.traffic = s.traffic ∧ t.contacts.refused = true) ∧
      t.orig.count = (if k = .dump ∨ k = .commitDrop ∨ k = .commitMask then s.nextCount + 1 else s.orig.count) ∧
      t.orig.stack = s.orig.stack

/-- A RESCIND press takes entries off the stack down to the first whose cut is held and ARMED and sends RESCIND for it;
with none it pulses REFUSED and sends nothing. Where all 16 entries hold frames, or under CLASH, the RESCIND is not queued and
REFUSED pulses, and the entries taken off do not return. -/
def Obligations.RescindPress : Prop :=
  ∀ (c : Settings) (x : Slot) (above below : List CutId) (s : State), s.settings = some c → s.ref.hsn = some x →
    s.mon.mode = .filling ∨ s.mon.mode = .aligned →
    contactOf s.contacts.lines .rescind = ⟨.closed, true, some .opened⟩ → s.link.connected = true →
    (∀ id ∈ above, ∀ d, findCut s.plan.cuts id = some d → d.state = .active) →
    (∀ id d, s.orig.stack = above ++ id :: below → findCut s.plan.cuts id = some d → d.state = .armed →
      ∃ t, exec (.debounceStable .rescind) s = .next t ∧ t.orig = { s.orig with stack := below } ∧
        (s.link.clash = false → s.traffic.general.length < 16 →
          t.traffic.general =
            s.traffic.general ++
              [⟨s.traffic.nextOrder, some ⟨.rescind, bytes32 x ++ [stationByte id.origin, id.count]⟩, .originator, 0,
                false, false, false, some x, false⟩]) ∧
        (s.link.clash = true ∨ 16 ≤ s.traffic.general.length →
          t.traffic = s.traffic ∧ t.contacts.refused = true)) ∧
    (s.orig.stack = above →
      ∃ t, exec (.debounceStable .rescind) s = .next t ∧ t.orig = { s.orig with stack := [] } ∧
        t.traffic = s.traffic ∧ t.contacts.refused = true)

/-- The origin count given out is the first, from the current one on, whose identifier the cut table does not hold. A push
puts the identifier on top of the rescind stack, holds no identifier twice, and keeps at most 8 entries. -/
def Obligations.OriginatorState : Prop :=
  (∀ s : State, s.plan.cuts.length ≤ 32 →
    ∃ n : Nat, n ≤ 32 ∧ s.nextCount = s.orig.count + BitVec.ofNat 8 n ∧
      (∀ i, i < n → ∃ d ∈ s.plan.cuts, d.id = ⟨s.station, s.orig.count + BitVec.ofNat 8 i⟩) ∧
      (∀ d ∈ s.plan.cuts, d.id ≠ ⟨s.station, s.nextCount⟩) ∧ s.countGiven.orig.count = s.nextCount + 1) ∧
  ∀ (o : Originator) (id : CutId), o.stack.Nodup → o.stack.length ≤ 8 →
    (o.push id).stack.head? = some id ∧ (o.push id).stack.Nodup ∧ (o.push id).stack.length ≤ 8 ∧
      (o.push id).count = o.count ∧
      (∀ d ∈ (o.push id).stack, d = id ∨ d ∈ o.stack) ∧
      (id ∈ o.stack ∨ o.stack.length < 8 → ∀ d ∈ o.stack, d ∈ (o.push id).stack)

/-- The REFUSED timer's expiry makes the tally dark and changes nothing else. -/
def Obligations.RefusedPulseExpiry : Prop :=
  ∀ s : State, exec .refusedPulseExpiry s = .next (s.withContacts { s.contacts with refused := false })

/-- READY and DUMP-AVAILABLE against the delay `x - q`. -/
def DelayTallies (s : State) (c : Settings) (era : Era) (x q : Slot) : Prop :=
  (readyLit s = true ↔ s.mon.mode = .aligned ∧ (era.tEra : Int) - c.readyTolerance ≤ (x - q).toInt) ∧
    (dumpAvailableLit s = true ↔ s.mon.mode = .aligned ∧ (c.dumpLength : Int) + 8 ≤ (x - q).toInt)

/-- FAULT is lit exactly while one of its conditions holds, ARMED exactly while a cut is held, and a beacon carries the
three members of the fault set as they stand. READY and DUMP-AVAILABLE compare the delay in ALIGNED: the HSN less the PSN
that the output step played, or less the one scheduled where the step is still to come. The model computes the tallies
from the state (log entry 30). -/
def Obligations.FaultAndArmedTallies : Prop :=
  ∀ s : State,
    (∀ (c : Settings) (era : Era) (e : HistEntry) (d : Digest),
      (s.beaconOf c era e d).exhausted = s.store.exhausted ∧ (s.beaconOf c era e d).quiet = s.link.quiet ∧
        (s.beaconOf c era e d).clash = s.link.clash) ∧
    (faultLit s = true ↔
      s.mon.mode = .configuring ∨ s.mon.mode = .configFault ∨ s.ref.flag = .lost ∨ s.link.clash = true ∨
        s.store.exhausted = true ∨ s.link.quiet = true) ∧
    (armedLit s = true ↔ ∃ c ∈ s.plan.cuts, c.state = .armed ∨ c.state = .active) ∧
    (s.mon.mode ≠ .aligned → readyLit s = false ∧ dumpAvailableLit s = false) ∧
    ∀ (c : Settings) (era : Era) (pt : SchedPoint) (x : Slot), s.settings = some c → s.mon.era = some era →
      s.egress.point = some pt → s.ref.hsn = some x →
      (∀ e, s.egress.history.find? (fun d => d.hsn == x) = some e → DelayTallies s c era x e.psn) ∧
      ((∀ d ∈ s.egress.history, d.hsn ≠ x) → DelayTallies s c era x (s.plan.playAt pt x).psn)

/-! ## Expiries -/

/-- The listen timer's expiry founds an era: its founding HSN, its target, its schedule point, and FILLING. The expiry is
a command of its own after the strobe that brought the timer to 0 (the model's choice, log entry 6). -/
def Obligations.ListenTimerExpiry : Prop :=
  ∀ (c : Settings) (x : Slot) (s : State), s.settings = some c → s.ref.hsn = some x → s.mon.mode = .listening →
    s.mon.listen = some 0 →
    ∃ t, exec .listenTimerExpiry s = .next t ∧ t.mon.mode = .filling ∧ t.mon.era = some ⟨x, c.tCfg⟩ ∧
      t.egress.point = some ⟨x, x - slots c.tCfg, 0, 0⟩ ∧ t.mon.listen = none ∧ t.plan = s.plan ∧ t.index = s.index

/-- R167, R168: an ALIGNED station answers another's JOIN with a RECAP-HEAD unless a recap is on or CLASH is set; in every
other case the JOIN is discarded. -/
def JoinAnswered : Prop :=
  ∀ (s : State) (x stamp : Slot) (era : Era) (f : RxFrame), parseJoin f.body = some stamp → s.mon.era = some era →
    let serves := later stamp x = false ∧ f.own = false ∧ s.mon.mode = .aligned ∧ s.mon.ownRecap = .none ∧
      s.mon.foreign = none ∧ s.link.clash = false
    (serves → s.link.connected = true → s.traffic.general.length < 16 →
      (s.takeJoin x f).traffic.general =
        s.traffic.general ++
          [⟨s.traffic.nextOrder, some ⟨.recapHead, headBody x era.founding⟩, .monitor, 0, false, false, false, none,
            true⟩] ∧
      (s.takeJoin x f).mon = { s.mon with ownRecap := .headPending }) ∧
    (serves → 16 ≤ s.traffic.general.length → (s.takeJoin x f).mon = s.mon ∧ (s.takeJoin x f).traffic = s.traffic) ∧
    (¬ serves → s.takeJoin x f = s)

/-- R168 to R172: a RECAP-HEAD taken at intake. The own head starts the recap of an ALIGNED station that is HEAD PENDING,
with the plan as it stands; another station's head is noted as a foreign recap of the station's era, and starts the
collecting record of a station that asks for a recap, unless its era would yield to a peer's; a foreign recap held does not
keep it from that (the model's choice, log entry 61). -/
def HeadTaken : Prop :=
  ∀ (s : State) (b : Bounds) (f : RxFrame) (stamp founding : Slot), parseHead f.body = some (stamp, founding) →
    later stamp b.x = false →
    (∀ pt era, f.own = true → s.mon.mode = .aligned → s.mon.ownRecap = .headPending → s.mon.foreign = none →
      s.egress.point = some pt → s.mon.era = some era →
      (s.takeHead b f).mon =
        { s.mon with
          ownRecap :=
            .inProgress
              ⟨b.x, s.plan, (s.plan.playAt pt b.x).psn, (s.plan.playAt pt b.x).rep, b.h, s.plan.digest, era⟩ 1 }) ∧
    (f.own = true → s.mon.mode ≠ .aligned ∨ s.mon.ownRecap ≠ .headPending ∨ s.mon.foreign ≠ none →
      (s.takeHead b f).mon = { s.mon with ownRecap := .none }) ∧
    (∀ era, f.own = false → s.mon.mode = .aligned ∨ s.mon.mode = .filling → s.mon.era = some era →
      era.founding = founding → s.mon.foreign = none → s.mon.ownRecap = .none ∨ s.mon.ownRecap = .headPending →
      (s.takeHead b f).mon = { s.mon with foreign := some ⟨f.sender, 100⟩, ownRecap := .none }) ∧
    (f.own = false → s.mon.mode.wantsRecap = true → s.mon.collecting = none →
      (∀ p ∈ s.mon.peers, p.validAt b.x = true → p.state ≠ .resync → p.founding ≠ founding →
        ¬ (later founding p.founding = true ∨
          later p.founding founding = false ∧ p.station.val < f.sender.val)) →
      (s.takeHead b f).mon.collecting = some ⟨f.sender, b.x, ⟨[], [], []⟩, [], [], 100, false⟩ ∧
        (s.takeHead b f).mon.retry = none ∧ (s.takeHead b f).mon.mode = s.mon.mode)

/-- R172, R174: a recap frame of the head's sender loads the silence count, and its entry joins the image, but one already
held, or without room, is skipped. -/
def ImageTaken : Prop :=
  ∀ (s : State) (f : RxFrame) (r : Collecting), f.own = false → s.mon.collecting = some r → r.sender = f.sender →
    (∀ c, f.kind = .recapCut → parseCut f.body = some c →
      ∃ image, (s.takeImage f).mon.collecting = some { r with image := image, silence := 100 } ∧
        image.paces = r.image.paces ∧ image.spans = r.image.spans ∧
        ((∃ d ∈ r.image.cuts, d.id = c.id) ∨ 32 ≤ r.image.cuts.length → image = r.image) ∧
        ((∀ d ∈ r.image.cuts, d.id ≠ c.id) → r.image.cuts.length < 32 → image.cuts.Perm (c :: r.image.cuts))) ∧
    (∀ p, f.kind = .recapPace → parseRecapPace f.body = some p →
      ∃ image, (s.takeImage f).mon.collecting = some { r with image := image, silence := 100 } ∧
        image.cuts = r.image.cuts ∧ image.spans = r.image.spans ∧
        ((∃ d ∈ r.image.paces, d.psn = p.psn) ∨ 64 ≤ r.image.paces.length → image = r.image) ∧
        ((∀ d ∈ r.image.paces, d.psn ≠ p.psn) → r.image.paces.length < 64 →
          image.paces.Perm (p :: r.image.paces))) ∧
    (∀ d, f.kind = .recapSpan → parseRecapSpan r.x0 f.body = some d →
      ∃ image, (s.takeImage f).mon.collecting = some { r with image := image, silence := 100 } ∧
        image.cuts = r.image.cuts ∧ image.paces = r.image.paces ∧
        (∀ held, r.image.spanOf d.origin = some held → image = r.image) ∧
        (r.image.spanOf d.origin = none → image.spanOf d.origin = some d))

/-- R175, R176: the checks of a RECAP-END hold. -/
def EndHolds (r : Collecting) (e : RecapEnd) : Prop :=
  e.x0 = r.x0 ∧ e.cuts = r.image.cuts.length ∧ e.paces = r.image.paces.length ∧ e.spans = r.image.spans.length ∧
    e.digest = r.image.digest

/-- R174 to R176: a RECAP-END of the head's sender whose checks hold is adopted: the replayed plan and point, the era it
carries, and FILLING or the resync origin; JUMP is set in RESYNC where the next play changes. Otherwise the collection
fails: the plan and the point stay, and the retry timer is loaded. An adoption with the lost mark set goes on to RESYNC. The
bounds for the frames that follow are the replay's, its delay among them (the model's choice, log entry 60). -/
def EndTaken : Prop :=
  ∀ (s : State) (x : Slot) (f : RxFrame) (r : Collecting) (e : RecapEnd), f.own = false →
    s.mon.mode.wantsRecap = true → s.mon.collecting = some r → r.sender = f.sender → parseRecapEnd f.body = some e →
    (EndHolds r e → r.lost = false →
      let p := replayOf r e x
      let t := (s.takeEnd x f).1
      t.plan = p.plan.retire p.point.psn ∧ t.egress.point = some p.point ∧ (s.takeEnd x f).2 = some p.bounds ∧
        t.mon.era = some ⟨e.founding, e.tEra⟩ ∧ t.mon.collecting = none ∧ t.mon.retry = none ∧
        t.orig = s.orig ∧ (s.mon.mode = .joining → t.mon.mode = .filling ∧ t.egress.jump = s.egress.jump) ∧
        (∀ origin, s.mon.mode = .resync origin → t.mon.mode = Origin.mode origin) ∧
        ∀ origin old, s.mon.mode = .resync origin → s.egress.point = some old →
          let taken := (∃ d ∈ s.egress.history, d.hsn = x) ∨ ∃ b ∈ s.egress.out, b.hsn = x
          ∀ y, (taken → y = x + 1) → (¬ taken → y = x) →
            (t.egress.jump = true ↔ s.egress.jump = true ∨
              (s.plan.playAt old y).psn ≠ ((p.plan.retire p.point.psn).playAt p.point y).psn ∨
              (s.plan.playAt old y).rep ≠ ((p.plan.retire p.point.psn).playAt p.point y).rep)) ∧
    (EndHolds r e → r.lost = true →
      (s.takeEnd x f).1.mon.retry = some 200 ∧
        (s.mon.mode = .joining → (s.takeEnd x f).1.mon.mode = .resync .filling) ∧
        ∀ origin, s.mon.mode = .resync origin → (s.takeEnd x f).1.mon.mode = .resync origin) ∧
    (¬ EndHolds r e →
      (s.takeEnd x f).1.plan = s.plan ∧ (s.takeEnd x f).1.egress = s.egress ∧ (s.takeEnd x f).2 = none ∧
        (s.takeEnd x f).1.mon.collecting = none ∧ (s.takeEnd x f).1.mon.retry = some 200 ∧
        (s.takeEnd x f).1.mon.mode = s.mon.mode)

/-- R176: the replay starts at the image and the snapshot point with the frames recorded for `x0`, and for each HSN after
it takes an output step, the retirement and span expiry due, and the frames recorded for it. Where the repeat index exceeds
the fill's count, no repeat is owed (the model's choice, log entry 57). -/
def ReplayRule : Prop :=
  ∀ (r : Collecting) (e : RecapEnd),
    (let q := e.x0 - slots e.delay
     let b : Bounds := ⟨e.x0, q + slots e.horizonOffset, e.x0 - 3, (e.x0 - q).toInt⟩
     replayOf r e e.x0 =
       ⟨r.image.takeFrames b (r.framesAt e.x0),
        ⟨e.x0, q, e.rep, ((paceAt r.image.paces q).getD 0).toNat - e.rep⟩, b⟩) ∧
    ∀ n : Nat, n + 1 < 4294967296 →
      let p := replayOf r e (e.x0 + slots n)
      let y := e.x0 + slots (n + 1)
      let pt := p.plan.outStep p.point
      let pl := (p.plan.retire pt.psn).expireSpans y
      replayOf r e y = ⟨pl.takeFrames (pl.boundsAt pt y) (r.framesAt y), pt, pl.boundsAt pt y⟩

/-- The join retry timer's expiry, and the silence of a collecting record, ask with a JOIN unless one is queued and load
the timer with 200; the silence of a foreign recap ends it. The expiries are commands of their own after the strobe (the
model's choice, log entry 6), and a JOIN whose cancellation was asked does not count as queued (the model's reading, log entry
28). The recap that a JOIN asks for: its answer, its head, its image, its end and the adoption; where the repeat index of the
RECAP-END exceeds the fill's count, no repeat is owed (log entry 57), the bounds after an adoption hold the replay's delay (log
entry 60), and a head starts a record whatever foreign recap is held (log entry 61): the model's choices. -/
def Obligations.MonitorExpiries : Prop :=
  (∀ (x : Slot) (s : State), s.ref.hsn = some x → s.joinQueued = false → s.link.connected = true →
    s.link.clash = false → s.traffic.general.length < 16 →
    (s.mon.retry = some 0 →
      ∃ t, exec .joinRetryExpiry s = .next t ∧ t.mon = { s.mon with retry := some 200 } ∧
        ∃ e ∈ t.traffic.general, e.frame = some ⟨.join, joinBody x s.mon.mode.isResync⟩) ∧
    (∀ r, s.mon.collecting = some r → r.silence = 0 →
      ∃ t, exec .collectSilenceExpiry s = .next t ∧
        t.mon = { s.mon with collecting := none, retry := some 200 } ∧
        ∃ e ∈ t.traffic.general, e.frame = some ⟨.join, joinBody x s.mon.mode.isResync⟩) ∧
    (∀ r, s.mon.foreign = some r → r.silence = 0 →
      exec .foreignRecapExpiry s = .next (s.withMon { s.mon with foreign := none }))) ∧
  (∀ s : State, s.joinQueued = true →
    (s.mon.retry = some 0 → exec .joinRetryExpiry s = .next (s.withMon { s.mon with retry := some 200 })) ∧
    ∀ r, s.mon.collecting = some r → r.silence = 0 →
      exec .collectSilenceExpiry s = .next (s.withMon { s.mon with collecting := none, retry := some 200 })) ∧
  JoinAnswered ∧ HeadTaken ∧ ImageTaken ∧ EndTaken ∧ ReplayRule

/-- A span context whose age has reached 500 returns to IDLE, and the others stay. -/
def Obligations.SpanTimeout : Prop :=
  ∀ (c : Settings) (x : Slot) (k : Station) (d : Span) (s : State), s.settings = some c → s.ref.hsn = some x →
    s.mon.mode.hasSchedule = true → s.plan.spanOf k = some d → 500 ≤ (x - d.last).toNat →
    ∃ t, exec (.spanTimeout k) s = .next t ∧ t.plan.spanOf k = none ∧
      (∀ j, j ≠ k → t.plan.spanOf j = s.plan.spanOf j) ∧ t.plan.cuts = s.plan.cuts ∧ t.plan.paces = s.plan.paces ∧
      t.contacts = s.contacts

/-- A held-by entry whose count has reached 0 is removed, and the others stay. -/
def Obligations.HoldTimeout : Prop :=
  ∀ (k : Station) (s : State), ⟨k, 0⟩ ∈ s.traffic.heldBy →
    ∃ t, exec (.holdTimeout k) s = .next t ∧
      (∀ h, h ∈ t.traffic.heldBy ↔ h ∈ s.traffic.heldBy ∧ h ≠ ⟨k, 0⟩) ∧
      t = s.withTraffic { s.traffic with heldBy := t.traffic.heldBy }

/-- A MARK whose stamp lies 8 slots back is withdrawn: a queued one is removed and pulses REFUSED; one in an attempt has
cancel asked set and does not pulse yet. The withdrawal is a command of its own after the strobe (the model's choice, log
entry 6). -/
def Obligations.StaleMark : Prop :=
  ∀ (x st : Slot) (o : Nat) (e : TxEntry) (s : State), s.ref.hsn = some x → s.ref.flag = .present →
    s.entry o = some e → e.isMark = true → e.live = true → e.stamp = some st → atOrAfter x (st + 8) = true →
    ∃ t, exec (.markStaleWithdrawal o) s = .next t ∧
      (s.link.current ≠ some (.general o) → t.entry o = none ∧ t.contacts.refused = true) ∧
      (s.link.current = some (.general o) → s.link.attempt = false →
        t.entry o = some { e with drop := true } ∧ t.contacts.refused = true) ∧
      (s.link.current = some (.general o) → s.link.attempt = true →
        t.entry o = some { e with cancelAsked := true, stale := true } ∧ t.contacts.refused = s.contacts.refused)

/-! ## Encodings -/

/-- A receiver reads back every frame as it was sent: sync bits, key, kind, length, body and check. -/
def Obligations.FramesReadBack : Prop :=
  ∀ (k : Station) (kind : Kind) (body : List Byte), body.length = kind.bodyLength →
    readFrame (frameBits k kind body) = .clean k kind body

/-- Every frame body reads back with fields in their ranges: a MARK content, a PACE, a RECAP-HEAD, a RECAP-CUT, a
RECAP-PACE, a RECAP-SPAN, a RECAP-END, a JOIN and a BEACON; HOLD and RESUME have none. An image cut's state is ARMED (it is
not read before adoption). -/
def Obligations.BodiesReadBack : Prop :=
  (∀ m : Mark, parseMark m.kind m.body = some m ∧ m.body.length = m.kind.bodyLength) ∧
  (∀ (stamp p : Slot) (n : Int), n = -1 ∨ (1 ≤ n ∧ n ≤ 8) →
    parsePace (paceBody stamp p n) = some (stamp, p, some n)) ∧
  (∀ stamp founding : Slot, parseHead (headBody stamp founding) = some (stamp, founding)) ∧
  (∀ c : Cut, parseCut (cutBytes c) = some { c with state := .armed }) ∧
  (∀ p : Pace, p.count = -1 ∨ (1 ≤ p.count ∧ p.count ≤ 8) → parseRecapPace (paceBytes p) = some p) ∧
  (∀ (x0 : Slot) (d : Span), d.age x0 < 500 → parseRecapSpan x0 (recapSpanBody x0 d) = some d) ∧
  (∀ e : RecapEnd, e.delay < 65536 → e.rep ≤ 8 → e.horizonOffset < 65536 → e.cuts < 256 → e.paces < 256 →
    e.spans < 256 → 100 ≤ e.tEra ∧ e.tEra ≤ 3000 → parseRecapEnd (recapEndBody e) = some e) ∧
  (∀ (stamp : Slot) (resync : Bool), parseJoin (joinBody stamp resync) = some stamp) ∧
  ∀ b : Beacon, b.rep ≤ 8 → b.delay < 65536 → 10 ≤ b.period ∧ b.period ≤ 250 →
    parseBeacon (beaconBody b) = some b

/-! ## Invariants -/

/-- Reset satisfies the invariants that every step keeps. -/
def Obligations.InvariantsAtReset : Prop :=
  Capacities State.reset ∧ IndexOrdered State.reset ∧ PagesAccounted State.reset

/-- Every step keeps the memory's canonical form, every list within its capacity, and the general entries in their entry
order. -/
def Obligations.StepKeepsCapacities : Prop := ∀ s t : State, Capacities s → step s = .next t → Capacities t

/-- Every step keeps the slot index in order, joined to the open period. -/
def Obligations.StepKeepsIndexOrder : Prop := ∀ s t : State, IndexOrdered s → step s = .next t → IndexOrdered t

/-- Every step keeps the account of the pages: no page is lost, none is in two places. -/
def Obligations.StepKeepsPages : Prop := ∀ s t : State, PagesAccounted s → step s = .next t → PagesAccounted t
end

