-- ==== Sys2Proof/Laws/State.lean ====
section
/-! SUPPORT. One lemma per field per update of `State`, each true by unfolding, so that no proof unfolds a record
update. -/

namespace Sys2Proof.Machine

@[simp] theorem State.withRef_station (s : State) (v : RefUnit) : (s.withRef v).station = s.station := rfl
@[simp] theorem State.withRef_settings (s : State) (v : RefUnit) : (s.withRef v).settings = s.settings := rfl
@[simp] theorem State.withRef_ref (s : State) (v : RefUnit) : (s.withRef v).ref = v := rfl
@[simp] theorem State.withRef_mem (s : State) (v : RefUnit) : (s.withRef v).mem = s.mem := rfl
@[simp] theorem State.withRef_store (s : State) (v : RefUnit) : (s.withRef v).store = s.store := rfl
@[simp] theorem State.withRef_index (s : State) (v : RefUnit) : (s.withRef v).index = s.index := rfl
@[simp] theorem State.withRef_ingress (s : State) (v : RefUnit) : (s.withRef v).ingress = s.ingress := rfl
@[simp] theorem State.withRef_plan (s : State) (v : RefUnit) : (s.withRef v).plan = s.plan := rfl
@[simp] theorem State.withRef_link (s : State) (v : RefUnit) : (s.withRef v).link = s.link := rfl
@[simp] theorem State.withRef_traffic (s : State) (v : RefUnit) : (s.withRef v).traffic = s.traffic := rfl
@[simp] theorem State.withRef_orig (s : State) (v : RefUnit) : (s.withRef v).orig = s.orig := rfl
@[simp] theorem State.withRef_egress (s : State) (v : RefUnit) : (s.withRef v).egress = s.egress := rfl
@[simp] theorem State.withRef_reg (s : State) (v : RefUnit) : (s.withRef v).reg = s.reg := rfl
@[simp] theorem State.withRef_mon (s : State) (v : RefUnit) : (s.withRef v).mon = s.mon := rfl
@[simp] theorem State.withRef_contacts (s : State) (v : RefUnit) : (s.withRef v).contacts = s.contacts := rfl
@[simp] theorem State.withRef_free (s : State) (v : RefUnit) : (s.withRef v).free = s.free := rfl
@[simp] theorem State.withRef_pending (s : State) (v : RefUnit) : (s.withRef v).pending = s.pending := rfl
@[simp] theorem State.withMem_station (s : State) (v : Memory) : (s.withMem v).station = s.station := rfl
@[simp] theorem State.withMem_settings (s : State) (v : Memory) : (s.withMem v).settings = s.settings := rfl
@[simp] theorem State.withMem_ref (s : State) (v : Memory) : (s.withMem v).ref = s.ref := rfl
@[simp] theorem State.withMem_mem (s : State) (v : Memory) : (s.withMem v).mem = v := rfl
@[simp] theorem State.withMem_store (s : State) (v : Memory) : (s.withMem v).store = s.store := rfl
@[simp] theorem State.withMem_index (s : State) (v : Memory) : (s.withMem v).index = s.index := rfl
@[simp] theorem State.withMem_ingress (s : State) (v : Memory) : (s.withMem v).ingress = s.ingress := rfl
@[simp] theorem State.withMem_plan (s : State) (v : Memory) : (s.withMem v).plan = s.plan := rfl
@[simp] theorem State.withMem_link (s : State) (v : Memory) : (s.withMem v).link = s.link := rfl
@[simp] theorem State.withMem_traffic (s : State) (v : Memory) : (s.withMem v).traffic = s.traffic := rfl
@[simp] theorem State.withMem_orig (s : State) (v : Memory) : (s.withMem v).orig = s.orig := rfl
@[simp] theorem State.withMem_egress (s : State) (v : Memory) : (s.withMem v).egress = s.egress := rfl
@[simp] theorem State.withMem_reg (s : State) (v : Memory) : (s.withMem v).reg = s.reg := rfl
@[simp] theorem State.withMem_mon (s : State) (v : Memory) : (s.withMem v).mon = s.mon := rfl
@[simp] theorem State.withMem_contacts (s : State) (v : Memory) : (s.withMem v).contacts = s.contacts := rfl
@[simp] theorem State.withMem_free (s : State) (v : Memory) : (s.withMem v).free = s.free := rfl
@[simp] theorem State.withMem_pending (s : State) (v : Memory) : (s.withMem v).pending = s.pending := rfl
@[simp] theorem State.withStore_station (s : State) (v : PageStore) : (s.withStore v).station = s.station := rfl
@[simp] theorem State.withStore_settings (s : State) (v : PageStore) : (s.withStore v).settings = s.settings := rfl
@[simp] theorem State.withStore_ref (s : State) (v : PageStore) : (s.withStore v).ref = s.ref := rfl
@[simp] theorem State.withStore_mem (s : State) (v : PageStore) : (s.withStore v).mem = s.mem := rfl
@[simp] theorem State.withStore_store (s : State) (v : PageStore) : (s.withStore v).store = v := rfl
@[simp] theorem State.withStore_index (s : State) (v : PageStore) : (s.withStore v).index = s.index := rfl
@[simp] theorem State.withStore_ingress (s : State) (v : PageStore) : (s.withStore v).ingress = s.ingress := rfl
@[simp] theorem State.withStore_plan (s : State) (v : PageStore) : (s.withStore v).plan = s.plan := rfl
@[simp] theorem State.withStore_link (s : State) (v : PageStore) : (s.withStore v).link = s.link := rfl
@[simp] theorem State.withStore_traffic (s : State) (v : PageStore) : (s.withStore v).traffic = s.traffic := rfl
@[simp] theorem State.withStore_orig (s : State) (v : PageStore) : (s.withStore v).orig = s.orig := rfl
@[simp] theorem State.withStore_egress (s : State) (v : PageStore) : (s.withStore v).egress = s.egress := rfl
@[simp] theorem State.withStore_reg (s : State) (v : PageStore) : (s.withStore v).reg = s.reg := rfl
@[simp] theorem State.withStore_mon (s : State) (v : PageStore) : (s.withStore v).mon = s.mon := rfl
@[simp] theorem State.withStore_contacts (s : State) (v : PageStore) : (s.withStore v).contacts = s.contacts := rfl
@[simp] theorem State.withStore_free (s : State) (v : PageStore) : (s.withStore v).free = s.free := rfl
@[simp] theorem State.withStore_pending (s : State) (v : PageStore) : (s.withStore v).pending = s.pending := rfl
@[simp] theorem State.withIndex_station (s : State) (v : List SlotRecord) : (s.withIndex v).station = s.station := rfl
@[simp] theorem State.withIndex_settings (s : State) (v : List SlotRecord) : (s.withIndex v).settings = s.settings := rfl
@[simp] theorem State.withIndex_ref (s : State) (v : List SlotRecord) : (s.withIndex v).ref = s.ref := rfl
@[simp] theorem State.withIndex_mem (s : State) (v : List SlotRecord) : (s.withIndex v).mem = s.mem := rfl
@[simp] theorem State.withIndex_store (s : State) (v : List SlotRecord) : (s.withIndex v).store = s.store := rfl
@[simp] theorem State.withIndex_index (s : State) (v : List SlotRecord) : (s.withIndex v).index = v := rfl
@[simp] theorem State.withIndex_ingress (s : State) (v : List SlotRecord) : (s.withIndex v).ingress = s.ingress := rfl
@[simp] theorem State.withIndex_plan (s : State) (v : List SlotRecord) : (s.withIndex v).plan = s.plan := rfl
@[simp] theorem State.withIndex_link (s : State) (v : List SlotRecord) : (s.withIndex v).link = s.link := rfl
@[simp] theorem State.withIndex_traffic (s : State) (v : List SlotRecord) : (s.withIndex v).traffic = s.traffic := rfl
@[simp] theorem State.withIndex_orig (s : State) (v : List SlotRecord) : (s.withIndex v).orig = s.orig := rfl
@[simp] theorem State.withIndex_egress (s : State) (v : List SlotRecord) : (s.withIndex v).egress = s.egress := rfl
@[simp] theorem State.withIndex_reg (s : State) (v : List SlotRecord) : (s.withIndex v).reg = s.reg := rfl
@[simp] theorem State.withIndex_mon (s : State) (v : List SlotRecord) : (s.withIndex v).mon = s.mon := rfl
@[simp] theorem State.withIndex_contacts (s : State) (v : List SlotRecord) : (s.withIndex v).contacts = s.contacts := rfl
@[simp] theorem State.withIndex_free (s : State) (v : List SlotRecord) : (s.withIndex v).free = s.free := rfl
@[simp] theorem State.withIndex_pending (s : State) (v : List SlotRecord) : (s.withIndex v).pending = s.pending := rfl
@[simp] theorem State.withIngress_station (s : State) (v : Ingress) : (s.withIngress v).station = s.station := rfl
@[simp] theorem State.withIngress_settings (s : State) (v : Ingress) : (s.withIngress v).settings = s.settings := rfl
@[simp] theorem State.withIngress_ref (s : State) (v : Ingress) : (s.withIngress v).ref = s.ref := rfl
@[simp] theorem State.withIngress_mem (s : State) (v : Ingress) : (s.withIngress v).mem = s.mem := rfl
@[simp] theorem State.withIngress_store (s : State) (v : Ingress) : (s.withIngress v).store = s.store := rfl
@[simp] theorem State.withIngress_index (s : State) (v : Ingress) : (s.withIngress v).index = s.index := rfl
@[simp] theorem State.withIngress_ingress (s : State) (v : Ingress) : (s.withIngress v).ingress = v := rfl
@[simp] theorem State.withIngress_plan (s : State) (v : Ingress) : (s.withIngress v).plan = s.plan := rfl
@[simp] theorem State.withIngress_link (s : State) (v : Ingress) : (s.withIngress v).link = s.link := rfl
@[simp] theorem State.withIngress_traffic (s : State) (v : Ingress) : (s.withIngress v).traffic = s.traffic := rfl
@[simp] theorem State.withIngress_orig (s : State) (v : Ingress) : (s.withIngress v).orig = s.orig := rfl
@[simp] theorem State.withIngress_egress (s : State) (v : Ingress) : (s.withIngress v).egress = s.egress := rfl
@[simp] theorem State.withIngress_reg (s : State) (v : Ingress) : (s.withIngress v).reg = s.reg := rfl
@[simp] theorem State.withIngress_mon (s : State) (v : Ingress) : (s.withIngress v).mon = s.mon := rfl
@[simp] theorem State.withIngress_contacts (s : State) (v : Ingress) : (s.withIngress v).contacts = s.contacts := rfl
@[simp] theorem State.withIngress_free (s : State) (v : Ingress) : (s.withIngress v).free = s.free := rfl
@[simp] theorem State.withIngress_pending (s : State) (v : Ingress) : (s.withIngress v).pending = s.pending := rfl
@[simp] theorem State.withPlan_station (s : State) (v : Plan) : (s.withPlan v).station = s.station := rfl
@[simp] theorem State.withPlan_settings (s : State) (v : Plan) : (s.withPlan v).settings = s.settings := rfl
@[simp] theorem State.withPlan_ref (s : State) (v : Plan) : (s.withPlan v).ref = s.ref := rfl
@[simp] theorem State.withPlan_mem (s : State) (v : Plan) : (s.withPlan v).mem = s.mem := rfl
@[simp] theorem State.withPlan_store (s : State) (v : Plan) : (s.withPlan v).store = s.store := rfl
@[simp] theorem State.withPlan_index (s : State) (v : Plan) : (s.withPlan v).index = s.index := rfl
@[simp] theorem State.withPlan_ingress (s : State) (v : Plan) : (s.withPlan v).ingress = s.ingress := rfl
@[simp] theorem State.withPlan_plan (s : State) (v : Plan) : (s.withPlan v).plan = v := rfl
@[simp] theorem State.withPlan_link (s : State) (v : Plan) : (s.withPlan v).link = s.link := rfl
@[simp] theorem State.withPlan_traffic (s : State) (v : Plan) : (s.withPlan v).traffic = s.traffic := rfl
@[simp] theorem State.withPlan_orig (s : State) (v : Plan) : (s.withPlan v).orig = s.orig := rfl
@[simp] theorem State.withPlan_egress (s : State) (v : Plan) : (s.withPlan v).egress = s.egress := rfl
@[simp] theorem State.withPlan_reg (s : State) (v : Plan) : (s.withPlan v).reg = s.reg := rfl
@[simp] theorem State.withPlan_mon (s : State) (v : Plan) : (s.withPlan v).mon = s.mon := rfl
@[simp] theorem State.withPlan_contacts (s : State) (v : Plan) : (s.withPlan v).contacts = s.contacts := rfl
@[simp] theorem State.withPlan_free (s : State) (v : Plan) : (s.withPlan v).free = s.free := rfl
@[simp] theorem State.withPlan_pending (s : State) (v : Plan) : (s.withPlan v).pending = s.pending := rfl
@[simp] theorem State.withLink_station (s : State) (v : Link) : (s.withLink v).station = s.station := rfl
@[simp] theorem State.withLink_settings (s : State) (v : Link) : (s.withLink v).settings = s.settings := rfl
@[simp] theorem State.withLink_ref (s : State) (v : Link) : (s.withLink v).ref = s.ref := rfl
@[simp] theorem State.withLink_mem (s : State) (v : Link) : (s.withLink v).mem = s.mem := rfl
@[simp] theorem State.withLink_store (s : State) (v : Link) : (s.withLink v).store = s.store := rfl
@[simp] theorem State.withLink_index (s : State) (v : Link) : (s.withLink v).index = s.index := rfl
@[simp] theorem State.withLink_ingress (s : State) (v : Link) : (s.withLink v).ingress = s.ingress := rfl
@[simp] theorem State.withLink_plan (s : State) (v : Link) : (s.withLink v).plan = s.plan := rfl
@[simp] theorem State.withLink_link (s : State) (v : Link) : (s.withLink v).link = v := rfl
@[simp] theorem State.withLink_traffic (s : State) (v : Link) : (s.withLink v).traffic = s.traffic := rfl
@[simp] theorem State.withLink_orig (s : State) (v : Link) : (s.withLink v).orig = s.orig := rfl
@[simp] theorem State.withLink_egress (s : State) (v : Link) : (s.withLink v).egress = s.egress := rfl
@[simp] theorem State.withLink_reg (s : State) (v : Link) : (s.withLink v).reg = s.reg := rfl
@[simp] theorem State.withLink_mon (s : State) (v : Link) : (s.withLink v).mon = s.mon := rfl
@[simp] theorem State.withLink_contacts (s : State) (v : Link) : (s.withLink v).contacts = s.contacts := rfl
@[simp] theorem State.withLink_free (s : State) (v : Link) : (s.withLink v).free = s.free := rfl
@[simp] theorem State.withLink_pending (s : State) (v : Link) : (s.withLink v).pending = s.pending := rfl
@[simp] theorem State.withTraffic_station (s : State) (v : Traffic) : (s.withTraffic v).station = s.station := rfl
@[simp] theorem State.withTraffic_settings (s : State) (v : Traffic) : (s.withTraffic v).settings = s.settings := rfl
@[simp] theorem State.withTraffic_ref (s : State) (v : Traffic) : (s.withTraffic v).ref = s.ref := rfl
@[simp] theorem State.withTraffic_mem (s : State) (v : Traffic) : (s.withTraffic v).mem = s.mem := rfl
@[simp] theorem State.withTraffic_store (s : State) (v : Traffic) : (s.withTraffic v).store = s.store := rfl
@[simp] theorem State.withTraffic_index (s : State) (v : Traffic) : (s.withTraffic v).index = s.index := rfl
@[simp] theorem State.withTraffic_ingress (s : State) (v : Traffic) : (s.withTraffic v).ingress = s.ingress := rfl
@[simp] theorem State.withTraffic_plan (s : State) (v : Traffic) : (s.withTraffic v).plan = s.plan := rfl
@[simp] theorem State.withTraffic_link (s : State) (v : Traffic) : (s.withTraffic v).link = s.link := rfl
@[simp] theorem State.withTraffic_traffic (s : State) (v : Traffic) : (s.withTraffic v).traffic = v := rfl
@[simp] theorem State.withTraffic_orig (s : State) (v : Traffic) : (s.withTraffic v).orig = s.orig := rfl
@[simp] theorem State.withTraffic_egress (s : State) (v : Traffic) : (s.withTraffic v).egress = s.egress := rfl
@[simp] theorem State.withTraffic_reg (s : State) (v : Traffic) : (s.withTraffic v).reg = s.reg := rfl
@[simp] theorem State.withTraffic_mon (s : State) (v : Traffic) : (s.withTraffic v).mon = s.mon := rfl
@[simp] theorem State.withTraffic_contacts (s : State) (v : Traffic) : (s.withTraffic v).contacts = s.contacts := rfl
@[simp] theorem State.withTraffic_free (s : State) (v : Traffic) : (s.withTraffic v).free = s.free := rfl
@[simp] theorem State.withTraffic_pending (s : State) (v : Traffic) : (s.withTraffic v).pending = s.pending := rfl
@[simp] theorem State.withOrig_station (s : State) (v : Originator) : (s.withOrig v).station = s.station := rfl
@[simp] theorem State.withOrig_settings (s : State) (v : Originator) : (s.withOrig v).settings = s.settings := rfl
@[simp] theorem State.withOrig_ref (s : State) (v : Originator) : (s.withOrig v).ref = s.ref := rfl
@[simp] theorem State.withOrig_mem (s : State) (v : Originator) : (s.withOrig v).mem = s.mem := rfl
@[simp] theorem State.withOrig_store (s : State) (v : Originator) : (s.withOrig v).store = s.store := rfl
@[simp] theorem State.withOrig_index (s : State) (v : Originator) : (s.withOrig v).index = s.index := rfl
@[simp] theorem State.withOrig_ingress (s : State) (v : Originator) : (s.withOrig v).ingress = s.ingress := rfl
@[simp] theorem State.withOrig_plan (s : State) (v : Originator) : (s.withOrig v).plan = s.plan := rfl
@[simp] theorem State.withOrig_link (s : State) (v : Originator) : (s.withOrig v).link = s.link := rfl
@[simp] theorem State.withOrig_traffic (s : State) (v : Originator) : (s.withOrig v).traffic = s.traffic := rfl
@[simp] theorem State.withOrig_orig (s : State) (v : Originator) : (s.withOrig v).orig = v := rfl
@[simp] theorem State.withOrig_egress (s : State) (v : Originator) : (s.withOrig v).egress = s.egress := rfl
@[simp] theorem State.withOrig_reg (s : State) (v : Originator) : (s.withOrig v).reg = s.reg := rfl
@[simp] theorem State.withOrig_mon (s : State) (v : Originator) : (s.withOrig v).mon = s.mon := rfl
@[simp] theorem State.withOrig_contacts (s : State) (v : Originator) : (s.withOrig v).contacts = s.contacts := rfl
@[simp] theorem State.withOrig_free (s : State) (v : Originator) : (s.withOrig v).free = s.free := rfl
@[simp] theorem State.withOrig_pending (s : State) (v : Originator) : (s.withOrig v).pending = s.pending := rfl
@[simp] theorem State.withEgress_station (s : State) (v : Egress) : (s.withEgress v).station = s.station := rfl
@[simp] theorem State.withEgress_settings (s : State) (v : Egress) : (s.withEgress v).settings = s.settings := rfl
@[simp] theorem State.withEgress_ref (s : State) (v : Egress) : (s.withEgress v).ref = s.ref := rfl
@[simp] theorem State.withEgress_mem (s : State) (v : Egress) : (s.withEgress v).mem = s.mem := rfl
@[simp] theorem State.withEgress_store (s : State) (v : Egress) : (s.withEgress v).store = s.store := rfl
@[simp] theorem State.withEgress_index (s : State) (v : Egress) : (s.withEgress v).index = s.index := rfl
@[simp] theorem State.withEgress_ingress (s : State) (v : Egress) : (s.withEgress v).ingress = s.ingress := rfl
@[simp] theorem State.withEgress_plan (s : State) (v : Egress) : (s.withEgress v).plan = s.plan := rfl
@[simp] theorem State.withEgress_link (s : State) (v : Egress) : (s.withEgress v).link = s.link := rfl
@[simp] theorem State.withEgress_traffic (s : State) (v : Egress) : (s.withEgress v).traffic = s.traffic := rfl
@[simp] theorem State.withEgress_orig (s : State) (v : Egress) : (s.withEgress v).orig = s.orig := rfl
@[simp] theorem State.withEgress_egress (s : State) (v : Egress) : (s.withEgress v).egress = v := rfl
@[simp] theorem State.withEgress_reg (s : State) (v : Egress) : (s.withEgress v).reg = s.reg := rfl
@[simp] theorem State.withEgress_mon (s : State) (v : Egress) : (s.withEgress v).mon = s.mon := rfl
@[simp] theorem State.withEgress_contacts (s : State) (v : Egress) : (s.withEgress v).contacts = s.contacts := rfl
@[simp] theorem State.withEgress_free (s : State) (v : Egress) : (s.withEgress v).free = s.free := rfl
@[simp] theorem State.withEgress_pending (s : State) (v : Egress) : (s.withEgress v).pending = s.pending := rfl
@[simp] theorem State.withReg_station (s : State) (v : Regulator) : (s.withReg v).station = s.station := rfl
@[simp] theorem State.withReg_settings (s : State) (v : Regulator) : (s.withReg v).settings = s.settings := rfl
@[simp] theorem State.withReg_ref (s : State) (v : Regulator) : (s.withReg v).ref = s.ref := rfl
@[simp] theorem State.withReg_mem (s : State) (v : Regulator) : (s.withReg v).mem = s.mem := rfl
@[simp] theorem State.withReg_store (s : State) (v : Regulator) : (s.withReg v).store = s.store := rfl
@[simp] theorem State.withReg_index (s : State) (v : Regulator) : (s.withReg v).index = s.index := rfl
@[simp] theorem State.withReg_ingress (s : State) (v : Regulator) : (s.withReg v).ingress = s.ingress := rfl
@[simp] theorem State.withReg_plan (s : State) (v : Regulator) : (s.withReg v).plan = s.plan := rfl
@[simp] theorem State.withReg_link (s : State) (v : Regulator) : (s.withReg v).link = s.link := rfl
@[simp] theorem State.withReg_traffic (s : State) (v : Regulator) : (s.withReg v).traffic = s.traffic := rfl
@[simp] theorem State.withReg_orig (s : State) (v : Regulator) : (s.withReg v).orig = s.orig := rfl
@[simp] theorem State.withReg_egress (s : State) (v : Regulator) : (s.withReg v).egress = s.egress := rfl
@[simp] theorem State.withReg_reg (s : State) (v : Regulator) : (s.withReg v).reg = v := rfl
@[simp] theorem State.withReg_mon (s : State) (v : Regulator) : (s.withReg v).mon = s.mon := rfl
@[simp] theorem State.withReg_contacts (s : State) (v : Regulator) : (s.withReg v).contacts = s.contacts := rfl
@[simp] theorem State.withReg_free (s : State) (v : Regulator) : (s.withReg v).free = s.free := rfl
@[simp] theorem State.withReg_pending (s : State) (v : Regulator) : (s.withReg v).pending = s.pending := rfl
@[simp] theorem State.withMon_station (s : State) (v : Monitor) : (s.withMon v).station = s.station := rfl
@[simp] theorem State.withMon_settings (s : State) (v : Monitor) : (s.withMon v).settings = s.settings := rfl
@[simp] theorem State.withMon_ref (s : State) (v : Monitor) : (s.withMon v).ref = s.ref := rfl
@[simp] theorem State.withMon_mem (s : State) (v : Monitor) : (s.withMon v).mem = s.mem := rfl
@[simp] theorem State.withMon_store (s : State) (v : Monitor) : (s.withMon v).store = s.store := rfl
@[simp] theorem State.withMon_index (s : State) (v : Monitor) : (s.withMon v).index = s.index := rfl
@[simp] theorem State.withMon_ingress (s : State) (v : Monitor) : (s.withMon v).ingress = s.ingress := rfl
@[simp] theorem State.withMon_plan (s : State) (v : Monitor) : (s.withMon v).plan = s.plan := rfl
@[simp] theorem State.withMon_link (s : State) (v : Monitor) : (s.withMon v).link = s.link := rfl
@[simp] theorem State.withMon_traffic (s : State) (v : Monitor) : (s.withMon v).traffic = s.traffic := rfl
@[simp] theorem State.withMon_orig (s : State) (v : Monitor) : (s.withMon v).orig = s.orig := rfl
@[simp] theorem State.withMon_egress (s : State) (v : Monitor) : (s.withMon v).egress = s.egress := rfl
@[simp] theorem State.withMon_reg (s : State) (v : Monitor) : (s.withMon v).reg = s.reg := rfl
@[simp] theorem State.withMon_mon (s : State) (v : Monitor) : (s.withMon v).mon = v := rfl
@[simp] theorem State.withMon_contacts (s : State) (v : Monitor) : (s.withMon v).contacts = s.contacts := rfl
@[simp] theorem State.withMon_free (s : State) (v : Monitor) : (s.withMon v).free = s.free := rfl
@[simp] theorem State.withMon_pending (s : State) (v : Monitor) : (s.withMon v).pending = s.pending := rfl
@[simp] theorem State.withContacts_station (s : State) (v : Contacts) : (s.withContacts v).station = s.station := rfl
@[simp] theorem State.withContacts_settings (s : State) (v : Contacts) : (s.withContacts v).settings = s.settings := rfl
@[simp] theorem State.withContacts_ref (s : State) (v : Contacts) : (s.withContacts v).ref = s.ref := rfl
@[simp] theorem State.withContacts_mem (s : State) (v : Contacts) : (s.withContacts v).mem = s.mem := rfl
@[simp] theorem State.withContacts_store (s : State) (v : Contacts) : (s.withContacts v).store = s.store := rfl
@[simp] theorem State.withContacts_index (s : State) (v : Contacts) : (s.withContacts v).index = s.index := rfl
@[simp] theorem State.withContacts_ingress (s : State) (v : Contacts) : (s.withContacts v).ingress = s.ingress := rfl
@[simp] theorem State.withContacts_plan (s : State) (v : Contacts) : (s.withContacts v).plan = s.plan := rfl
@[simp] theorem State.withContacts_link (s : State) (v : Contacts) : (s.withContacts v).link = s.link := rfl
@[simp] theorem State.withContacts_traffic (s : State) (v : Contacts) : (s.withContacts v).traffic = s.traffic := rfl
@[simp] theorem State.withContacts_orig (s : State) (v : Contacts) : (s.withContacts v).orig = s.orig := rfl
@[simp] theorem State.withContacts_egress (s : State) (v : Contacts) : (s.withContacts v).egress = s.egress := rfl
@[simp] theorem State.withContacts_reg (s : State) (v : Contacts) : (s.withContacts v).reg = s.reg := rfl
@[simp] theorem State.withContacts_mon (s : State) (v : Contacts) : (s.withContacts v).mon = s.mon := rfl
@[simp] theorem State.withContacts_contacts (s : State) (v : Contacts) : (s.withContacts v).contacts = v := rfl
@[simp] theorem State.withContacts_free (s : State) (v : Contacts) : (s.withContacts v).free = s.free := rfl
@[simp] theorem State.withContacts_pending (s : State) (v : Contacts) : (s.withContacts v).pending = s.pending := rfl
@[simp] theorem State.withFree_station (s : State) (v : Nat) : (s.withFree v).station = s.station := rfl
@[simp] theorem State.withFree_settings (s : State) (v : Nat) : (s.withFree v).settings = s.settings := rfl
@[simp] theorem State.withFree_ref (s : State) (v : Nat) : (s.withFree v).ref = s.ref := rfl
@[simp] theorem State.withFree_mem (s : State) (v : Nat) : (s.withFree v).mem = s.mem := rfl
@[simp] theorem State.withFree_store (s : State) (v : Nat) : (s.withFree v).store = s.store := rfl
@[simp] theorem State.withFree_index (s : State) (v : Nat) : (s.withFree v).index = s.index := rfl
@[simp] theorem State.withFree_ingress (s : State) (v : Nat) : (s.withFree v).ingress = s.ingress := rfl
@[simp] theorem State.withFree_plan (s : State) (v : Nat) : (s.withFree v).plan = s.plan := rfl
@[simp] theorem State.withFree_link (s : State) (v : Nat) : (s.withFree v).link = s.link := rfl
@[simp] theorem State.withFree_traffic (s : State) (v : Nat) : (s.withFree v).traffic = s.traffic := rfl
@[simp] theorem State.withFree_orig (s : State) (v : Nat) : (s.withFree v).orig = s.orig := rfl
@[simp] theorem State.withFree_egress (s : State) (v : Nat) : (s.withFree v).egress = s.egress := rfl
@[simp] theorem State.withFree_reg (s : State) (v : Nat) : (s.withFree v).reg = s.reg := rfl
@[simp] theorem State.withFree_mon (s : State) (v : Nat) : (s.withFree v).mon = s.mon := rfl
@[simp] theorem State.withFree_contacts (s : State) (v : Nat) : (s.withFree v).contacts = s.contacts := rfl
@[simp] theorem State.withFree_free (s : State) (v : Nat) : (s.withFree v).free = v := rfl
@[simp] theorem State.withFree_pending (s : State) (v : Nat) : (s.withFree v).pending = s.pending := rfl
@[simp] theorem State.withPending_station (s : State) (v : List Instr) : (s.withPending v).station = s.station := rfl
@[simp] theorem State.withPending_settings (s : State) (v : List Instr) : (s.withPending v).settings = s.settings := rfl
@[simp] theorem State.withPending_ref (s : State) (v : List Instr) : (s.withPending v).ref = s.ref := rfl
@[simp] theorem State.withPending_mem (s : State) (v : List Instr) : (s.withPending v).mem = s.mem := rfl
@[simp] theorem State.withPending_store (s : State) (v : List Instr) : (s.withPending v).store = s.store := rfl
@[simp] theorem State.withPending_index (s : State) (v : List Instr) : (s.withPending v).index = s.index := rfl
@[simp] theorem State.withPending_ingress (s : State) (v : List Instr) : (s.withPending v).ingress = s.ingress := rfl
@[simp] theorem State.withPending_plan (s : State) (v : List Instr) : (s.withPending v).plan = s.plan := rfl
@[simp] theorem State.withPending_link (s : State) (v : List Instr) : (s.withPending v).link = s.link := rfl
@[simp] theorem State.withPending_traffic (s : State) (v : List Instr) : (s.withPending v).traffic = s.traffic := rfl
@[simp] theorem State.withPending_orig (s : State) (v : List Instr) : (s.withPending v).orig = s.orig := rfl
@[simp] theorem State.withPending_egress (s : State) (v : List Instr) : (s.withPending v).egress = s.egress := rfl
@[simp] theorem State.withPending_reg (s : State) (v : List Instr) : (s.withPending v).reg = s.reg := rfl
@[simp] theorem State.withPending_mon (s : State) (v : List Instr) : (s.withPending v).mon = s.mon := rfl
@[simp] theorem State.withPending_contacts (s : State) (v : List Instr) : (s.withPending v).contacts = s.contacts := rfl
@[simp] theorem State.withPending_free (s : State) (v : List Instr) : (s.withPending v).free = s.free := rfl
@[simp] theorem State.withPending_pending (s : State) (v : List Instr) : (s.withPending v).pending = v := rfl
@[simp] theorem State.withSettings_station (s : State) (v : Option Settings) : (s.withSettings v).station = s.station := rfl
@[simp] theorem State.withSettings_settings (s : State) (v : Option Settings) : (s.withSettings v).settings = v := rfl
@[simp] theorem State.withSettings_ref (s : State) (v : Option Settings) : (s.withSettings v).ref = s.ref := rfl
@[simp] theorem State.withSettings_mem (s : State) (v : Option Settings) : (s.withSettings v).mem = s.mem := rfl
@[simp] theorem State.withSettings_store (s : State) (v : Option Settings) : (s.withSettings v).store = s.store := rfl
@[simp] theorem State.withSettings_index (s : State) (v : Option Settings) : (s.withSettings v).index = s.index := rfl
@[simp] theorem State.withSettings_ingress (s : State) (v : Option Settings) : (s.withSettings v).ingress = s.ingress := rfl
@[simp] theorem State.withSettings_plan (s : State) (v : Option Settings) : (s.withSettings v).plan = s.plan := rfl
@[simp] theorem State.withSettings_link (s : State) (v : Option Settings) : (s.withSettings v).link = s.link := rfl
@[simp] theorem State.withSettings_traffic (s : State) (v : Option Settings) : (s.withSettings v).traffic = s.traffic := rfl
@[simp] theorem State.withSettings_orig (s : State) (v : Option Settings) : (s.withSettings v).orig = s.orig := rfl
@[simp] theorem State.withSettings_egress (s : State) (v : Option Settings) : (s.withSettings v).egress = s.egress := rfl
@[simp] theorem State.withSettings_reg (s : State) (v : Option Settings) : (s.withSettings v).reg = s.reg := rfl
@[simp] theorem State.withSettings_mon (s : State) (v : Option Settings) : (s.withSettings v).mon = s.mon := rfl
@[simp] theorem State.withSettings_contacts (s : State) (v : Option Settings) : (s.withSettings v).contacts = s.contacts := rfl
@[simp] theorem State.withSettings_free (s : State) (v : Option Settings) : (s.withSettings v).free = s.free := rfl
@[simp] theorem State.withSettings_pending (s : State) (v : Option Settings) : (s.withSettings v).pending = s.pending := rfl

end Sys2Proof.Machine
end

