-- ==== Sys2Proof/Laws/Traffic.lean ====
section
/-! SUPPORT. What the operations of the cue traffic unit do to one general entry, and what the placement of a
received frame and the end of an attempt leave. -/

namespace Sys2Proof.Machine

/-! ## One general entry -/

/-- The entry found has the entry order looked up. -/
theorem State.entry_order {s : State} {o : Nat} {e : TxEntry} (h : s.entry o = some e) : e.order = o := by
  have := List.find?_some h
  simpa using this

theorem State.entry_mem {s : State} {o : Nat} {e : TxEntry} (h : s.entry o = some e) : e ∈ s.traffic.general :=
  List.mem_of_find?_eq_some h

/-- An entry that is changed reads as changed. -/
theorem State.changeEntry_entry {s : State} {o : Nat} {f : TxEntry → TxEntry} {e : TxEntry} (h : s.entry o = some e)
    (hf : ∀ x, (f x).order = x.order) : (s.changeEntry o f).entry o = some (f e) := by
  unfold State.entry State.changeEntry State.withGeneral at *
  simp only [State.withTraffic_traffic]
  generalize s.traffic.general = l at *
  induction l with
  | nil => simp at h
  | cons d rest ih =>
    simp only [List.map_cons, List.find?_cons] at *
    by_cases e' : d.order = o
    · simp only [e', if_true, hf, beq_self_eq_true] at *; injection h with h; rw [h]
    · have : (d.order == o) = false := by simpa using e'
      simp only [this, if_neg e'] at *; exact ih h

/-- A freed entry is no longer held. -/
theorem State.freeEntry_entry (s : State) (o : Nat) : (s.freeEntry o).entry o = none := by
  simp [State.entry, State.freeEntry, State.withGeneral]

/-! ## What telling an owner leaves -/

theorem tell_traffic (s : State) (e : TxEntry) (f : Fate) : (s.tell e f).traffic = s.traffic := by
  unfold State.tell State.tellRegulator State.endOwnRecap
  split
  · rfl
  · split
    · split <;> rfl
    · rfl
  · split <;> rfl

theorem tell_link (s : State) (e : TxEntry) (f : Fate) : (s.tell e f).link = s.link := by
  unfold State.tell State.tellRegulator State.endOwnRecap
  split
  · rfl
  · split
    · split <;> rfl
    · rfl
  · split <;> rfl

theorem tell_contacts (s : State) (e : TxEntry) (f : Fate) : (s.tell e f).contacts = s.contacts := by
  unfold State.tell State.tellRegulator State.endOwnRecap
  split
  · rfl
  · split
    · split <;> rfl
    · rfl
  · split <;> rfl

/-! ## The bus idle -/

theorem purgeHolder_live {o : Option Holder} (h : ∀ x, o = some x → x.live = true) : purgeHolder o = o := by
  cases o with
  | none => rfl
  | some x => simp [purgeHolder, h x rfl]

/-- With no cancelled or withdrawn frame a bus idle removes nothing. -/
theorem purgeCancelled_live {s : State} (hg : ∀ e ∈ s.traffic.general, e.live = true)
    (hb : ∀ h, s.traffic.beacon = some h → h.live = true) (hf : ∀ h, s.traffic.flow = some h → h.live = true) :
    s.purgeCancelled = s := by
  unfold State.purgeCancelled
  have : s.traffic.general.filter (fun e => !e.live) = [] := by
    rw [List.filter_eq_nil_iff]; intro e he; simp [hg e he]
  simp only [this, List.foldl_nil, purgeHolder_live hb, purgeHolder_live hf]
  rfl

/-- A live frame of a class gives the class a candidate. -/
theorem firstOfClass_some {es : List TxEntry} {cls : Nat} (h : ∃ e ∈ es, e.live = true ∧ e.hasClass cls = true) :
    ∃ e ∈ es, e.live = true ∧ e.hasClass cls = true ∧ firstOfClass es cls = some (.general e.order) := by
  obtain ⟨e, he, h1, h2⟩ := h
  cases hf : es.find? (fun e => e.live && e.hasClass cls) with
  | none => rw [List.find?_eq_none] at hf; have := hf e he; simp [h1, h2] at this
  | some d =>
    have a := List.find?_some hf
    simp at a
    exact ⟨d, List.mem_of_find?_eq_some hf, a.1, a.2, by simp [firstOfClass, hf]⟩

theorem firstOfClass_none {es : List TxEntry} {cls : Nat} (h : ¬ ∃ e ∈ es, e.live = true ∧ e.hasClass cls = true) :
    firstOfClass es cls = none := by
  unfold firstOfClass
  rw [Option.map_eq_none_iff, List.find?_eq_none]
  intro e he hh
  simp at hh
  exact h ⟨e, he, hh⟩

/-! ## The monitor under the traffic unit's operations -/

/-- A fold of operations that leave the monitor alone leaves it alone. -/
theorem foldl_mon {α : Type} (f : State → α → State) (h : ∀ s x, (f s x).mon = s.mon) (l : List α) (s : State) :
    (l.foldl f s).mon = s.mon := by
  induction l generalizing s with
  | nil => rfl
  | cons x l ih => exact (ih _).trans (h s x)

/-- A cancelled frame's owner changes the regulator at most. -/
theorem tell_cancelled_mon (s : State) (e : TxEntry) : (s.tell e .cancelled).mon = s.mon := by
  unfold State.tell State.tellRegulator; split
  · rfl
  · split
    · split <;> rfl
    · rfl
  · simp

theorem cancelEntry_mon (s : State) (e : TxEntry) : (s.cancelEntry e).mon = s.mon := by
  unfold State.cancelEntry; split
  · rfl
  · split
    · rfl
    · exact tell_cancelled_mon _ _

@[simp] theorem cancelWhere_mon (s : State) (p : TxEntry → Bool) : (s.cancelWhere p).mon = s.mon :=
  foldl_mon _ cancelEntry_mon _ _

@[simp] theorem closeStream_mon (s : State) : s.closeStream.mon = s.mon := by
  refine foldl_mon _ (fun s e => ?_) _ _
  split
  · rfl
  · exact cancelEntry_mon _ _

@[simp] theorem fillStream_mon (s : State) (f : TxFrame) : (s.fillStream f).mon = s.mon := by
  unfold State.fillStream State.release; split
  · split <;> rfl
  · rfl

@[simp] theorem addEntry_mon (s : State) (o : Owner) (f : TxFrame) (st : Option Slot) (b : Bool) :
    (s.addEntry o f st b).1.mon = s.mon := by
  unfold State.addEntry; split
  · rfl
  · split
    · dsimp only; split <;> rfl
    · rfl

/-- R89: an addition that finds a free entry takes the next entry order. -/
theorem addEntry_queued {s : State} (hl : s.link.connected = true) (hc : s.link.clash = false)
    (hn : s.traffic.general.length < 16) (o : Owner) (f : TxFrame) (st : Option Slot) (b : Bool) :
    s.addEntry o f st b =
      (s.withTraffic
        { s.traffic with
          general := s.traffic.general ++ [⟨s.traffic.nextOrder, some f, o, 0, false, false, false, st, b⟩]
          nextOrder := s.traffic.nextOrder + 1 }, some s.traffic.nextOrder) := by
  unfold State.addEntry; simp [hl, hc, Nat.not_le.mpr hn]

/-- R89, R105: an addition refused FULL or during CLASH pulses REFUSED for a MARK and changes nothing else. -/
theorem addEntry_refused {s : State} (hl : s.link.connected = true)
    (h : s.link.clash = true ∨ 16 ≤ s.traffic.general.length) (o : Owner) (f : TxFrame) (st : Option Slot) (b : Bool) :
    s.addEntry o f st b = (if f.kind.isMark then s.pulseRefused else s, none) := by
  unfold State.addEntry; rw [if_neg (by simp [hl]), if_pos (by simpa using h)]

/-! ## The receive queue -/

/-- R98: a removal changes the flow state only from ASSERTED, with 8 frames or fewer left. -/
theorem afterRemoval_flowState (s : State) :
    s.afterRemoval.traffic.flowState =
      if s.traffic.flowState = .asserted ∧ s.traffic.received.length ≤ 8 then .clear else s.traffic.flowState := by
  unfold State.afterRemoval; split
  · unfold State.loadFlow State.release; dsimp only
    split
    · rfl
    · split
      · rfl
      · split <;> rfl
  · rfl

/-- R98: a placement changes the flow state only from CLEAR, with 24 frames held. -/
theorem afterPlacement_flowState (s : State) :
    s.afterPlacement.traffic.flowState =
      if s.traffic.flowState = .clear ∧ s.traffic.received.length = 24 then .asserted else s.traffic.flowState := by
  unfold State.afterPlacement; split
  · unfold State.loadFlow State.release; dsimp only
    split
    · rfl
    · split
      · rfl
      · split <;> rfl
  · rfl

/-- Outside an attempt of the flow frame, the load of the flow holder changes the flow holder and the current frame. -/
theorem loadFlow_keeps (s : State) (h : s.link.attempt = false) :
    s.loadFlow.traffic.general = s.traffic.general ∧ s.loadFlow.traffic.received = s.traffic.received ∧
      s.loadFlow.mon = s.mon ∧ s.loadFlow.link = { s.link with current := s.loadFlow.link.current } := by
  unfold State.loadFlow State.release State.inAttempt
  split
  · exact ⟨rfl, rfl, rfl, rfl⟩
  · rw [if_neg (by simp [h])]
    split <;> exact ⟨rfl, rfl, rfl, rfl⟩

/-- R82: a placed frame stands at the tail of the receive queue. -/
theorem placeFrame_keeps (s : State) (f : RxFrame) (h : s.link.attempt = false) :
    (s.placeFrame f).traffic.general = s.traffic.general ∧
      (s.placeFrame f).traffic.received = s.traffic.received ++ [f] ∧ (s.placeFrame f).mon = s.mon ∧
      (s.placeFrame f).link = { s.link with current := (s.placeFrame f).link.current } := by
  unfold State.placeFrame State.afterPlacement
  split
  · exact loadFlow_keeps _ h
  · exact ⟨rfl, rfl, rfl, rfl⟩

/-! ## The end of an attempt -/

/-- The end of an attempt of a general entry's frame: the frame stays current, and a mark withdrawn meanwhile pulses
REFUSED. -/
theorem endAttempt_general {s : State} {o : Nat} {e : TxEntry} (hc : s.link.current = some (.general o))
    (he : s.entry o = some e) :
    s.endAttempt.link = { s.link with attempt := false } ∧ s.endAttempt.entry o = some { e with stale := false } ∧
      s.endAttempt.traffic.received = s.traffic.received ∧ (e.stale = true → s.endAttempt.contacts.refused = true) ∧
      (e.stale = false → s.endAttempt.traffic = s.traffic) := by
  have he' : (s.withLink { s.link with attempt := false }).entry o = some e := he
  have e1 : s.endAttempt = (s.withLink { s.link with attempt := false }).endStale (.general o) := by
    unfold State.endAttempt; simp only [hc]; rfl
  have e2 : (s.withLink { s.link with attempt := false }).endStale (.general o) =
      if e.stale then
        ((s.withLink { s.link with attempt := false }).changeEntry o (fun e => { e with stale := false })).pulseRefused
      else s.withLink { s.link with attempt := false } := by
    unfold State.endStale; simp only [he']; rfl
  rw [e1, e2]
  cases hs : e.stale
  · rw [if_neg (by simp)]
    refine ⟨rfl, ?_, rfl, by simp, fun _ => rfl⟩
    rw [he', ← hs]
  · rw [if_pos rfl]
    exact ⟨rfl, State.changeEntry_entry (f := fun e => { e with stale := false }) he' (fun _ => rfl), rfl, fun _ => rfl,
      by simp⟩

/-- One veto more on the frame of a general entry. -/
theorem addVeto_entry {s : State} {o : Nat} {e : TxEntry} (he : s.entry o = some e) :
    (s.addVeto (.general o)).entry o = some { e with vetoes := e.vetoes + 1 } :=
  State.changeEntry_entry (f := fun e => { e with vetoes := e.vetoes + 1 }) he (fun _ => rfl)

/-- A veto below the sixteenth leaves the frame current. -/
theorem vetoAttempt_general {s : State} {o : Nat} {e : TxEntry} (hc : s.link.current = some (.general o))
    (he : s.entry o = some e) (h : e.vetoes + 1 < 16) :
    s.vetoAttempt.link = { s.link with attempt := false } ∧
      s.vetoAttempt.entry o = some { e with vetoes := e.vetoes + 1, stale := false } ∧
      s.vetoAttempt.traffic.received = s.traffic.received := by
  have h2 := endAttempt_general (s := s.addVeto (.general o)) hc (addVeto_entry he)
  have e1 : s.vetoAttempt = (s.addVeto (.general o)).endAttempt := by
    unfold State.vetoAttempt
    simp only [hc]
    rw [if_neg]
    simp only [State.vetoesOf, addVeto_entry he, Option.map_some, Option.getD_some, Config.vetoLimit]
    omega
  rw [e1]
  exact ⟨h2.1, h2.2.1, h2.2.2.1⟩

end Sys2Proof.Machine
end

