-- ==== Sys2Proof/Laws/Align.lean ====
section
/-! SUPPORT. What the alignment monitor's operations leave of the monitor: JOINs, RESYNC, the comparison of eras, and the
replay of a recap. -/

namespace Sys2Proof.Machine

/-! ## JOIN and RESYNC (R166, R167) -/

@[simp] theorem drawHsn_mon (s : State) : s.drawHsn.2.mon = s.mon := by unfold State.drawHsn; split <;> rfl

@[simp] theorem addJoin_mon (s : State) : s.addJoin.mon = s.mon := by
  unfold State.addJoin; exact (addEntry_mon _ _ _ _ _).trans (drawHsn_mon s)

/-- R167, R174: to ask again loads the join retry timer and changes nothing else of the monitor. -/
theorem askAgain_mon (s : State) : s.askAgain.mon = { s.mon with retry := some 200 } := by
  unfold State.askAgain State.withRetry; split <;> simp [Config.joinRetry]

/-- R166: the state and the timer after an entry to RESYNC. -/
theorem enterResync_mon (s : State) (o : Origin) :
    (s.enterResync o).mon.mode = .resync o ∧ (s.enterResync o).mon.retry = some 200 := by
  unfold State.enterResync State.withRetry State.withMode; simp [Config.joinRetry]

/-- R164: the station yields to the later era, and at a tie to the lower number. -/
theorem yields_iff (mine theirs : Slot) (me them : Station) :
    yields mine theirs me them = true ↔
      later mine theirs = true ∨ later theirs mine = false ∧ them.val < me.val := by
  unfold yields; split
  · simp_all
  · split <;> simp_all

/-! ## The checks of a RECAP-END and the replay (R175, R176) -/

theorem endChecks_iff (r : Collecting) (e : RecapEnd) :
    endChecks r e = true ↔
      e.x0 = r.x0 ∧ e.cuts = r.image.cuts.length ∧ e.paces = r.image.paces.length ∧ e.spans = r.image.spans.length ∧
        e.digest = r.image.digest := by
  simp [endChecks, and_assoc]

/-- One HSN more of a replay is one step more at its end. -/
theorem Replay.steps_succ (p : Replay) (r : Collecting) (y : Slot) (n : Nat) :
    p.steps r y (n + 1) = (p.steps r y n).step r (y + slots n) := by
  induction n generalizing p y with
  | zero => simp [Replay.steps, slots]
  | succ n ih =>
    rw [Replay.steps, ih, Replay.steps]; congr 1
    simp only [slots]; rw [BitVec.add_assoc]; congr 1; apply BitVec.eq_of_toNat_eq; simp; omega

end Sys2Proof.Machine
end

