-- ==== Sys2Proof/Laws/Frame.lean ====
section
/-! SUPPORT. What each shared operation leaves alone: the operations of the cue traffic unit change the cue side only, and
those of the plan, the egress, the regulator and the monitor leave the essence side alone. -/

namespace Sys2Proof.Machine

/-- The link controller of `t` differs from that of `s` in its current frame and the attempt of it at most. -/
def linkAfter (s t : State) : Link := { s.link with current := t.link.current, attempt := t.link.attempt }

/-- `t` differs from `s` in the current frame, the traffic unit, the regulator, the monitor and the contacts at most. -/
def CueOnly (s t : State) : Prop :=
  t = { s with link := linkAfter s t, traffic := t.traffic, reg := t.reg, mon := t.mon, contacts := t.contacts }

/-- `t` has the station number, the settings, the reference unit, the page contents, the page store, the slot index, the
ingress and the queue of `s`, and the link controller but for the current frame. -/
def KeepsEssence (s t : State) : Prop :=
  t =
    { s with
      plan := t.plan, link := linkAfter s t, traffic := t.traffic, orig := t.orig, egress := t.egress, reg := t.reg,
      mon := t.mon, contacts := t.contacts, free := t.free }

/-- `t` has the essence side and the queue of `s`; the link controller may differ, but CLASH is not cleared. -/
def LinkSide (s t : State) : Prop :=
  t =
      { s with
        plan := t.plan, link := t.link, traffic := t.traffic, orig := t.orig, egress := t.egress, reg := t.reg,
        mon := t.mon, contacts := t.contacts, free := t.free } ∧
    (s.link.clash = true → t.link.clash = true)

theorem CueOnly.refl (s : State) : CueOnly s s := rfl

theorem CueOnly.trans {s t u : State} (h : CueOnly s t) (k : CueOnly t u) : CueOnly s u := by
  unfold CueOnly at *; rw [k, h]; rfl

theorem CueOnly.keeps {s t : State} (h : CueOnly s t) : KeepsEssence s t := by
  unfold CueOnly KeepsEssence at *; rw [h]; rfl

theorem LinkSide.refl (s : State) : LinkSide s s := ⟨rfl, id⟩

theorem LinkSide.trans {s t u : State} (h : LinkSide s t) (k : LinkSide t u) : LinkSide s u := by
  refine ⟨?_, k.2 ∘ h.2⟩
  rw [k.1, h.1]

theorem KeepsEssence.linkSide {s t : State} (h : KeepsEssence s t) : LinkSide s t := by
  unfold KeepsEssence at h; rw [h]; exact ⟨rfl, id⟩

theorem CueOnly.linkSide {s t : State} (h : CueOnly s t) : LinkSide s t := h.keeps.linkSide

theorem KeepsEssence.refl (s : State) : KeepsEssence s s := rfl

theorem KeepsEssence.trans {s t u : State} (h : KeepsEssence s t) (k : KeepsEssence t u) : KeepsEssence s u := by
  unfold KeepsEssence at *; rw [k, h]; rfl

/-- A fold of operations that change the cue side only changes the cue side only. -/
theorem foldl_cueOnly {α : Type} (f : State → α → State) (h : ∀ s x, CueOnly s (f s x)) (l : List α) (s : State) :
    CueOnly s (l.foldl f s) := by
  induction l generalizing s with
  | nil => exact .refl s
  | cons x l ih => exact (h s x).trans (ih (f s x))

/-- A fold of operations that leave the essence side alone leaves it alone. -/
theorem foldl_keepsEssence {α : Type} (f : State → α → State) (h : ∀ s x, KeepsEssence s (f s x)) (l : List α)
    (s : State) : KeepsEssence s (l.foldl f s) := by
  induction l generalizing s with
  | nil => exact .refl s
  | cons x l ih => exact (h s x).trans (ih (f s x))

section Fields

variable {s t : State}

theorem KeepsEssence.station_eq (h : KeepsEssence s t) : t.station = s.station := by rw [h]
theorem KeepsEssence.settings_eq (h : KeepsEssence s t) : t.settings = s.settings := by rw [h]
theorem KeepsEssence.ref_eq (h : KeepsEssence s t) : t.ref = s.ref := by rw [h]
theorem KeepsEssence.mem_eq (h : KeepsEssence s t) : t.mem = s.mem := by rw [h]
theorem KeepsEssence.store_eq (h : KeepsEssence s t) : t.store = s.store := by rw [h]
theorem KeepsEssence.index_eq (h : KeepsEssence s t) : t.index = s.index := by rw [h]
theorem KeepsEssence.ingress_eq (h : KeepsEssence s t) : t.ingress = s.ingress := by rw [h]
theorem KeepsEssence.pending_eq (h : KeepsEssence s t) : t.pending = s.pending := by rw [h]
theorem KeepsEssence.link_eq (h : KeepsEssence s t) : t.link = linkAfter s t := by rw [h]; rfl
theorem CueOnly.plan_eq (h : CueOnly s t) : t.plan = s.plan := by rw [h]
theorem CueOnly.orig_eq (h : CueOnly s t) : t.orig = s.orig := by rw [h]
theorem CueOnly.egress_eq (h : CueOnly s t) : t.egress = s.egress := by rw [h]

end Fields

/-! ## The cue traffic unit -/

theorem withTraffic_cueOnly (s : State) (v : Traffic) : CueOnly s (s.withTraffic v) := rfl
theorem withReg_cueOnly (s : State) (v : Regulator) : CueOnly s (s.withReg v) := rfl
theorem withMon_cueOnly (s : State) (v : Monitor) : CueOnly s (s.withMon v) := rfl
theorem withContacts_cueOnly (s : State) (v : Contacts) : CueOnly s (s.withContacts v) := rfl
theorem pulseRefused_cueOnly (s : State) : CueOnly s s.pulseRefused := rfl
theorem withGeneral_cueOnly (s : State) (v : List TxEntry) : CueOnly s (s.withGeneral v) := rfl
theorem changeEntry_cueOnly (s : State) (n : Nat) (f : TxEntry → TxEntry) : CueOnly s (s.changeEntry n f) := rfl
theorem freeEntry_cueOnly (s : State) (n : Nat) : CueOnly s (s.freeEntry n) := rfl
theorem withCurrent_cueOnly (s : State) (r : Option TxRef) : CueOnly s (s.withCurrent r) := rfl
theorem withHeldBy_cueOnly (s : State) (v : List HeldBy) : CueOnly s (s.withHeldBy v) := rfl
theorem endOwnRecap_cueOnly (s : State) : CueOnly s s.endOwnRecap := rfl
theorem withMode_cueOnly (s : State) (m : Mode) : CueOnly s (s.withMode m) := rfl
theorem withRetry_cueOnly (s : State) (r : Option Nat) : CueOnly s (s.withRetry r) := rfl

theorem release_cueOnly (s : State) (r : TxRef) : CueOnly s (s.release r) := by
  unfold State.release; split <;> rfl

theorem tellRegulator_cueOnly (s : State) (n : Nat) (f : Fate) : CueOnly s (s.tellRegulator n f) := by
  unfold State.tellRegulator; split
  · split <;> rfl
  · rfl

theorem tell_cueOnly (s : State) (e : TxEntry) (f : Fate) : CueOnly s (s.tell e f) := by
  unfold State.tell; split
  · rfl
  · exact tellRegulator_cueOnly _ _ _
  · split <;> rfl

theorem addEntry_cueOnly (s : State) (o : Owner) (f : TxFrame) (st : Option Slot) (b : Bool) :
    CueOnly s (s.addEntry o f st b).1 := by
  unfold State.addEntry; split
  · rfl
  · split
    · dsimp only; split <;> rfl
    · rfl

theorem cancelEntry_cueOnly (s : State) (e : TxEntry) : CueOnly s (s.cancelEntry e) := by
  unfold State.cancelEntry; split
  · rfl
  · split
    · rfl
    · exact (freeEntry_cueOnly _ _).trans (tell_cueOnly _ _ _)

theorem cancelWhere_cueOnly (s : State) (p : TxEntry → Bool) : CueOnly s (s.cancelWhere p) :=
  foldl_cueOnly _ cancelEntry_cueOnly _ _

theorem withdrawEntry_cueOnly (s : State) (e : TxEntry) : CueOnly s (s.withdrawEntry e) := by
  unfold State.withdrawEntry; split
  · rfl
  · split
    · rfl
    · split
      · rfl
      · exact ((freeEntry_cueOnly _ _).trans (tell_cueOnly _ _ _)).trans (pulseRefused_cueOnly _)

theorem withdrawStale_cueOnly (s : State) (x : Slot) : CueOnly s (s.withdrawStale x) :=
  foldl_cueOnly _ withdrawEntry_cueOnly _ _

theorem withdrawMarks_cueOnly (s : State) : CueOnly s s.withdrawMarks := foldl_cueOnly _ withdrawEntry_cueOnly _ _

theorem closeStream_cueOnly (s : State) : CueOnly s s.closeStream := by
  refine foldl_cueOnly _ (fun s e => ?_) _ _
  split
  · exact freeEntry_cueOnly _ _
  · exact cancelEntry_cueOnly _ _

theorem fillStream_cueOnly (s : State) (f : TxFrame) : CueOnly s (s.fillStream f) := by
  unfold State.fillStream; split
  · exact (changeEntry_cueOnly _ _ _).trans (release_cueOnly _ _)
  · rfl

theorem placeBeacon_cueOnly (s : State) (f : TxFrame) : CueOnly s (s.placeBeacon f) := by
  unfold State.placeBeacon; split
  · rfl
  · split
    · rfl
    · exact (withTraffic_cueOnly _ _).trans (release_cueOnly _ _)

theorem emptyBeacon_cueOnly (s : State) : CueOnly s s.emptyBeacon := by
  unfold State.emptyBeacon; split
  · rfl
  · split <;> rfl

theorem loadFlow_cueOnly (s : State) : CueOnly s s.loadFlow := by
  unfold State.loadFlow; split
  · rfl
  · split
    · rfl
    · exact (withTraffic_cueOnly _ _).trans (release_cueOnly _ _)

theorem afterPlacement_cueOnly (s : State) : CueOnly s s.afterPlacement := by
  unfold State.afterPlacement; split
  · exact (withTraffic_cueOnly _ _).trans (loadFlow_cueOnly _)
  · rfl

theorem afterRemoval_cueOnly (s : State) : CueOnly s s.afterRemoval := by
  unfold State.afterRemoval; split
  · exact (withTraffic_cueOnly _ _).trans (loadFlow_cueOnly _)
  · rfl

theorem placeFrame_cueOnly (s : State) (f : RxFrame) : CueOnly s (s.placeFrame f) :=
  (withTraffic_cueOnly _ _).trans (afterPlacement_cueOnly _)

theorem dropReceived_cueOnly (s : State) : CueOnly s s.dropReceived :=
  (withTraffic_cueOnly _ _).trans (afterRemoval_cueOnly _)

theorem emptyReceived_cueOnly (s : State) : CueOnly s s.emptyReceived :=
  (withTraffic_cueOnly _ _).trans (afterRemoval_cueOnly _)

theorem purgeCancelled_cueOnly (s : State) : CueOnly s s.purgeCancelled := by
  unfold State.purgeCancelled
  refine CueOnly.trans (foldl_cueOnly _ (fun s e => ?_) _ s) (withTraffic_cueOnly _ _)
  exact ((freeEntry_cueOnly s e.order).trans (tell_cueOnly _ e .cancelled)).trans (release_cueOnly _ _)

theorem endHolderAttempt_cueOnly (s : State) (r : TxRef) : CueOnly s (s.endHolderAttempt r) := by
  unfold State.endHolderAttempt; split
  · rfl
  · split
    · exact (withTraffic_cueOnly _ _).trans (release_cueOnly _ _)
    · rfl
  · split
    · exact (withTraffic_cueOnly _ _).trans (release_cueOnly _ _)
    · rfl

theorem endStale_cueOnly (s : State) (r : TxRef) : CueOnly s (s.endStale r) := by
  unfold State.endStale; split
  · split <;> rfl
  · rfl

theorem endAttempt_cueOnly (s : State) : CueOnly s s.endAttempt := by
  unfold State.endAttempt; split
  · rfl
  · exact (CueOnly.trans (t := s.withLink { s.link with attempt := false }) rfl (endStale_cueOnly _ _)).trans
      (endHolderAttempt_cueOnly _ _)

theorem abandonEntry_cueOnly (s : State) (e : TxEntry) : CueOnly s (s.abandonEntry e) := by
  unfold State.abandonEntry; split
  · exact (freeEntry_cueOnly _ _).trans (tell_cueOnly _ _ _)
  · split
    · rfl
    · exact (freeEntry_cueOnly _ _).trans (tell_cueOnly _ _ _)

theorem abandon_cueOnly (s : State) : CueOnly s s.abandon := by
  unfold State.abandon; dsimp only; split
  · rfl
  · split
    · exact (withCurrent_cueOnly _ _).trans (abandonEntry_cueOnly _ _)
    · rfl
  · rfl
  · exact (withCurrent_cueOnly _ _).trans (loadFlow_cueOnly _)

theorem addVeto_cueOnly (s : State) (r : TxRef) : CueOnly s (s.addVeto r) := by
  unfold State.addVeto; split <;> rfl

theorem vetoAttempt_cueOnly (s : State) : CueOnly s s.vetoAttempt := by
  unfold State.vetoAttempt; split
  · rfl
  · rename_i r _
    have h : CueOnly s (s.addVeto r).endAttempt := (addVeto_cueOnly _ _).trans (endAttempt_cueOnly _)
    dsimp only; split
    · refine h.trans ?_
      unfold State.abandonHeld; split
      · exact abandon_cueOnly _
      · rfl
    · exact h

theorem loseTraffic_cueOnly (s : State) : CueOnly s s.loseTraffic :=
  ((cancelWhere_cueOnly _ _).trans (closeStream_cueOnly _)).trans (emptyBeacon_cueOnly _)

theorem purgeAll_cueOnly (s : State) : CueOnly s s.purgeAll := by
  refine ((foldl_cueOnly _ (fun s e => ?_) _ _).trans (withTraffic_cueOnly _ _)).trans (withCurrent_cueOnly _ _)
  split
  · exact (tell_cueOnly _ _ _).trans (pulseRefused_cueOnly _)
  · exact tell_cueOnly _ _ _

theorem returnTraffic_cueOnly (s : State) : CueOnly s s.returnTraffic :=
  ((emptyReceived_cueOnly _).trans (withdrawMarks_cueOnly _)).trans (withHeldBy_cueOnly _ _)

theorem trafficStrobe_cueOnly (s : State) (x : Slot) (own : Bool) : CueOnly s (s.trafficStrobe x own) := by
  unfold State.trafficStrobe; dsimp only; split
  · rfl
  · exact ((withHeldBy_cueOnly _ _).trans (withHeldBy_cueOnly _ _)).trans (withdrawStale_cueOnly _ _)

/-! ## The originator and the regulator -/

theorem withPlan_keeps (s : State) (v : Plan) : KeepsEssence s (s.withPlan v) := rfl
theorem withOrig_keeps (s : State) (v : Originator) : KeepsEssence s (s.withOrig v) := rfl
theorem withEgress_keeps (s : State) (v : Egress) : KeepsEssence s (s.withEgress v) := rfl
theorem withFree_keeps (s : State) (n : Nat) : KeepsEssence s (s.withFree n) := rfl
theorem countGiven_keeps (s : State) : KeepsEssence s s.countGiven := rfl

theorem drawHsn_keeps (s : State) : KeepsEssence s s.drawHsn.2 := by
  unfold State.drawHsn; split <;> rfl

theorem sendMark_cueOnly (s : State) (m : Mark) : CueOnly s (s.sendMark m) := addEntry_cueOnly _ _ _ _ _

theorem pressRescind_keeps (s : State) (x : Slot) : KeepsEssence s (s.pressRescind x) := by
  unfold State.pressRescind; dsimp only; split
  · exact (withOrig_keeps _ _).trans (sendMark_cueOnly _ _).keeps
  · exact (withOrig_keeps _ _).trans (pulseRefused_cueOnly _).keeps

theorem pressAt_keeps (s : State) (c : Settings) (x : Slot) (k : Contact) : KeepsEssence s (s.pressAt c x k) := by
  cases k <;>
    first
    | exact (countGiven_keeps _).trans (sendMark_cueOnly _ _).keeps
    | exact (sendMark_cueOnly _ _).keeps
    | exact pressRescind_keeps _ _

theorem press_keeps (s : State) (c : Settings) (k : Contact) : KeepsEssence s (s.press c k) :=
  (drawHsn_keeps s).trans (pressAt_keeps _ _ _ _)

theorem maskTagRequest_keeps (s : State) (c : Settings) (p : Slot) : KeepsEssence s (s.maskTagRequest c p) := by
  unfold State.maskTagRequest; split
  · exact (countGiven_keeps _).trans (sendMark_cueOnly _ _).keeps
  · rfl

theorem propose_cueOnly (s : State) (x p : Slot) (n : Int) : CueOnly s (s.propose x p n) := by
  unfold State.propose
  have h := addEntry_cueOnly s .regulator ⟨.pace, paceBody x p n⟩ none false
  split <;> rename_i heq <;> rw [heq] at h
  · exact h.trans (withReg_cueOnly _ _)
  · exact h

theorem formProposal_cueOnly (s : State) (c : Settings) (pt : SchedPoint) (n : Nat) (x : Slot) :
    CueOnly s (s.formProposal c pt n x) := by
  unfold State.formProposal; dsimp only; split
  · rfl
  · split
    · rfl
    · exact propose_cueOnly _ _ _ _

theorem proposalEvent_cueOnly (s : State) (c : Settings) (x : Slot) : CueOnly s (s.proposalEvent c x) := by
  unfold State.proposalEvent; dsimp only; split
  · split
    · exact (withReg_cueOnly _ _).trans (formProposal_cueOnly _ _ _ _ _)
    · rfl
  · rfl

theorem cancelProposal_cueOnly (s : State) : CueOnly s s.cancelProposal := by
  unfold State.cancelProposal; split
  · split
    · split
      · exact cancelEntry_cueOnly _ _
      · rfl
    · rfl
  · rfl

theorem checkProposal_cueOnly (s : State) (c : Settings) (b : Bounds) (cuts : List Cut) :
    CueOnly s (s.checkProposal c b cuts) := by
  unfold State.checkProposal; split
  · split
    · exact cancelProposal_cueOnly _
    · rfl
  · rfl

/-! ## The alignment monitor -/

theorem discardPlan_keeps (s : State) : KeepsEssence s s.discardPlan := rfl
theorem enterListening_keeps (s : State) : KeepsEssence s s.enterListening := rfl
theorem found_keeps (s : State) (c : Settings) (x : Slot) : KeepsEssence s (s.found c x) := rfl

theorem addJoin_keeps (s : State) : KeepsEssence s s.addJoin :=
  (drawHsn_keeps s).trans (addEntry_cueOnly _ _ _ _ _).keeps

theorem cancelJoin_cueOnly (s : State) : CueOnly s s.cancelJoin := cancelWhere_cueOnly _ _

theorem askAgain_keeps (s : State) : KeepsEssence s s.askAgain := by
  refine KeepsEssence.trans (t := if s.joinQueued then s else s.addJoin) ?_ (withRetry_cueOnly _ _).keeps
  split
  · rfl
  · exact addJoin_keeps _

theorem enterJoining_keeps (s : State) : KeepsEssence s s.enterJoining :=
  ((withMon_cueOnly _ _).keeps.trans (addJoin_keeps _)).trans (withRetry_cueOnly _ _).keeps

theorem cancelHead_cueOnly (s : State) : CueOnly s s.cancelHead := cancelWhere_cueOnly _ _

theorem leaveRecap_cueOnly (s : State) : CueOnly s s.leaveRecap := by
  unfold State.leaveRecap; split
  · rfl
  · exact (cancelHead_cueOnly _).trans (endOwnRecap_cueOnly _)
  · exact (closeStream_cueOnly _).trans (endOwnRecap_cueOnly _)

theorem enterResync_keeps (s : State) (o : Origin) : KeepsEssence s (s.enterResync o) :=
  (((((cancelProposal_cueOnly _).trans (leaveRecap_cueOnly _)).trans (withMode_cueOnly _ _)).keeps.trans
    (addJoin_keeps _)).trans (withRetry_cueOnly _ _).keeps)

theorem frameLost_keeps (s : State) (k : Option Station) : KeepsEssence s (s.frameLost k) := by
  unfold State.frameLost; split <;> first | exact enterResync_keeps _ _ | rfl

theorem compareBeacon_keeps (s : State) (k : Station) (b : Beacon) (o : Origin) :
    KeepsEssence s (s.compareBeacon k b o) := by
  unfold State.compareBeacon; split
  · split
    · exact enterResync_keeps _ _
    · rfl
  · rfl

theorem actOnBeacon_keeps (s : State) (k : Station) (b : Beacon) : KeepsEssence s (s.actOnBeacon k b) := by
  unfold State.actOnBeacon; split
  · split
    · exact enterJoining_keeps _
    · rfl
  · exact compareBeacon_keeps _ _ _ _
  · exact compareBeacon_keeps _ _ _ _
  · rfl

theorem takeBeacon_keeps (s : State) (k : Station) (body : List Byte) : KeepsEssence s (s.takeBeacon k body) := by
  unfold State.takeBeacon; split
  · rfl
  · split
    · rfl
    · exact ((drawHsn_keeps s).trans (withMon_cueOnly _ _).keeps).trans (actOnBeacon_keeps _ _ _)

theorem buildBeacon_cueOnly (s : State) (c : Settings) (x : Slot) : CueOnly s (s.buildBeacon c x) := by
  unfold State.buildBeacon; split
  · split
    · split
      · exact placeBeacon_cueOnly _ _
      · rfl
    · rfl
  · rfl

theorem answerJoin_cueOnly (s : State) (x : Slot) (era : Era) : CueOnly s (s.answerJoin x era) := by
  unfold State.answerJoin
  have h := addEntry_cueOnly s .monitor ⟨.recapHead, headBody x era.founding⟩ none true
  split <;> rename_i heq <;> rw [heq] at h
  · exact h.trans (withMon_cueOnly _ _)
  · exact h

theorem takeJoin_cueOnly (s : State) (x : Slot) (f : RxFrame) : CueOnly s (s.takeJoin x f) := by
  unfold State.takeJoin; split
  · split
    · rfl
    · exact answerJoin_cueOnly _ _ _
  · rfl

theorem nextStream_cueOnly (s : State) : CueOnly s s.nextStream := by
  unfold State.nextStream; split
  · split
    · exact (fillStream_cueOnly _ _).trans (withMon_cueOnly _ _)
    · rfl
  · rfl

theorem takeOwnHead_cueOnly (s : State) (b : Bounds) : CueOnly s (s.takeOwnHead b) := by
  unfold State.takeOwnHead; split
  · exact (withMon_cueOnly _ _).trans (nextStream_cueOnly _)
  · exact (closeStream_cueOnly _).trans (endOwnRecap_cueOnly _)

theorem noteForeign_cueOnly (s : State) (k : Station) (e : Slot) : CueOnly s (s.noteForeign k e) := by
  unfold State.noteForeign; split
  · split <;> rfl
  · rfl
  · split
    · dsimp only; split
      · exact ((withMon_cueOnly _ _).trans (cancelHead_cueOnly _)).trans (endOwnRecap_cueOnly _)
      · rfl
    · rfl

theorem renewForeign_cueOnly (s : State) (k : Station) : CueOnly s (s.renewForeign k) := rfl
theorem endForeign_cueOnly (s : State) (k : Station) : CueOnly s (s.endForeign k) := rfl

theorem startCollecting_cueOnly (s : State) (x : Slot) (k : Station) : CueOnly s (s.startCollecting x k) :=
  (withMon_cueOnly _ _).trans (cancelJoin_cueOnly _)

theorem joinerHead_cueOnly (s : State) (x : Slot) (k : Station) (e : Slot) : CueOnly s (s.joinerHead x k e) := by
  unfold State.joinerHead; split
  · exact startCollecting_cueOnly _ _ _
  · rfl

theorem takeHead_cueOnly (s : State) (b : Bounds) (f : RxFrame) : CueOnly s (s.takeHead b f) := by
  have closed : CueOnly s s.closeStream.endOwnRecap := (closeStream_cueOnly _).trans (endOwnRecap_cueOnly _)
  unfold State.takeHead; split
  · split
    · exact closed
    · rfl
  · split
    · split
      · exact closed
      · rfl
    · split
      · exact takeOwnHead_cueOnly _ _
      · exact (noteForeign_cueOnly _ _ _).trans (joinerHead_cueOnly _ _ _ _)

theorem failCollection_keeps (s : State) : KeepsEssence s s.failCollection :=
  (withMon_cueOnly _ _).keeps.trans (askAgain_keeps _)

theorem takeImage_keeps (s : State) (f : RxFrame) : KeepsEssence s (s.takeImage f) := by
  unfold State.takeImage; split
  · rfl
  · refine (renewForeign_cueOnly s f.sender).keeps.trans ?_
    dsimp only; split
    · rfl
    · split
      · rfl
      · split
        · exact failCollection_keeps _
        · rfl

theorem recordFrame_keeps (s : State) (x : Slot) (n : Nat) (f : RxFrame) : KeepsEssence s (s.recordFrame x n f) := by
  unfold State.recordFrame; split
  · rfl
  · split
    · split
      · exact failCollection_keeps _
      · rfl
    · split
      · exact failCollection_keeps _
      · rfl

theorem adopt_keeps (s : State) (r : Collecting) (e : RecapEnd) (p : Replay) (x : Slot) :
    KeepsEssence s (s.adopt r e p x) := by
  unfold State.adopt; dsimp only
  split
  · refine KeepsEssence.trans ?_ (enterResync_keeps _ _)
    refine KeepsEssence.trans ?_ (cancelJoin_cueOnly _).keeps
    rfl
  · refine KeepsEssence.trans ?_ (cancelJoin_cueOnly _).keeps
    rfl

theorem takeEnd_keeps (s : State) (x : Slot) (f : RxFrame) : KeepsEssence s (s.takeEnd x f).1 := by
  unfold State.takeEnd; split
  · dsimp only; split <;> rfl
  · refine (endForeign_cueOnly s f.sender).keeps.trans ?_
    dsimp only; split
    · rfl
    · split
      · exact askAgain_keeps _
      · split
        · rfl
        · split
          · exact failCollection_keeps _
          · split
            · exact adopt_keeps _ _ _ _ _
            · exact failCollection_keeps _

theorem expireListen_keeps (s : State) (c : Settings) (x : Slot) : KeepsEssence s (s.expireListen c x) := by
  unfold State.expireListen; split <;> rfl

theorem expireRetry_keeps (s : State) : KeepsEssence s s.expireRetry := by
  unfold State.expireRetry; split
  · exact askAgain_keeps _
  · rfl

theorem expireCollect_keeps (s : State) : KeepsEssence s s.expireCollect := by
  unfold State.expireCollect; split
  · exact failCollection_keeps _
  · rfl

theorem expireForeign_cueOnly (s : State) : CueOnly s s.expireForeign := by
  unfold State.expireForeign; split <;> rfl

theorem expireMonitor_keeps (s : State) (c : Settings) (x : Slot) : KeepsEssence s (s.expireMonitor c x) :=
  (((expireCollect_keeps s).trans (expireForeign_cueOnly _).keeps).trans (expireRetry_keeps _)).trans
    (expireListen_keeps _ _ _)

theorem checkPeers_keeps (s : State) (x : Slot) : KeepsEssence s (s.checkPeers x) := by
  unfold State.checkPeers; split
  · rfl
  · split
    · exact (cancelJoin_cueOnly _).keeps.trans (enterListening_keeps _)
    · exact (((withMode_cueOnly _ _).trans (cancelJoin_cueOnly _)).trans (withRetry_cueOnly _ _)).keeps
    · rfl

theorem monitorStrobe_keeps (s : State) (c : Settings) (x : Slot) (own : Bool) :
    KeepsEssence s (s.monitorStrobe c x own) := by
  unfold State.monitorStrobe; dsimp only
  refine KeepsEssence.trans (withMon_cueOnly s s.mon.tick).keeps ?_
  split
  · exact checkPeers_keeps _ _
  · exact (expireMonitor_keeps _ _ _).trans (checkPeers_keeps _ _)

theorem loseMonitor_cueOnly (s : State) : CueOnly s s.loseMonitor := rfl

/-! ## The intake -/

theorem pulseIfRefused_cueOnly (s : State) (own : Bool) (r : Option Reason) : CueOnly s (s.pulseIfRefused own r) := by
  unfold State.pulseIfRefused; split <;> rfl

theorem reportCut_keeps (s : State) (c : Option Cut) : KeepsEssence s (s.reportCut c) := by
  unfold State.reportCut; split
  · split <;> rfl
  · rfl

theorem handleMark_keeps (s : State) (b : Bounds) (f : RxFrame) : KeepsEssence s (s.handleMark b f).1 :=
  ((withPlan_keeps _ _).trans (pulseIfRefused_cueOnly _ _ _).keeps).trans (reportCut_keeps _ _)

theorem handlePace_keeps (s : State) (c : Settings) (b : Bounds) (f : RxFrame) : KeepsEssence s (s.handlePace c b f) :=
  ((withPlan_keeps _ _).trans (withReg_cueOnly _ _).keeps).trans (pulseIfRefused_cueOnly _ _ _).keeps

theorem Intake.handle_keeps (k : Intake) (c : Settings) (x : Slot) (f : RxFrame) :
    KeepsEssence k.state (k.handle c x f).state := by
  unfold Intake.handle
  split <;>
    first
    | exact (takeHead_cueOnly _ _ _).keeps
    | exact takeImage_keeps _ _
    | exact (takeJoin_cueOnly _ _ _).keeps
    | exact takeEnd_keeps _ _ _
    | rfl
    | (unfold Intake.pace; split
       · split
         · exact handlePace_keeps _ _ _ _
         · rfl
       · rfl)
    | (unfold Intake.mark; split
       · split
         · exact handleMark_keeps _ _ _
         · rfl
       · rfl)

theorem Intake.record_keeps (k : Intake) (x : Slot) (n : Nat) (f : RxFrame) :
    KeepsEssence k.state (k.record x n f).state := by
  unfold Intake.record; split
  · exact recordFrame_keeps _ _ _ _
  · rfl

theorem Intake.take_keeps (k : Intake) (c : Settings) (x : Slot) (n : Nat) (f : RxFrame) :
    KeepsEssence k.state (k.take c x n f).state :=
  ((dropReceived_cueOnly _).keeps.trans
    (Intake.handle_keeps { k with state := k.state.dropReceived } c x f)).trans (Intake.record_keeps _ _ _ _)

theorem Intake.takeAll_keeps (k : Intake) (c : Settings) (x : Slot) (n : Nat) (fs : List RxFrame) :
    KeepsEssence k.state (k.takeAll c x n fs).state := by
  induction fs generalizing k n with
  | nil => exact .refl _
  | cons f fs ih => exact (Intake.take_keeps k c x n f).trans (ih _ _)

theorem openIntake_keeps (s : State) (x : Slot) (own : Bool) : KeepsEssence s (s.openIntake x own).state := by
  unfold State.openIntake; split
  · split <;> rfl
  · rfl

theorem Intake.close_keeps (k : Intake) (c : Settings) : KeepsEssence k.state (k.close c) := by
  unfold Intake.close; split
  · exact ((withReg_cueOnly _ _).trans (checkProposal_cueOnly _ _ _ _)).keeps
  · rfl

/-- The intake leaves the essence side alone. -/
theorem intake_keeps (s : State) (c : Settings) (x : Slot) (own : Bool) : KeepsEssence s (s.intake c x own) :=
  ((openIntake_keeps _ _ _).trans (Intake.takeAll_keeps _ _ _ _ _)).trans (Intake.close_keeps _ _)

theorem completeEntryAt_keeps (s : State) (c : Settings) (x : Slot) : KeepsEssence s (s.completeEntryAt c x) := by
  unfold State.completeEntryAt; split
  · exact (withEgress_keeps _ _).trans (buildBeacon_cueOnly _ _ _).keeps
  · rfl

/-- Settling the expiries leaves the essence side alone. -/
theorem settle_keeps (s : State) (c : Settings) : KeepsEssence s (s.settle c) := by
  unfold State.settle; split
  · rfl
  · dsimp only
    refine KeepsEssence.trans ?_ (completeEntryAt_keeps _ _ _)
    have h : ∀ x, KeepsEssence s
        (State.expireMonitor ((s.withHeldBy (dropLapsed s.traffic.heldBy)).withdrawStale x) c x) := fun x =>
      ((withHeldBy_cueOnly _ _).trans (withdrawStale_cueOnly _ _)).keeps.trans (expireMonitor_keeps _ _ _)
    split
    · exact (h _).trans (withPlan_keeps _ _)
    · exact h _

/-! ## The link -/

theorem withLink_linkSide (s : State) (v : Link) (h : s.link.clash = true → v.clash = true) :
    LinkSide s (s.withLink v) := ⟨rfl, h⟩

theorem takeOffer_linkSide (s : State) : LinkSide s s.takeOffer := by
  refine ((purgeCancelled_cueOnly _).trans (withCurrent_cueOnly _ _)).linkSide.trans (withLink_linkSide _ _ ?_)
  unfold Link.contend; split <;> exact id

theorem busIdle_linkSide (s : State) (n : Nat) : LinkSide s (s.busIdle n) := by
  unfold State.busIdle; dsimp only; split
  · exact withLink_linkSide _ _ id
  · exact (withLink_linkSide s (s.link.atIdle n) id).trans (takeOffer_linkSide _)

theorem loseArbitration_linkSide (s : State) : LinkSide s s.loseArbitration :=
  (endAttempt_cueOnly _).linkSide.trans (withLink_linkSide _ _ id)

theorem elapse_linkSide (s : State) : LinkSide s s.elapse := by
  unfold State.elapse; split
  · exact withLink_linkSide _ _ id
  · exact .refl _

/-- What counting recessive bits leaves alone, and the count it leaves. -/
theorem Link.counted_keeps (l : Link) (n : Nat) :
    (l.counted n).clash = l.clash ∧ (l.counted n).connected = l.connected ∧ (l.counted n).current = l.current ∧
      (l.counted n).attempt = l.attempt ∧ (l.counted n).vetoCount = l.vetoCount ∧ (l.counted n).quiet = l.quiet ∧
      (l.counted n).idleCount = n := by
  unfold Link.counted; split <;> exact ⟨rfl, rfl, rfl, rfl, rfl, rfl, rfl⟩

/-- Below 11 recessive bits only the count changes. -/
theorem Link.counted_below (l : Link) (n : Nat) (h : n < 11) : l.counted n = { l with idleCount := n } :=
  if_neg (Nat.not_le.mpr h)

/-- From 11 recessive bits on the line is idle. -/
theorem Link.counted_idle (l : Link) (n : Nat) (h : 11 ≤ n) : l.counted n = l.atIdle n := if_pos h

@[simp] theorem Link.counted_clash (l : Link) (n : Nat) : (l.counted n).clash = l.clash := (l.counted_keeps n).1

@[simp] theorem Link.losePlace_clash (l : Link) (n : Nat) (d : SlotDrive) : (l.losePlace n d).clash = l.clash := by
  unfold Link.losePlace; exact Link.counted_clash _ _

theorem losePlace_linkSide (s : State) (l : Link) (n : Nat) (d : SlotDrive) (h : s.link.clash = true → l.clash = true) :
    LinkSide s (s.withLink (l.losePlace n d)) :=
  withLink_linkSide _ _ (fun hs => (Link.losePlace_clash l n d).trans (h hs))

theorem lineFault_linkSide (s : State) (n : Nat) : LinkSide s (s.lineFault n) :=
  (vetoAttempt_cueOnly _).linkSide.trans
    (withLink_linkSide _ _ (fun h => (Link.counted_clash _ _).trans h))

theorem ownVeto_linkSide (s : State) (v : VetoSlot) : LinkSide s (s.ownVeto v) :=
  (vetoAttempt_cueOnly _).linkSide.trans (withLink_linkSide _ _ id)

theorem loadGap_linkSide (s : State) (k : Kind) : LinkSide s (s.loadGap k) := by
  unfold State.loadGap; split
  · split
    · exact withLink_linkSide _ _ id
    · exact .refl _
  · exact .refl _

theorem streamSent_cueOnly (s : State) (e : TxEntry) : CueOnly s (s.streamSent e) := by
  unfold State.streamSent; split
  · exact changeEntry_cueOnly _ _ _
  · split
    · rfl
    · exact (changeEntry_cueOnly _ _ _).trans (nextStream_cueOnly _)

theorem afterSent_cueOnly (s : State) (r : TxRef) : CueOnly s (s.afterSent r) := by
  unfold State.afterSent; split
  · split
    · split
      · exact (tell_cueOnly _ _ _).trans (streamSent_cueOnly _ _)
      · exact (freeEntry_cueOnly _ _).trans (tell_cueOnly _ _ _)
    · rfl
  · rfl
  · rfl

theorem selfReceive_cueOnly (s : State) (f : TxFrame) : CueOnly s (s.selfReceive f) := by
  unfold State.selfReceive; split
  · exact placeFrame_cueOnly _ _
  · rfl

theorem stood_linkSide (s : State) (r : TxRef) (f : TxFrame) : LinkSide s (s.stood r f) := by
  refine LinkSide.trans (t := (s.withLink { s.link with attempt := false, current := none }).withLink
    (({ s.link with attempt := false, current := none } : Link).afterSlot .transmitting .none)) ⟨rfl, id⟩ ?_
  exact ((afterSent_cueOnly _ _).linkSide.trans (loadGap_linkSide _ _)).trans (selfReceive_cueOnly _ _).linkSide

theorem handOn_keeps (s : State) (k : Station) (kind : Kind) (body : List Byte) :
    KeepsEssence s (s.handOn k kind body) := by
  unfold State.handOn
  split <;> first | rfl | exact takeBeacon_keeps _ _ _ | exact (placeFrame_cueOnly _ _).keeps

theorem takeFailure_linkSide (s : State) (k : Station) (v : SlotRead) : LinkSide s (s.takeFailure k v) := by
  unfold State.takeFailure; dsimp only; split
  · exact (losePlace_linkSide s s.link.countFailure _ _ id).trans (frameLost_keeps _ _).linkSide
  · split
    · exact withLink_linkSide _ _ id
    · exact (withLink_linkSide _ _ id).trans (frameLost_keeps _ _).linkSide

theorem takeClean_linkSide (s : State) (k : Station) (kind : Kind) (body : List Byte) (v : SlotRead) :
    LinkSide s (s.takeClean k kind body v) := by
  unfold State.takeClean; dsimp only; split
  · exact withLink_linkSide _ _ id
  · exact (withLink_linkSide _ _ id).trans (handOn_keeps _ _ _ _).linkSide

/-- A reception leaves the essence side alone. -/
theorem receive_linkSide (s : State) (r : ReadResult) (v : SlotRead) : LinkSide s (s.receive r v) := by
  unfold State.receive; split
  · refine LinkSide.trans (t := s.yieldLine) ?_ ?_
    · unfold State.yieldLine; split
      · exact loseArbitration_linkSide _
      · exact .refl _
    · unfold State.takeRead; split
      · exact .refl _
      · exact (losePlace_linkSide _ (State.yieldLine s).link.countFailure _ _ id).trans (frameLost_keeps _ _).linkSide
      · exact takeFailure_linkSide _ _ _
      · exact takeClean_linkSide _ _ _ _ _
  · exact .refl _

/-- A HOLD, RESUME or BEACON that arrives leaves the essence side alone. -/
theorem arrive_linkSide (s : State) (k : Station) (kind : Kind) (body : List Byte) :
    LinkSide s (s.arrive k kind body) := by
  unfold State.arrive; split
  · exact (handOn_keeps _ _ _ _).linkSide
  · exact receive_linkSide _ _ _

theorem setClash_linkSide (s : State) : LinkSide s s.setClash :=
  ((purgeAll_cueOnly _).trans (endOwnRecap_cueOnly _)).linkSide.trans (withLink_linkSide _ _ (fun _ => rfl))

theorem clashFailure_linkSide (s : State) (v : SlotRead) : LinkSide s (s.clashFailure v) := by
  refine (vetoAttempt_cueOnly _).linkSide.trans (withLink_linkSide _ _ ?_)
  split
  · exact (Link.losePlace_clash _ _ _).trans
  · exact id

theorem clashLost_linkSide (s : State) (v : SlotRead) : LinkSide s (s.clashLost v) :=
  (vetoAttempt_cueOnly _).linkSide.trans (losePlace_linkSide _ s.vetoAttempt.link _ _ id)

theorem clashWith_linkSide (s : State) (r : LineRead) : LinkSide s (s.clashWith r) := by
  unfold State.clashWith; split
  · exact (setClash_linkSide _).trans (takeClean_linkSide _ _ _ _ _)
  · exact .refl _
  · exact clashFailure_linkSide _ _
  · exact clashLost_linkSide _ _

end Sys2Proof.Machine
end

