-- ==== Sys2Proof/Laws/Essence.lean ====
section
/-! SUPPORT. What the operations of the page store, the slot index, the ingress and the egress leave alone, and what every
operation leaves alone: the page contents, the queue, and the faults that only RESET clears. -/

namespace Sys2Proof.Machine

/-! ## Ending bursts and releasing pages -/

/-- `t` differs from `s` in the page store, the slot index, the egress and the free values drawn at most, and keeps
STORE-EXHAUSTED and the schedule. -/
def StoreSide (s t : State) : Prop :=
  t =
    { s with
      store := ⟨t.store.lanes, s.store.exhausted⟩, index := t.index
      egress := { s.egress with lanes := t.egress.lanes, out := t.egress.out }, free := t.free }

theorem StoreSide.refl (s : State) : StoreSide s s := rfl

theorem StoreSide.trans {s t u : State} (h : StoreSide s t) (k : StoreSide t u) : StoreSide s u := by
  unfold StoreSide at *; rw [k, h]

theorem holdBytes_storeSide (s : State) (lane : Nat) (bytes : List Byte) : StoreSide s (s.holdBytes lane bytes) := by
  unfold State.holdBytes; split <;> rfl

theorem endShort_storeSide (s : State) (b : OutBurst) : StoreSide s (s.endShort b) := by
  unfold State.endShort; split
  · exact (holdBytes_storeSide _ _ _).trans rfl
  · rfl

/-- Ending bursts leaves the page store and the slot index alone too. -/
theorem endBursts_keeps (s : State) (p : OutBurst → Bool) : KeepsEssence s (s.endBursts p) := by
  refine (foldl_keepsEssence _ (fun s b => ?_) _ _).trans (withEgress_keeps _ _)
  unfold State.endShort State.holdBytes; split
  · split <;> rfl
  · rfl

theorem foldl_storeSide {α : Type} (f : State → α → State) (h : ∀ s x, StoreSide s (f s x)) (l : List α) (s : State) :
    StoreSide s (l.foldl f s) := by
  induction l generalizing s with
  | nil => exact .refl s
  | cons x l ih => exact (h s x).trans (ih (f s x))

theorem endBursts_storeSide (s : State) (p : OutBurst → Bool) : StoreSide s (s.endBursts p) :=
  (foldl_storeSide _ endShort_storeSide _ _).trans rfl

theorem releaseLane_exhausted (st : PageStore) (code lane : Nat) (pages : List PageNo) :
    (st.releaseLane code lane pages).exhausted = st.exhausted := by
  unfold PageStore.releaseLane; split <;> rfl

theorem releaseLanes_exhausted (st : PageStore) (code lane : Nat) (pages : List (List PageNo)) :
    (st.releaseLanes code lane pages).exhausted = st.exhausted := by
  induction pages generalizing st lane with
  | nil => rfl
  | cons p rest ih => exact (ih _ _).trans (releaseLane_exhausted _ _ _ _)

/-- A new account of the lanes keeps STORE-EXHAUSTED. -/
theorem withStore_storeSide (s : State) (st : PageStore) (h : st.exhausted = s.store.exhausted) :
    StoreSide s (s.withStore st) := by
  cases st; subst h; rfl

theorem dropRecord_storeSide (s : State) (code : Nat) (r : SlotRecord) : StoreSide s (s.dropRecord code r) :=
  (endBursts_storeSide _ _).trans (withStore_storeSide _ _ (releaseLanes_exhausted _ _ _ _))

theorem removeHead_storeSide (s : State) (code : Nat) (p : SlotRecord → Bool) : StoreSide s (s.removeHead code p) :=
  (foldl_storeSide _ (fun s r => dropRecord_storeSide s code r) _ _).trans rfl

theorem removeBefore_storeSide (s : State) (code : Nat) (q : Slot) : StoreSide s (s.removeBefore code q) :=
  removeHead_storeSide _ _ _

theorem removeAged_storeSide (s : State) (code : Nat) (x : Slot) : StoreSide s (s.removeAged code x) :=
  removeHead_storeSide _ _ _

theorem forceRelease_storeSide (s : State) (code : Nat) : StoreSide s (s.forceRelease code) := by
  unfold State.forceRelease; split
  · rfl
  · split
    · exact (dropRecord_storeSide _ _ _).trans rfl
    · rfl

theorem append_storeSide (s : State) (code : Nat) (r : SlotRecord) : StoreSide s (s.append code r) :=
  (forceRelease_storeSide _ _).trans rfl

/-! ## What every operation leaves alone -/

/-- `t` has the page contents, the queue, the station number and the settings of `s`, and every fault of `s` that only
RESET clears. -/
def KeepsFaults (s t : State) : Prop :=
  t.mem = s.mem ∧ t.pending = s.pending ∧ t.station = s.station ∧ t.settings = s.settings ∧
    (s.link.clash = true → t.link.clash = true) ∧ (s.store.exhausted = true → t.store.exhausted = true)

theorem KeepsFaults.refl (s : State) : KeepsFaults s s := ⟨rfl, rfl, rfl, rfl, id, id⟩

theorem KeepsFaults.trans {s t u : State} (h : KeepsFaults s t) (k : KeepsFaults t u) : KeepsFaults s u :=
  ⟨k.1.trans h.1, k.2.1.trans h.2.1, k.2.2.1.trans h.2.2.1, k.2.2.2.1.trans h.2.2.2.1,
    k.2.2.2.2.1 ∘ h.2.2.2.2.1, k.2.2.2.2.2 ∘ h.2.2.2.2.2⟩

theorem StoreSide.faults {s t : State} (h : StoreSide s t) : KeepsFaults s t := by
  unfold StoreSide at h; rw [h]; exact ⟨rfl, rfl, rfl, rfl, id, id⟩

theorem LinkSide.faults {s t : State} (h : LinkSide s t) : KeepsFaults s t := by
  obtain ⟨h, c⟩ := h
  refine ⟨?_, ?_, ?_, ?_, c, ?_⟩ <;> rw [h]
  exact id

theorem KeepsEssence.faults {s t : State} (h : KeepsEssence s t) : KeepsFaults s t := h.linkSide.faults

theorem CueOnly.faults {s t : State} (h : CueOnly s t) : KeepsFaults s t := h.linkSide.faults

theorem withRef_faults (s : State) (v : RefUnit) : KeepsFaults s (s.withRef v) := ⟨rfl, rfl, rfl, rfl, id, id⟩

theorem withIngress_faults (s : State) (v : Ingress) : KeepsFaults s (s.withIngress v) := ⟨rfl, rfl, rfl, rfl, id, id⟩

theorem withIndex_faults (s : State) (v : List SlotRecord) : KeepsFaults s (s.withIndex v) :=
  ⟨rfl, rfl, rfl, rfl, id, id⟩

/-! ## The output -/

theorem output_keeps (s : State) (c : Settings) (pt : SchedPoint) : KeepsEssence s (s.output c pt) := rfl

theorem scheduleHeld_cueOnly (s : State) (q : Slot) : CueOnly s (s.scheduleHeld q) := by
  unfold State.scheduleHeld; split <;> rfl

/-- The head removal of a play changes the store side only. -/
theorem removePassed_storeSide (s : State) (c : Settings) (pt : SchedPoint) : StoreSide s (s.removePassed c pt) := by
  unfold State.removePassed; split
  · exact removeBefore_storeSide _ _ _
  · rfl

theorem playStep_faults (s : State) (c : Settings) (pt : SchedPoint) : KeepsFaults s (s.playStep c pt) :=
  ((((endBursts_keeps _ _).trans (output_keeps _ _ _)).trans (withPlan_keeps _ _)).faults.trans
    (removePassed_storeSide _ _ _).faults).trans (scheduleHeld_cueOnly _ _).faults

theorem outputStep_faults (s : State) (c : Settings) (x : Slot) : KeepsFaults s (s.outputStep c x) := by
  unfold State.outputStep; split
  · exact playStep_faults _ _ _
  · exact .refl _

theorem substituteStep_keeps (s : State) (c : Settings) (x : Slot) : KeepsEssence s (s.substituteStep c x) :=
  (endBursts_keeps _ _).trans (withEgress_keeps _ _)

theorem returnEgress_keeps (s : State) (c : Settings) (x : Slot) : KeepsEssence s (s.returnEgress c x) :=
  ((endBursts_keeps _ _).trans (withEgress_keeps _ _)).trans (substituteStep_keeps _ _ _)

theorem strobeOutput_faults (s : State) (c : Settings) (x : Slot) : KeepsFaults s (s.strobeOutput c x) := by
  unfold State.strobeOutput; split
  · exact outputStep_faults _ _ _
  · exact (substituteStep_keeps _ _ _).faults.trans (removeAged_storeSide _ _ _).faults

theorem finishBurst_keeps (s : State) (b : OutBurst) : KeepsEssence s (s.finishBurst b) := by
  unfold State.finishBurst; dsimp only; split
  · unfold State.holdBytes; split <;> rfl
  · rfl

/-! ## The slot close, the strobe, the loss and the return -/

theorem closeSlot_faults (s : State) (c : Settings) (h : Slot) : KeepsFaults s (s.closeSlot c h) := by
  unfold State.closeSlot; split
  · exact withIngress_faults _ _
  · exact (withIngress_faults _ _).trans (append_storeSide _ _ _).faults

theorem closeAndTag_faults (s : State) (c : Settings) (h : Slot) : KeepsFaults s (s.closeAndTag c h) := by
  unfold State.closeAndTag; split
  · split
    · exact (closeSlot_faults _ _ _).trans (maskTagRequest_keeps _ _ _).faults
    · exact closeSlot_faults _ _ _
  · exact closeSlot_faults _ _ _

theorem takePart_faults (s : State) (c : Settings) (x : Slot) (own : Bool) (p : StrobePart) :
    KeepsFaults s (s.takePart c x own p) := by
  cases p
  · exact (trafficStrobe_cueOnly _ _ _).faults
  · exact closeAndTag_faults _ _ _
  · exact strobeOutput_faults _ _ _
  · exact (intake_keeps _ _ _ _).faults
  · exact (proposalEvent_cueOnly _ _ _).faults
  · exact (monitorStrobe_keeps _ _ _ _).faults

/-- What each part and the completion of the history entry keep, the parts of a strobe keep, in every order. -/
theorem takeParts_keeps (R : State → State → Prop) (refl : ∀ s, R s s) (trans : ∀ {s t u}, R s t → R t u → R s u)
    (c : Settings) (x : Slot) (own : Bool) (part : ∀ s p, R s (s.takePart c x own p))
    (complete : ∀ s : State, R s (s.completeEntryAt c x)) (parts done : List StrobePart) (s : State) :
    R s (s.takeParts c x own done parts) := by
  induction parts generalizing s done with
  | nil => exact refl s
  | cons p rest ih =>
    refine trans ?_ (ih (p :: done) _)
    split
    · exact trans (part s p) (complete _)
    · exact part s p

theorem ordinaryStrobe_faults (s : State) (c : Settings) (h : Slot) (o : StrobeOrder) :
    KeepsFaults s (s.ordinaryStrobe c h o) :=
  ((settle_keeps _ _).faults.trans (withRef_faults _ _)).trans
    (takeParts_keeps KeepsFaults KeepsFaults.refl KeepsFaults.trans c h o.ownSteps
      (fun s p => takePart_faults s c h o.ownSteps p) (fun s => (completeEntryAt_keeps s c h).faults) _ _ _)

theorem loseIngress_faults (s : State) (c : Settings) : KeepsFaults s (s.loseIngress c) := by
  unfold State.loseIngress; split
  · exact .refl _
  · exact (withStore_storeSide _ _ (releaseLanes_exhausted _ _ _ _)).faults.trans (withIngress_faults _ _)

theorem loseReference_faults (s : State) (c : Settings) : KeepsFaults s (s.loseReference c) :=
  ((((settle_keeps _ _).faults.trans (withRef_faults _ _)).trans (loseIngress_faults _ _)).trans
    (loseTraffic_cueOnly _).faults).trans (loseMonitor_cueOnly _).faults

theorem discardStore_faults (s : State) (c : Settings) : KeepsFaults s (s.discardStore c) :=
  (withIndex_faults _ _).trans (withStore_storeSide _ _ rfl).faults

theorem takeReturn_faults (s : State) (c : Settings) (h : Slot) : KeepsFaults s (s.takeReturn c h) := by
  unfold State.takeReturn; dsimp only
  refine KeepsFaults.trans ?_ ((returnTraffic_cueOnly _).faults.trans (enterListening_keeps _).faults)
  refine ((withRef_faults s (.strobe h)).trans (returnEgress_keeps _ c h).faults).trans ?_
  exact (discardStore_faults _ _).trans (withIngress_faults _ _)

theorem takeStrobe_faults (s : State) (h : Slot) (o : StrobeOrder) : KeepsFaults s (s.takeStrobe h o) := by
  unfold State.takeStrobe; split
  · unfold State.configuredStrobe; split
    · exact takeReturn_faults _ _ _
    · split
      · exact ordinaryStrobe_faults _ _ _ _
      · exact (loseReference_faults _ _).trans (takeReturn_faults _ _ _)
  · unfold State.bareStrobe; dsimp only; split <;> exact ⟨rfl, rfl, rfl, rfl, id, id⟩

end Sys2Proof.Machine
end

