-- ==== Sys2Proof/Laws/Formats.lean ====
section
/-! SUPPORT. The boundary formats read back: multi-byte fields, the bits of bytes, and the sync bits of a frame. -/

namespace Sys2Proof.Machine

/-! ## Multi-byte fields -/

/-- Four bytes of a word put together again. -/
theorem be32_extract (w : BitVec 32) :
    be32 (w.extractLsb' 24 8) (w.extractLsb' 16 8) (w.extractLsb' 8 8) (w.extractLsb' 0 8) = w := by
  unfold be32
  rw [BitVec.extractLsb'_append_extractLsb'_eq_extractLsb' (by omega),
    BitVec.extractLsb'_append_extractLsb'_eq_extractLsb' (by omega),
    BitVec.extractLsb'_append_extractLsb'_eq_extractLsb' (by omega)]
  simp

/-- A 16-bit field reads back. -/
theorem be16_bytes (n : Nat) (h : n < 65536) : be16 (BitVec.ofNat 8 (n / 256)) (BitVec.ofNat 8 n) = n := by
  unfold be16
  simp only [BitVec.toNat_ofNat]
  omega

/-- The station number of a node reads back. -/
theorem stationOf_stationByte (k : Station) : stationOf (stationByte k) = some k := by
  revert k; decide

theorem lanesOf_setWidth (m : BitVec 4) : lanesOf (m.setWidth 8) = some m := by
  revert m; decide

theorem sourceOf_sourceByte (c : CutSource) : sourceOf (sourceByte c) = some c := by cases c <;> rfl

/-- A cut kind reads back from its two bytes. -/
theorem cutKindOf_drop : cutKindOf 0 0 = some .drop := rfl

theorem cutKindOf_mask (m : BitVec 4) : cutKindOf 1 (m.setWidth 8) = some (.mask m) := by
  revert m; decide

/-- A pace count reads back from its byte. -/
theorem paceCountOf_byte (c : Int) (h : c = -1 ∨ (1 ≤ c ∧ c ≤ 8)) : paceCountOf (paceCountByte c) = some c := by
  rcases h with rfl | h
  · rfl
  · obtain ⟨h1, h2⟩ := h
    have : c = 1 ∨ c = 2 ∨ c = 3 ∨ c = 4 ∨ c = 5 ∨ c = 6 ∨ c = 7 ∨ c = 8 := by omega
    rcases this with rfl | rfl | rfl | rfl | rfl | rfl | rfl | rfl <;> rfl

/-! ## Bits, most significant first -/

theorem natBits_length (w n : Nat) : (natBits w n).length = w := by
  induction w with
  | zero => rfl
  | succ w ih => simp [natBits, ih]

theorem foldl_bits (bits : List Bool) (acc : Nat) :
    bits.foldl (fun a b => 2 * a + b.toNat) acc = acc * 2 ^ bits.length + bitsNat bits := by
  unfold bitsNat
  induction bits generalizing acc with
  | nil => simp
  | cons b rest ih =>
    simp only [List.foldl_cons, List.length_cons]
    rw [ih, ih (2 * 0 + b.toNat)]
    ring

/-- The low bits of a number spell it. -/
theorem bitsNat_natBits (w n : Nat) : bitsNat (natBits w n) = n % 2 ^ w := by
  induction w with
  | zero => simp [natBits, bitsNat, Nat.mod_one]
  | succ w ih =>
    have e : bitsNat (natBits (w + 1) n) = (n.testBit w).toNat * 2 ^ w + bitsNat (natBits w n) := by
      have := foldl_bits (natBits w n) (n.testBit w).toNat
      rw [natBits_length] at this
      rw [← this]
      simp [natBits, bitsNat]
    rw [e, ih, Nat.mod_pow_succ, Nat.toNat_testBit, Nat.mul_comm]
    omega

theorem bitsNat_byteBits (b : Byte) : BitVec.ofNat 8 (bitsNat (byteBits b)) = b := by
  revert b; decide

/-- The bits of bytes spell them. -/
theorem bitsBytes_bytesBits (bs : List Byte) : bitsBytes (bytesBits bs) = bs := by
  induction bs with
  | nil => rfl
  | cons b rest ih =>
    have : bytesBits (b :: rest) = byteBits b ++ bytesBits rest := rfl
    rw [this]
    have hb := bitsNat_byteBits b
    unfold byteBits at hb ⊢
    simp only [List.cons_append, List.nil_append, bitsBytes, hb, ih]

theorem bytesBits_length (bs : List Byte) : (bytesBits bs).length = 8 * bs.length := by
  induction bs with
  | nil => rfl
  | cons b rest ih =>
    have : bytesBits (b :: rest) = byteBits b ++ bytesBits rest := rfl
    rw [this, List.length_append, ih, List.length_cons]
    simp [byteBits]; omega

/-! ## Sync bits (R74) -/

/-- The phase after `n` more data bits. -/
def phaseAfter (phase n : Nat) : Nat := (phase + n) % 4

/-- The data bits of a sent sequence are read back, with the phase they leave; the bits that follow stay. -/
theorem takeData_insertSync (phase : Nat) (a b : List Bool) (h : phase < 4) :
    takeData a.length phase (insertSync phase (a ++ b)) =
      some (a, insertSync (phaseAfter phase a.length) b, phaseAfter phase a.length) := by
  induction a generalizing phase with
  | nil => simp [takeData, phaseAfter, Nat.mod_eq_of_lt h]
  | cons x rest ih =>
    simp only [List.length_cons, List.cons_append, insertSync]
    by_cases hp : phase = 3
    · subst hp
      have : phaseAfter 3 (rest.length + 1) = phaseAfter 0 rest.length := by unfold phaseAfter; omega
      simp [takeData, ih 0 (by omega), this]
    · have : phaseAfter phase (rest.length + 1) = phaseAfter (phase + 1) rest.length := by unfold phaseAfter; congr 1; omega
      simp [takeData, hp, ih (phase + 1) (by omega), this]

/-- A whole sequence is read back to its end. -/
theorem takeData_all (phase : Nat) (a : List Bool) (h : phase < 4) :
    (takeData a.length phase (insertSync phase a)).map (fun r => r.1) = some a := by
  have := takeData_insertSync phase a [] h
  rw [List.append_nil] at this
  rw [this]; rfl

theorem headBits_length (k : Station) (kind : Kind) (n : Nat) : (headBits k kind n).length = 18 := by
  simp [headBits, natBits_length]

/-- The kind named by a kind's code. -/
theorem kindOfCode_code (k : Kind) : kindOfCode k.code = some k := by cases k <;> rfl

end Sys2Proof.Machine
end

