-- ==== Sys2Proof/Laws/Ingress.lean ====
section
/-! SUPPORT. The parts of a slot record, and the value of one contact after a change. -/

namespace Sys2Proof.Machine

/-- The lanes of the record are those of the entries, each ended at the strobe. -/
theorem Ingress.record_lanes (g : Ingress) (c : Settings) (x : Slot) :
    (g.record c x).1.lanes = (g.entries.map LaneEntry.atStrobe).map LaneEntry.record := by
  unfold Ingress.record; simp only; split <;> rfl

theorem Ingress.record_lanes_length (g : Ingress) (c : Settings) (x : Slot) :
    (g.record c x).1.lanes.length = g.entries.length := by
  rw [Ingress.record_lanes]; simp

theorem Ingress.record_psn (g : Ingress) (c : Settings) (x : Slot) : (g.record c x).1.psn = x := by
  unfold Ingress.record; simp only; split <;> rfl

/-- The arrival state follows from the record's lanes. -/
theorem Ingress.record_arrival (g : Ingress) (c : Settings) (x : Slot) :
    (g.record c x).1.arrival = arrivalOf (g.record c x).1.lanes := by
  rw [Ingress.record_lanes]; unfold Ingress.record; simp only; split <;> rfl

/-- Ending at the strobe keeps the pages. -/
theorem LaneEntry.atStrobe_pages (e : LaneEntry) : e.atStrobe.pages = e.pages := by
  unfold LaneEntry.atStrobe; split <;> rfl

theorem contactOf_setContact_same {α : Type} (v : PerContact α) (k : Contact) (x : α) :
    contactOf (setContact v k x) k = x := by
  cases k <;> rfl

theorem contactOf_setContact_other {α : Type} (v : PerContact α) {k j : Contact} (x : α) (h : j ≠ k) :
    contactOf (setContact v k x) j = contactOf v j := by
  cases k <;> cases j <;> first | rfl | exact absurd rfl h

end Sys2Proof.Machine
end

