-- ==== Sys2Proof/Laws/PerInstr.lean ====
section
/-! SUPPORT. One lemma per command: what a well-formed command's operands are. -/

namespace Sys2Proof.Laws.OperandForms

open Sys2Proof

/-- The operands that the spec gives a command: the record has 64 bytes (R180), a burst header 9 (12.2), a BEACON body 21
(R75), a bus idle at least 11 recessive bits and a line fault at least 1 (R72), a line read its dominant start bit (R74), and a strobe names no part
twice. -/
def Statement (i : Instr) : Prop :=
  i.wellFormed = true →
    match i with
    | .configReadComplete bytes => bytes.length = 64
    | .burstStart _ header => header.bytes.length = 9
    | .beaconReceived _ body => body.length = 21
    | .busIdle recessive => 11 ≤ recessive
    | .lineFault recessive => 1 ≤ recessive
    | .clash read => read.bits.head? = some false
    | .frameReceived read => read.bits.head? = some false
    | .ordinaryStrobe _ order => order.parts.Nodup
    | _ => True

theorem reset (c : ResetCause) (k : Station) (l : PerContact Level) : Statement (.reset c k l) := by
  intro _; trivial

theorem configReadComplete (b : List Byte) : Statement (.configReadComplete b) := by
  intro h; simpa [Instr.wellFormed, LineRead.wellFormed, StrobeOrder.wellFormed] using h

theorem ordinaryStrobe (h : Slot) (o : StrobeOrder) : Statement (.ordinaryStrobe h o) := by
  intro h; simp only [Instr.wellFormed, StrobeOrder.wellFormed, Bool.and_eq_true, decide_eq_true_eq] at h; exact h.1

theorem referenceReturn (h : Slot) : Statement (.referenceReturn h) := by
  intro _; trivial

theorem referenceBreak (h : Slot) : Statement (.referenceBreak h) := by
  intro _; trivial

theorem referenceLossTimeout : Statement .referenceLossTimeout := by
  intro _; trivial

theorem listenTimerExpiry : Statement .listenTimerExpiry := by
  intro _; trivial

theorem joinRetryExpiry : Statement .joinRetryExpiry := by
  intro _; trivial

theorem collectSilenceExpiry : Statement .collectSilenceExpiry := by
  intro _; trivial

theorem foreignRecapExpiry : Statement .foreignRecapExpiry := by
  intro _; trivial

theorem spanTimeout (k : Station) : Statement (.spanTimeout k) := by
  intro _; trivial

theorem holdTimeout (k : Station) : Statement (.holdTimeout k) := by
  intro _; trivial

theorem markStaleWithdrawal (n : Nat) : Statement (.markStaleWithdrawal n) := by
  intro _; trivial

theorem refusedPulseExpiry : Statement .refusedPulseExpiry := by
  intro _; trivial

theorem debounceStable (k : Contact) : Statement (.debounceStable k) := by
  intro _; trivial

theorem burstStart (p : Fin 4) (h : HeaderRead) : Statement (.burstStart p h) := by
  intro h; simpa [Instr.wellFormed, LineRead.wellFormed, StrobeOrder.wellFormed] using h

theorem essenceByte (p : Fin 4) (b : Byte) : Statement (.essenceByte p b) := by
  intro _; trivial

theorem burstEnd (p : Fin 4) : Statement (.burstEnd p) := by
  intro _; trivial

theorem busIdle (n : Nat) : Statement (.busIdle n) := by
  intro h; simpa [Instr.wellFormed, LineRead.wellFormed, StrobeOrder.wellFormed] using h

theorem arbitrationLost : Statement .arbitrationLost := by
  intro _; trivial

theorem lineFault (n : Nat) : Statement (.lineFault n) := by
  intro h; simpa [Instr.wellFormed, LineRead.wellFormed, StrobeOrder.wellFormed] using h

theorem clash (r : LineRead) : Statement (.clash r) := by
  intro h; simpa [Instr.wellFormed, LineRead.wellFormed, StrobeOrder.wellFormed] using h

theorem frameVetoed (v : VetoSlot) : Statement (.frameVetoed v) := by
  intro _; trivial

theorem sent : Statement .sent := by
  intro _; trivial

theorem frameReceived (r : LineRead) : Statement (.frameReceived r) := by
  intro h; simpa [Instr.wellFormed, LineRead.wellFormed, StrobeOrder.wellFormed] using h

theorem holdReceived (k : Station) : Statement (.holdReceived k) := by
  intro _; trivial

theorem resumeReceived (k : Station) : Statement (.resumeReceived k) := by
  intro _; trivial

theorem beaconReceived (k : Station) (b : List Byte) : Statement (.beaconReceived k b) := by
  intro h; simpa [Instr.wellFormed, LineRead.wellFormed, StrobeOrder.wellFormed] using h

theorem contactRawLevelChange (k : Contact) (l : Level) : Statement (.contactRawLevelChange k l) := by
  intro _; trivial

theorem outputBurstEnd (p : Fin 4) : Statement (.outputBurstEnd p) := by
  intro _; trivial

theorem courtesyGapExpiry : Statement .courtesyGapExpiry := by
  intro _; trivial

end Sys2Proof.Laws.OperandForms
end

