-- ==== Sys2Proof/Laws/Plan.lean ====
section
/-! SUPPORT. What the operations of the edit plan do: coverage, the places in the tables, the span contexts, the search of
an advance, and what one judgement can change. -/

namespace Sys2Proof.Machine

/-! ## Coverage -/

/-- The lanes masked at a PSN are those of every cut that covers it. -/
theorem maskedLanes_getLsbD (cuts : List Cut) (p : Slot) (i : Nat) :
    (maskedLanes cuts p).getLsbD i = true ↔ ∃ c ∈ cuts, c.covers p = true ∧ c.kind.lanes.getLsbD i = true := by
  unfold maskedLanes
  suffices ∀ m : BitVec 4,
      (cuts.foldl (fun m c => if c.covers p then m ||| c.kind.lanes else m) m).getLsbD i = true ↔
        m.getLsbD i = true ∨ ∃ c ∈ cuts, c.covers p = true ∧ c.kind.lanes.getLsbD i = true by
    simpa using this 0
  induction cuts with
  | nil => simp
  | cons c rest ih =>
    intro m; simp only [List.foldl_cons]; rw [ih]
    split <;> rename_i h <;> simp [h, or_assoc]

theorem CutKind.isDrop_iff (k : CutKind) : k.isDrop = true ↔ k = .drop := by cases k <;> simp [CutKind.isDrop]

theorem droppedBy_iff (cuts : List Cut) (p : Slot) :
    droppedBy cuts p = true ↔ ∃ c ∈ cuts, c.kind = .drop ∧ c.covers p = true := by
  simp only [droppedBy, List.any_eq_true, Bool.and_eq_true, CutKind.isDrop_iff]

theorem coverage_dropped_iff (cuts : List Cut) (p : Slot) : coverage cuts p = .dropped ↔ droppedBy cuts p = true := by
  unfold coverage; split
  · simp_all
  · split <;> simp_all

/-- With no cut nothing is covered. -/
@[simp] theorem coverage_nil (p : Slot) : coverage [] p = .clear := rfl

/-! ## The places in the tables -/

/-- The new cut and the old ones, in the table's order. -/
theorem insertCut_perm (c : Cut) (cuts : List Cut) : (insertCut c cuts).Perm (c :: cuts) := by
  induction cuts with
  | nil => exact List.Perm.refl _
  | cons d rest ih =>
    unfold insertCut; split
    · exact List.Perm.refl _
    · exact (ih.cons d).trans (List.Perm.swap c d rest)

/-- The new entry and the old ones, in the list's order. -/
theorem insertPace_perm (e : Pace) (paces : List Pace) : (insertPace e paces).Perm (e :: paces) := by
  induction paces with
  | nil => exact List.Perm.refl _
  | cons d rest ih =>
    unfold insertPace; split
    · exact List.Perm.refl _
    · exact (ih.cons d).trans (List.Perm.swap e d rest)

/-- R53: the new cut stands behind every cut that it does not go before. -/
theorem insertCut_eq (c : Cut) (cuts : List Cut) :
    insertCut c cuts =
      cuts.takeWhile (fun d => !(earlier c.start d.start || (c.start == d.start && c.id.before d.id))) ++
        c :: cuts.dropWhile (fun d => !(earlier c.start d.start || (c.start == d.start && c.id.before d.id))) := by
  induction cuts with
  | nil => rfl
  | cons d rest ih =>
    unfold insertCut; rw [List.takeWhile_cons, List.dropWhile_cons, ih]
    split <;> rename_i h <;> simp only [h] <;> rfl

/-- R55: the new entry stands behind every entry whose PSN is not later. -/
theorem insertPace_eq (e : Pace) (paces : List Pace) :
    insertPace e paces =
      paces.takeWhile (fun d => !earlier e.psn d.psn) ++ e :: paces.dropWhile (fun d => !earlier e.psn d.psn) := by
  induction paces with
  | nil => rfl
  | cons d rest ih => unfold insertPace; split <;> rename_i h <;> simp [h, ih]

theorem insertCut_length (c : Cut) (cuts : List Cut) : (insertCut c cuts).length = cuts.length + 1 :=
  (insertCut_perm c cuts).length_eq

theorem insertPace_length (e : Pace) (paces : List Pace) : (insertPace e paces).length = paces.length + 1 :=
  (insertPace_perm e paces).length_eq

theorem findCut_isSome_iff (cuts : List Cut) (id : CutId) : (findCut cuts id).isSome = true ↔ ∃ d ∈ cuts, d.id = id := by
  simp [findCut]

/-- The cut found has the identifier looked up. -/
theorem findCut_id {cuts : List Cut} {id : CutId} {c : Cut} (h : findCut cuts id = some c) : c.id = id := by
  have := List.find?_some h
  simpa using this

theorem findCut_mem {cuts : List Cut} {id : CutId} {c : Cut} (h : findCut cuts id = some c) : c ∈ cuts :=
  List.mem_of_find?_eq_some h

theorem paceAt_isSome_iff (paces : List Pace) (p : Slot) : (paceAt paces p).isSome = true ↔ ∃ d ∈ paces, d.psn = p := by
  simp [paceAt]

@[simp] theorem paceAt_nil (p : Slot) : paceAt [] p = none := rfl

/-! ## The span contexts -/

theorem find_insertSpan (k : Span) (l : List Span) (j : Station) (h : ∀ d ∈ l, d.origin ≠ k.origin) :
    (insertSpan k l).find? (·.origin == j) = if k.origin = j then some k else l.find? (·.origin == j) := by
  induction l with
  | nil => simp [insertSpan, List.find?_cons]; split <;> simp_all
  | cons d rest ih =>
    have h' := ih (fun x hx => h x (List.mem_cons_of_mem _ hx))
    have hd := h d List.mem_cons_self
    unfold insertSpan; split
    · simp only [List.find?_cons]
      by_cases e : k.origin = j
      · simp [e]
      · simp only [e, if_false, beq_eq_false_iff_ne.2 e]
    · simp only [List.find?_cons, h']
      by_cases e : k.origin = j
      · have : d.origin ≠ j := e ▸ hd
        simp only [e, if_true, beq_eq_false_iff_ne.2 this]
      · simp only [e, if_false]

/-- A context that takes a new content leaves the others. -/
theorem Plan.spanOf_setSpan (pl : Plan) (c : Span) (j : Station) :
    (pl.setSpan c).spanOf j = if c.origin = j then some c else pl.spanOf j := by
  unfold Plan.setSpan Plan.spanOf
  simp only
  rw [find_insertSpan]
  · split
    · rfl
    · rename_i h
      simp only [Plan.idleSpan]
      rw [List.find?_filter]
      congr 1; funext d
      by_cases e : d.origin = j
      · simp [e]; exact fun x => h x.symm
      · simp [e]
  · intro d hd; simp [Plan.idleSpan] at hd; exact hd.2

/-- A context that returns to IDLE leaves the others. -/
theorem Plan.spanOf_idleSpan (pl : Plan) (k j : Station) :
    (pl.idleSpan k).spanOf j = if k = j then none else pl.spanOf j := by
  unfold Plan.spanOf Plan.idleSpan
  simp only
  rw [List.find?_filter]
  split
  · rename_i h; subst h; rw [List.find?_eq_none]; intro d hd; simp
  · rename_i h
    congr 1; funext d
    by_cases e : d.origin = j
    · simp [e]; exact fun x => h x.symm
    · simp [e]

theorem Plan.spanOf_origin {pl : Plan} {k : Station} {c : Span} (h : pl.spanOf k = some c) : c.origin = k := by
  have := List.find?_some h
  simpa using this

/-! ## The search of an advance -/

/-- The search stops at the first PSN that is not passed over. -/
theorem Plan.searchFrom_stops (pl : Plan) (p : Slot) (n fuel : Nat) (hn : n < fuel)
    (h : ∀ i, i < n → pl.passesOver (p + slots i) = true) (h' : pl.passesOver (p + slots n) = false) :
    pl.searchFrom p fuel = p + slots n := by
  have zero : ∀ q : Slot, q + slots 0 = q := fun q => by simp [slots]
  induction n generalizing p fuel with
  | zero =>
    obtain ⟨m, rfl⟩ : ∃ m, fuel = m + 1 := ⟨fuel - 1, by omega⟩
    rw [zero] at h' ⊢
    simp [Plan.searchFrom, h']
  | succ n ih =>
    obtain ⟨m, rfl⟩ : ∃ m, fuel = m + 1 := ⟨fuel - 1, by omega⟩
    have h0 := h 0 (by omega)
    rw [zero] at h0
    have next : ∀ i, p + 1 + slots i = p + slots (i + 1) := by
      intro i; unfold slots; rw [BitVec.add_assoc]; congr 1; rw [Nat.add_comm, BitVec.ofNat_add]; rfl
    simp only [Plan.searchFrom, h0, if_true]
    rw [ih (p + 1) m (by omega) (fun i hi => by rw [next]; exact h _ (by omega)) (by rw [next]; exact h'), next]

/-- With an empty plan an advance goes to the next PSN. -/
theorem Plan.advance_of_not_passed (pl : Plan) (p : Slot) (h : pl.passesOver (p + 1) = false) : pl.advance p = p + 1 := by
  have e : p + 1 + slots 0 = p + 1 := by simp [slots]
  have := Plan.searchFrom_stops pl (p + 1) 0 2147483646 (by omega) (fun i hi => absurd hi (by omega)) (by rw [e]; exact h)
  rw [e] at this
  exact this

/-! ## The size of the plan -/

theorem Plan.retire_cuts_length (pl : Plan) (q : Slot) : (pl.retire q).cuts.length ≤ pl.cuts.length := by
  simp only [Plan.retire, List.length_map]; exact List.length_filter_le _ _

theorem Plan.retire_paces_length (pl : Plan) (q : Slot) : (pl.retire q).paces.length ≤ pl.paces.length :=
  List.length_filter_le _ _

/-- A judgement keeps the plan within its capacities. -/
theorem Plan.judgeInsert_fits (pl : Plan) (b : Bounds) (r : CutRequest)
    (h : pl.cuts.length ≤ 32 ∧ pl.paces.length ≤ 64) :
    (pl.judgeInsert b r).plan.cuts.length ≤ 32 ∧ (pl.judgeInsert b r).plan.paces.length ≤ 64 := by
  unfold Plan.judgeInsert
  split_ifs <;> try exact h
  rename_i hfull _
  refine ⟨?_, ?_⟩
  · simp only [insertCut_length]; exact Nat.lt_of_not_le hfull
  · refine le_trans ?_ h.2
    simp only [CutRequest.pacesKept]; split
    · exact List.length_filter_le _ _
    · exact le_rfl

theorem Plan.judgeEntry_fits (pl : Plan) (b : Bounds) (stamp : Slot) (e : Pace)
    (h : pl.cuts.length ≤ 32 ∧ pl.paces.length ≤ 64) :
    (pl.judgeEntry b stamp e).plan.cuts.length ≤ 32 ∧ (pl.judgeEntry b stamp e).plan.paces.length ≤ 64 := by
  unfold Plan.judgeEntry
  split_ifs <;> try exact h
  rename_i hfull _
  refine ⟨h.1, ?_⟩
  simp only [insertPace_length]; exact Nat.lt_of_not_le hfull

/-- A MARK or PACE frame keeps the plan within its capacities. -/
theorem Plan.judgeFrame_fits (pl : Plan) (b : Bounds) (f : RxFrame) (h : pl.cuts.length ≤ 32 ∧ pl.paces.length ≤ 64) :
    (pl.judgeFrame b f).plan.cuts.length ≤ 32 ∧ (pl.judgeFrame b f).plan.paces.length ≤ 64 := by
  unfold Plan.judgeFrame; split
  · unfold Plan.judgePace; split
    · exact Plan.judgeEntry_fits _ _ _ _ h
    · exact h
  · unfold Plan.judgeMark
    have refuse : ∀ k, (pl.refuseFrame f.sender k).plan.cuts.length ≤ 32 ∧
        (pl.refuseFrame f.sender k).plan.paces.length ≤ 64 := by
      intro k; unfold Plan.refuseFrame; split <;> exact h
    split
    · exact refuse _
    · split
      · exact refuse _
      · unfold Plan.judgeContent; split
        · exact Plan.judgeInsert_fits _ _ _ h
        · exact Plan.judgeInsert_fits _ _ _ h
        · unfold Plan.judgeRescind; split
          · exact h
          · split_ifs <;> first | exact h | exact ⟨le_trans (List.length_filter_le _ _) h.1, h.2⟩
        · exact h
        · unfold Plan.judgeSpanOut; split
          · exact h
          · split_ifs <;> exact h
        · unfold Plan.judgeSpanCommit; split
          · exact Plan.judgeInsert_fits _ _ _ h
          · exact h
        · exact h

end Sys2Proof.Machine
end

