-- ==== Sys2Proof/Laws/Regulator.lean ====
section
/-! SUPPORT. What the window, an adoption and the ending of the open bursts leave: the lemmas of the strobe's statements. -/

namespace Sys2Proof.Machine

/-- R151: what an event of HSN `x` leaves. -/
theorem Regulator.atEvent_spec (g : Regulator) (c : Settings) (x : Slot) :
    (g.atEvent c x).window = some (x.toNat / c.windowLength) ∧
      (g.atEvent c x).used = (if g.window = some (x.toNat / c.windowLength) then g.used else 0) ∧
      (g.atEvent c x).lastPace = g.lastPace ∧ (g.atEvent c x).outstanding = g.outstanding := by
  unfold Regulator.atEvent; split
  · rename_i h; exact ⟨h, rfl, rfl, rfl⟩
  · exact ⟨rfl, rfl, rfl, rfl⟩

/-- R151: a second event of one HSN changes nothing. -/
@[simp] theorem Regulator.atEvent_atEvent (g : Regulator) (c : Settings) (x : Slot) :
    (g.atEvent c x).atEvent c x = g.atEvent c x :=
  if_pos (g.atEvent_spec c x).1

/-- R147: what an adoption at `x` leaves. -/
theorem Regulator.adopt_spec (g : Regulator) (c : Settings) (x : Slot) (e : Pace) :
    (g.adopt c x e).window = some (x.toNat / c.windowLength) ∧
      (g.adopt c x e).used = (g.atEvent c x).used + e.count.toNat ∧
      (g.adopt c x e).lastPace = laterPace g.lastPace e.psn ∧ (g.adopt c x e).outstanding = g.outstanding := by
  obtain ⟨hw, -, hl, ho⟩ := g.atEvent_spec c x
  exact ⟨hw, rfl, by rw [← hl]; rfl, ho⟩

/-- A burst ended short leaves the other bursts open. -/
theorem endShort_out (s : State) (b : OutBurst) : (s.endShort b).egress.out = s.egress.out := by
  unfold State.endShort State.holdBytes; split
  · split <;> rfl
  · rfl

/-- The bursts that `p` picks are no longer open. -/
theorem endBursts_out (s : State) (p : OutBurst → Bool) :
    (s.endBursts p).egress.out = s.egress.out.filter (fun b => !p b) := by
  have h : ∀ (l : List OutBurst) (s : State), (l.foldl State.endShort s).egress.out = s.egress.out := by
    intro l
    induction l with
    | nil => exact fun _ => rfl
    | cons b l ih => exact fun s => (ih _).trans (endShort_out s b)
  exact congrArg (List.filter fun b => !p b) (h _ s)

/-- Where no open burst is picked, nothing ends. -/
theorem endBursts_none {s : State} {p : OutBurst → Bool} (h : ∀ b ∈ s.egress.out, p b = false) : s.endBursts p = s := by
  have hf : s.egress.out.filter p = [] := List.filter_eq_nil_iff.mpr (fun b hb => by simp [h b hb])
  have hn : s.egress.out.filter (fun b => !p b) = s.egress.out :=
    List.filter_eq_self.mpr (fun b hb => by simp [h b hb])
  unfold State.endBursts
  rw [hf]
  show s.withEgress { s.egress with out := s.egress.out.filter (fun b => !p b) } = s
  rw [hn]; rfl

end Sys2Proof.Machine
end

