-- ==== Sys2Proof/Laws/Schedule.lean ====
section
/-! SUPPORT. The output step and the intake of one strobe meet the same schedule in either order (R63, R70): the point, the
retired plan and the bounds. -/

namespace Sys2Proof.Machine

/-! ## The point and the retirement -/

@[simp] theorem Plan.stepTo_hsn (pl : Plan) (pt : SchedPoint) (x : Slot) : (pl.stepTo pt x).hsn = x := by
  unfold Plan.stepTo; split <;> simp_all

/-- A point already at `x` is played as it stands, whatever the plan has become. -/
@[simp] theorem Plan.stepTo_stepTo (pl pl' : Plan) (pt : SchedPoint) (x : Slot) :
    pl'.stepTo (pl.stepTo pt x) x = pl.stepTo pt x := if_pos (Plan.stepTo_hsn pl pt x)

/-- R63: retirement is due once. -/
@[simp] theorem Plan.retire_retire (pl : Plan) (q : Slot) : (pl.retire q).retire q = pl.retire q := by
  simp only [Plan.retire, List.filter_map, List.filter_filter, List.map_map, Bool.and_self, Plan.mk.injEq, and_true]
  have h : (pl.cuts.filter fun c => ((fun c => !earlier c.stop q) ∘ fun c => c.stateAt q) c && !earlier c.stop q) =
      pl.cuts.filter fun c => !earlier c.stop q := by simp [Cut.stateAt]
  rw [h]; rfl

theorem Plan.retireDue_retire (pl : Plan) (q x : Slot) (b : Bool) : (pl.retire q).retireDue q x b = pl.retireDue q x b := by
  unfold Plan.retireDue; rw [Plan.retire_retire]

/-! ## The step, then the intake -/

theorem StoreSide.plan_eq {s t : State} (h : StoreSide s t) : t.plan = s.plan := by rw [h]

theorem StoreSide.mon_eq {s t : State} (h : StoreSide s t) : t.mon = s.mon := by rw [h]

theorem StoreSide.point_eq {s t : State} (h : StoreSide s t) : t.egress.point = s.egress.point := by rw [h]

/-- R132: a play carries out the retirement due; the point is the play. -/
theorem State.playStep_schedule (s : State) (c : Settings) (pt : SchedPoint) :
    (s.playStep c pt).plan = s.plan.retire pt.psn ∧ (s.playStep c pt).egress.point = some pt := by
  unfold State.playStep
  have hs := scheduleHeld_cueOnly
    (((((s.endBursts fun _ => true).output c pt).withPlan
      (((s.endBursts fun _ => true).output c pt).plan.retire pt.psn)).removePassed c pt)) pt.psn
  have hr := removePassed_storeSide
    ((((s.endBursts fun _ => true).output c pt).withPlan
      (((s.endBursts fun _ => true).output c pt).plan.retire pt.psn))) c pt
  have he := (endBursts_storeSide s fun _ => true).plan_eq
  refine ⟨hs.plan_eq.trans (hr.plan_eq.trans ?_), (congrArg Egress.point hs.egress_eq).trans (hr.point_eq.trans rfl)⟩
  exact congrArg (fun pl => Plan.retire pl pt.psn) he

theorem State.scheduleHeld_hasSchedule (s : State) (q : Slot) :
    (s.scheduleHeld q).mon.mode.hasSchedule = s.mon.mode.hasSchedule := by
  unfold State.scheduleHeld; split
  · rename_i h; simp [h.1, Mode.hasSchedule]
  · rfl

theorem State.playStep_hasSchedule (s : State) (c : Settings) (pt : SchedPoint) :
    (s.playStep c pt).mon.mode.hasSchedule = s.mon.mode.hasSchedule := by
  unfold State.playStep
  rw [State.scheduleHeld_hasSchedule, (removePassed_storeSide _ c pt).mon_eq]
  exact congrArg (fun m => m.mode.hasSchedule) (endBursts_storeSide s fun _ => true).mon_eq

/-- R70: the bounds of the intake are the same before and after the output step of its strobe. -/
theorem State.openIntake_bounds_outputStep (s : State) (c : Settings) (x : Slot) :
    ((s.outputStep c x).openIntake x false).bounds = (s.openIntake x false).bounds := by
  unfold State.outputStep State.openIntake
  cases h : s.egress.point with
  | none => simp [h]
  | some pt =>
    obtain ⟨hp, hq⟩ := s.playStep_schedule c (s.plan.stepTo pt x)
    simp only [hq, hp, State.playStep_hasSchedule]
    cases hm : s.mon.mode.hasSchedule
    · rfl
    · simp [State.beforeIntake, hp, Plan.retireDue_retire]

/-- R70: the intake leaves the point at the play the step of its strobe then takes. -/
theorem State.openIntake_point {s : State} {pt : SchedPoint} (h : s.egress.point = some pt)
    (hm : s.mon.mode.hasSchedule = true) (x : Slot) (own : Bool) :
    (s.openIntake x own).state.egress.point = some (s.plan.stepTo pt x) := by
  unfold State.openIntake; simp only [h, hm]; rfl

end Sys2Proof.Machine
end

