-- ==== Sys2Proof/Tests/Slice0.lean ====
section
/-! SUPPORT. The model's own tests: the checks of well-formedness, the worked frame of 12.4, small steps, and for every
statement with hypotheses a state and operands that meet them. -/

namespace Sys2Proof.Tests

open Sys2Proof Sys2Proof.Machine Sys2Proof.Safety

/-! ## Small states -/

/-- One SOUND lane, plan code 1. -/
def cfg : Settings :=
  ⟨1, [.sound], 100, 25, 10, 2, 3, .steady, 100, 10, 4, 5, 4, 10, 1, 3, true, true, 0xB1#16, 0xB2#16, 1#4, 1#4, .silence,
    .held, 10⟩

/-- A configured station at HSN 1000 with its reference PRESENT, in the state `m`. -/
def at1000 (m : Mode) : State :=
  { State.reset with
    settings := some cfg
    ref := ⟨some 1000, .present, true⟩
    ingress := ⟨some 1000, freshEntries cfg, 0, 0, []⟩
    egress := ⟨some ⟨1000, 900, 0, 0⟩, [], false, [.sound 0], []⟩
    link := ⟨true, .idle, 11, false, false, none, false, 0, false, false, 0, .none⟩
    mon := ⟨m, some ⟨500, 100⟩, [], none, none, .none, none, none⟩ }

/-- An ALIGNED station. -/
def aligned : State := at1000 .aligned

/-- A LISTENING station with `n` on its listen timer. -/
def listening (n : Nat) : State := { at1000 .listening with mon := { Monitor.listening with listen := some n } }

/-- The station with a frame of `f` in general entry 0, current in an attempt, after `v` vetoes. -/
def attempting (f : TxFrame) (v : Nat) : State :=
  { aligned with
    link := { aligned.link with phase := .transmitting, current := some (.general 0), attempt := true }
    traffic := { aligned.traffic with
      general := [⟨0, some f, .originator, v, false, false, false, some 1000, false⟩], nextOrder := 1 } }

/-- The same station, still sending its key. -/
def contending (f : TxFrame) : State :=
  { attempting f 0 with link := { (attempting f 0).link with phase := .arbitrating } }

/-- A SPAN-ABANDON frame stamped 1000. -/
def abandonFrame : TxFrame := ⟨.spanAbandon, bytes32 1000⟩

/-- The accepted burst of lane 0 that has stored `n` of `d` bytes on page 5. -/
def burstEntry (n d : Nat) : LaneEntry := ⟨.opened, some d, n, n, [5], false, false, false, false⟩

/-- The station with the entry `e` for lane 0, delivered on position 0, and the pages `free` left. -/
def delivering (e : LaneEntry) (free : List PageNo) : State :=
  { aligned with
    ingress := ⟨some 1000, [e], 0, 0, [⟨0, 0⟩]⟩
    store := ⟨[⟨free, free.length, false⟩], false⟩ }

/-- A cut of station 3. -/
def cutOf (n : Byte) (k : CutKind) (start stop : Slot) : Cut := ⟨⟨3, n⟩, k, start, stop, .dump, .armed⟩

/-- Bounds of an intake at 1000: horizon 903, end bound 997, delay 100. -/
def bounds : Bounds := ⟨1000, 903, 997, 100⟩

/-- A line read of a frame of station 3. -/
def readOf (k : Kind) (body : List Byte) : LineRead := ⟨frameBits 3 k body, false, false, false, 11⟩

/-- A line read of a frame whose last check bit is turned over. -/
def badRead : LineRead :=
  ⟨(frameBits 3 .join [0, 0, 3, 232, 1]).dropLast ++ [!(frameBits 3 .join [0, 0, 3, 232, 1]).getLastD false], false,
    false, false, 11⟩

/-- The state after a command. -/
def after (i : Instr) (s : State) : State :=
  match exec i s with
  | .next t => t
  | _ => s

/-! ## Well-formedness -/

theorem test_recordLength : (Instr.configReadComplete []).wellFormed = false := by decide
theorem test_headerLength : (Instr.burstStart 0 ⟨[0, 0], false⟩).wellFormed = false := by decide
theorem test_beaconLength : (Instr.beaconReceived 1 [0]).wellFormed = false := by decide
theorem test_idleBits : (Instr.busIdle 10).wellFormed = false ∧ (Instr.busIdle 11).wellFormed = true := by decide
theorem test_clashStartBit : (Instr.clash ⟨[true], false, false, false, 0⟩).wellFormed = false := by decide
theorem test_frameStartBit :
    (Instr.frameReceived ⟨[], false, false, false, 0⟩).wellFormed = false ∧
      (Instr.frameReceived ⟨[false], false, false, false, 0⟩).wellFormed = true := by decide
theorem test_partTwice : (Instr.ordinaryStrobe 1 ⟨[.intake, .intake], false⟩).wellFormed = false := by decide
theorem test_proposalBeforeClose :
    (Instr.ordinaryStrobe 1 ⟨[.proposal, .slotClose], false⟩).wellFormed = false ∧
      (Instr.ordinaryStrobe 1 ⟨[.slotClose, .proposal], false⟩).wellFormed = true := by decide
theorem test_partSequence :
    partSequence ⟨[], false⟩ = canonicalParts ∧
      partSequence ⟨[.proposal, .intake, .slotClose], false⟩ =
        [.intake, .slotClose, .proposal, .traffic, .outputStep, .monitor] := by decide

/-! ## Formats -/

/-- 12.4: the body of station 6's DUMP. -/
theorem test_dumpBody :
    (Mark.dump 40000 12 39900 39999).body =
      [0x00, 0x00, 0x9C, 0x40, 0x0C, 0x00, 0x00, 0x9B, 0xDC, 0x00, 0x00, 0x9C, 0x3F] := by decide

/-- 12.4: 139 data bits with 34 sync bits. -/
theorem test_dumpBits :
    (dataBits 6 .dump (Mark.dump 40000 12 39900 39999).body).length = 139 ∧
      (frameBits 6 .dump (Mark.dump 40000 12 39900 39999).body).length = 173 := by decide +kernel

/-- 12.4: key 6, kind 1, length 13, bit by bit. -/
theorem test_dumpHead :
    headBits 6 .dump 13 =
      [false, false, false, false, false, true, true, false, false, false, false, false, true,
        false, true, true, false, true] := by decide

theorem test_dumpReadBack :
    readFrame (frameBits 6 .dump (Mark.dump 40000 12 39900 39999).body) =
      .clean 6 .dump (Mark.dump 40000 12 39900 39999).body := by decide +kernel

/-- 12.4: a SPAN-COMMIT with cut kind 2 and a TAG-MASK with lane mask 10 hexadecimal are MALFORMED. -/
theorem test_malformed :
    parseMark .spanCommit [0, 0, 3, 232, 0, 2, 0] = none ∧
      parseMark .tagMask [0, 0, 3, 232, 0, 0, 0, 3, 231, 0x10] = none := by decide

/-- A header of lane 0 with 10 declared bytes and the break tag, and its check. -/
def goodHeader : List Byte := [0, 0, 0, 0, 10, 0, 0xB1] ++ bytes16 (crc16 (bytesBits [0, 0, 0, 0, 10, 0, 0xB1])).toNat

theorem test_header : parseHeader goodHeader = some ⟨0, 10, 0xB1#16⟩ := by decide +kernel
theorem test_headerFault : parseHeader [0, 0, 0, 0, 10, 0, 0xB1, 0, 0] = none := by decide +kernel

/-- A tone starts with 24 positive samples. -/
theorem test_tone : toneSamples 23 2 = [0x10, 0, 0, 0xF0, 0, 0] := by decide

/-- The outermost samples: level 255 for the most negative one. -/
theorem test_levels :
    sampleLevel 0x80 0 0 = 255 ∧ sampleLevel 0x7F 0xFF 0xFF = 255 ∧ sampleLevel 0x00 0x80 0x00 = 1 ∧
      sampleLevel 0xFF 0x80 0x00 = 1 ∧ sampleLevel 0x00 0x7F 0xFF = 0 := by decide

/-- A header of lane 0 with 524,289 declared bytes. -/
def longHeader : List Byte := [0, 0, 8, 0, 1, 0, 0] ++ bytes16 (crc16 (bytesBits [0, 0, 8, 0, 1, 0, 0])).toNat

/-- A header of lane 1 with 524,288 declared bytes. -/
def laneHeader : List Byte := [1, 0, 8, 0, 0, 0, 0] ++ bytes16 (crc16 (bytesBits [1, 0, 8, 0, 0, 0, 0])).toNat

/-- Bytes 0 to 61 of a record: plan code 1 with one SOUND lane, and every field at the low end of its range. -/
def recordFieldBytes : List Byte :=
  [1, 1, 2, 0, 0, 0, 0, 100, 0, 25, 10, 1, 1, 1, 0, 25] ++ [1, 1, 1, 0, 10, 1, 0, 3, 0, 0xB1, 0, 0xB2, 1, 1, 1, 1] ++
    [1, 0] ++ List.replicate 28 0

/-- The bytes of another record: plan code 2 with a PICTURE and a DATA lane, and the other choice of each code. -/
def otherFieldBytes : List Byte :=
  [2, 2, 1, 3, 0, 0, 0, 100, 0, 25, 10, 1, 1, 2, 0, 25] ++ [1, 1, 1, 0, 10, 2, 0, 2, 0, 0xB1, 0, 0xB2, 1, 1, 2, 2] ++
    [1, 0] ++ List.replicate 28 0

/-- Another record that passes every check. -/
def otherRecord : List Byte := otherFieldBytes ++ bytes16 (crc16 (bytesBits otherFieldBytes)).toNat

/-- A record that passes every check. -/
def goodRecord : List Byte := recordFieldBytes ++ bytes16 (crc16 (bytesBits recordFieldBytes)).toNat

set_option maxRecDepth 100000 in
theorem test_record : (parseRecord goodRecord).map Settings.lanes = some [.sound] := by decide +kernel

/-! ## More small states -/

/-- The ALIGNED station with a SPAN-ABANDON to send, its courtesy gap at `gap`. -/
def offering (gap : Nat) (lost : Bool) : State :=
  { attempting abandonFrame 0 with link := ⟨true, .idle, 11, false, lost, none, false, 0, false, false, gap, .none⟩ }

/-- General entry 0 of `attempting abandonFrame v`. -/
def vetoedEntry (v : Nat) : TxEntry := ⟨0, some abandonFrame, .originator, v, false, false, false, some 1000, false⟩

/-- The same station with a full receive queue. -/
def fullQueue (v : Nat) : State :=
  { attempting abandonFrame v with
    traffic := { (attempting abandonFrame v).traffic with
      received := List.replicate 32 ⟨3, .join, [0, 0, 3, 232, 1], false⟩ } }

/-- A beacon of a station in the state `p`. -/
def beaconIn (p : PeerState) : Beacon := ⟨999, 899, 0, p, false, false, false, false, 0, 500, 100, 10⟩

/-- The ALIGNED station with the contact closed, its stable timer about to expire. -/
def pressing (k : Contact) : State :=
  { aligned with
    contacts := { aligned.contacts with lines := setContact aligned.contacts.lines k ⟨.closed, true, some .opened⟩ } }

/-- A JOINING station with every count of its monitor at 0. -/
def joining : State :=
  { aligned with
    mon := ⟨.joining, none, [], none, some 0, .none, some ⟨3, 0⟩, some ⟨3, 990, .empty, [], [], 0, false⟩⟩ }

/-! ## Small steps -/

/-- A WHOLE pause-eligible record. -/
def pauseRecord (p : Slot) : SlotRecord := ⟨p, .whole, [⟨true, 4, [5], false, false⟩], 0, true, true, false, false⟩

theorem test_reset : (exec (.reset .resetLine 7 allOpened) aligned) =
    .next { State.reset with station := 7 } := rfl

theorem test_ordinaryStrobe :
    ∃ t, exec (.ordinaryStrobe 1001 ⟨[], false⟩) aligned = .next t ∧ t.egress.point = some ⟨1001, 901, 0, 0⟩ ∧
      t.index.length = 1 ∧ t.egress.out.length = 1 := by
  refine ⟨_, rfl, ?_⟩
  decide +kernel

theorem test_listenExpiryInStrobe :
    ∃ t, exec (.ordinaryStrobe 1001 ⟨[], false⟩) (listening 1) = .next t ∧ t.mon.mode = .filling ∧
      t.mon.era = some ⟨1001, 100⟩ := by
  refine ⟨_, rfl, ?_⟩
  decide +kernel

/-- The same header, incomplete at a strobe, is discarded (R35). -/
theorem test_burst :
    (after (.burstStart 2 ⟨goodHeader, false⟩) aligned).ingress.portLane 2 = some 0 ∧
      (after (.burstStart 2 ⟨goodHeader, false⟩) aligned).ingress.entries =
        [⟨.opened, some 10, 0, 0, [], false, false, true, false⟩] ∧
      after (.burstStart 2 ⟨goodHeader, true⟩) aligned = aligned := by decide +kernel

theorem test_newPage :
    ∃ t, exec (.essenceByte 0 9) (delivering { burstEntry 0 10 with pages := [] } [6, 7]) = .next t ∧
      t.mem = [(8192 * 6, 9)] ∧ t.store.lanes = [⟨[7], 1, true⟩] := by
  refine ⟨_, rfl, ?_⟩
  decide +kernel

theorem test_dumpPress :
    ∃ t, exec (.debounceStable .dump)
        { aligned with contacts := { aligned.contacts with
            lines := setContact aligned.contacts.lines .dump ⟨.closed, true, some .opened⟩ } } = .next t ∧
      t.traffic.general.map TxEntry.frame = [some ⟨.dump, (Mark.dump 1000 0 975 999).body⟩] ∧ t.orig.count = 1 := by
  refine ⟨_, rfl, ?_⟩
  decide +kernel

theorem test_sent :
    ∃ t, exec .sent (attempting abandonFrame 0) = .next t ∧ t.traffic.general = [] ∧
      t.traffic.received = [⟨0, .spanAbandon, bytes32 1000, true⟩] := by
  refine ⟨_, rfl, ?_⟩
  decide +kernel

/-- The head of a recap stream in an attempt, with a cancellation asked. -/
def cancelledHead : State :=
  { attempting abandonFrame 0 with
    traffic := { (attempting abandonFrame 0).traffic with
      general := [⟨0, some ⟨.recapHead, headBody 1000 900⟩, .monitor, 0, true, false, false, none, true⟩] } }

theorem test_headSentAfterCancel :
    ∃ t, exec .sent cancelledHead = .next t ∧
      t.traffic.general = [⟨0, none, .monitor, 0, false, false, false, none, true⟩] ∧
      t.traffic.received = [⟨0, .recapHead, headBody 1000 900, true⟩] := by
  refine ⟨_, rfl, ?_⟩
  decide +kernel

theorem test_lostPlace :
    ∃ t, exec (.frameReceived ⟨[false, true, true, true, true], false, false, false, 4⟩) aligned = .next t ∧
      t.link.lostPlace = true ∧ t.link.awaitIdle = true ∧ t.mon.mode = .resync .aligned := by
  refine ⟨_, rfl, ?_⟩
  decide +kernel

/-- R72, R80: after 17 recessive bits the line is idle and the place still lost; after 18 it is found. -/
theorem test_lostPlaceIdle :
    (Link.reset.losePlace 17 .none).phase = .idle ∧ (Link.reset.losePlace 17 .none).awaitIdle = false ∧
      (Link.reset.losePlace 17 .none).lostPlace = true ∧ (Link.reset.losePlace 18 .none).lostPlace = false := by decide

/-- R72: a line fault at 10 recessive bits, and one at 11, as in the start bit. -/
theorem test_lineFault :
    (after (.lineFault 10) (attempting abandonFrame 0)).link =
        { (attempting abandonFrame 0).link with phase := .receiving, attempt := false, idleCount := 10, awaitIdle := true } ∧
      (after (.lineFault 11) (attempting abandonFrame 0)).link =
        { (attempting abandonFrame 0).link with phase := .idle, attempt := false, idleCount := 11 } := by decide +kernel

/-- R79: the veto bit of another node is echoed, a dominant echo bit alone is not. -/
theorem test_ownVetoSlot :
    (after (.frameVetoed .vetoBit) (attempting abandonFrame 0)).link.drive = ⟨false, true⟩ ∧
      (after (.frameVetoed .echoOnly) (attempting abandonFrame 0)).link.drive = ⟨false, false⟩ := by decide +kernel

theorem test_holdCountdown :
    ∃ t, exec (.ordinaryStrobe 1001 ⟨[], false⟩)
        { aligned with traffic := { aligned.traffic with heldBy := [⟨4, 100⟩, ⟨9, 1⟩] } } = .next t ∧
      t.traffic.heldBy = [⟨4, 99⟩] := by
  refine ⟨_, rfl, ?_⟩
  decide +kernel

/-- Two frames for the intake at 1001: a DUMP of station 3 and a PACE. -/
def passing : State :=
  { aligned with
    traffic := { aligned.traffic with
      received := [⟨3, .dump, (Mark.dump 1000 1 906 915).body, false⟩, ⟨3, .pace, paceBody 1000 918 1, false⟩] } }

/-- Three dropped slots ahead of the output with a trim behind them, and a fill. -/
def passPlan : Plan := ⟨[cutOf 0 .drop 901 903], [⟨904, -1⟩, ⟨920, 2⟩], []⟩

/-- R63, R70: the step at 1001 passes a DROP and a trim and plays 905; the plan the retirement leaves gives the horizon 908
and the delay 96. -/
theorem test_passOver :
    passPlan.stepTo ⟨1000, 900, 0, 0⟩ 1001 = ⟨1001, 905, 0, 0⟩ ∧
      passPlan.retireDue 905 1001 true = ⟨[], [⟨920, 2⟩], []⟩ ∧
      (⟨[], [⟨920, 2⟩], []⟩ : Plan).boundsAt ⟨1001, 905, 0, 0⟩ 1001 = ⟨1001, 908, 998, 96⟩ := by decide +kernel

/-- R70: the intake before or after the step of one strobe: the same bounds, and the step plays the intake's point. -/
theorem test_eitherOrder (s : State) (c : Settings) (x : Slot) (pl : Plan) (pt : SchedPoint) :
    ((s.outputStep c x).openIntake x false).bounds = (s.openIntake x false).bounds ∧
      pl.stepTo (s.plan.stepTo pt x) x = s.plan.stepTo pt x :=
  ⟨s.openIntake_bounds_outputStep c x, s.plan.stepTo_stepTo pl pt x⟩

/-- A RESYNC station without a peer at the strobe at which its beacon is due. -/
def lonely : State :=
  { at1000 (.resync .aligned) with
    ref := ⟨some 1009, .present, true⟩
    ingress := ⟨some 1009, freshEntries cfg, 0, 0, []⟩
    egress := ⟨some ⟨1009, 909, 0, 0⟩, [], false, [.sound 0], []⟩ }

/-- R163: the beacon is built when the second of the step and the intake is taken: it shows RESYNC where the monitor's
strobe comes after them, and the resync origin where it comes before. -/
theorem test_beaconOfResync :
    ((after (.ordinaryStrobe 1010 ⟨[], false⟩) lonely).traffic.beacon.map (fun h => h.frame.body[9]?)) =
        some (some 192) ∧
      ((after (.ordinaryStrobe 1010 ⟨[.monitor], false⟩) lonely).traffic.beacon.map (fun h => h.frame.body[9]?)) =
        some (some 128) := by decide +kernel

/-- R132: at a repeat no record leaves the index. -/
theorem test_repeatRemovesNothing :
    (after (.ordinaryStrobe 1001 ⟨[], false⟩)
        { aligned with
          egress := { aligned.egress with point := some ⟨1000, 900, 0, 1⟩ }
          index := [⟨899, .void, [⟨false, 0, [], false, false⟩], 0, false, false, false, false⟩] }).index.length = 2 := by
  decide +kernel

/-- R79, R80: the veto of a full queue while PRESENT, none while LOST, the echo of another's veto, the veto of a line
failure. -/
theorem test_vetoSlot :
    (after (.frameReceived (readOf .join [0, 0, 3, 232, 1]))
        { aligned with traffic := { aligned.traffic with received := List.replicate 32 ⟨3, .join, [], false⟩ } }).link.drive =
        ⟨true, true⟩ ∧
      (after (.frameReceived (readOf .join [0, 0, 3, 232, 1]))
        { aligned with
          ref := ⟨some 1000, .lost, false⟩
          traffic := { aligned.traffic with received := List.replicate 32 ⟨3, .join, [], false⟩ } }).link.drive =
        ⟨false, false⟩ ∧
      (after (.frameReceived { readOf .join [0, 0, 3, 232, 1] with vetoBit := true }) aligned).link.drive =
        ⟨false, true⟩ ∧
      (after (.frameReceived badRead) aligned).link.drive = ⟨true, true⟩ := by decide +kernel

/-- R87, R99: a HOLD that reaches the held-by set lets the attempt go on. -/
theorem test_holdInAttempt :
    (after (.holdReceived 5) (attempting ⟨.pace, paceBody 1000 950 1⟩ 0)).link =
        (attempting ⟨.pace, paceBody 1000 950 1⟩ 0).link ∧
      (after (.holdReceived 5) (attempting ⟨.pace, paceBody 1000 950 1⟩ 0)).traffic.heldBy = [⟨5, 100⟩] := by
  decide +kernel

/-! ## The hypotheses of the statements are met: one theorem for each statement that has any -/

theorem witness_StepRunsFrontCommand :
    { aligned with pending := [.refusedPulseExpiry] }.pending = .refusedPulseExpiry :: [] ∧ aligned.pending = [] ∧
      aligned.link.phase ≠ .arbitrating ∧ (contending abandonFrame).link.phase = .arbitrating ∧
      (contending abandonFrame).pending = [] ∧
      step (contending abandonFrame) =
        .next ((contending abandonFrame).withLink { (contending abandonFrame).link with phase := .transmitting }) :=
  ⟨rfl, rfl, by decide, rfl, rfl, rfl⟩

set_option maxRecDepth 100000 in
/-- Both choices of each field that has two are met by their code. -/
theorem witness_RecordJudgement :
    (parseRecord goodRecord).isSome = true ∧ recordByte goodRecord 2 = 2 ∧ recordByte goodRecord 13 = 1 ∧
      recordByte goodRecord 30 = 1 ∧ recordByte goodRecord 31 = 1 ∧
      (parseRecord otherRecord).isSome = true ∧ recordByte otherRecord 2 = 1 ∧ recordByte otherRecord 3 = 3 ∧
      recordByte otherRecord 13 = 2 ∧ recordByte otherRecord 30 = 2 ∧ recordByte otherRecord 31 = 2 := by
  decide +kernel

set_option maxRecDepth 100000 in
theorem witness_ConfigRead :
    State.reset.mon.mode = .configuring ∧ parseRecord [] = none ∧ State.reset.link.connected = false ∧
      (parseRecord goodRecord).isSome = true := by
  decide +kernel

/-- The ALIGNED station with one frame to take. -/
def receiving (f : RxFrame) : State := { aligned with traffic := { aligned.traffic with received := [f] } }

/-- The verdict of `f` at the intake of 1001 after the step that plays 901. -/
def verdictOf (f : RxFrame) : Verdict := Plan.empty.judgeFrame (Plan.empty.boundsAt ⟨1001, 901, 0, 0⟩ 1001) f

/-- A strobe; an own DUMP that is inserted, another's, an own SPAN-OUT refused STRAY, and a PACE. -/
theorem witness_OrdinaryStrobe :
    aligned.settings = some cfg ∧ aligned.ref.flag = .present ∧ aligned.ref.hsn = some 1000 ∧
      (1001 : Slot) = 1000 + 1 ∧ aligned.mon.mode.hasSchedule = true ∧
      aligned.egress.point = some ⟨1000, 900, 0, 0⟩ ∧ aligned.plan.outStep ⟨1000, 900, 0, 0⟩ = ⟨1001, 901, 0, 0⟩ ∧
      (receiving ⟨0, .dump, (Mark.dump 1000 0 910 920).body, true⟩).traffic.received.length = 1 ∧
      (verdictOf ⟨0, .dump, (Mark.dump 1000 0 910 920).body, true⟩).inserted.map (fun c => c.id.origin) =
        some aligned.station ∧
      (verdictOf ⟨3, .dump, (Mark.dump 1000 0 910 920).body, false⟩).inserted.map (fun c => c.id.origin) = some 3 ∧
      (verdictOf ⟨0, .spanOut, (Mark.spanOut 1000 900).body, true⟩).reason = some .stray ∧
      (verdictOf ⟨0, .pace, paceBody 1000 950 1, true⟩).adopted = some ⟨950, 1⟩ ∧ Kind.dump.isMark = true ∧
      (∀ d ∈ aligned.plan.spans, ((1000 : Slot) - d.last).toNat < 500) := by decide +kernel

theorem witness_OrdinaryStrobeAppends :
    (listening 2).settings = some cfg ∧ (listening 2).ref.flag = .present ∧ (listening 2).ref.hsn = some 1000 ∧
      (listening 2).ingress.period = some 1000 ∧ (listening 2).mon.mode = .listening ∧
      (listening 2).mon.listen = some (0 + 2) ∧ (listening 2).mon.retry = none ∧ (listening 2).mon.collecting = none := by
  decide

theorem witness_OrdinaryStrobeAdvances :
    aligned.settings = some cfg ∧ aligned.ref.flag = .present ∧ aligned.ref.hsn = some 1000 ∧
      aligned.mon.mode = .aligned ∧ aligned.plan = ⟨[], [], []⟩ ∧ aligned.traffic.received = [] ∧
      aligned.egress.point = some ⟨1000, 900, 0, 0⟩ ∧ lonely.mon.mode.hasSchedule = true ∧
      (∀ f ∈ passing.traffic.received.take 4, f.kind ≠ .recapEnd) := by decide

/-- A return and a break of a configured station; a station without settings, in CONFIGURING and in CONFIG-FAULT. -/
theorem witness_ReturnAndBreak :
    State.reset.settings = none ∧ State.reset.mon.mode ≠ .configFault ∧ State.reset.failConfig.settings = none ∧
      State.reset.failConfig.mon.mode = .configFault ∧
    { aligned with ref := ⟨some 1000, .lost, false⟩ }.ref.flag = .lost ∧ aligned.settings = some cfg ∧
      aligned.ref.flag = .present ∧ aligned.ref.hsn = some 1000 ∧ (1000 : Slot) ≠ 1000 + 1 ∧ (1002 : Slot) ≠ 1000 + 1 := by
  decide

theorem witness_ReferenceLoss : aligned.settings = some cfg ∧ aligned.ref.timerRunning = true := by decide

/-- Each clause of R35: an interrupted header, a bad check, 524,289 declared bytes, lane 1 of one lane, an ENDED, a NONE and an OPEN entry. -/
theorem witness_BurstStart :
    (⟨goodHeader, true⟩ : HeaderRead).interrupted = true ∧ (⟨goodHeader, false⟩ : HeaderRead).interrupted = false ∧
      aligned.settings = some cfg ∧ aligned.ingress.period = some 1000 ∧ parseHeader [0, 0, 0, 0, 10, 0, 0xB1, 0, 0] = none ∧
      parseHeader longHeader = some ⟨0, 524289, 0⟩ ∧ parseHeader laneHeader = some ⟨1, 524288, 0⟩ ∧
      aligned.ingress.entries[1]? = none ∧ parseHeader goodHeader = some ⟨0, 10, 0xB1#16⟩ ∧
      (delivering { burstEntry 3 10 with burst := .ended } []).ingress.entries[0]? =
        some { burstEntry 3 10 with burst := .ended } ∧
      aligned.ingress.entries[0]? = some LaneEntry.fresh ∧
      (delivering (burstEntry 3 10) []).ingress.entries[0]? = some (burstEntry 3 10) := by
  decide +kernel

/-- The last byte of the declared length, on a SOUND lane, completes a sample (stored 2) or does not (stored 3). -/
theorem witness_EssenceStored :
    Delivers (delivering (burstEntry 2 3) []) cfg 0 0 (burstEntry 2 3) 3 ∧
      Delivers (delivering (burstEntry 3 4) []) cfg 0 0 (burstEntry 3 4) 4 ∧
      (burstEntry 2 3).received < 3 ∧ (burstEntry 2 3).truncated = false ∧ (burstEntry 2 3).stored % 8192 ≠ 0 ∧
      (delivering (burstEntry 2 3) []).mem.wf = true ∧ cfg.lanes[0]? = some .sound ∧ (2 + 1) % 3 = 0 ∧
      ¬ (3 + 1) % 3 = 0 :=
  ⟨⟨rfl, rfl, rfl, rfl, rfl⟩, ⟨rfl, rfl, rfl, rfl, rfl⟩, by decide, rfl, by decide, rfl, rfl, rfl, by decide⟩

/-- The byte after the first page completes a sample (8,193 bytes); the first byte of the burst does not. -/
theorem witness_EssenceOnNewPage :
    Delivers (delivering (burstEntry 8192 8193) [6]) cfg 0 0 (burstEntry 8192 8193) 8193 ∧
      (burstEntry 8192 8193).received < 8193 ∧ (burstEntry 8192 8193).truncated = false ∧
      (burstEntry 8192 8193).stored % 8192 = 0 ∧ (delivering (burstEntry 8192 8193) [6]).mem.wf = true ∧
      (delivering (burstEntry 8192 8193) [6]).store.lanes[0]? = some ⟨6 :: [], 1, false⟩ ∧
      cfg.lanes[0]? = some .sound ∧ (8192 + 1) % 3 = 0 ∧ ¬ (0 + 1) % 3 = 0 :=
  ⟨⟨rfl, rfl, rfl, rfl, rfl⟩, by decide, rfl, by decide, rfl, rfl, rfl, rfl, by decide⟩

/-- A byte beyond the length, a byte after exhaustion, and a byte that finds the free list empty. -/
theorem witness_EssenceDiscarded :
    Delivers (delivering (burstEntry 3 3) []) cfg 0 0 (burstEntry 3 3) 3 ∧ 3 ≤ (burstEntry 3 3).received ∧
      Delivers (delivering { burstEntry 3 4 with truncated := true } []) cfg 0 0 { burstEntry 3 4 with truncated := true }
        4 ∧
      Delivers (delivering (burstEntry 0 1) []) cfg 0 0 (burstEntry 0 1) 1 ∧ (burstEntry 0 1).stored % 8192 = 0 ∧
      (delivering (burstEntry 0 1) []).store.lanes[0]? = some ⟨[], 0, false⟩ :=
  ⟨⟨rfl, rfl, rfl, rfl, rfl⟩, by decide, ⟨rfl, rfl, rfl, rfl, rfl⟩, ⟨rfl, rfl, rfl, rfl, rfl⟩, by decide, rfl⟩

theorem witness_BurstEnd :
    aligned.ingress.portLane 0 = none ∧ (delivering (burstEntry 3 4) []).ingress.portLane 0 = some 0 ∧
      (delivering (burstEntry 3 4) []).ingress.entries[0]? = some (burstEntry 3 4) ∧ (burstEntry 3 4).burst = .opened ∧
      { burstEntry 3 4 with burst := .ended }.burst ≠ .opened := by decide

/-- A record of one lane: VOID where nothing was stored, WHOLE where all was, PARTIAL where the burst is cut short. -/
theorem witness_RecordOfPeriod :
    (aligned.ingress.record cfg 1000).1.arrival = .void ∧
      ((delivering (burstEntry 4 4) []).ingress.record cfg 1000).1.arrival = .whole ∧
      ((delivering (burstEntry 3 4) []).ingress.record cfg 1000).1.arrival = .partly ∧
      (delivering (burstEntry 3 4) []).ingress.entries ≠ [] := by decide

theorem witness_QuietRun :
    (aligned.ingress.record cfg 1000).1.arrival = .void ∧
      ((delivering (burstEntry 4 4) []).ingress.record cfg 1000).1.arrival ≠ .void ∧
      ((delivering (burstEntry 4 4) []).ingress.record cfg 1000).1.quiet = true ∧
      ({ (delivering (burstEntry 4 4) []).ingress with peak := 11 }.record cfg 1000).1.quiet = false := by decide

/-- A command of each of the three groups. -/
theorem witness_CommandFrames :
    exec .refusedPulseExpiry aligned = .next aligned ∧ exec (.frameVetoed .vetoBit) aligned = .next aligned ∧
      exec (.burstEnd 0) aligned = .next aligned ∧ isOwnCommand .refusedPulseExpiry = true ∧
      isLinkCommand (.frameVetoed .echoOnly) = true ∧ isInputCommand (.burstEnd 0) = true ∧
      (∀ pos b, Instr.refusedPulseExpiry ≠ .essenceByte pos b) ∧
      ∀ k levels, Instr.refusedPulseExpiry ≠ .reset .powerOn k levels :=
  ⟨rfl, rfl, rfl, rfl, rfl, rfl, by simp, by simp⟩

/-- A PSN at each end of a DROP, one under a MASK alone, and one that no cut covers. -/
theorem witness_CoverageRule :
    coverage [cutOf 0 .drop 10 20, cutOf 1 (.mask 2) 15 30] 10 = .dropped ∧
      coverage [cutOf 0 .drop 10 20, cutOf 1 (.mask 2) 15 30] 20 = .dropped ∧
      coverage [cutOf 0 .drop 10 20, cutOf 1 (.mask 2) 15 30] 21 = .masked 2 ∧
      coverage [cutOf 0 .drop 10 20, cutOf 1 (.mask 2) 15 30] 31 = .clear := by decide

/-- Each verdict of R59: reversed, LATE after the clips, DUPLICATE, FULL, CAP, and accepted with both ends clipped. -/
theorem witness_InsertionJudgement :
    (Plan.empty.judgeInsert bounds ⟨⟨3, 0⟩, .drop, 11, 10, .dump⟩).reason = some .malformed ∧
      (Plan.empty.judgeInsert bounds ⟨⟨3, 0⟩, .drop, 998, 999, .dump⟩).reason = some .late ∧
      ((⟨[cutOf 0 .drop 950 951], [], []⟩ : Plan).judgeInsert bounds ⟨⟨3, 0⟩, .drop, 903, 904, .dump⟩).reason =
        some .duplicate ∧
      ((⟨List.replicate 32 (cutOf 0 .drop 950 951), [], []⟩ : Plan).judgeInsert bounds
        ⟨⟨3, 1⟩, .drop, 903, 904, .dump⟩).reason = some .full ∧
      ((⟨[], [⟨910, -1⟩], []⟩ : Plan).judgeInsert ⟨1000, 903, 997, 3801⟩ ⟨⟨3, 0⟩, .drop, 903, 920, .dump⟩).reason =
        some .cap ∧
      (Plan.empty.judgeInsert bounds ⟨⟨3, 0⟩, .drop, 902, 998, .dump⟩).inserted = some (cutOf 0 .drop 903 997) := by
  decide +kernel

theorem witness_RescindJudgement :
    (∀ d ∈ Plan.empty.cuts, d.id ≠ ⟨3, 0⟩) ∧ findCut [cutOf 0 .drop 903 905] ⟨3, 0⟩ = some (cutOf 0 .drop 903 905) ∧
      (4 : Station) ≠ (⟨3, 0⟩ : CutId).origin ∧ earlier 902 bounds.h = true ∧ earlier 903 bounds.h = false ∧
      restoredCount [cutOf 0 .drop 903 905] (cutOf 0 .drop 903 905) = 3 ∧
      (3800 : Int) < 3798 + paceSum [] + (3 : Nat) ∧ ¬ (3800 : Int) < 3797 + paceSum [] + (3 : Nat) := by decide

/-- Each verdict of R146: a count byte 0 and 9, a PSN that is not earlier than its stamp, LATE, DUPLICATE, FULL, CAP, and
adopted at the horizon. -/
theorem witness_PaceJudgement :
    (¬ ((0#8) = 0xFF#8 ∨ (1 ≤ (0#8).toNat ∧ (0#8).toNat ≤ 8))) ∧
      (¬ ((9#8) = 0xFF#8 ∨ (1 ≤ (9#8).toNat ∧ (9#8).toNat ≤ 8))) ∧
      (Plan.empty.judgeEntry bounds 950 ⟨950, 1⟩).reason = some .malformed ∧
      (Plan.empty.judgeEntry bounds 950 ⟨902, 1⟩).reason = some .late ∧
      ((⟨[], [⟨903, 1⟩], []⟩ : Plan).judgeEntry bounds 950 ⟨903, 1⟩).reason = some .duplicate ∧
      ((⟨[], List.replicate 64 ⟨904, 1⟩, []⟩ : Plan).judgeEntry bounds 950 ⟨903, 1⟩).reason = some .full ∧
      (Plan.empty.judgeEntry ⟨1000, 903, 997, 3800⟩ 950 ⟨903, 1⟩).reason = some .cap ∧
      (Plan.empty.judgeEntry ⟨1000, 903, 997, 3799⟩ 950 ⟨903, 1⟩).adopted = some ⟨903, 1⟩ := by decide +kernel

/-- An IDLE context, an OPEN one and a CLOSED one; out points 1,500 and 1,501 after the in point. -/
theorem witness_SpanOutTransition :
    Plan.empty.spanOf 3 = none ∧ (⟨[], [], [⟨3, 100, none, 990⟩]⟩ : Plan).spanOf 3 = some ⟨3, 100, none, 990⟩ ∧
      (⟨[], [], [⟨3, 100, some 120, 990⟩]⟩ : Plan).spanOf 3 = some ⟨3, 100, some 120, 990⟩ ∧
      (atOrAfter 1600 100 = true ∧ ((1600 : Slot) - 100).toNat ≤ 1500) ∧
      ¬ (atOrAfter 1601 100 = true ∧ ((1601 : Slot) - 100).toNat ≤ 1500) := by decide

/-- An IDLE, an OPEN and a CLOSED context; frames that fail by encoding, stamp and point, and one that passes. -/
theorem witness_SpanCommitTransition :
    parseMark .spanCommit [0, 0, 3, 232, 0, 2, 0] = none ∧
      parseMark .spanIn (Mark.spanIn 1001 1001).body = some (.spanIn 1001 1001) ∧ later 1001 1000 = true ∧
      markPoint (.spanIn 999 1000) = some 1000 ∧ later 1000 999 = true ∧
      parseMark .spanIn (Mark.spanIn 1000 1000).body = some (.spanIn 1000 1000) ∧ later 1000 1000 = false ∧
      Plan.empty.spanOf 3 = none ∧ (⟨[], [], [⟨3, 100, none, 990⟩]⟩ : Plan).spanOf 3 = some ⟨3, 100, none, 990⟩ ∧
      (⟨[], [], [⟨3, 100, some 120, 990⟩]⟩ : Plan).spanOf 3 = some ⟨3, 100, some 120, 990⟩ := by decide

/-- A repeat owed; an advance to the next PSN (n = 0) and past one dropped PSN (n = 1). -/
theorem witness_OutputStepRule :
    0 < (⟨1000, 900, 0, 1⟩ : SchedPoint).owed ∧ (⟨1000, 900, 0, 0⟩ : SchedPoint).owed = 0 ∧
      coverage Plan.empty.cuts (900 + 1 + slots 0) ≠ .dropped ∧
      coverage [cutOf 0 .drop 901 901] (900 + 1 + slots 0) = .dropped ∧
      coverage [cutOf 0 .drop 901 901] (900 + 1 + slots 1) ≠ .dropped ∧
      paceAt [] (900 + 1 + slots 1) ≠ some (-1) := by decide

/-- The station with the record of the play at 1001, its jump flag set, and a lane of each kind at the egress. -/
def stepping : State :=
  { aligned with
    index := [pauseRecord 900, pauseRecord 901]
    egress := { aligned.egress with jump := true, lanes := [.sound 9, .picture [1, 2], .data] } }

/-- R132, R133, R136: a stored burst, and two substitutes without a lane of the record; the hold buffer and the reference
length after them. -/
theorem test_stepBegins :
    (after (.ordinaryStrobe 1001 ⟨[], false⟩) stepping).egress.out =
        [⟨0, 1001, 901, 0, .stored, ⟨false, false, false, false, false, true, true⟩, [0, 0, 0, 0]⟩,
          ⟨1, 1001, 901, 0, .held, ⟨false, false, true, false, true, true, true⟩, [1, 2]⟩,
          ⟨2, 1001, 901, 0, .empty, ⟨false, false, true, false, true, true, true⟩, []⟩] ∧
      (after (.ordinaryStrobe 1001 ⟨[], false⟩) stepping).egress.lanes = [.sound 4, .picture [1, 2], .data] ∧
      (after (.ordinaryStrobe 1001 ⟨[], false⟩) stepping).egress.jump = false := by decide +kernel

/-- A play without and with a schedule, in a state with an open stored picture burst and in one without. -/
theorem witness_StepBegins :
    stepping.settings = some cfg ∧ stepping.ref.flag = .present ∧ stepping.ref.hsn = some 1000 ∧
      stepping.mon.mode.hasSchedule = true ∧ stepping.egress.point = some ⟨1000, 900, 0, 0⟩ ∧
      (∀ f ∈ passing.traffic.received.take 4, f.kind ≠ .recapEnd) ∧ (at1000 .filling).mon.mode = .filling ∧
      (listening 9).mon.mode = .listening ∧ (listening 9).mon.listen ≠ some 0 ∧ joining.mon.mode = .joining ∧
      stepping.egress.lanes[1]? = some (.picture [1, 2]) ∧
      BurstsEnded stepping stepping.egress.lanes ∧
      (∃ b ∈ [(⟨1, 1000, 900, 0, .stored, ⟨false, false, false, false, false, false, true⟩, [7]⟩ : OutBurst)],
        b.lane = 1 ∧ b.subst = .stored) := by
  refine ⟨rfl, rfl, rfl, rfl, rfl, by decide, rfl, rfl, by decide, rfl, rfl, ⟨rfl, fun i l h => ⟨fun _ => h, ?_⟩⟩,
    by decide⟩
  rintro - ⟨b, hb, -⟩
  exact absurd hb (by simp [stepping, aligned, at1000])

/-- A present and an absent lane, masked and not; each substitute choice. -/
theorem witness_LaneBuilding :
    cfg.soundSubstitute = .silence ∧ cfg.pictureSubstitute = .held ∧
      { cfg with soundSubstitute := .tone }.soundSubstitute = .tone ∧
      { cfg with pictureSubstitute := .black }.pictureSubstitute = .black ∧ ([1] : List Byte) ≠ [] ∧ 0 < 3 / 3 ∧
      (⟨900, .whole, [⟨true, 4, [5], false, false⟩], 0, false, false, false, false⟩ : SlotRecord).lanes[0]? =
        some ⟨true, 4, [5], false, false⟩ ∧
      (⟨900, .void, [⟨false, 0, [], true, false⟩], 0, false, false, false, false⟩ : SlotRecord).lanes[0]? =
        some ⟨false, 0, [], true, false⟩ ∧
      Coverage.masked 1 = .masked 1 ∧ (1#4).getLsbD 0 = true ∧ ¬ (2#4).getLsbD 0 = true := by decide

/-- The station with a stored picture burst open on position 0. -/
theorem witness_OutputBurstEnd :
    { aligned with
      egress := { aligned.egress with
        lanes := [.picture []]
        out := [⟨0, 1000, 900, 0, .stored, ⟨false, false, false, false, false, false, true⟩, [1, 2]⟩] } }.egress.out.find?
          (fun d : OutBurst => d.lane == (0 : Fin 4).val) =
        some ⟨0, 1000, 900, 0, .stored, ⟨false, false, false, false, false, false, true⟩, [1, 2]⟩ := by decide

/-- A deficit of 1 with a budget of 1 left; a projected delay one above the tolerance; and neither. A deficit of 5 with
the gain 4 rounds up to 2. The first of two slots that qualify, from the horizon 903 on. -/
theorem witness_ProposalDecision :
    (5 : Int) * cfg.gain ≤ 16 * (2 : Nat) ∧ (16 : Int) * (2 : Nat) < 5 * cfg.gain + 16 ∧
      budgetOf { cfg with mode := .proportional } 5 = 2 ∧
      { aligned with index := [pauseRecord 905, pauseRecord 906] }.chooseSlot cfg 1000 903 .fill = some 905 ∧
      { aligned with index := [pauseRecord 904] }.chooseSlot cfg 1000 903 .trim = some 904 ∧
      aligned.chooseSlot cfg 1000 903 .fill = none ∧
    decideProposal cfg 100 99 9 false false = .fill ∧ decideProposal cfg 100 105 0 false false = .trim ∧
      decideProposal cfg 100 104 0 false false = .nothing ∧ decideProposal cfg 100 99 10 false false = .nothing ∧
      1 ≤ cfg.normalRepeat := by decide

/-- The ALIGNED station with a deficit of 5, pause-eligible records and `n` frames in its transmit queue. -/
def rebuilding (n : Nat) : State :=
  { aligned with
    index := [pauseRecord 905, pauseRecord 906, pauseRecord 907]
    reg := ⟨some 9, 7, none, none⟩
    mon := { aligned.mon with era := some ⟨500, 105⟩ }
    traffic := { aligned.traffic with
      general := (List.range n).map (fun i => ⟨i, some ⟨.join, []⟩, .monitor, 0, false, false, false, none, false⟩)
      nextOrder := n } }

/-- R152, R156: the fill is proposed at h + 2, with the normal repeat limit as its count; with a full queue none is. -/
theorem test_proposal :
    (after (.ordinaryStrobe 1001 ⟨[], false⟩) (rebuilding 3)).reg =
        ⟨some 10, 0, none, some ⟨906, 3, 1001, .queued, 3⟩⟩ ∧
      (after (.ordinaryStrobe 1001 ⟨[], false⟩) (rebuilding 16)).reg = ⟨some 10, 0, none, none⟩ := by decide +kernel

theorem witness_ProposalFormed :
    (rebuilding 14).settings = some cfg ∧ (rebuilding 14).ref.flag = .present ∧ (rebuilding 14).ref.hsn = some 1000 ∧
      (rebuilding 14).ingress.period = some 1000 ∧ (rebuilding 14).mon.mode = .aligned ∧
      (rebuilding 14).mon.era = some ⟨500, 105⟩ ∧ (rebuilding 14).mon.retry = none ∧
      (rebuilding 14).mon.collecting = none ∧ (rebuilding 14).egress.point = some ⟨1000, 900, 0, 0⟩ ∧
      (∀ d ∈ (rebuilding 14).egress.history, d.hsn ≠ 1000 + 1) ∧ (rebuilding 14).traffic.received = [] ∧
      (rebuilding 14).link.connected = true ∧ (rebuilding 14).link.clash = false ∧
      (rebuilding 14).reg.outstanding = none ∧ (rebuilding 14).traffic.general.length < 15 ∧
      16 ≤ (rebuilding 16).traffic.general.length ∧
      (∀ e ∈ (rebuilding 16).traffic.general, e.isMark = false) := by decide

/-- The station with the PACE `f` to take, and a QUEUED proposal of a fill at 920 in general entry 2. -/
def judging (f : RxFrame) (current : Option TxRef) : State :=
  { receiving f with
    link := { aligned.link with current := current }
    reg := ⟨some 10, 4, some 910, some ⟨920, 3, 990, .queued, 2⟩⟩
    mon := { aligned.mon with era := some ⟨500, 105⟩ }
    traffic := { (receiving f).traffic with
      general := [⟨2, some ⟨.pace, paceBody 990 920 3⟩, .regulator, 0, false, false, false, none, false⟩]
      nextOrder := 3 } }

/-- R147, R157: a fill adopted at the proposal's PSN counts, and cancels the QUEUED proposal; between attempts it is to be
dropped. -/
theorem test_adoption :
    (after (.ordinaryStrobe 1001 ⟨[], false⟩) (judging ⟨4, .pace, paceBody 1000 920 2, false⟩ none)).reg =
        ⟨some 10, 6, some 920, none⟩ ∧
      (after (.ordinaryStrobe 1001 ⟨[], false⟩) (judging ⟨4, .pace, paceBody 1000 920 2, false⟩ none)).entry 2 = none ∧
      ((after (.ordinaryStrobe 1001 ⟨[], false⟩)
        (judging ⟨4, .pace, paceBody 1000 920 2, false⟩ (some (.general 2)))).entry 2).map TxEntry.drop = some true := by
  decide +kernel

/-- An adopted PACE and one refused LATE, of another station and own; a redundant proposal and one that is not. -/
theorem witness_AdoptionCounts :
    TakesOne (judging ⟨0, .pace, paceBody 1000 920 2, true⟩ none) cfg 1000 ⟨1001, 901, 0, 0⟩
        ⟨0, .pace, paceBody 1000 920 2, true⟩ ∧
      (verdictOn (judging ⟨0, .pace, paceBody 1000 920 2, true⟩ none) ⟨1001, 901, 0, 0⟩
        ⟨0, .pace, paceBody 1000 920 2, true⟩).adopted = some ⟨920, 2⟩ ∧
      (verdictOn (judging ⟨0, .pace, paceBody 1000 902 2, true⟩ none) ⟨1001, 901, 0, 0⟩
        ⟨0, .pace, paceBody 1000 902 2, true⟩).adopted = none ∧
      parsePace (paceBody 1000 920 2) = some (1000, 920, some 2) ∧
      (judging ⟨0, .pace, paceBody 1000 920 2, true⟩ none).reg.outstanding = some ⟨920, 3, 990, .queued, 2⟩ ∧
      (judging ⟨0, .pace, paceBody 1000 920 2, true⟩ none).mon.era = some ⟨500, 105⟩ ∧
      ((judging ⟨0, .pace, paceBody 1000 920 2, true⟩ none).entry 2).map TxEntry.owner = some .regulator ∧
      EntriesOrdered (judging ⟨0, .pace, paceBody 1000 920 2, true⟩ none).traffic ∧
      (verdictOn (judging ⟨4, .pace, paceBody 1000 930 2, false⟩ none) ⟨1001, 901, 0, 0⟩
        ⟨4, .pace, paceBody 1000 930 2, false⟩).plan.paces = [⟨930, 2⟩] :=
  ⟨⟨rfl, rfl, rfl, rfl, ⟨_, rfl, rfl, by decide +kernel⟩, rfl, by decide⟩, by decide +kernel, by decide +kernel,
    by decide +kernel, rfl, rfl, rfl, ⟨by decide, by decide⟩, by decide +kernel⟩

/-- The station with `n` frames in its receive queue and a HOLD in the flow holder. -/
def queueing (n : Nat) (flow : FlowState) : State :=
  { aligned with
    traffic := { aligned.traffic with
      received := List.replicate n ⟨3, .join, [0, 0, 3, 232, 1], false⟩, flowState := flow
      flow := some ⟨⟨.hold, []⟩, 1, false, false⟩ } }

/-- R98: the placement of the 24th frame asserts the flow state; the intake that leaves 8 clears it, one that leaves 9 does
not. -/
theorem test_flow :
    (after (.frameReceived (readOf .join [0, 0, 3, 232, 1])) (queueing 23 .clear)).traffic.flowState = .asserted ∧
      (after (.frameReceived (readOf .join [0, 0, 3, 232, 1])) (queueing 23 .clear)).traffic.flow =
        some ⟨⟨.hold, []⟩, 0, false, false⟩ ∧
      (after (.ordinaryStrobe 1001 ⟨[], false⟩) (queueing 12 .asserted)).traffic.flow =
        some ⟨⟨.resume, []⟩, 0, false, false⟩ ∧
      (after (.ordinaryStrobe 1001 ⟨[], false⟩) (queueing 13 .asserted)).traffic.flowState = .asserted := by
  decide +kernel

theorem witness_Flow :
    (queueing 12 .asserted).traffic.flowState = .asserted ∧ (queueing 12 .asserted).traffic.received ≠ [] ∧
      (queueing 12 .asserted).traffic.received.length ≤ 12 ∧ 12 < (queueing 13 .asserted).traffic.received.length ∧
      (queueing 23 .clear).traffic.received.length = 23 ∧ Receives (queueing 23 .clear) ∧
      (queueing 12 .asserted).link.current ≠ some .flow :=
  ⟨rfl, by decide, by decide, by decide, by decide, ⟨rfl, rfl, rfl⟩, by decide⟩

theorem witness_OfferRanking :
    (∃ e ∈ (attempting abandonFrame 0).traffic.general, e.live = true ∧ e.hasClass 0 = true) ∧
      ([⟨4, 1⟩] : List HeldBy) ≠ [] ∧ (attempting abandonFrame 0).traffic.offer = some (.general 0) := by decide

/-- A station with an offer: at 11 recessive bits; with its gap at 1; with its place lost at 17 bits. -/
theorem witness_BusIdleContends :
    (offering 0 false).link.connected = true ∧ (offering 0 false).link.attempt = false ∧
      (offering 0 false).link.clash = false ∧ AllLive (offering 0 false).traffic ∧
      (offering 0 false).traffic.offer = some (.general 0) ∧ (offering 1 false).link.phase = .idle ∧
      0 < (offering 1 false).link.gap ∧ 11 ≤ (offering 1 false).link.idleCount ∧
      (offering 0 true).link.lostPlace = true ∧ 17 < 18 ∧ 18 ≤ 18 ∧
      ({ (offering 1 false).link with phase := .receiving } : Link).phase ≠ .idle ∧ 11 - 11 < (offering 1 false).link.gap ∧
      11 - (offering 1 false).link.idleCount < (offering 1 false).link.gap :=
  ⟨rfl, rfl, rfl, ⟨by decide, by decide, by decide⟩, rfl, rfl, by decide, by decide, rfl, by decide, by decide, by decide,
    by decide, by decide⟩

/-- The station with a frame in a holder, current in an attempt, after `v` vetoes, and a frame that waits or none. -/
def holding (r : TxRef) (k : Kind) (v : Nat) (next : Option TxFrame) : State :=
  { aligned with
    link := { aligned.link with phase := .transmitting, current := some r, attempt := true }
    traffic := { aligned.traffic with
      beacon := some ⟨⟨k, []⟩, v, false, false⟩, beaconNext := next, flow := some ⟨⟨k, []⟩, v, false, false⟩,
      flowNext := next } }

/-- The beacon and the flow holder in an attempt, with a frame that waits and without one. -/
theorem witness_currentHolder :
    currentHolder (holding .beacon .beacon 14 none) = some ⟨⟨.beacon, []⟩, 14, false, false⟩ ∧
      currentHolder (holding .flow .hold 15 (some ⟨.resume, []⟩)) = some ⟨⟨.hold, []⟩, 15, false, false⟩ ∧
      (holding .beacon .beacon 14 none).link.attempt = true ∧ (holding .beacon .beacon 14 none).link.clash = false ∧
      (holding .beacon .beacon 14 none).settings = some cfg ∧ Kind.beacon.queued = false ∧ Kind.hold.queued = false ∧
      (holding .flow .hold 15 (some ⟨.resume, []⟩)).traffic.flowNext = some ⟨.resume, []⟩ ∧
      (holding .beacon .beacon 14 none).traffic.beaconNext = none := by decide

/-- A frame of an entry and one of a holder in ARBITRATING, and an attempt in TRANSMITTING. -/
theorem witness_ArbitrationLost :
    (contending abandonFrame).link.phase = .arbitrating ∧ (contending abandonFrame).link.attempt = true ∧
      (contending abandonFrame).link.current = some (.general 0) ∧ ((contending abandonFrame).entry 0).isSome = true ∧
      (currentHolder { holding .flow .hold 0 none with
        link := { (holding .flow .hold 0 none).link with phase := .arbitrating } }).isSome = true ∧
      (attempting abandonFrame 0).link.phase ≠ .arbitrating := by decide

/-- Vetoes 14 and 15, by each of the three ways; the own veto with a full receive queue. -/
theorem witness_Vetoed :
    Vetoed (.frameVetoed .echoOnly) (vetoedEntry 14) (attempting abandonFrame 14) ∧
      Vetoed (.lineFault 1) (vetoedEntry 15) (attempting abandonFrame 15) ∧
      Vetoed .sent (vetoedEntry 14) (fullQueue 14) ∧
      (attempting abandonFrame 14).entry 0 = some (vetoedEntry 14) ∧ (fullQueue 14).entry 0 = some (vetoedEntry 14) ∧
      (vetoedEntry 14).vetoes + 1 < 16 ∧ (vetoedEntry 15).vetoes = 15 ∧ (vetoedEntry 15).isMark = true :=
  ⟨.inl (.inl ⟨_, rfl⟩), .inl (.inr ⟨_, rfl⟩), .inr ⟨rfl, abandonFrame, rfl, rfl, by decide, rfl⟩, by decide, by decide, by decide,
    rfl, rfl⟩

/-- The station with a frame of a recap stream in an attempt. -/
def streaming (k : Kind) : State :=
  { attempting abandonFrame 0 with
    traffic := { (attempting abandonFrame 0).traffic with
      general := [⟨0, some ⟨k, []⟩, .monitor, 0, false, false, false, none, true⟩] }
    mon := { aligned.mon with ownRecap := .inProgress ⟨1000, .empty, 900, 0, 903, 0, ⟨500, 100⟩⟩ 0 } }

/-- A stream frame of each sort, with a next frame of the recap. -/
theorem witness_StreamSent :
    ((streaming .recapHead).entry 0).map TxEntry.stream = some true ∧
      (∀ d ∈ (streaming .recapHead).traffic.general, d.stream = true →
        d = ⟨0, some ⟨.recapHead, []⟩, .monitor, 0, false, false, false, none, true⟩) ∧
      (streaming .recapCut).link.current = some (.general 0) ∧ (streaming .recapCut).link.attempt = true ∧
      (⟨1000, .empty, 900, 0, 903, 0, ⟨500, 100⟩⟩ : Snapshot).frames[0]?.isSome = true ∧ Kind.recapCut.queued = true ∧
      Kind.recapCut ≠ .recapHead ∧ Kind.recapCut ≠ .recapEnd := by decide

/-- A class 0 frame and a class 2 frame, with 31 frames in the receive queue. -/
theorem witness_SentFrame :
    (attempting abandonFrame 0).settings = some cfg ∧ (attempting abandonFrame 0).link.attempt = true ∧
      ((attempting abandonFrame 0).entry 0).bind TxEntry.frame = some abandonFrame ∧
      ((attempting ⟨.pace, paceBody 1000 950 1⟩ 0).entry 0).bind TxEntry.frame = some ⟨.pace, paceBody 1000 950 1⟩ ∧
      abandonFrame.kind.queued = true ∧ Kind.pace.queued = true ∧
      (List.replicate 31 (⟨3, .join, [], false⟩ : RxFrame)).length < 32 :=
  ⟨rfl, rfl, rfl, rfl, rfl, rfl, by decide⟩

theorem witness_CleanFrame :
    Receives aligned ∧ readFrame (readOf .join [0, 0, 3, 232, 1]).bits = .clean 3 .join [0, 0, 3, 232, 1] ∧
      Kind.join.queued = true ∧ (readOf .join []).vetoBit = false ∧ (readOf .join []).echoBit = false ∧ aligned.traffic.received.length < 32 ∧
      32 ≤ (fullQueue 0).traffic.received.length :=
  ⟨⟨rfl, rfl, rfl⟩, by decide +kernel, rfl, rfl, rfl, by decide, by decide⟩

/-- A check failure; a sync failure before the length, without a sender and with one. -/
theorem witness_FailedFrame :
    readFrame [false, true, true, true, true] = .lostPlace none ∧
      readFrame ((frameBits 3 .join []).take 14) = .lostPlace (some 3) ∧
    Receives aligned ∧ readFrame badRead.bits = .failure 3 ∧ badRead.lateDominant = false ∧
      aligned.link.quiet = false ∧ aligned.mon.mode = .aligned ∧
      Receives { aligned with link := { aligned.link with quiet := true, vetoCount := 128 } } :=
  ⟨by decide +kernel, by decide +kernel, ⟨rfl, rfl, rfl⟩, by decide +kernel, rfl, rfl, rfl, ⟨rfl, rfl, rfl⟩⟩

theorem witness_ClashSet :
    (∃ k, readFrame badRead.bits = .failure k) ∧ (attempting abandonFrame 14).entry 0 = some (vetoedEntry 14) ∧
      (vetoedEntry 14).vetoes + 1 < 16 ∧ (attempting abandonFrame 0).link.attempt = true ∧
      readFrame (readOf .join [0, 0, 3, 232, 1]).bits = .clean 3 .join [0, 0, 3, 232, 1] ∧
      (∃ e ∈ (attempting abandonFrame 0).traffic.general, e.isMark = true) :=
  ⟨⟨3, by decide +kernel⟩, by decide, by decide, rfl, by decide +kernel, by decide +kernel⟩

theorem witness_StickyFaults :
    exec .refusedPulseExpiry aligned = .next aligned ∧
      (∀ cause k levels, Instr.refusedPulseExpiry ≠ .reset cause k levels) ∧
      { aligned with link := { aligned.link with clash := true } }.link.clash = true :=
  ⟨rfl, by simp, rfl⟩

theorem witness_HoldAndResume : aligned.link.connected = true ∧ aligned.link.awaitIdle = false := by decide

/-- The ALIGNED station 5 with a complete entry for 999. -/
def comparing : State :=
  { aligned with station := 5, egress := { aligned.egress with history := [⟨999, 899, 0, some 0⟩] } }

/-- A beacon of an ALIGNED station and one of a RESYNC station, in LISTENING; and in ALIGNED one that differs in its PSN
and yields by station number, and one that agrees. -/
theorem witness_BeaconTaken :
    comparing.mon.mode = Origin.mode .aligned ∧ comparing.mon.era = some ⟨500, 100⟩ ∧
      comparing.egress.history.find? (fun d => d.hsn == (beaconIn .aligned).stamp && d.digest.isSome) =
        some ⟨999, 899, 0, some 0⟩ ∧ ((3 : Station).val < comparing.station.val) ∧
      later (beaconIn .aligned).founding 500 = false ∧ (899 : Slot) ≠ { beaconIn .aligned with psn := 900 }.psn ∧
      (beaconIn .aligned).founding = 500 ∧ (beaconIn .aligned).psn = 899 ∧ (beaconIn .aligned).rep = 0 ∧
      (beaconIn .aligned).digest = 0 ∧
    (listening 9).link.connected = true ∧ (listening 9).link.awaitIdle = false ∧
      (listening 9).mon.mode.takesBeacons = true ∧ (3 : Station) ≠ (listening 9).station ∧
      parseBeacon (beaconBody (beaconIn .aligned)) = some (beaconIn .aligned) ∧
      parseBeacon (beaconBody (beaconIn .resync)) = some (beaconIn .resync) ∧
      (listening 9).ref.hsn = some 1000 ∧ (listening 9).mon.mode = .listening ∧
      (beaconIn .aligned).state ≠ .resync ∧ (listening 9).traffic.general.length < 16 := by decide +kernel

theorem witness_ContactDebounce :
    (contactOf aligned.contacts.lines .dump).raw ≠ .closed ∧ (contactOf aligned.contacts.lines .dump).timing = true ∧
      (contactOf aligned.contacts.lines .dump).debounced ≠ some .opened ∧
      (contactOf aligned.contacts.lines .dump).raw = .opened := by decide

/-- A closed contact that was OPEN, for DUMP, MARK-IN and COMMIT-MASK, with 15 frames queued. -/
theorem witness_PressBuildsFrame :
    (pressing .dump).settings = some cfg ∧ (pressing .dump).ref.hsn = some 1000 ∧ (pressing .dump).mon.mode = .aligned ∧
      contactOf (pressing .dump).contacts.lines .dump = (⟨.closed, true, some .opened⟩ : Debouncer) ∧
      contactOf (pressing .markIn).contacts.lines .markIn = (⟨.closed, true, some .opened⟩ : Debouncer) ∧
      (pressedMark cfg 1000 (pressing .dump).nextCount .dump).isSome = true ∧
      (pressedMark cfg 1000 (pressing .dump).nextCount .markIn).isSome = true ∧
      (pressedMark cfg 1000 (pressing .dump).nextCount .commitMask).isSome = true ∧
      (pressing .dump).link.connected = true ∧ (pressing .dump).link.clash = false ∧
      (pressing .dump).traffic.general.length < 16 := by decide

/-- A press that finds all 16 entries taken, and one under CLASH. -/
theorem witness_pressRefused :
    let p := pressing .dump
    let full := p.withTraffic { p.traffic with
      general := (List.range 16).map (fun o => ⟨o, none, .regulator, 0, false, false, false, none, false⟩), nextOrder := 16 }
    let clashed := p.withLink { p.link with clash := true }
    full.settings = some cfg ∧ full.mon.mode = .aligned ∧ 16 ≤ full.traffic.general.length ∧
      contactOf full.contacts.lines .dump = (⟨.closed, true, some .opened⟩ : Debouncer) ∧
      clashed.settings = some cfg ∧ clashed.mon.mode = .aligned ∧ clashed.link.clash = true ∧
      contactOf clashed.contacts.lines .dump = (⟨.closed, true, some .opened⟩ : Debouncer) := by decide

/-- A stack whose top is retired, then a held ARMED cut; and a stack of retired cuts only. -/
theorem witness_RescindPress :
    contactOf (pressing .rescind).contacts.lines .rescind = (⟨.closed, true, some .opened⟩ : Debouncer) ∧
      (∀ id ∈ [(⟨3, 9⟩ : CutId)], ∀ d, findCut [cutOf 1 .drop 950 951] id = some d → d.state = .active) ∧
      [(⟨3, 9⟩ : CutId), ⟨3, 1⟩] = [⟨3, 9⟩] ++ ⟨3, 1⟩ :: [] ∧
      findCut [cutOf 1 .drop 950 951] ⟨3, 1⟩ = some (cutOf 1 .drop 950 951) ∧ (cutOf 1 .drop 950 951).state = .armed := by
  refine ⟨rfl, ?_, rfl, rfl, rfl⟩
  intro id hid d hd
  rw [List.mem_singleton] at hid
  subst hid
  simp [findCut, cutOf] at hd

theorem witness_OriginatorState :
    aligned.plan.cuts.length ≤ 32 ∧ ([] : List CutId).Nodup ∧ [(⟨0, 1⟩ : CutId)].Nodup ∧
      [(⟨0, 1⟩ : CutId)].length ≤ 8 := by decide

theorem witness_ListenTimerExpiry :
    (listening 0).settings = some cfg ∧ (listening 0).ref.hsn = some 1000 ∧ (listening 0).mon.mode = .listening ∧
      (listening 0).mon.listen = some 0 := by decide

/-- A RECAP-END of the empty image, taken at 1000 with the head's batch at 990. -/
def endOf : RecapEnd := ⟨990, 100, 0, 3, 0, 0, 0, Plan.empty.digest, 500, 100⟩

/-- The JOINING station with a JOIN queued. -/
def asking : State :=
  { joining with
    traffic := { joining.traffic with
      general := [⟨0, some ⟨.join, joinBody 990 false⟩, .monitor, 0, false, false, false, none, false⟩] } }

/-- A JOIN that is answered and one of a later stamp. -/
theorem witness_JoinAnswered :
    parseJoin (joinBody 999 false) = some 999 ∧ aligned.mon.era = some ⟨500, 100⟩ ∧ later 999 1000 = false ∧
      later 1001 1000 = true ∧ aligned.mon.mode = .aligned ∧ aligned.mon.ownRecap = .none ∧
      aligned.mon.foreign = none ∧ aligned.link.clash = false ∧ aligned.link.connected = true ∧
      aligned.traffic.general.length < 16 ∧ 16 ≤ (List.replicate 16 (vetoedEntry 0)).length := by decide +kernel

/-- The own head HEAD PENDING and otherwise, another's head in ALIGNED and in JOINING. -/
theorem witness_HeadTaken :
    parseHead (headBody 999 500) = some (999, 500) ∧ later 999 bounds.x = false ∧ aligned.mon.mode = .aligned ∧
      { aligned.mon with ownRecap := .headPending }.ownRecap = .headPending ∧
      aligned.egress.point = some ⟨1000, 900, 0, 0⟩ ∧ aligned.mon.ownRecap ≠ .headPending ∧
      aligned.mon.era = some ⟨500, 100⟩ ∧ joining.mon.mode.wantsRecap = true ∧
      { joining.mon with collecting := none }.collecting = none ∧ joining.mon.peers = [] := by decide +kernel

/-- A recap cut, pace and span, the image without and with the entry. -/
theorem witness_ImageTaken :
    joining.mon.collecting = some ⟨3, 990, .empty, [], [], 0, false⟩ ∧
      parseCut (cutBytes (cutOf 0 .drop 950 951)) = some (cutOf 0 .drop 950 951) ∧
      parseRecapPace (paceBytes ⟨950, 1⟩) = some ⟨950, 1⟩ ∧
      parseRecapSpan 990 (recapSpanBody 990 ⟨3, 400, none, 600⟩) = some ⟨3, 400, none, 600⟩ ∧
      (∀ d ∈ Plan.empty.cuts, d.id ≠ (cutOf 0 .drop 950 951).id) ∧ Plan.empty.spanOf 3 = none ∧
      (⟨[], [], [⟨3, 400, none, 600⟩]⟩ : Plan).spanOf 3 = some ⟨3, 400, none, 600⟩ ∧
      (∃ d ∈ [cutOf 0 .drop 950 951], d.id = (cutOf 0 .drop 950 951).id) := by decide +kernel

/-- A RECAP-END whose checks hold and one whose snapshot HSN differs; an old point, in JOINING and in RESYNC. -/
theorem witness_EndTaken :
    parseRecapEnd (recapEndBody endOf) = some endOf ∧ EndHolds ⟨3, 990, .empty, [], [], 0, false⟩ endOf ∧
      ¬ EndHolds ⟨3, 989, .empty, [], [], 0, false⟩ endOf ∧ joining.mon.mode = .joining ∧
      (at1000 (.resync .aligned)).mon.mode = .resync .aligned ∧
      (at1000 (.resync .aligned)).egress.point = some ⟨1000, 900, 0, 0⟩ ∧
      (at1000 (.resync .aligned)).mon.mode.wantsRecap = true ∧ joining.mon.mode.wantsRecap = true := by
  refine ⟨by decide +kernel, ⟨rfl, rfl, rfl, rfl, by decide +kernel⟩, fun h => absurd h.1 (by decide), rfl, rfl, rfl, rfl, rfl⟩

/-- The three counts of the monitor at 0, without and with a JOIN queued. -/
theorem witness_MonitorExpiries :
    asking.joinQueued = true ∧ asking.mon.retry = some 0 ∧
      asking.mon.collecting = some ⟨3, 990, .empty, [], [], 0, false⟩ ∧ 0 + 1 < 4294967296 ∧
    (joining).ref.hsn = some 1000 ∧ joining.joinQueued = false ∧ joining.link.connected = true ∧
      joining.link.clash = false ∧ joining.traffic.general.length < 16 ∧ joining.mon.retry = some 0 ∧
      joining.mon.collecting = some ⟨3, 990, .empty, [], [], 0, false⟩ ∧ joining.mon.foreign = some ⟨3, 0⟩ := by decide

/-- A context of age 500. -/
theorem witness_SpanTimeout :
    (⟨[], [], [⟨3, 400, none, 500⟩]⟩ : Plan).spanOf 3 = some ⟨3, 400, none, 500⟩ ∧
      aligned.mon.mode.hasSchedule = true ∧ 500 ≤ ((1000 : Slot) - 500).toNat := by decide

theorem witness_HoldTimeout :
    (⟨4, 0⟩ : HeldBy) ∈ { aligned with traffic := { aligned.traffic with heldBy := [⟨4, 0⟩] } }.traffic.heldBy := by decide

/-- General entry 0 with a mark stamped 992. -/
def staleEntry : TxEntry := { vetoedEntry 0 with stamp := some 992 }

/-- The station with that mark, in an attempt. -/
def staleMark : State :=
  { attempting abandonFrame 0 with
    traffic := { (attempting abandonFrame 0).traffic with general := [staleEntry] } }

/-- A mark stamped 8 slots back: in an attempt, current between attempts, and queued. -/
theorem witness_StaleMark :
    staleMark.ref.hsn = some 1000 ∧ staleMark.ref.flag = .present ∧ staleMark.entry 0 = some staleEntry ∧
      staleEntry.isMark = true ∧ staleEntry.live = true ∧ staleEntry.stamp = some 992 ∧
      atOrAfter 1000 (992 + 8) = true ∧ staleMark.link.current = some (.general 0) ∧ staleMark.link.attempt = true ∧
      { staleMark.link with attempt := false }.attempt = false ∧ aligned.link.current ≠ some (.general 0) ∧
      atOrAfter 1000 (993 + 8) = false := by decide

theorem witness_FramesReadBack : ([0, 0, 3, 232, 1] : List Byte).length = Kind.join.bodyLength := by decide

/-- A trim and the widest fill, an age of 499, the largest RECAP-END fields, and the two ends of a beacon period. -/
theorem witness_BodiesReadBack :
    ((-1 : Int) = -1 ∨ (1 ≤ (-1 : Int) ∧ (-1 : Int) ≤ 8)) ∧ ((8 : Int) = -1 ∨ (1 ≤ (8 : Int) ∧ (8 : Int) ≤ 8)) ∧
      (⟨3, 400, none, 501⟩ : Span).age 1000 < 500 ∧ 65535 < 65536 ∧ 8 ≤ 8 ∧ (100 ≤ 100 ∧ 3000 ≤ 3000) ∧
      (10 ≤ 10 ∧ 250 ≤ 250) := by decide

/-- The delay played and the delay scheduled. -/
theorem witness_FaultAndArmedTallies :
    aligned.settings = some cfg ∧ aligned.mon.era = some ⟨500, 100⟩ ∧ aligned.egress.point = some ⟨1000, 900, 0, 0⟩ ∧
      aligned.ref.hsn = some 1000 ∧ (∀ d ∈ aligned.egress.history, d.hsn ≠ 1000) ∧
      [(⟨1000, 900, 0, none⟩ : HistEntry)].find? (fun d => d.hsn == 1000) = some ⟨1000, 900, 0, none⟩ ∧
      (listening 9).mon.mode ≠ .aligned ∧ readyLit aligned = true ∧ dumpAvailableLit aligned = true := by decide +kernel

/-- Reset meets the invariants' premise, and a step of it answers a next state. -/
theorem witness_StepKeeps :
    State.reset.mem.wf = true ∧ State.reset.index = [] ∧ State.reset.store.lanes = [] ∧
      step State.reset = .next State.reset := ⟨rfl, rfl, rfl, rfl⟩

end Sys2Proof.Tests
end

