-- ==== Sys2Proof/Proofs/EditPlan.lean ====
section
/-! SUPPORT. The coverage of a PSN (R54) and the judgement of an insertion request (R58 to R60). -/

namespace Sys2Proof.Proofs.EditPlan

open Sys2Proof Sys2Proof.Machine

/-! ## Coverage (R54) -/

theorem coverage_eq_masked {cuts : List Cut} {p : Slot} (hdrop : ¬ droppedBy cuts p = true)
    (hcov : ∃ c ∈ cuts, c.covers p = true) : coverage cuts p = .masked (maskedLanes cuts p) := by
  rw [coverage, if_neg hdrop, if_pos (List.any_eq_true.2 hcov)]

theorem coverage_eq_clear {cuts : List Cut} {p : Slot} (hcov : ¬ ∃ c ∈ cuts, c.covers p = true) :
    coverage cuts p = .clear := by
  have hdrop : ¬ droppedBy cuts p = true := fun h =>
    have ⟨c, hc, _, hp⟩ := (droppedBy_iff cuts p).1 h
    hcov ⟨c, hc, hp⟩
  rw [coverage, if_neg hdrop, if_neg (mt List.any_eq_true.1 hcov)]

/-- Settles O20, by the three branches of `coverage`; the union of the lanes is `maskedLanes_getLsbD`. -/
theorem coverageRule : Obligations.CoverageRule := by
  intro cuts p
  refine ⟨fun hdrop => ?_, fun hdrop hcov => ?_, coverage_eq_clear⟩
  · exact (coverage_dropped_iff cuts p).2 ((droppedBy_iff cuts p).2 hdrop)
  · exact ⟨maskedLanes cuts p, coverage_eq_masked (mt (droppedBy_iff cuts p).1 hdrop) hcov,
      maskedLanes_getLsbD cuts p⟩

/-! ## What a request asks, in the words of the rules (R58 to R60) -/

theorem malformed_iff (r : CutRequest) :
    r.malformed = true ↔ later r.start r.stop = true ∨ 3800 < (r.stop - r.start).toNat ∨ r.kind = .mask 0 := by
  simp [CutRequest.malformed, or_assoc]

theorem clippedStop_eq (r : CutRequest) (b : Bounds) :
    r.clippedStop b = if r.kind = .drop ∧ later r.stop b.e = true then b.e else r.stop := by
  simp only [CutRequest.clippedStop, Bool.and_eq_true, CutKind.isDrop_iff]

theorem pacesKept_eq (r : CutRequest) (b : Bounds) (paces : List Pace) :
    r.pacesKept b paces =
      if r.kind = .drop then paces.filter (fun e => !within (r.clippedStart b) (r.clippedStop b) e.psn) else paces := by
  simp only [CutRequest.pacesKept, CutKind.isDrop_iff]

/-- The delay played is on both sides of R59 5's comparison, so the pace sums alone decide it. -/
theorem overCap_iff (r : CutRequest) (b : Bounds) (paces : List Pace) :
    r.overCap b paces = true ↔
      r.kind = .drop ∧ paceSum paces < paceSum (r.pacesKept b paces) ∧
        3800 < b.delay + paceSum (r.pacesKept b paces) := by
  rw [CutRequest.overCap, Bool.and_eq_true, Bool.and_eq_true, decide_eq_true_iff, decide_eq_true_iff,
    CutKind.isDrop_iff, and_assoc, Bounds.projected, Bounds.projected, Int.add_lt_add_iff_left]

/-! ## The place of a cut (R53) -/

theorem before_iff (a b : CutId) :
    a.before b = true ↔ a.origin.val < b.origin.val ∨ a.origin = b.origin ∧ a.count.toNat < b.count.toNat := by
  simp only [CutId.before, Bool.or_eq_true, Bool.and_eq_true, decide_eq_true_eq, beq_iff_eq]

/-- Splitting a list at the first element that the new one goes before gives the new one's place. -/
theorem placedIn_takeWhile_dropWhile {α : Type} (goesBefore : α → Bool) (new : α) (l : List α) :
    PlacedIn (fun d => goesBefore d = true) new l
      (l.takeWhile (fun d => !goesBefore d) ++ new :: l.dropWhile (fun d => !goesBefore d)) := by
  refine ⟨_, _, List.takeWhile_append_dropWhile.symm, rfl, fun d hd => ?_, fun d hd => ?_⟩
  · simpa using List.mem_takeWhile_imp hd
  · have := List.head?_dropWhile_not (fun d => !goesBefore d) l
    rw [hd] at this
    simpa using this

theorem insertCut_placedIn (c : Cut) (cuts : List Cut) :
    PlacedIn (fun d : Cut => earlier c.start d.start = true ∨
        c.start = d.start ∧ (c.id.origin.val < d.id.origin.val ∨
          c.id.origin = d.id.origin ∧ c.id.count.toNat < d.id.count.toNat))
      c cuts (insertCut c cuts) := by
  have place := placedIn_takeWhile_dropWhile
    (fun d : Cut => earlier c.start d.start || (c.start == d.start && c.id.before d.id)) c cuts
  simpa only [← insertCut_eq, Bool.or_eq_true, Bool.and_eq_true, beq_iff_eq, before_iff] using place

/-! ## The judgement, reason by reason (R59) -/

section Judgement

variable {pl : Plan} {b : Bounds} {r : CutRequest}

theorem judgeInsert_malformed (hbad : r.malformed = true) : pl.judgeInsert b r = pl.refuse .malformed := by
  rw [Plan.judgeInsert, if_pos hbad]

theorem judgeInsert_late (hbad : ¬ r.malformed = true) (hlate : later (r.clippedStart b) (r.clippedStop b) = true) :
    pl.judgeInsert b r = pl.refuse .late := by
  rw [Plan.judgeInsert, if_neg hbad, if_pos hlate]

theorem judgeInsert_duplicate (hbad : ¬ r.malformed = true)
    (hlate : later (r.clippedStart b) (r.clippedStop b) = false) (hheld : ∃ d ∈ pl.cuts, d.id = r.id) :
    pl.judgeInsert b r = pl.refuse .duplicate := by
  rw [Plan.judgeInsert, if_neg hbad, if_neg (Bool.eq_false_iff.1 hlate),
    if_pos ((findCut_isSome_iff pl.cuts r.id).2 hheld)]

/-- A request that meets none of the first three reasons is judged by the room in the table and by the cap. -/
theorem judgeInsert_new (hbad : ¬ r.malformed = true)
    (hlate : later (r.clippedStart b) (r.clippedStop b) = false) (hnew : ¬ ∃ d ∈ pl.cuts, d.id = r.id) :
    pl.judgeInsert b r =
      if 32 ≤ pl.cuts.length then pl.refuse .full
      else if r.overCap b pl.paces = true then pl.refuse .cap
      else ⟨⟨insertCut (r.cut b) pl.cuts, r.pacesKept b pl.paces, pl.spans⟩, none, some (r.cut b), none⟩ := by
  rw [Plan.judgeInsert, if_neg hbad, if_neg (Bool.eq_false_iff.1 hlate),
    if_neg (mt (findCut_isSome_iff pl.cuts r.id).1 hnew)]

end Judgement

/-- Settles O21: each clause is one branch of the judgement, read in the words of the rules. -/
theorem insertionJudgement : Obligations.InsertionJudgement := by
  intro pl b r bad start stop kept cap held goesBefore
  have hbad : r.malformed = true ↔ bad := malformed_iff r
  have hstart : r.clippedStart b = start := rfl
  have hstop : r.clippedStop b = stop := clippedStop_eq r b
  have hkept : r.pacesKept b pl.paces = kept := by rw [pacesKept_eq, hstart, hstop]
  have hcap : r.overCap b pl.paces = true ↔ cap := by rw [overCap_iff, hkept]
  rw [← hbad, ← hcap, ← hkept, ← hstop]
  refine ⟨judgeInsert_malformed, judgeInsert_late, judgeInsert_duplicate, ?full, ?cap, ?accepted⟩
  case full =>
    intro hbad hlate hnew hfull
    rw [judgeInsert_new hbad hlate hnew, if_pos hfull]
  case cap =>
    intro hbad hlate hnew hroom hcap
    rw [judgeInsert_new hbad hlate hnew, if_neg (Nat.not_le.2 hroom), if_pos hcap]
  case accepted =>
    intro hbad hlate hnew hroom hcap
    rw [judgeInsert_new hbad hlate hnew, if_neg (Nat.not_le.2 hroom), if_neg hcap]
    exact ⟨rfl, rfl, insertCut_placedIn (r.cut b) pl.cuts, rfl, rfl⟩

end Sys2Proof.Proofs.EditPlan
end

