-- ==== Sys2Proof/Proofs/PlanFits.lean ====
section
/-! SUPPORT. What the rules of the edit plan keep of its capacities (R53, R55, R56), and the lists with one entry per
station. -/

namespace Sys2Proof.Safety

open Sys2Proof.Machine

/-! ## One entry per station (log entry 38) -/

/-- There are 32 station numbers, so the order of the list bounds its length. -/
theorem onePerStation_iff (ks : List Station) : OnePerStation ks ↔ ks.Pairwise (· < ·) := by
  refine ⟨And.left, fun h => ⟨h, ?_⟩⟩
  have nodup : ks.Nodup := h.imp fun hlt => hlt.ne
  simpa using nodup.length_le_card

theorem onePerStation_nil : OnePerStation [] := ⟨.nil, by simp⟩

theorem OnePerStation.sublist {ks ls : List Station} (h : OnePerStation ks) (hs : ls.Sublist ks) : OnePerStation ls :=
  (onePerStation_iff ls).2 (h.1.sublist hs)

/-- A new station number takes its place. -/
theorem OnePerStation.orderedInsert {ks : List Station} {k : Station} (h : OnePerStation ks) (hk : k ∉ ks) :
    OnePerStation (ks.orderedInsert (· < ·) k) := by
  refine (onePerStation_iff _).2 ?_
  replace h := h.1
  induction ks with
  | nil => simp
  | cons d rest ih =>
    obtain ⟨hd, hrest⟩ := List.pairwise_cons.1 h
    obtain ⟨hkd, hkrest⟩ := not_or.1 (mt List.mem_cons.2 hk)
    rw [List.orderedInsert_cons]
    split
    case isTrue hlt => exact .cons (fun j hj => (List.mem_cons.1 hj).elim (· ▸ hlt) fun hj => hlt.trans (hd j hj)) h
    case isFalse hge =>
      have hdk : d < k := lt_of_le_of_ne (not_lt.1 hge) (Ne.symm hkd)
      exact .cons (fun j hj => ((List.mem_orderedInsert _).1 hj).elim (· ▸ hdk) (hd j)) (ih hkrest hrest)

/-- A list kept in ascending key loses the entries of one key: the key is not in it any more. -/
theorem not_mem_map_filter_ne {α : Type} (key : α → Station) (k : Station) (l : List α) :
    k ∉ (l.filter (fun d => key d != k)).map key := by
  simp

/-- A content takes the place of the entry that its station had. -/
theorem OnePerStation.replace {α : Type} {key : α → Station} {l : List α} (h : OnePerStation (l.map key)) (k : Station) :
    OnePerStation (((l.filter (fun d => key d != k)).map key).orderedInsert (· < ·) k) :=
  OnePerStation.orderedInsert (h.sublist (List.filter_sublist.map key)) (not_mem_map_filter_ne key k l)

theorem map_insertSpan (c : Span) (l : List Span) :
    (insertSpan c l).map Span.origin = (l.map Span.origin).orderedInsert (· < ·) c.origin := by
  induction l with
  | nil => rfl
  | cons d rest ih =>
    unfold insertSpan
    rw [List.map_cons, List.orderedInsert_cons, ← ih]
    exact apply_ite (List.map Span.origin) _ _ _

theorem map_insertHeld (c : HeldBy) (l : List HeldBy) :
    (insertHeld c l).map HeldBy.station = (l.map HeldBy.station).orderedInsert (· < ·) c.station := by
  induction l with
  | nil => rfl
  | cons d rest ih =>
    unfold insertHeld
    rw [List.map_cons, List.orderedInsert_cons, ← ih]
    exact apply_ite (List.map HeldBy.station) _ _ _

theorem map_insertPeer (p : Peer) (l : List Peer) :
    (insertPeer p l).map Peer.station = (l.map Peer.station).orderedInsert (· < ·) p.station := by
  induction l with
  | nil => rfl
  | cons d rest ih =>
    unfold insertPeer
    rw [List.map_cons, List.orderedInsert_cons, ← ih]
    exact apply_ite (List.map Peer.station) _ _ _

/-- R162: a beacon fills one entry of the peer table. -/
theorem onePerStation_setPeer {peers : List Peer} (h : OnePerStation (peers.map Peer.station)) (p : Peer) :
    OnePerStation ((setPeer peers p).map Peer.station) := by
  rw [setPeer, map_insertPeer]
  exact h.replace p.station

/-! ## The held-by set (R99) -/

theorem heldByFits_nil : HeldByFits [] := ⟨onePerStation_nil, by simp⟩

theorem HeldByFits.sublist {l m : List HeldBy} (h : HeldByFits l) (hs : m.Sublist l) : HeldByFits m :=
  ⟨h.1.sublist (hs.map HeldBy.station), fun d hd => h.2 d (hs.subset hd)⟩

theorem HeldByFits.tickHeld {l : List HeldBy} (h : HeldByFits l) : HeldByFits (tickHeld l) := by
  unfold Machine.tickHeld
  refine ⟨by simpa [Function.comp_def] using h.1, ?_⟩
  simp only [List.mem_map, forall_exists_index, and_imp, forall_apply_eq_imp_iff₂]
  exact fun d hd => (Nat.sub_le _ _).trans (h.2 d hd)

theorem HeldByFits.dropLapsed {l : List HeldBy} (h : HeldByFits l) : HeldByFits (dropLapsed l) :=
  h.sublist List.filter_sublist

theorem HeldByFits.resumeFrom {l : List HeldBy} (h : HeldByFits l) (k : Station) : HeldByFits (resumeFrom l k) :=
  h.sublist List.filter_sublist

theorem mem_insertHeld {c d : HeldBy} {l : List HeldBy} (h : d ∈ insertHeld c l) : d = c ∨ d ∈ l := by
  induction l with
  | nil => simpa [insertHeld] using h
  | cons e rest ih =>
    unfold insertHeld at h
    split at h
    · simpa using h
    · obtain rfl | h := List.mem_cons.1 h
      · exact .inr List.mem_cons_self
      · exact (ih h).imp_right (List.mem_cons_of_mem e)

theorem HeldByFits.holdFrom {l : List HeldBy} (h : HeldByFits l) (k : Station) : HeldByFits (holdFrom l k) := by
  constructor
  · rw [Machine.holdFrom, map_insertHeld]
    exact h.1.replace k
  · intro d hd
    obtain rfl | hd := mem_insertHeld hd
    · exact le_refl 100
    · exact h.2 d (List.mem_of_mem_filter hd)

/-! ## The plan (R53, R55, R56) -/

theorem planFits_empty : PlanFits .empty := ⟨by simp [Plan.empty], .nil, by simp [Plan.empty], .nil, onePerStation_nil⟩

/-- A plan that only loses entries keeps its capacities; a cut may change its state (R62). -/
theorem PlanFits.of_sublist {p q : Plan} (h : PlanFits p) (hc : (q.cuts.map Cut.id).Sublist (p.cuts.map Cut.id))
    (hp : q.paces.Sublist p.paces) (hs : q.spans.Sublist p.spans) : PlanFits q := by
  obtain ⟨hcuts, hids, hpaces, hpsns, hspans⟩ := h
  have hlen : q.cuts.length ≤ p.cuts.length := by simpa using hc.length_le
  exact ⟨hlen.trans hcuts, hids.sublist hc, hp.length_le.trans hpaces, hpsns.sublist (hp.map _),
    hspans.sublist (hs.map _)⟩

theorem PlanFits.retire {p : Plan} (h : PlanFits p) (q : Slot) : PlanFits (p.retire q) := by
  refine h.of_sublist ?_ List.filter_sublist (List.Sublist.refl _)
  simp only [Plan.retire, List.map_map]
  exact List.filter_sublist.map Cut.id

theorem PlanFits.expireSpans {p : Plan} (h : PlanFits p) (x : Slot) : PlanFits (p.expireSpans x) :=
  h.of_sublist (List.Sublist.refl _) (List.Sublist.refl _) List.filter_sublist

theorem PlanFits.retireDue {p : Plan} (h : PlanFits p) (q x : Slot) (expire : Bool) : PlanFits (p.retireDue q x expire) := by
  unfold Plan.retireDue
  split
  · exact (h.retire q).expireSpans x
  · exact h.retire q

theorem PlanFits.idleSpan {p : Plan} (h : PlanFits p) (k : Station) : PlanFits (p.idleSpan k) :=
  h.of_sublist (List.Sublist.refl _) (List.Sublist.refl _) List.filter_sublist

theorem PlanFits.setSpan {p : Plan} (h : PlanFits p) (c : Span) : PlanFits (p.setSpan c) := by
  obtain ⟨hcuts, hids, hpaces, hpsns, hspans⟩ := h
  refine ⟨hcuts, hids, hpaces, hpsns, ?_⟩
  rw [Plan.setSpan, map_insertSpan]
  exact hspans.replace c.origin

/-- R53: a cut whose identifier is new takes its place where there is room. -/
theorem PlanFits.insertCut {p : Plan} (h : PlanFits p) {c : Cut} (hroom : ¬ 32 ≤ p.cuts.length)
    (hnew : ¬ (findCut p.cuts c.id).isSome = true) {paces : List Pace} (hp : paces.Sublist p.paces) :
    PlanFits { p with cuts := insertCut c p.cuts, paces := paces } := by
  obtain ⟨-, hids, hpaces, hpsns, hspans⟩ := h
  refine ⟨?_, ?_, hp.length_le.trans hpaces, hpsns.sublist (hp.map _), hspans⟩
  · have := insertCut_length c p.cuts
    dsimp only
    omega
  · refine ((insertCut_perm c p.cuts).map Cut.id).nodup_iff.2 (List.nodup_cons.2 ⟨fun hmem => hnew ?_, hids⟩)
    exact (findCut_isSome_iff p.cuts c.id).2 (List.mem_map.1 hmem)

/-- R55: a pace entry at a new PSN takes its place where there is room. -/
theorem PlanFits.insertPace {p : Plan} (h : PlanFits p) {e : Pace} (hroom : ¬ 64 ≤ p.paces.length)
    (hnew : ¬ (paceAt p.paces e.psn).isSome = true) : PlanFits { p with paces := insertPace e p.paces } := by
  obtain ⟨hcuts, hids, -, hpsns, hspans⟩ := h
  refine ⟨hcuts, hids, ?_, ?_, hspans⟩
  · have := insertPace_length e p.paces
    dsimp only
    omega
  · refine ((insertPace_perm e p.paces).map Pace.psn).nodup_iff.2 (List.nodup_cons.2 ⟨fun hmem => hnew ?_, hpsns⟩)
    exact (paceAt_isSome_iff p.paces e.psn).2 (List.mem_map.1 hmem)

/-! ## The judgements (R59, R64, R118, R122 to R125, R146) -/

theorem PlanFits.judgeInsert {p : Plan} (h : PlanFits p) (b : Bounds) (r : CutRequest) :
    PlanFits (p.judgeInsert b r).plan := by
  have kept : (r.pacesKept b p.paces).Sublist p.paces := by
    unfold CutRequest.pacesKept
    split
    · exact List.filter_sublist
    · exact List.Sublist.refl _
  unfold Plan.judgeInsert
  split_ifs with _ _ hheld hfull
  case neg => exact h.insertCut hfull hheld kept
  all_goals exact h

theorem PlanFits.judgeRescind {p : Plan} (h : PlanFits p) (b : Bounds) (k : Station) (id : CutId) :
    PlanFits (p.judgeRescind b k id).plan := by
  unfold Plan.judgeRescind
  split
  · exact h
  · split_ifs
    case neg =>
      exact h.of_sublist (List.filter_sublist.map _) (List.Sublist.refl _) (List.Sublist.refl _)
    all_goals exact h

theorem PlanFits.judgeSpanOut {p : Plan} (h : PlanFits p) (b : Bounds) (k : Station) (q : Slot) :
    PlanFits (p.judgeSpanOut b k q).plan := by
  unfold Plan.judgeSpanOut
  split
  · exact h
  · split_ifs
    · exact h.setSpan _
    · exact h
    · exact h.idleSpan k

theorem PlanFits.judgeSpanCommit {p : Plan} (h : PlanFits p) (b : Bounds) (k : Station) (n : Byte) (kind : CutKind) :
    PlanFits (p.judgeSpanCommit b k n kind).plan := by
  unfold Plan.judgeSpanCommit
  split
  · exact (h.idleSpan k).judgeInsert _ _
  · exact h

theorem PlanFits.judgeContent {p : Plan} (h : PlanFits p) (b : Bounds) (k : Station) (m : Mark) :
    PlanFits (p.judgeContent b k m).plan := by
  cases m with
  | dump => exact h.judgeInsert _ _
  | tagMask => exact h.judgeInsert _ _
  | rescind => exact h.judgeRescind _ _ _
  | spanIn => exact h.setSpan _
  | spanOut => exact h.judgeSpanOut _ _ _
  | spanCommit => exact h.judgeSpanCommit _ _ _ _
  | spanAbandon => exact h.idleSpan k

theorem PlanFits.refuseFrame {p : Plan} (h : PlanFits p) (k : Station) (kind : Kind) :
    PlanFits (p.refuseFrame k kind).plan := by
  unfold Plan.refuseFrame
  split
  · exact h.idleSpan k
  · exact h

theorem PlanFits.judgeMark {p : Plan} (h : PlanFits p) (b : Bounds) (k : Station) (kind : Kind) (body : List Byte) :
    PlanFits (p.judgeMark b k kind body).plan := by
  unfold Plan.judgeMark
  split
  · exact h.refuseFrame k kind
  · split
    · exact h.refuseFrame k kind
    · exact h.judgeContent b k _

theorem PlanFits.judgeEntry {p : Plan} (h : PlanFits p) (b : Bounds) (stamp : Slot) (e : Pace) :
    PlanFits (p.judgeEntry b stamp e).plan := by
  unfold Plan.judgeEntry
  split_ifs with _ _ hheld hfull
  case neg => exact h.insertPace hfull hheld
  all_goals exact h

theorem PlanFits.judgePace {p : Plan} (h : PlanFits p) (b : Bounds) (body : List Byte) :
    PlanFits (p.judgePace b body).plan := by
  unfold Plan.judgePace
  split
  · exact h.judgeEntry _ _ _
  · exact h

theorem PlanFits.judgeFrame {p : Plan} (h : PlanFits p) (b : Bounds) (f : RxFrame) :
    PlanFits (p.judgeFrame b f).plan := by
  unfold Plan.judgeFrame
  split
  · exact h.judgePace b f.body
  · exact h.judgeMark b f.sender f.kind f.body

/-! ## The image and the replay of a recap (R172, R176) -/

theorem PlanFits.imageCut {p : Plan} (h : PlanFits p) (c : Cut) : PlanFits (imageCut p c) := by
  unfold Machine.imageCut
  split
  · exact h
  · rename_i hskip
    obtain ⟨hnew, hroom⟩ := not_or.1 hskip
    exact h.insertCut hroom hnew (List.Sublist.refl _)

theorem PlanFits.imagePace {p : Plan} (h : PlanFits p) (e : Pace) : PlanFits (imagePace p e) := by
  unfold Machine.imagePace
  split
  · exact h
  · rename_i hskip
    obtain ⟨hnew, hroom⟩ := not_or.1 hskip
    exact h.insertPace hroom hnew

theorem PlanFits.imageSpan {p : Plan} (h : PlanFits p) (c : Span) : PlanFits (imageSpan p c) := by
  unfold Machine.imageSpan
  split
  · exact h
  · exact h.setSpan c

theorem PlanFits.imageWith {r : Collecting} (h : PlanFits r.image) {f : RxFrame} {image : Plan}
    (hi : imageWith r f = some image) : PlanFits image := by
  unfold Machine.imageWith at hi
  split at hi
  · obtain ⟨c, -, rfl⟩ := Option.map_eq_some_iff.1 hi
    exact h.imageCut c
  · obtain ⟨e, -, rfl⟩ := Option.map_eq_some_iff.1 hi
    exact h.imagePace e
  · obtain ⟨c, -, rfl⟩ := Option.map_eq_some_iff.1 hi
    exact h.imageSpan c
  · exact Option.some.inj hi ▸ h

theorem PlanFits.takeFrames {p : Plan} (h : PlanFits p) (b : Bounds) (fs : List RxFrame) : PlanFits (p.takeFrames b fs) := by
  unfold Plan.takeFrames
  induction fs generalizing p with
  | nil => exact h
  | cons f fs ih => exact ih (h.judgeFrame b f)

theorem PlanFits.replayStep {p : Replay} (h : PlanFits p.plan) (r : Collecting) (y : Slot) :
    PlanFits (p.step r y).plan :=
  ((h.retire _).expireSpans y).takeFrames _ _

theorem PlanFits.replaySteps {p : Replay} (h : PlanFits p.plan) (r : Collecting) (y : Slot) (n : Nat) :
    PlanFits (p.steps r y n).plan := by
  induction n generalizing p y with
  | zero => exact h
  | succ n ih => exact ih (h.replayStep r y) (y + 1)

/-- The plan that a recap adopts comes from the image by judgements, retirements and span expiries. -/
theorem PlanFits.replayOf {r : Collecting} (h : PlanFits r.image) (e : RecapEnd) (x1 : Slot) :
    PlanFits (replayOf r e x1).plan :=
  PlanFits.replaySteps (h.takeFrames _ _) _ _ _

end Sys2Proof.Safety
end

