-- ==== Sys2Proof/Proofs/Upkeep.lean ====
section
/-! SUPPORT. The capacities block by block, and what the station's upkeep does to them: every operation that neither
receives nor sends a frame keeps the capacities, and leaves the receive queue and the flow frame alone. -/

namespace Sys2Proof.Safety

open Sys2Proof.Machine

/-! ## The capacities, block by block -/

/-- The capacities of the cue traffic unit (R88, R97, R99). -/
structure TrafficFits (t : Traffic) : Prop where
  received : t.received.length ≤ 32
  general : t.general.length ≤ 16
  heldBy : HeldByFits t.heldBy
  ordered : EntriesOrdered t

/-- The capacities of the alignment monitor (R162, R172). -/
structure MonitorFits (m : Monitor) : Prop where
  collecting : ∀ r, m.collecting = some r → CollectingFits r
  peers : OnePerStation (m.peers.map Peer.station)

/-- `Capacities`, one field per block. -/
structure Fits (s : State) : Prop where
  mem : s.mem.wf = true
  traffic : TrafficFits s.traffic
  history : s.egress.history.length ≤ 64
  stack : s.orig.stack.length ≤ 8
  plan : PlanFits s.plan
  mon : MonitorFits s.mon
  vetoCount : s.link.vetoCount ≤ 255

theorem capacities_iff_fits (s : State) : Capacities s ↔ Fits s := by
  constructor
  · rintro ⟨hmem, hreceived, hgeneral, hhistory, hstack, hplan, hcollecting, hheld, hpeers, hveto, hordered⟩
    exact ⟨hmem, ⟨hreceived, hgeneral, hheld, hordered⟩, hhistory, hstack, hplan, ⟨hcollecting, hpeers⟩, hveto⟩
  · rintro ⟨hmem, ⟨hreceived, hgeneral, hheld, hordered⟩, hhistory, hstack, hplan, ⟨hcollecting, hpeers⟩, hveto⟩
    exact ⟨hmem, hreceived, hgeneral, hhistory, hstack, hplan, hcollecting, hheld, hpeers, hveto, hordered⟩

section Updates

variable {s : State}

theorem Fits.withTraffic (h : Fits s) {v : Traffic} (hv : TrafficFits v) : Fits (s.withTraffic v) := { h with traffic := hv }
theorem Fits.withLink (h : Fits s) {v : Link} (hv : v.vetoCount ≤ 255) : Fits (s.withLink v) := { h with vetoCount := hv }
theorem Fits.withMon (h : Fits s) {v : Monitor} (hv : MonitorFits v) : Fits (s.withMon v) := { h with mon := hv }
theorem Fits.withPlan (h : Fits s) {v : Plan} (hv : PlanFits v) : Fits (s.withPlan v) := { h with plan := hv }
theorem Fits.withMem (h : Fits s) {v : Memory} (hv : v.wf = true) : Fits (s.withMem v) := { h with mem := hv }
theorem Fits.withOrig (h : Fits s) {v : Originator} (hv : v.stack.length ≤ 8) : Fits (s.withOrig v) := { h with stack := hv }
theorem Fits.withEgress (h : Fits s) {v : Egress} (hv : v.history.length ≤ 64) : Fits (s.withEgress v) :=
  { h with history := hv }

theorem Fits.withReg (h : Fits s) (v : Regulator) : Fits (s.withReg v) := { h with }
theorem Fits.withContacts (h : Fits s) (v : Contacts) : Fits (s.withContacts v) := { h with }
theorem Fits.withRef (h : Fits s) (v : RefUnit) : Fits (s.withRef v) := { h with }
theorem Fits.withStore (h : Fits s) (v : PageStore) : Fits (s.withStore v) := { h with }
theorem Fits.withIndex (h : Fits s) (v : List SlotRecord) : Fits (s.withIndex v) := { h with }
theorem Fits.withIngress (h : Fits s) (v : Ingress) : Fits (s.withIngress v) := { h with }
theorem Fits.withFree (h : Fits s) (v : Nat) : Fits (s.withFree v) := { h with }
theorem Fits.withPending (h : Fits s) (v : List Instr) : Fits (s.withPending v) := { h with }
theorem Fits.withSettings (h : Fits s) (v : Option Settings) : Fits (s.withSettings v) := { h with }

end Updates

theorem Fits.foldl {α : Type} {f : State → α → State} (hf : ∀ s x, Fits s → Fits (f s x)) (l : List α) {s : State}
    (h : Fits s) : Fits (l.foldl f s) := by
  induction l generalizing s with
  | nil => exact h
  | cons x l ih => exact ih (hf s x h)

/-! ## The general entries (R88) -/

/-- Entries that only leave, or change without their entry order, stay within their number and in their order. -/
theorem TrafficFits.ofSublist {t u : Traffic} (h : TrafficFits t) (hr : u.received = t.received) (hb : u.heldBy = t.heldBy)
    (hn : u.nextOrder = t.nextOrder) (hg : (u.general.map TxEntry.order).Sublist (t.general.map TxEntry.order)) :
    TrafficFits u := by
  obtain ⟨hreceived, hgeneral, hheld, hrise, hbelow⟩ := h
  refine ⟨hr ▸ hreceived, le_trans (by simpa using hg.length_le) hgeneral, hb ▸ hheld, hrise.sublist hg, ?_⟩
  intro e he
  obtain ⟨d, hd, hde⟩ := List.mem_map.1 (hg.subset (List.mem_map_of_mem he))
  rw [hn, ← hde]
  exact hbelow d hd

/-- R89: a new entry gets the next entry order, which is above all the others. -/
theorem TrafficFits.add {t : Traffic} (h : TrafficFits t) (hroom : ¬ 16 ≤ t.general.length) {e : TxEntry}
    (he : e.order = t.nextOrder) :
    TrafficFits { t with general := t.general ++ [e], nextOrder := t.nextOrder + 1 } := by
  obtain ⟨hreceived, hgeneral, hheld, hrise, hbelow⟩ := h
  refine ⟨hreceived, ?_, hheld, ?_, ?_⟩
  · simp only [List.length_append, List.length_singleton]
    omega
  · simp only [List.map_append, List.map_cons, List.map_nil]
    refine List.pairwise_append.2 ⟨hrise, List.pairwise_singleton _ _, fun n hn m hm => ?_⟩
    obtain ⟨d, hd, rfl⟩ := List.mem_map.1 hn
    rw [List.mem_singleton.1 hm, he]
    exact hbelow d hd
  · simp only [List.mem_append, List.mem_singleton]
    rintro d (hd | rfl)
    · exact Nat.lt_succ_of_lt (hbelow d hd)
    · exact he ▸ Nat.lt_succ_self _

/-! ## Upkeep -/

/-- An operation of the station's upkeep takes `s` to `t`: the receive queue, the flow state and the flow holder stay as they
are, the controller neither begins nor ends an attempt and keeps a flow frame current, a lit REFUSED stays lit, and every
list keeps within its capacity. -/
structure Upkeep (s t : State) : Prop where
  received : t.traffic.received = s.traffic.received
  flowState : t.traffic.flowState = s.traffic.flowState
  flow : t.traffic.flow = s.traffic.flow
  flowNext : t.traffic.flowNext = s.traffic.flowNext
  attempt : t.link.attempt = s.link.attempt
  clash : t.link.clash = s.link.clash
  current : t.link.current = some .flow ↔ s.link.current = some .flow
  refused : s.contacts.refused = true → t.contacts.refused = true
  fits : Fits s → Fits t

theorem Upkeep.refl (s : State) : Upkeep s s := ⟨rfl, rfl, rfl, rfl, rfl, rfl, .rfl, id, id⟩

theorem Upkeep.trans {s t u : State} (h : Upkeep s t) (k : Upkeep t u) : Upkeep s u where
  received := k.received.trans h.received
  flowState := k.flowState.trans h.flowState
  flow := k.flow.trans h.flow
  flowNext := k.flowNext.trans h.flowNext
  attempt := k.attempt.trans h.attempt
  clash := k.clash.trans h.clash
  current := k.current.trans h.current
  refused := k.refused ∘ h.refused
  fits := k.fits ∘ h.fits

/-- The last operation first: it tells what state it is taken in. -/
theorem Upkeep.after {s t u : State} (k : Upkeep t u) (h : Upkeep s t) : Upkeep s u := h.trans k

theorem Upkeep.foldl {α : Type} {f : State → α → State} (hf : ∀ s x, Upkeep s (f s x)) (l : List α) (s : State) :
    Upkeep s (l.foldl f s) := by
  induction l generalizing s with
  | nil => exact .refl s
  | cons x l ih => exact (hf s x).trans (ih (f s x))

/-- An update outside the traffic unit, the link and the contacts is upkeep where the capacities stand it. -/
theorem Upkeep.aside {s t : State} (ht : t.traffic = s.traffic) (hl : t.link = s.link) (hc : t.contacts = s.contacts)
    (hf : Fits s → Fits t) : Upkeep s t := by
  refine ⟨?_, ?_, ?_, ?_, ?_, ?_, ?_, ?_, hf⟩ <;> simp only [ht, hl, hc, imp_self]

section Updates

variable (s : State)

theorem Upkeep.withReg (v : Regulator) : Upkeep s (s.withReg v) := .aside rfl rfl rfl (·.withReg v)
theorem Upkeep.withRef (v : RefUnit) : Upkeep s (s.withRef v) := .aside rfl rfl rfl (·.withRef v)
theorem Upkeep.withStore (v : PageStore) : Upkeep s (s.withStore v) := .aside rfl rfl rfl (·.withStore v)
theorem Upkeep.withIndex (v : List SlotRecord) : Upkeep s (s.withIndex v) := .aside rfl rfl rfl (·.withIndex v)
theorem Upkeep.withIngress (v : Ingress) : Upkeep s (s.withIngress v) := .aside rfl rfl rfl (·.withIngress v)
theorem Upkeep.withFree (v : Nat) : Upkeep s (s.withFree v) := .aside rfl rfl rfl (·.withFree v)

theorem Upkeep.withPlan {v : Plan} (hv : Fits s → PlanFits v) : Upkeep s (s.withPlan v) :=
  .aside rfl rfl rfl fun h => h.withPlan (hv h)

theorem Upkeep.withMon {v : Monitor} (hv : MonitorFits s.mon → MonitorFits v) : Upkeep s (s.withMon v) :=
  .aside rfl rfl rfl fun h => h.withMon (hv h.mon)

theorem Upkeep.withOrig {v : Originator} (hv : s.orig.stack.length ≤ 8 → v.stack.length ≤ 8) : Upkeep s (s.withOrig v) :=
  .aside rfl rfl rfl fun h => h.withOrig (hv h.stack)

theorem Upkeep.withEgress {v : Egress} (hv : s.egress.history.length ≤ 64 → v.history.length ≤ 64) :
    Upkeep s (s.withEgress v) :=
  .aside rfl rfl rfl fun h => h.withEgress (hv h.history)

theorem Upkeep.pulseRefused : Upkeep s s.pulseRefused :=
  ⟨rfl, rfl, rfl, rfl, rfl, rfl, .rfl, fun _ => rfl, (·.withContacts _)⟩

/-- The traffic unit changes aside from the receive queue and the flow frame. -/
theorem Upkeep.withTraffic {v : Traffic} (hr : v.received = s.traffic.received) (hs : v.flowState = s.traffic.flowState)
    (hf : v.flow = s.traffic.flow) (hn : v.flowNext = s.traffic.flowNext) (hv : TrafficFits s.traffic → TrafficFits v) :
    Upkeep s (s.withTraffic v) :=
  ⟨hr, hs, hf, hn, rfl, rfl, .rfl, id, fun h => h.withTraffic (hv h.traffic)⟩

theorem Upkeep.withGeneral {es : List TxEntry} (h : (es.map TxEntry.order).Sublist (s.traffic.general.map TxEntry.order)) :
    Upkeep s (s.withGeneral es) :=
  Upkeep.withTraffic s rfl rfl rfl rfl fun ht => ht.ofSublist rfl rfl rfl h

theorem Upkeep.withHeldBy {v : List HeldBy} (hv : HeldByFits s.traffic.heldBy → HeldByFits v) : Upkeep s (s.withHeldBy v) :=
  Upkeep.withTraffic s rfl rfl rfl rfl fun ht => { ht with heldBy := hv ht.heldBy }

/-- The beacon holder takes any contents. -/
theorem Upkeep.withBeacon (h : Option Holder) (f : Option TxFrame) :
    Upkeep s (s.withTraffic { s.traffic with beacon := h, beaconNext := f }) :=
  Upkeep.withTraffic s rfl rfl rfl rfl fun ht => ht.ofSublist rfl rfl rfl (List.Sublist.refl _)

/-- A frame other than the flow frame leaves the controller. -/
theorem Upkeep.release {r : TxRef} (hr : r ≠ .flow) : Upkeep s (s.release r) := by
  unfold State.release
  split
  · rename_i hc
    have hcur : s.link.current = some r := by simpa [State.isCurrent] using hc
    refine ⟨rfl, rfl, rfl, rfl, rfl, rfl, ?_, id, (·.withLink (Fits.vetoCount ‹_›))⟩
    simpa [State.withCurrent, hcur] using hr
  · exact .refl s

end Updates

/-- The order of an entry survives a change that keeps it. -/
theorem map_order_changed {f : TxEntry → TxEntry} (hf : ∀ e, (f e).order = e.order) (o : Nat) (es : List TxEntry) :
    (es.map (fun e => if e.order = o then f e else e)).map TxEntry.order = es.map TxEntry.order := by
  rw [List.map_map]
  refine List.map_congr_left fun e _ => ?_
  simp only [Function.comp_apply]
  split
  · exact hf e
  · rfl

theorem upkeep_changeEntry (s : State) (o : Nat) {f : TxEntry → TxEntry} (hf : ∀ e, (f e).order = e.order) :
    Upkeep s (s.changeEntry o f) :=
  Upkeep.withGeneral s (by rw [map_order_changed hf])

theorem upkeep_freeEntry (s : State) (o : Nat) : Upkeep s (s.freeEntry o) :=
  Upkeep.withGeneral s (List.filter_sublist.map _)

/-! ## The cue traffic unit -/

theorem upkeep_tell (s : State) (e : TxEntry) (f : Fate) : Upkeep s (s.tell e f) := by
  unfold State.tell State.tellRegulator
  split
  · exact .refl s
  · split
    · split
      · exact .withReg s _
      · exact .refl s
    · exact .refl s
  · split
    · exact .withMon s fun h => { h with }
    · exact .refl s

theorem upkeep_addEntry (s : State) (owner : Owner) (f : TxFrame) (st : Option Slot) (stream : Bool) :
    Upkeep s (s.addEntry owner f st stream).1 := by
  unfold State.addEntry
  split
  · exact .refl s
  · split
    · dsimp only
      split
      · exact .pulseRefused s
      · exact .refl s
    · rename_i hfree
      have hroom : ¬ 16 ≤ s.traffic.general.length := fun hfull => hfree (by simp [hfull])
      exact Upkeep.withTraffic s rfl rfl rfl rfl fun ht => ht.add hroom rfl

theorem upkeep_cancelEntry (s : State) (e : TxEntry) : Upkeep s (s.cancelEntry e) := by
  unfold State.cancelEntry
  split
  · exact upkeep_changeEntry s _ fun _ => rfl
  · split
    · exact upkeep_changeEntry s _ fun _ => rfl
    · exact (upkeep_freeEntry s _).trans (upkeep_tell _ _ _)

theorem upkeep_cancelWhere (s : State) (p : TxEntry → Bool) : Upkeep s (s.cancelWhere p) :=
  .foldl upkeep_cancelEntry _ s

theorem upkeep_withdrawEntry (s : State) (e : TxEntry) : Upkeep s (s.withdrawEntry e) := by
  unfold State.withdrawEntry
  split
  · exact .refl s
  · split
    · exact upkeep_changeEntry s _ fun _ => rfl
    · split
      · exact Upkeep.after (.pulseRefused _) (upkeep_changeEntry s _ fun _ => rfl)
      · exact ((upkeep_freeEntry s _).trans (upkeep_tell _ _ _)).trans (.pulseRefused _)

theorem upkeep_withdrawStale (s : State) (x : Slot) : Upkeep s (s.withdrawStale x) := .foldl upkeep_withdrawEntry _ s

theorem upkeep_withdrawMarks (s : State) : Upkeep s s.withdrawMarks := .foldl upkeep_withdrawEntry _ s

theorem upkeep_closeStream (s : State) : Upkeep s s.closeStream := by
  refine .foldl (fun s e => ?_) _ s
  split
  · exact upkeep_freeEntry s _
  · exact upkeep_cancelEntry s e

theorem upkeep_fillStream (s : State) (f : TxFrame) : Upkeep s (s.fillStream f) := by
  unfold State.fillStream
  split
  · exact Upkeep.after (.release _ TxRef.noConfusion) (upkeep_changeEntry s _ fun _ => rfl)
  · exact .refl s

theorem upkeep_placeBeacon (s : State) (f : TxFrame) : Upkeep s (s.placeBeacon f) := by
  unfold State.placeBeacon
  split
  · exact .refl s
  · split
    · exact .withBeacon s _ _
    · exact Upkeep.after (.release _ TxRef.noConfusion) (.withBeacon s _ _)

theorem upkeep_emptyBeacon (s : State) : Upkeep s s.emptyBeacon := by
  unfold State.emptyBeacon
  split
  · exact .withBeacon s _ _
  · split <;> exact .withBeacon s _ _

theorem upkeep_loseTraffic (s : State) : Upkeep s s.loseTraffic :=
  ((upkeep_cancelWhere s _).trans (upkeep_closeStream _)).trans (upkeep_emptyBeacon _)

theorem upkeep_trafficStrobe (s : State) (x : Slot) (own : Bool) : Upkeep s (s.trafficStrobe x own) := by
  have tick : Upkeep s (s.withHeldBy (tickHeld s.traffic.heldBy)) := .withHeldBy s HeldByFits.tickHeld
  unfold State.trafficStrobe
  dsimp only
  split
  · exact tick
  · exact (tick.trans (.withHeldBy _ HeldByFits.dropLapsed)).trans (upkeep_withdrawStale _ x)

/-! ## The mark originator (R109, R110, R115) -/

theorem upkeep_drawHsn (s : State) : Upkeep s s.drawHsn.2 := by
  unfold State.drawHsn
  split
  · exact .refl s
  · exact .withFree s _

theorem upkeep_sendMark (s : State) (m : Mark) : Upkeep s (s.sendMark m) := upkeep_addEntry s _ _ _ _

theorem upkeep_countGiven (s : State) : Upkeep s s.countGiven := .withOrig s id

theorem popArmed_length (cuts : List Cut) (stack : List CutId) : (popArmed cuts stack).2.length ≤ stack.length := by
  induction stack with
  | nil => exact le_refl 0
  | cons id rest ih =>
    unfold popArmed
    split
    · exact Nat.le_succ _
    · exact ih.trans (Nat.le_succ _)

theorem upkeep_pressRescind (s : State) (x : Slot) : Upkeep s (s.pressRescind x) := by
  have pop : Upkeep s (s.withOrig { s.orig with stack := (popArmed s.plan.cuts s.orig.stack).2 }) :=
    .withOrig s (popArmed_length _ _).trans
  unfold State.pressRescind
  dsimp only
  split
  · exact pop.trans (upkeep_sendMark _ _)
  · exact pop.trans (.pulseRefused _)

theorem upkeep_pressAt (s : State) (c : Settings) (x : Slot) (k : Contact) : Upkeep s (s.pressAt c x k) := by
  cases k with
  | dump => exact (upkeep_countGiven s).trans (upkeep_sendMark _ _)
  | markIn => exact upkeep_sendMark s _
  | markOut => exact upkeep_sendMark s _
  | commitDrop => exact (upkeep_countGiven s).trans (upkeep_sendMark _ _)
  | commitMask => exact (upkeep_countGiven s).trans (upkeep_sendMark _ _)
  | abandon => exact upkeep_sendMark s _
  | rescind => exact upkeep_pressRescind s x

theorem upkeep_press (s : State) (c : Settings) (k : Contact) : Upkeep s (s.press c k) :=
  (upkeep_drawHsn s).trans (upkeep_pressAt _ c _ k)

theorem upkeep_maskTagRequest (s : State) (c : Settings) (p : Slot) : Upkeep s (s.maskTagRequest c p) := by
  unfold State.maskTagRequest
  split
  · exact (upkeep_countGiven s).trans (upkeep_sendMark _ _)
  · exact .refl s

/-! ## The rebuild regulator -/

theorem upkeep_propose (s : State) (x p : Slot) (n : Int) : Upkeep s (s.propose x p n) := by
  have add := upkeep_addEntry s .regulator ⟨.pace, paceBody x p n⟩ none false
  unfold State.propose
  split <;> rename_i heq <;> rw [heq] at add
  · exact add.trans (.withReg _ _)
  · exact add

theorem upkeep_formProposal (s : State) (c : Settings) (pt : SchedPoint) (n : Nat) (x : Slot) :
    Upkeep s (s.formProposal c pt n x) := by
  unfold State.formProposal
  dsimp only
  split
  · exact .refl s
  · split
    · exact .refl s
    · exact upkeep_propose s _ _ _

theorem upkeep_proposalEvent (s : State) (c : Settings) (x : Slot) : Upkeep s (s.proposalEvent c x) := by
  unfold State.proposalEvent
  dsimp only
  split
  · split
    · exact (Upkeep.withReg s _).trans (upkeep_formProposal _ _ _ _ _)
    · exact .withReg s _
  · exact .withReg s _

theorem upkeep_cancelProposal (s : State) : Upkeep s s.cancelProposal := by
  unfold State.cancelProposal
  split
  · split
    · split
      · exact upkeep_cancelEntry s _
      · exact .refl s
    · exact .refl s
  · exact .refl s

theorem upkeep_checkProposal (s : State) (c : Settings) (b : Bounds) (cuts : List Cut) :
    Upkeep s (s.checkProposal c b cuts) := by
  unfold State.checkProposal
  split
  · split
    · exact upkeep_cancelProposal s
    · exact .refl s
  · exact .refl s

/-! ## The alignment monitor: founding, JOIN and RESYNC -/

theorem monitorFits_listening : MonitorFits .listening := ⟨by simp [Monitor.listening], onePerStation_nil⟩

theorem MonitorFits.peersFilled {m : Monitor} (h : MonitorFits m) (p : Peer) :
    MonitorFits { m with peers := setPeer m.peers p } :=
  { h with peers := onePerStation_setPeer h.peers p }

/-- A monitor without a collecting record keeps its peer table within its capacity. -/
theorem MonitorFits.uncollected {m : Monitor} (h : MonitorFits m) {n : Monitor} (hp : n.peers = m.peers)
    (hc : n.collecting = none) : MonitorFits n :=
  ⟨fun r hr => (by simp [hc] at hr), hp ▸ h.peers⟩

/-- A collecting record that keeps within its capacities is taken. -/
theorem MonitorFits.collects {m : Monitor} (h : MonitorFits m) {n : Monitor} {r : Collecting} (hp : n.peers = m.peers)
    (hc : n.collecting = some r) (hr : CollectingFits r) : MonitorFits n :=
  ⟨fun _ hr' => Option.some.inj (hc.symm.trans hr') ▸ hr, hp ▸ h.peers⟩

/-- A change of the record that leaves its lists alone keeps them within their capacities. -/
theorem MonitorFits.mapCollecting {m : Monitor} (h : MonitorFits m) {n : Monitor} {f : Collecting → Collecting}
    (hp : n.peers = m.peers) (hc : n.collecting = m.collecting.map f) (hf : ∀ r, CollectingFits r → CollectingFits (f r)) :
    MonitorFits n := by
  refine ⟨fun r hr => ?_, hp ▸ h.peers⟩
  obtain ⟨d, hd, rfl⟩ := Option.map_eq_some_iff.1 (hc.symm.trans hr)
  exact hf d (h.collecting d hd)

theorem upkeep_endOwnRecap (s : State) : Upkeep s s.endOwnRecap := .withMon s fun h => { h with }
theorem upkeep_withMode (s : State) (m : Mode) : Upkeep s (s.withMode m) := .withMon s fun h => { h with }
theorem upkeep_withRetry (s : State) (r : Option Nat) : Upkeep s (s.withRetry r) := .withMon s fun h => { h with }
theorem upkeep_loseMonitor (s : State) : Upkeep s s.loseMonitor := .withMon s fun h => { h with }
theorem upkeep_cancelJoin (s : State) : Upkeep s s.cancelJoin := upkeep_cancelWhere s _
theorem upkeep_cancelHead (s : State) : Upkeep s s.cancelHead := upkeep_cancelWhere s _

theorem upkeep_discardPlan (s : State) : Upkeep s s.discardPlan :=
  Upkeep.after (.withReg _ _)
    (Upkeep.after (.withOrig _ fun _ => Nat.zero_le 8) (.withPlan s fun _ => planFits_empty))

theorem upkeep_enterListening (s : State) : Upkeep s s.enterListening :=
  Upkeep.after (.withMon _ fun _ => monitorFits_listening)
    (Upkeep.after (.withEgress _ fun _ => Nat.zero_le 64) (upkeep_discardPlan s))

theorem upkeep_found (s : State) (c : Settings) (x : Slot) : Upkeep s (s.found c x) :=
  Upkeep.after (.withMon _ fun h => { h with }) (.withEgress s id)

theorem upkeep_addJoin (s : State) : Upkeep s s.addJoin := (upkeep_drawHsn s).trans (upkeep_addEntry _ _ _ _ _)

theorem upkeep_askAgain (s : State) : Upkeep s s.askAgain := by
  have join : Upkeep s (if s.joinQueued then s else s.addJoin) := by
    split
    · exact .refl s
    · exact upkeep_addJoin s
  exact join.trans (upkeep_withRetry _ _)

theorem upkeep_enterJoining (s : State) : Upkeep s s.enterJoining :=
  Upkeep.after (upkeep_withRetry _ _) (Upkeep.after (upkeep_addJoin _) (.withMon s fun h => { h with }))

theorem upkeep_leaveRecap (s : State) : Upkeep s s.leaveRecap := by
  unfold State.leaveRecap
  split
  · exact .refl s
  · exact (upkeep_cancelHead s).trans (upkeep_endOwnRecap _)
  · exact (upkeep_closeStream s).trans (upkeep_endOwnRecap _)

theorem upkeep_enterResync (s : State) (o : Origin) : Upkeep s (s.enterResync o) :=
  ((((upkeep_cancelProposal s).trans (upkeep_leaveRecap _)).trans (upkeep_withMode _ _)).trans (upkeep_addJoin _)).trans
    (upkeep_withRetry _ _)

theorem upkeep_frameLost (s : State) (k : Option Station) : Upkeep s (s.frameLost k) := by
  have lost : Upkeep s (s.withMon { s.mon with collecting := s.mon.collecting.map (fun r => { r with lost := true }) }) :=
    .withMon s fun h => h.mapCollecting rfl rfl fun _ hr => hr
  unfold State.frameLost
  split
  · exact upkeep_enterResync s _
  · exact upkeep_enterResync s _
  · exact lost
  · exact lost
  · exact .refl s

/-! ## The alignment monitor: beacons -/

theorem upkeep_compareBeacon (s : State) (k : Station) (b : Beacon) (o : Origin) : Upkeep s (s.compareBeacon k b o) := by
  unfold State.compareBeacon
  split
  · split
    · exact upkeep_enterResync s o
    · exact .refl s
  · exact .refl s

theorem upkeep_actOnBeacon (s : State) (k : Station) (b : Beacon) : Upkeep s (s.actOnBeacon k b) := by
  unfold State.actOnBeacon
  split
  · split
    · exact upkeep_enterJoining s
    · exact .refl s
  · exact upkeep_compareBeacon s k b _
  · exact upkeep_compareBeacon s k b _
  · exact .refl s

theorem upkeep_takeBeacon (s : State) (k : Station) (body : List Byte) : Upkeep s (s.takeBeacon k body) := by
  unfold State.takeBeacon
  split
  · exact .refl s
  · split
    · exact .refl s
    · exact ((upkeep_drawHsn s).trans (.withMon _ fun h => h.peersFilled _)).trans (upkeep_actOnBeacon _ _ _)

theorem upkeep_buildBeacon (s : State) (c : Settings) (x : Slot) : Upkeep s (s.buildBeacon c x) := by
  unfold State.buildBeacon
  split
  · split
    · split
      · exact upkeep_placeBeacon s _
      · exact .refl s
    · exact .refl s
  · exact .refl s

theorem upkeep_completeEntryAt (s : State) (c : Settings) (x : Slot) : Upkeep s (s.completeEntryAt c x) := by
  unfold State.completeEntryAt
  split
  · refine (Upkeep.withEgress s fun h => ?_).trans (upkeep_buildBeacon _ _ _)
    simpa [fillDigest] using h
  · exact .refl s

/-! ## The alignment monitor: recaps -/

theorem upkeep_answerJoin (s : State) (x : Slot) (era : Era) : Upkeep s (s.answerJoin x era) := by
  have add := upkeep_addEntry s .monitor ⟨.recapHead, headBody x era.founding⟩ none true
  unfold State.answerJoin
  split <;> rename_i heq <;> rw [heq] at add
  · exact add.trans (.withMon _ fun h => { h with })
  · exact add

theorem upkeep_takeJoin (s : State) (x : Slot) (f : RxFrame) : Upkeep s (s.takeJoin x f) := by
  unfold State.takeJoin
  split
  · split
    · exact .refl s
    · exact upkeep_answerJoin s x _
  · exact .refl s

theorem upkeep_nextStream (s : State) : Upkeep s s.nextStream := by
  unfold State.nextStream
  split
  · split
    · refine Upkeep.after (.withMon _ fun h => ?_) (upkeep_fillStream s _)
      rw [fillStream_mon] at h
      exact { h with }
    · exact .refl s
  · exact .refl s

theorem upkeep_closeRecap (s : State) : Upkeep s s.closeStream.endOwnRecap :=
  (upkeep_closeStream s).trans (upkeep_endOwnRecap _)

theorem upkeep_takeOwnHead (s : State) (b : Bounds) : Upkeep s (s.takeOwnHead b) := by
  unfold State.takeOwnHead
  split
  · exact Upkeep.after (upkeep_nextStream _) (.withMon s fun h => ⟨h.collecting, h.peers⟩)
  · exact upkeep_closeRecap s

theorem upkeep_noteForeign (s : State) (k : Station) (e : Slot) : Upkeep s (s.noteForeign k e) := by
  have note : Upkeep s (s.withMon { s.mon with foreign := some ⟨k, Config.recapSilence⟩ }) := .withMon s fun h => { h with }
  unfold State.noteForeign
  split
  · split
    · exact note
    · exact .refl s
  · exact .refl s
  · split
    · dsimp only
      split
      · exact (note.trans (upkeep_cancelHead _)).trans (upkeep_endOwnRecap _)
      · exact note
    · exact .refl s

theorem upkeep_startCollecting (s : State) (x : Slot) (k : Station) : Upkeep s (s.startCollecting x k) :=
  Upkeep.after (upkeep_cancelJoin _)
    (.withMon s fun h => h.collects rfl rfl ⟨planFits_empty, Nat.zero_le _, Nat.zero_le _⟩)

theorem upkeep_joinerHead (s : State) (x : Slot) (k : Station) (e : Slot) : Upkeep s (s.joinerHead x k e) := by
  unfold State.joinerHead
  split
  · exact upkeep_startCollecting s x k
  · exact .refl s

theorem upkeep_takeHead (s : State) (b : Bounds) (f : RxFrame) : Upkeep s (s.takeHead b f) := by
  unfold State.takeHead
  split
  · split
    · exact upkeep_closeRecap s
    · exact .refl s
  · split
    · split
      · exact upkeep_closeRecap s
      · exact .refl s
    · split
      · exact upkeep_takeOwnHead s b
      · exact (upkeep_noteForeign s _ _).trans (upkeep_joinerHead _ _ _ _)

theorem upkeep_failCollection (s : State) : Upkeep s s.failCollection :=
  Upkeep.after (upkeep_askAgain _) (.withMon s fun h => h.uncollected rfl rfl)

theorem upkeep_takeImage (s : State) (f : RxFrame) : Upkeep s (s.takeImage f) := by
  unfold State.takeImage
  split
  · exact .refl s
  · refine Upkeep.trans (t := s.renewForeign f.sender) (.withMon s fun h => { h with }) ?_
    dsimp only
    split
    · exact .refl _
    · rename_i r hr
      split
      · exact .refl _
      · split
        · exact upkeep_failCollection _
        · rename_i image himage
          refine .withMon _ fun h => ?_
          obtain ⟨hplan, hlater, hrescinds⟩ := h.collecting r hr
          exact h.collects rfl rfl ⟨hplan.imageWith himage, hlater, hrescinds⟩

theorem upkeep_recordFrame (s : State) (x : Slot) (n : Nat) (f : RxFrame) : Upkeep s (s.recordFrame x n f) := by
  unfold State.recordFrame
  split
  · exact .refl s
  · rename_i r hr
    split
    · split
      · exact upkeep_failCollection s
      · rename_i hroom
        refine .withMon s fun h => ?_
        obtain ⟨hplan, hlater, -⟩ := h.collecting r hr
        exact h.collects rfl rfl ⟨hplan, hlater, by simpa using Nat.lt_of_not_le hroom⟩
    · split
      · exact upkeep_failCollection s
      · rename_i hroom
        refine .withMon s fun h => ?_
        obtain ⟨hplan, -, hrescinds⟩ := h.collecting r hr
        exact h.collects rfl rfl ⟨hplan, by simpa using Nat.lt_of_not_le hroom, hrescinds⟩

/-! ## The alignment monitor: adoption (R175, R176) -/

theorem adoptPoint_history (s : State) (pl : Plan) (pt : SchedPoint) (x : Slot) :
    (s.adoptPoint pl pt x).history = s.egress.history := by
  unfold State.adoptPoint
  dsimp only
  split
  · split <;> rfl
  · rfl

theorem upkeep_adopt (s : State) (r : Collecting) (e : RecapEnd) (p : Replay) (x : Slot) (hp : Fits s → PlanFits p.plan) :
    Upkeep s (s.adopt r e p x) := by
  have adopted : Upkeep s
      (((((s.withEgress (s.adoptPoint (p.plan.retire p.point.psn) p.point x)).withPlan (p.plan.retire p.point.psn)).withReg
        (s.reg.takePlan (p.plan.retire p.point.psn).paces)).withMon
          { s.mon with
            mode := s.mon.mode.adopted, era := some ⟨e.founding, e.tEra⟩, collecting := none, retry := none }).cancelJoin) := by
    refine Upkeep.after (upkeep_cancelJoin _) (.aside rfl rfl rfl fun h => ?_)
    refine (((h.withEgress ?_).withPlan ((hp h).retire _)).withReg _).withMon (h.mon.uncollected rfl rfl)
    exact (adoptPoint_history s _ _ _).symm ▸ h.history
  unfold State.adopt
  dsimp only
  split
  · exact adopted.trans (upkeep_enterResync _ _)
  · exact adopted

theorem upkeep_takeEnd (s : State) (x : Slot) (f : RxFrame) : Upkeep s (s.takeEnd x f).1 := by
  unfold State.takeEnd
  split
  · dsimp only
    split
    · exact upkeep_endOwnRecap s
    · exact .refl s
  · refine Upkeep.trans (t := s.endForeign f.sender) (.withMon s fun h => { h with }) ?_
    dsimp only
    split
    · exact .refl _
    · split
      · exact upkeep_askAgain _
      · rename_i r hr
        split
        · exact .refl _
        · split
          · exact upkeep_failCollection _
          · split
            · exact upkeep_adopt _ _ _ _ _ fun h => (h.mon.collecting r hr).1.replayOf _ _
            · exact upkeep_failCollection _

/-! ## The alignment monitor: the strobe -/

theorem upkeep_expireListen (s : State) (c : Settings) (x : Slot) : Upkeep s (s.expireListen c x) := by
  unfold State.expireListen
  split
  · exact upkeep_found s c x
  · exact .refl s

theorem upkeep_expireRetry (s : State) : Upkeep s s.expireRetry := by
  unfold State.expireRetry
  split
  · exact upkeep_askAgain s
  · exact .refl s

theorem upkeep_expireCollect (s : State) : Upkeep s s.expireCollect := by
  unfold State.expireCollect
  split
  · exact upkeep_failCollection s
  · exact .refl s

theorem upkeep_expireForeign (s : State) : Upkeep s s.expireForeign := by
  unfold State.expireForeign
  split
  · exact .withMon s fun h => { h with }
  · exact .refl s

theorem upkeep_expireMonitor (s : State) (c : Settings) (x : Slot) : Upkeep s (s.expireMonitor c x) :=
  (((upkeep_expireCollect s).trans (upkeep_expireForeign _)).trans (upkeep_expireRetry _)).trans (upkeep_expireListen _ c x)

theorem upkeep_checkPeers (s : State) (x : Slot) : Upkeep s (s.checkPeers x) := by
  unfold State.checkPeers
  split
  · exact .refl s
  · split
    · exact (upkeep_cancelJoin s).trans (upkeep_enterListening _)
    · exact ((upkeep_withMode s _).trans (upkeep_cancelJoin _)).trans (upkeep_withRetry _ _)
    · exact .refl s

theorem upkeep_monitorStrobe (s : State) (c : Settings) (x : Slot) (own : Bool) : Upkeep s (s.monitorStrobe c x own) := by
  unfold State.monitorStrobe
  dsimp only
  refine Upkeep.trans (t := s.withMon s.mon.tick) (.withMon s fun h => h.mapCollecting rfl rfl fun _ hr => hr) ?_
  split
  · exact upkeep_checkPeers _ x
  · exact (upkeep_expireMonitor _ c x).trans (upkeep_checkPeers _ x)

theorem upkeep_settle (s : State) (c : Settings) : Upkeep s (s.settle c) := by
  unfold State.settle
  split
  · exact .refl s
  · rename_i x _
    have expired : Upkeep s (((s.withHeldBy (dropLapsed s.traffic.heldBy)).withdrawStale x).expireMonitor c x) :=
      ((Upkeep.withHeldBy s HeldByFits.dropLapsed).trans (upkeep_withdrawStale _ x)).trans (upkeep_expireMonitor _ c x)
    dsimp only
    refine Upkeep.trans ?_ (upkeep_completeEntryAt _ c x)
    split
    · exact expired.trans (.withPlan _ fun h => h.plan.expireSpans x)
    · exact expired

/-! ## The frames of an intake -/

theorem upkeep_pulseIfRefused (s : State) (own : Bool) (r : Option Reason) : Upkeep s (s.pulseIfRefused own r) := by
  unfold State.pulseIfRefused
  split
  · exact .pulseRefused s
  · exact .refl s

theorem upkeep_reportCut (s : State) (c : Option Cut) : Upkeep s (s.reportCut c) := by
  unfold State.reportCut
  split
  · split
    · exact .withOrig s fun _ => List.length_take_le 8 _
    · exact .refl s
  · exact .refl s

theorem upkeep_handleMark (s : State) (b : Bounds) (f : RxFrame) : Upkeep s (s.handleMark b f).1 :=
  ((Upkeep.withPlan s fun h => h.plan.judgeMark b f.sender f.kind f.body).trans (upkeep_pulseIfRefused _ _ _)).trans
    (upkeep_reportCut _ _)

theorem upkeep_handlePace (s : State) (c : Settings) (b : Bounds) (f : RxFrame) : Upkeep s (s.handlePace c b f) :=
  ((Upkeep.withPlan s fun h => h.plan.judgePace b f.body).trans (.withReg _ _)).trans (upkeep_pulseIfRefused _ _ _)

theorem upkeep_mark (k : Intake) (f : RxFrame) : Upkeep k.state (k.mark f).state := by
  unfold Intake.mark
  split
  · split
    · exact upkeep_handleMark k.state _ f
    · exact .refl _
  · exact .refl _

theorem upkeep_pace (k : Intake) (c : Settings) (f : RxFrame) : Upkeep k.state (k.pace c f).state := by
  unfold Intake.pace
  split
  · split
    · exact upkeep_handlePace k.state c _ f
    · exact .refl _
  · exact .refl _

theorem upkeep_handle (k : Intake) (c : Settings) (x : Slot) (f : RxFrame) : Upkeep k.state (k.handle c x f).state := by
  unfold Intake.handle
  split
  case h_1 => exact upkeep_pace k c f
  case h_2 => exact upkeep_takeHead k.state _ f
  case h_3 | h_4 | h_5 => exact upkeep_takeImage k.state f
  case h_6 => exact upkeep_takeEnd k.state x f
  case h_7 => exact upkeep_takeJoin k.state x f
  case h_8 | h_9 | h_10 => exact .refl _
  case h_11 => exact upkeep_mark k f

theorem upkeep_record (k : Intake) (x : Slot) (n : Nat) (f : RxFrame) : Upkeep k.state (k.record x n f).state := by
  unfold Intake.record
  split
  · exact upkeep_recordFrame k.state x n f
  · exact .refl _

theorem upkeep_openIntake (s : State) (x : Slot) (own : Bool) : Upkeep s (s.openIntake x own).state := by
  unfold State.openIntake
  split
  · split
    · exact Upkeep.after (.withPlan _ fun h => h.plan.retireDue _ _ _) (.withEgress s id)
    · exact .refl s
  · exact .refl s

theorem upkeep_close (k : Intake) (c : Settings) : Upkeep k.state (k.close c) := by
  unfold Intake.close
  split
  · exact (Upkeep.withReg _ _).trans (upkeep_checkProposal _ _ _ _)
  · exact .refl _

/-! ## The slot close and the output -/

/-- What changes the page store, the slot index and the open bursts alone is upkeep. -/
theorem upkeep_of_storeSide {s t : State} (h : StoreSide s t) : Upkeep s t := by
  unfold StoreSide at h
  rw [h]
  exact .aside rfl rfl rfl fun hs => { hs with }

theorem upkeep_closeSlot (s : State) (c : Settings) (h : Slot) : Upkeep s (s.closeSlot c h) := by
  unfold State.closeSlot
  split
  · exact .withIngress s _
  · exact (Upkeep.withIngress s _).trans (upkeep_of_storeSide (append_storeSide _ _ _))

theorem upkeep_closeAndTag (s : State) (c : Settings) (h : Slot) : Upkeep s (s.closeAndTag c h) := by
  unfold State.closeAndTag
  split
  · split
    · exact (upkeep_closeSlot s c h).trans (upkeep_maskTagRequest _ _ _)
    · exact upkeep_closeSlot s c h
  · exact upkeep_closeSlot s c h

theorem upkeep_endBursts (s : State) (p : OutBurst → Bool) : Upkeep s (s.endBursts p) :=
  upkeep_of_storeSide (endBursts_storeSide s p)

/-- R138: a 65th entry pushes the oldest out. -/
theorem openEntry_length (hist : List HistEntry) (pt : SchedPoint) : (openEntry hist pt).length ≤ 64 := by
  unfold openEntry
  dsimp only [Config.historyCapacity]
  rw [List.length_drop]
  omega

theorem upkeep_scheduleHeld (s : State) (q : Slot) : Upkeep s (s.scheduleHeld q) := by
  unfold State.scheduleHeld
  split
  · exact .withMon s fun h => { h with }
  · exact .refl s

theorem upkeep_playStep (s : State) (c : Settings) (pt : SchedPoint) : Upkeep s (s.playStep c pt) := by
  unfold State.playStep
  dsimp only
  refine Upkeep.trans ?_ (upkeep_scheduleHeld _ _)
  refine Upkeep.trans ?_ (upkeep_of_storeSide (removePassed_storeSide _ _ _))
  refine (upkeep_endBursts s fun _ => true).trans ?_
  exact Upkeep.after (.withPlan _ fun h => h.plan.retire _) (.withEgress _ fun _ => openEntry_length _ _)

theorem upkeep_outputStep (s : State) (c : Settings) (x : Slot) : Upkeep s (s.outputStep c x) := by
  unfold State.outputStep
  split
  · exact upkeep_playStep s c _
  · exact .refl s

theorem upkeep_substituteStep (s : State) (c : Settings) (x : Slot) : Upkeep s (s.substituteStep c x) :=
  (upkeep_endBursts s _).trans (.withEgress _ id)

theorem upkeep_strobeOutput (s : State) (c : Settings) (x : Slot) : Upkeep s (s.strobeOutput c x) := by
  unfold State.strobeOutput
  split
  · exact upkeep_outputStep s c x
  · exact (upkeep_substituteStep s c x).trans (upkeep_of_storeSide (removeAged_storeSide _ _ _))

end Sys2Proof.Safety
end

