-- ==== Sys2Proof/Proofs/Capacities.lean ====
section
/-! SUPPORT. Every step keeps the capacities: what a strobe, the reception and the sending of frames, and the other commands
do to them. -/

namespace Sys2Proof.Safety

open Sys2Proof.Machine

/-! ## The receive queue and the flow holder (R97, R98) -/

/-- A change of the traffic unit that leaves the receive queue, the general entries and the held-by set alone. -/
theorem Fits.withHolders {s : State} (h : Fits s) {v : Traffic} (hr : v.received = s.traffic.received)
    (hb : v.heldBy = s.traffic.heldBy) (hn : v.nextOrder = s.traffic.nextOrder)
    (hg : v.general = s.traffic.general) : Fits (s.withTraffic v) :=
  h.withTraffic (h.traffic.ofSublist hr hb hn (by rw [hg]))

theorem Fits.withCurrent {s : State} (h : Fits s) (r : Option TxRef) : Fits (s.withCurrent r) := h.withLink h.vetoCount

theorem Fits.release {s : State} (h : Fits s) (r : TxRef) : Fits (s.release r) := by
  unfold State.release
  split
  · exact h.withCurrent none
  · exact h

theorem Fits.loadFlow {s : State} (h : Fits s) : Fits s.loadFlow := by
  unfold State.loadFlow
  split
  · exact h
  · split
    · exact h.withHolders rfl rfl rfl rfl
    · refine Fits.release ?_ _
      exact h.withHolders rfl rfl rfl rfl

theorem Fits.withReceived {s : State} (h : Fits s) {l : List RxFrame} (hl : l.length ≤ 32) :
    Fits (s.withTraffic { s.traffic with received := l }) :=
  h.withTraffic { h.traffic with received := hl }

theorem Fits.afterRemoval {s : State} (h : Fits s) : Fits s.afterRemoval := by
  unfold State.afterRemoval
  split
  · exact Fits.loadFlow (h.withHolders rfl rfl rfl rfl)
  · exact h

theorem Fits.afterPlacement {s : State} (h : Fits s) : Fits s.afterPlacement := by
  unfold State.afterPlacement
  split
  · exact Fits.loadFlow (h.withHolders rfl rfl rfl rfl)
  · exact h

theorem Fits.dropReceived {s : State} (h : Fits s) : Fits s.dropReceived := by
  refine Fits.afterRemoval (h.withReceived ?_)
  exact (List.tail_sublist _).length_le.trans h.traffic.received

theorem Fits.emptyReceived {s : State} (h : Fits s) : Fits s.emptyReceived :=
  Fits.afterRemoval (h.withReceived (Nat.zero_le 32))

/-- R97: a frame is placed only where the queue has room. -/
theorem Fits.placeFrame {s : State} (h : Fits s) (hroom : s.queueFull = false) (f : RxFrame) : Fits (s.placeFrame f) := by
  refine Fits.afterPlacement (h.withReceived ?_)
  have : s.traffic.received.length < 32 := by simpa [State.queueFull] using hroom
  simp only [List.length_append, List.length_singleton]
  omega

/-! ## The intake and the strobe -/

theorem fits_take {k : Intake} (h : Fits k.state) (c : Settings) (x : Slot) (n : Nat) (f : RxFrame) :
    Fits (k.take c x n f).state :=
  (upkeep_record _ x n f).fits
    ((upkeep_handle ({ k with state := k.state.dropReceived } : Intake) c x f).fits h.dropReceived)

theorem fits_takeAll {k : Intake} (h : Fits k.state) (c : Settings) (x : Slot) (n : Nat) (fs : List RxFrame) :
    Fits (k.takeAll c x n fs).state := by
  induction fs generalizing k n with
  | nil => exact h
  | cons f fs ih => exact ih (fits_take h c x n f) (n + 1)

theorem Fits.intake {s : State} (h : Fits s) (c : Settings) (x : Slot) (own : Bool) : Fits (s.intake c x own) :=
  (upkeep_close _ c).fits (fits_takeAll ((upkeep_openIntake s x own).fits h) c x 0 _)

theorem Fits.takePart {s : State} (h : Fits s) (c : Settings) (x : Slot) (own : Bool) (p : StrobePart) :
    Fits (s.takePart c x own p) := by
  cases p with
  | traffic => exact (upkeep_trafficStrobe s x own).fits h
  | slotClose => exact (upkeep_closeAndTag s c x).fits h
  | outputStep => exact (upkeep_strobeOutput s c x).fits h
  | intake => exact h.intake c x own
  | proposal => exact (upkeep_proposalEvent s c x).fits h
  | monitor => exact (upkeep_monitorStrobe s c x own).fits h

theorem Fits.ordinaryStrobe {s : State} (h : Fits s) (c : Settings) (x : Slot) (o : StrobeOrder) :
    Fits (s.ordinaryStrobe c x o) :=
  takeParts_keeps (fun s t => Fits s → Fits t) (fun _ => id) (fun h k => k ∘ h) c x o.ownSteps
    (fun _ p h => h.takePart c x o.ownSteps p) (fun s => (upkeep_completeEntryAt s c x).fits) _ _ _
    (((upkeep_settle s c).fits h).withRef _)

theorem Fits.loseReference {s : State} (h : Fits s) (c : Settings) : Fits (s.loseReference c) := by
  have lost : Fits (((s.settle c).withRef { (s.settle c).ref with flag := .lost, timerRunning := false }).loseIngress c) := by
    have settled := ((upkeep_settle s c).fits h).withRef { (s.settle c).ref with flag := .lost, timerRunning := false }
    unfold State.loseIngress
    split
    · exact settled
    · exact (settled.withStore _).withIngress _
  exact (upkeep_loseMonitor _).fits ((upkeep_loseTraffic _).fits lost)

theorem Fits.returnEgress {s : State} (h : Fits s) (c : Settings) (x : Slot) : Fits (s.returnEgress c x) := by
  refine (upkeep_substituteStep _ c x).fits (Fits.withEgress ?_ (Nat.zero_le 64))
  exact (upkeep_endBursts s _).fits h

theorem Fits.returnTraffic {s : State} (h : Fits s) : Fits s.returnTraffic :=
  Upkeep.fits (.withHeldBy _ fun hb => hb.tickHeld.dropLapsed) ((upkeep_withdrawMarks _).fits h.emptyReceived)

theorem Fits.takeReturn {s : State} (h : Fits s) (c : Settings) (x : Slot) : Fits (s.takeReturn c x) := by
  have back := (((h.withRef (.strobe x)).returnEgress c x).withIndex []).withStore
    (((s.withRef (.strobe x)).returnEgress c x).store.discard c.planCode)
  exact (upkeep_enterListening _).fits (Fits.returnTraffic (back.withIngress _))

theorem Fits.takeStrobe {s : State} (h : Fits s) (x : Slot) (o : StrobeOrder) : Fits (s.takeStrobe x o) := by
  unfold State.takeStrobe
  split
  · unfold State.configuredStrobe
    split_ifs
    · exact h.takeReturn _ x
    · exact h.ordinaryStrobe _ x o
    · exact (h.loseReference _).takeReturn _ x
  · unfold State.bareStrobe
    dsimp only
    split_ifs
    · exact (h.withRef _).withEgress h.history
    · exact h.withRef _

theorem Fits.timeoutReference {s : State} (h : Fits s) : Fits s.timeoutReference := by
  unfold State.timeoutReference
  split
  · exact h.loseReference _
  · exact h.withRef _

/-! ## The bus idle and the attempt -/

theorem Fits.purgeCancelled {s : State} (h : Fits s) : Fits s.purgeCancelled := by
  refine Fits.withHolders ?_ rfl rfl rfl rfl
  exact Fits.foldl (fun s e hs => ((upkeep_tell _ e _).fits ((upkeep_freeEntry s _).fits hs)).release _) _ h

theorem contend_vetoCount (l : Link) : l.contend.vetoCount = l.vetoCount := by
  unfold Link.contend
  split <;> rfl

theorem Fits.takeOffer {s : State} (h : Fits s) : Fits s.takeOffer := by
  have offered := h.purgeCancelled.withCurrent s.purgeCancelled.traffic.offer
  exact offered.withLink ((contend_vetoCount _).trans_le offered.vetoCount)

theorem Fits.busIdle {s : State} (h : Fits s) (n : Nat) : Fits (s.busIdle n) := by
  have idle : Fits (s.withLink (s.link.atIdle n)) := h.withLink h.vetoCount
  unfold State.busIdle
  dsimp only
  split
  · exact idle
  · exact idle.takeOffer

theorem Fits.endHolderAttempt {s : State} (h : Fits s) (r : TxRef) : Fits (s.endHolderAttempt r) := by
  cases r with
  | general o => exact h
  | beacon =>
    unfold State.endHolderAttempt
    dsimp only
    split
    · refine Fits.release ?_ _
      exact h.withHolders rfl rfl rfl rfl
    · exact h
  | flow =>
    unfold State.endHolderAttempt
    dsimp only
    split
    · refine Fits.release ?_ _
      exact h.withHolders rfl rfl rfl rfl
    · exact h

theorem Fits.endStale {s : State} (h : Fits s) (r : TxRef) : Fits (s.endStale r) := by
  unfold State.endStale
  split
  · split
    · refine Fits.withContacts ?_ _
      exact Upkeep.fits (upkeep_changeEntry s _ fun _ => rfl) h
    · exact h
  · exact h

theorem Fits.endAttempt {s : State} (h : Fits s) : Fits s.endAttempt := by
  unfold State.endAttempt
  dsimp only
  split
  · exact h.withLink h.vetoCount
  · refine Fits.endHolderAttempt (Fits.endStale ?_ _) _
    exact h.withLink h.vetoCount

theorem Fits.abandonEntry {s : State} (h : Fits s) (e : TxEntry) : Fits (s.abandonEntry e) := by
  unfold State.abandonEntry
  split_ifs
  · exact (upkeep_tell _ _ _).fits ((upkeep_freeEntry s _).fits h)
  · exact Upkeep.fits (upkeep_changeEntry s _ fun _ => rfl) h
  · exact (upkeep_tell _ _ _).fits ((upkeep_freeEntry s _).fits h)

theorem Fits.abandon {s : State} (h : Fits s) : Fits s.abandon := by
  unfold State.abandon
  dsimp only
  split
  · exact h
  · split
    · exact (h.withCurrent none).abandonEntry _
    · exact h.withCurrent none
  · exact (h.withCurrent none).withHolders rfl rfl rfl rfl
  · exact (h.withCurrent none).loadFlow

theorem Fits.addVeto {s : State} (h : Fits s) (r : TxRef) : Fits (s.addVeto r) := by
  cases r with
  | general o => exact Upkeep.fits (upkeep_changeEntry s o fun _ => rfl) h
  | beacon => exact h.withHolders rfl rfl rfl rfl
  | flow => exact h.withHolders rfl rfl rfl rfl

theorem Fits.vetoAttempt {s : State} (h : Fits s) : Fits s.vetoAttempt := by
  unfold State.vetoAttempt State.abandonHeld
  dsimp only
  split
  · exact h
  · split_ifs
    · exact (h.addVeto _).endAttempt.abandon
    · exact (h.addVeto _).endAttempt
    · exact (h.addVeto _).endAttempt

theorem Fits.loseArbitration {s : State} (h : Fits s) : Fits s.loseArbitration :=
  h.endAttempt.withLink h.endAttempt.vetoCount

/-- R83: only the frames taken change the veto count, and not the reading of idle bits. -/
theorem counted_vetoCount (l : Link) (n : Nat) : (l.counted n).vetoCount = l.vetoCount := by
  obtain ⟨-, -, -, -, hveto, -⟩ := l.counted_keeps n
  exact hveto

theorem losePlace_vetoCount (l : Link) (n : Nat) (d : SlotDrive) : (l.losePlace n d).vetoCount = l.vetoCount :=
  counted_vetoCount _ n

theorem Fits.lineFault {s : State} (h : Fits s) (n : Nat) : Fits (s.lineFault n) :=
  h.vetoAttempt.withLink ((counted_vetoCount _ n).trans_le h.vetoAttempt.vetoCount)

theorem Fits.ownVeto {s : State} (h : Fits s) (v : VetoSlot) : Fits (s.ownVeto v) :=
  h.vetoAttempt.withLink h.vetoAttempt.vetoCount

/-! ## A frame that was sent (R91, R96) -/

theorem upkeep_streamSent (s : State) (e : TxEntry) : Upkeep s (s.streamSent e) := by
  unfold State.streamSent
  split_ifs
  · exact upkeep_changeEntry s _ fun _ => rfl
  · exact upkeep_freeEntry s _
  · exact Upkeep.after (upkeep_nextStream _) (upkeep_changeEntry s _ fun _ => rfl)

theorem Fits.afterSent {s : State} (h : Fits s) (r : TxRef) : Fits (s.afterSent r) := by
  unfold State.afterSent
  split
  · split
    · split
      · exact (upkeep_streamSent _ _).fits ((upkeep_tell s _ _).fits h)
      · exact (upkeep_tell _ _ _).fits ((upkeep_freeEntry s _).fits h)
    · exact h
  · exact h.withHolders rfl rfl rfl rfl
  · exact h.withHolders rfl rfl rfl rfl

theorem Fits.loadGap {s : State} (h : Fits s) (k : Kind) : Fits (s.loadGap k) := by
  unfold State.loadGap
  split
  · split
    · exact h.withLink h.vetoCount
    · exact h
  · exact h

theorem Fits.selfReceive {s : State} (h : Fits s) (f : TxFrame) : Fits (s.selfReceive f) := by
  unfold State.selfReceive
  split
  · rename_i hroom
    rw [Bool.and_eq_true, Bool.not_eq_true'] at hroom
    exact h.placeFrame hroom.2 _
  · exact h

theorem Fits.stood {s : State} (h : Fits s) (r : TxRef) (f : TxFrame) : Fits (s.stood r f) := by
  refine Fits.selfReceive (Fits.loadGap (Fits.afterSent ?_ r) f.kind) f
  exact Fits.withLink (h.withLink h.vetoCount) h.vetoCount

/-! ## Reception (R80, R82, R83) -/

theorem Fits.handOn {s : State} (h : Fits s) (k : Station) (kind : Kind) (body : List Byte)
    (hroom : kind.queued = true → s.queueFull = false) : Fits (s.handOn k kind body) := by
  have place : kind.queued = true → Fits (s.placeFrame ⟨k, kind, body, false⟩) := fun hq => h.placeFrame (hroom hq) _
  cases kind with
  | hold => exact Upkeep.fits (.withHeldBy s (·.holdFrom k)) h
  | resume => exact Upkeep.fits (.withHeldBy s (·.resumeFrom k)) h
  | beacon => exact (upkeep_takeBeacon s k body).fits h
  | _ => exact place rfl

theorem countFailure_vetoCount (l : Link) : l.countFailure.vetoCount ≤ 255 := Nat.min_le_left 255 _

theorem Fits.takeFailure {s : State} (h : Fits s) (k : Station) (v : SlotRead) : Fits (s.takeFailure k v) := by
  have hc := countFailure_vetoCount s.link
  unfold State.takeFailure
  dsimp only
  split_ifs
  · exact (upkeep_frameLost _ _).fits (h.withLink ((losePlace_vetoCount _ _ _).trans_le hc))
  · exact h.withLink hc
  · exact (upkeep_frameLost _ _).fits (h.withLink hc)

theorem Fits.takeClean {s : State} (h : Fits s) (k : Station) (kind : Kind) (body : List Byte) (v : SlotRead) :
    Fits (s.takeClean k kind body v) := by
  have counted : Fits (s.withLink (s.link.countClean.placed (s.cleanDrive kind v))) :=
    h.withLink ((Nat.sub_le _ 1).trans h.vetoCount)
  unfold State.takeClean
  dsimp only
  split
  · exact counted
  · rename_i hstands
    refine counted.handOn k kind body fun hq => ?_
    simp only [Bool.or_eq_true, Bool.and_eq_true, not_or, not_and] at hstands
    exact Bool.eq_false_iff.2 (hstands.2 hq)

theorem Fits.takeRead {s : State} (h : Fits s) (r : ReadResult) (v : SlotRead) : Fits (s.takeRead r v) := by
  cases r with
  | noFrame => exact h
  | lostPlace k =>
    refine Upkeep.fits (upkeep_frameLost _ k) (h.withLink ?_)
    exact (losePlace_vetoCount _ _ _).trans_le (countFailure_vetoCount _)
  | failure k => exact h.takeFailure k v
  | clean k kind body => exact h.takeClean k kind body v

theorem Fits.receive {s : State} (h : Fits s) (r : ReadResult) (v : SlotRead) : Fits (s.receive r v) := by
  have yielded : Fits s.yieldLine := by
    unfold State.yieldLine
    split
    · exact h.loseArbitration
    · exact h
  unfold State.receive
  split
  · exact yielded.takeRead r v
  · exact h

/-- R82: the kinds that are handed on during an attempt are not queued. -/
theorem Fits.arrive {s : State} (h : Fits s) (k : Station) {kind : Kind} (body : List Byte) (hk : kind.queued = false) :
    Fits (s.arrive k kind body) := by
  unfold State.arrive
  split
  · exact h.handOn k kind body fun hq => absurd (hk.symm.trans hq) Bool.false_ne_true
  · exact h.receive _ _

/-! ## CLASH (R84, R105) -/

theorem Fits.purgeAll {s : State} (h : Fits s) : Fits s.purgeAll := by
  have told : Fits (s.traffic.general.foldl
      (fun s e => if e.isMark then (s.tell e .abandoned).pulseRefused else s.tell e .abandoned) s) := by
    refine Fits.foldl (fun s e hs => ?_) _ h
    split
    · exact ((upkeep_tell s e _).fits hs).withContacts _
    · exact (upkeep_tell s e _).fits hs
  refine Fits.withCurrent ?_ none
  exact told.withTraffic (told.traffic.ofSublist rfl rfl rfl (List.nil_sublist _))

theorem Fits.setClash {s : State} (h : Fits s) : Fits s.setClash := by
  have purged := (upkeep_endOwnRecap _).fits h.purgeAll
  exact purged.withLink purged.vetoCount

theorem Fits.clashWith {s : State} (h : Fits s) (r : LineRead) : Fits (s.clashWith r) := by
  unfold State.clashWith
  split
  · exact h.setClash.takeClean _ _ _ _
  · exact h
  · refine h.vetoAttempt.withLink ?_
    split
    · exact (losePlace_vetoCount _ _ _).trans_le h.vetoAttempt.vetoCount
    · exact h.vetoAttempt.vetoCount
  · exact h.vetoAttempt.withLink ((losePlace_vetoCount _ _ _).trans_le h.vetoAttempt.vetoCount)

/-! ## The ingress (R37) -/

theorem Fits.storeByte {s : State} (h : Fits s) (sound : Bool) (lane : Nat) (e : LaneEntry) (b : Byte) :
    Fits (s.storeByte sound lane e b) :=
  (h.withMem (Memory.wf_write _ _ h.mem)).withIngress _

theorem Fits.takeByte {s : State} (h : Fits s) (c : Settings) (lane : Nat) (e : LaneEntry) (b : Byte) :
    Fits (s.takeByte c lane e b) := by
  unfold State.takeByte
  dsimp only
  split_ifs
  · exact h.withIngress _
  · exact h.withIngress _
  · unfold State.storeOnNewPage
    split
    · exact h.withIngress _
    · split
      · exact (h.withStore _).withIngress _
      · exact Fits.storeByte (h.withStore _) _ _ _ _
  · exact h.storeByte _ _ _ _

/-! ## The commands -/

/-- The state that a command answers keeps within the capacities. -/
def AnswersFit (o : Host.Outcome State Fault Refusal) : Prop := ∀ t, o = .next t → Fits t

theorem answersFit_next {t : State} (h : Fits t) : AnswersFit (.next t) := fun _ ht => Host.Outcome.next.inj ht ▸ h

theorem answersFit_ite {p : Prop} [Decidable p] {s t : State} (ht : Fits t) (hs : Fits s) :
    AnswersFit (if p then .next t else .next s) := by
  split
  · exact answersFit_next ht
  · exact answersFit_next hs

theorem fits_reset : Fits .reset :=
  ⟨rfl, ⟨Nat.zero_le _, Nat.zero_le _, heldByFits_nil, .nil, by simp [State.reset, Traffic.reset]⟩, Nat.zero_le _,
    Nat.zero_le _, planFits_empty, ⟨by simp [State.reset, Monitor.reset], onePerStation_nil⟩, Nat.zero_le _⟩

theorem Fits.execReset {s : State} (h : Fits s) (cause : ResetCause) (k : Station) (levels : PerContact Level) :
    AnswersFit (execReset cause k levels s) := by
  have mem : (memAfter cause s.mem).wf = true := by
    cases cause with
    | powerOn => exact Memory.wf_nil
    | resetLine => exact h.mem
  exact answersFit_next { fits_reset with mem := mem }

theorem Fits.configure {s : State} (h : Fits s) (c : Settings) : Fits (s.configure c) := by
  have ready := (((h.withSettings (some c)).withStore { s.store with lanes := fullLanes c.planCode }).withIngress
    ⟨none, freshEntries c, 0, 0, []⟩).withEgress (v := { s.egress with lanes := c.lanes.map LaneKind.egress }) h.history
  exact (upkeep_enterListening _).fits (ready.withLink h.vetoCount)

theorem Fits.execConfigReadComplete {s : State} (h : Fits s) (bytes : List Byte) :
    AnswersFit (execConfigReadComplete bytes s) := by
  unfold Machine.execConfigReadComplete
  split
  · split
    · exact answersFit_next (h.configure _)
    · exact answersFit_next ((upkeep_withMode _ _).fits ((upkeep_discardPlan _).fits (h.withIndex [])))
  · exact answersFit_next h

theorem Fits.execSpanTimeout {s : State} (h : Fits s) (k : Station) : AnswersFit (execSpanTimeout k s) := by
  unfold Machine.execSpanTimeout
  split
  · exact answersFit_ite ((upkeep_completeEntryAt _ _ _).fits (h.withPlan (h.plan.idleSpan k))) h
  · exact answersFit_next h

theorem Fits.execMarkStaleWithdrawal {s : State} (h : Fits s) (o : Nat) : AnswersFit (execMarkStaleWithdrawal o s) := by
  unfold Machine.execMarkStaleWithdrawal
  split
  · exact answersFit_ite ((upkeep_withdrawEntry s _).fits h) h
  · exact answersFit_next h

theorem Fits.execDebounceStable {s : State} (h : Fits s) (k : Contact) : AnswersFit (execDebounceStable k s) := by
  have settled : Fits (s.setDebouncer k (s.debouncer k).settled) := h.withContacts _
  have pressed : Fits ((s.setDebouncer k (s.debouncer k).settled).closingEdge k) := by
    unfold State.closingEdge
    split
    · split
      · exact (upkeep_press _ _ k).fits settled
      · exact settled
    · exact settled
  unfold Machine.execDebounceStable
  refine answersFit_ite ?_ h
  split
  · exact pressed
  · exact settled

theorem Fits.execEssenceByte {s : State} (h : Fits s) (pos : Fin 4) (b : Byte) : AnswersFit (execEssenceByte pos b s) := by
  unfold Machine.execEssenceByte
  split
  · split
    · exact answersFit_ite (h.takeByte _ _ _ b) h
    · exact answersFit_next h
  · exact answersFit_next h

theorem Fits.execSent {s : State} (h : Fits s) : AnswersFit (execSent s) := by
  unfold Machine.execSent
  split
  · split
    · exact answersFit_next h
    · split
      · exact answersFit_ite (h.ownVeto _) (h.stood _ _)
      · exact answersFit_next h
  · exact answersFit_next h

theorem Fits.finishBurst {s : State} (h : Fits s) (b : OutBurst) : Fits (s.finishBurst b) := by
  have held : Fits (if s.feedsHold b then s.holdBytes b.lane b.bytes else s) := by
    split
    · exact (upkeep_of_storeSide (holdBytes_storeSide s _ _)).fits h
    · exact h
  exact held.withEgress held.history

/-- Every command keeps the capacities. -/
theorem Fits.exec {s : State} (h : Fits s) (i : Instr) : AnswersFit (exec i s) := by
  cases i with
  | reset cause k levels => exact h.execReset cause k levels
  | configReadComplete bytes => exact h.execConfigReadComplete bytes
  | ordinaryStrobe x o => exact answersFit_next (h.takeStrobe x o)
  | referenceReturn x => exact answersFit_next (h.takeStrobe x _)
  | referenceBreak x => exact answersFit_next (h.takeStrobe x _)
  | referenceLossTimeout => exact answersFit_ite h.timeoutReference h
  | listenTimerExpiry =>
    simp only [Machine.exec, execListenTimerExpiry]
    split
    · exact answersFit_next ((upkeep_expireListen s _ _).fits h)
    · exact answersFit_next h
  | joinRetryExpiry => exact answersFit_next ((upkeep_expireRetry s).fits h)
  | collectSilenceExpiry => exact answersFit_next ((upkeep_expireCollect s).fits h)
  | foreignRecapExpiry => exact answersFit_next ((upkeep_expireForeign s).fits h)
  | spanTimeout k => exact h.execSpanTimeout k
  | holdTimeout k => exact answersFit_next (Upkeep.fits (.withHeldBy s (·.sublist List.filter_sublist)) h)
  | markStaleWithdrawal o => exact h.execMarkStaleWithdrawal o
  | refusedPulseExpiry => exact answersFit_next (h.withContacts _)
  | debounceStable k => exact h.execDebounceStable k
  | burstStart pos header =>
    simp only [Machine.exec, execBurstStart]
    split
    · exact answersFit_next (h.withIngress _)
    · exact answersFit_next h
  | essenceByte pos b => exact h.execEssenceByte pos b
  | burstEnd pos => exact answersFit_next (h.withIngress _)
  | busIdle n => exact answersFit_ite (h.busIdle n) h
  | arbitrationLost => exact answersFit_ite h.loseArbitration h
  | lineFault n => exact answersFit_ite (h.lineFault n) h
  | clash r => exact answersFit_ite (h.clashWith r) h
  | frameVetoed v => exact answersFit_ite (h.ownVeto v) h
  | sent => exact h.execSent
  | frameReceived r => exact answersFit_next (h.receive _ _)
  | holdReceived k => exact answersFit_next (h.arrive k [] rfl)
  | resumeReceived k => exact answersFit_next (h.arrive k [] rfl)
  | beaconReceived k body => exact answersFit_ite (h.arrive k body rfl) (h.receive _ _)
  | contactRawLevelChange k level => exact answersFit_ite h (h.withContacts _)
  | outputBurstEnd pos =>
    simp only [Machine.exec, execOutputBurstEnd]
    split
    · exact answersFit_next (h.finishBurst _)
    · exact answersFit_next h
  | courtesyGapExpiry => exact answersFit_ite (h.busIdle _) h

theorem Fits.step {s : State} (h : Fits s) : AnswersFit (step s) := by
  unfold Machine.step
  split
  · refine answersFit_next ?_
    unfold State.elapse
    split
    · exact h.withLink h.vetoCount
    · exact h
  · exact (h.withPending _).exec _

/-- Settles O58: each command is composed of operations that keep the capacities, block by block. -/
theorem stepKeepsCapacities : Obligations.StepKeepsCapacities := by
  intro s t hs ht
  have h : Fits s := (capacities_iff_fits s).1 hs
  exact (capacities_iff_fits t).2 (h.step t ht)

end Sys2Proof.Safety
end

