-- ==== Sys2Proof/Proofs/Presses.lean ====
section
/-! SUPPORT. A press in FILLING or ALIGNED (R109 to R112, R115): the MARK it adds, and what a refused one leaves. -/

namespace Sys2Proof.Proofs.Presses

open Sys2Proof Sys2Proof.Machine

/-! ## The addition of a MARK (R89, R105) -/

theorem mark_kind_isMark (m : Mark) : m.kind.isMark = true := by cases m <;> rfl

/-- The general entry that a MARK takes. -/
def markEntry (s : State) (m : Mark) : TxEntry :=
  ⟨s.traffic.nextOrder, some ⟨m.kind, m.body⟩, .originator, 0, false, false, false, some m.stamp, false⟩

/-- The MARK was queued where there was room, and refused FULL or under CLASH with a pulse of REFUSED. -/
def MarkTaken (s t : State) (m : Mark) : Prop :=
  (s.link.clash = false → s.traffic.general.length < 16 →
    t.traffic.general = s.traffic.general ++ [markEntry s m] ∧ t.contacts.refused = s.contacts.refused) ∧
  (s.link.clash = true ∨ 16 ≤ s.traffic.general.length → t.traffic = s.traffic ∧ t.contacts.refused = true)

/-- A MARK sent from a state that differs from `s` outside the cue side is taken as the cue side of `s` takes it. -/
theorem markTaken_sendMark {s u : State} (hconn : s.link.connected = true) (hlink : u.link = s.link)
    (htraffic : u.traffic = s.traffic) (hrefused : u.contacts.refused = s.contacts.refused) (m : Mark) :
    MarkTaken s (u.sendMark m) m := by
  unfold MarkTaken markEntry
  rw [← hlink] at hconn ⊢
  rw [← htraffic, ← hrefused, State.sendMark]
  constructor
  · intro hclash hroom
    rw [addEntry_queued hconn hclash hroom]
    exact ⟨rfl, rfl⟩
  · intro hfull
    rw [addEntry_refused hconn hfull, if_pos (show m.frame.kind.isMark = true from mark_kind_isMark m)]
    exact ⟨rfl, rfl⟩

theorem sendMark_orig (s : State) (m : Mark) : (s.sendMark m).orig = s.orig := (sendMark_cueOnly s m).orig_eq

/-! ## The press (R109, R184, R185) -/

/-- The station with the contact settled closed. -/
def closedAt (s : State) (k : Contact) : State := s.setDebouncer k (Debouncer.settled ⟨.closed, true, some .opened⟩)

/-- A closing edge in FILLING or ALIGNED is handed to the originator with the current HSN. -/
theorem debounceStable_press {s : State} {k : Contact} {c : Settings} {x : Slot} (hc : s.settings = some c)
    (hx : s.ref.hsn = some x) (hmode : s.mon.mode = .filling ∨ s.mon.mode = .aligned)
    (hk : contactOf s.contacts.lines k = ⟨.closed, true, some .opened⟩) :
    exec (.debounceStable k) s = .next ((closedAt s k).pressAt c x k) := by
  have takes : (closedAt s k).mon.mode.takesPresses = true := by
    rcases hmode with h | h <;> exact congrArg Mode.takesPresses h
  have edge : (closedAt s k).closingEdge k = (closedAt s k).pressAt c x k := by
    have settings : (closedAt s k).settings = some c := hc
    have hsn : (closedAt s k).ref.hsn = some x := hx
    simp only [State.closingEdge, settings, takes, if_true, State.press, State.drawHsn, hsn]
  have deb : s.debouncer k = ⟨.closed, true, some .opened⟩ := hk
  show execDebounceStable k s = _
  rw [execDebounceStable, deb, ← edge]
  rfl

/-- R112, R113: every press but RESCIND sends one MARK, and the DUMP and the two commits give an origin count out. -/
theorem pressAt_eq {s : State} {c : Settings} {x : Slot} {k : Contact} {m : Mark}
    (hm : pressedMark c x s.nextCount k = some m) :
    s.pressAt c x k =
      (if k = .dump ∨ k = .commitDrop ∨ k = .commitMask then s.countGiven else s).sendMark m := by
  cases k <;> cases hm <;> rfl

theorem pressedMark_stamp {c : Settings} {x : Slot} {n : Byte} {k : Contact} {m : Mark}
    (hm : pressedMark c x n k = some m) : m.stamp = x := by
  cases k <;> cases hm <;> rfl

/-- Settles O45: the press sends its MARK after the origin count is given out, and the queue takes it or refuses it. -/
theorem pressBuildsFrame : Obligations.PressBuildsFrame := by
  intro k c x m s hc hx hmode hk hm hconn
  have sent := pressAt_eq (s := closedAt s k) hm
  obtain rfl := pressedMark_stamp hm
  refine ⟨_, debounceStable_press hc hx hmode hk, ?_⟩
  rw [sent, sendMark_orig]
  split
  case isTrue =>
    have taken := markTaken_sendMark hconn (u := (closedAt s k).countGiven) rfl rfl rfl m
    exact ⟨taken.1, taken.2, rfl, rfl⟩
  case isFalse =>
    have taken := markTaken_sendMark hconn (u := closedAt s k) rfl rfl rfl m
    exact ⟨taken.1, taken.2, rfl, rfl⟩

/-! ## The rescind stack (R115) -/

theorem armedCut_iff (cuts : List Cut) (id : CutId) :
    armedCut cuts id = true ↔ ∃ d, findCut cuts id = some d ∧ d.state = .armed := by
  unfold armedCut
  split <;> simp_all

/-- Entries whose cut is not held, or ACTIVE, are taken off the stack. -/
theorem popArmed_append {cuts : List Cut} {above : List CutId}
    (h : ∀ id ∈ above, ∀ d, findCut cuts id = some d → d.state = .active) (rest : List CutId) :
    popArmed cuts (above ++ rest) = popArmed cuts rest := by
  induction above with
  | nil => rfl
  | cons id above ih =>
    have unarmed : ¬ armedCut cuts id = true := by
      rw [armedCut_iff]
      rintro ⟨d, hd, harmed⟩
      simp [h id List.mem_cons_self d hd] at harmed
    rw [List.cons_append, popArmed, if_neg unarmed]
    exact ih fun j hj => h j (List.mem_cons_of_mem id hj)

/-- Settles O46: the stack is taken off down to the first ARMED cut, and its RESCIND is sent like any MARK. -/
theorem rescindPress : Obligations.RescindPress := by
  intro c x above below s hc hx hmode hk hconn habove
  have press := debounceStable_press hc hx hmode hk
  have popped (rest : List CutId) (hstack : s.orig.stack = above ++ rest) :
      popArmed (closedAt s .rescind).plan.cuts (closedAt s .rescind).orig.stack = popArmed s.plan.cuts rest :=
    (congrArg (popArmed s.plan.cuts) hstack).trans (popArmed_append habove rest)
  constructor
  · intro id d hstack hd harmed
    have top : popArmed s.plan.cuts (id :: below) = (some id, below) :=
      if_pos ((armedCut_iff s.plan.cuts id).2 ⟨d, hd, harmed⟩)
    have sent : (closedAt s .rescind).pressRescind x =
        ((closedAt s .rescind).withOrig { s.orig with stack := below }).sendMark (.rescind x id) := by
      rw [State.pressRescind, popped _ hstack, top]
      rfl
    obtain ⟨queued, refused⟩ := markTaken_sendMark hconn
      (u := (closedAt s .rescind).withOrig { s.orig with stack := below }) rfl rfl rfl (.rescind x id)
    refine ⟨_, press, ?_⟩
    rw [State.pressAt, sent]
    exact ⟨sendMark_orig _ _, fun hclash hroom => (queued hclash hroom).1, refused⟩
  · intro hstack
    have none : (closedAt s .rescind).pressRescind x =
        ((closedAt s .rescind).withOrig { s.orig with stack := [] }).pulseRefused := by
      rw [State.pressRescind, popped [] (by rw [hstack, List.append_nil])]
      rfl
    refine ⟨_, press, ?_⟩
    rw [State.pressAt, none]
    exact ⟨rfl, rfl, rfl⟩

end Sys2Proof.Proofs.Presses
end

