-- ==== Sys2Proof/Proofs/ReceiveQueue.lean ====
section
/-! SUPPORT. The flow state and the flow holder (R98) under a placement in the receive queue and a removal from it. -/

namespace Sys2Proof.Proofs.ReceiveQueue

open Sys2Proof Sys2Proof.Machine

/-! ## The load of the flow holder (R98, R105) -/

theorem release_traffic (s : State) (r : TxRef) : (s.release r).traffic = s.traffic := by
  unfold State.release
  split <;> rfl

theorem inAttempt_iff (s : State) (r : TxRef) :
    s.inAttempt r = true ↔ s.link.attempt = true ∧ s.link.current = some r := by
  simp [State.inAttempt, State.isCurrent]

theorem loadFlow_clash {s : State} (hclash : s.link.clash = true) : s.loadFlow = s := if_pos hclash

theorem loadFlow_inAttempt {s : State} (hclash : s.link.clash = false) (hin : s.inAttempt .flow = true) :
    s.loadFlow.traffic =
      { s.traffic with
        flow := s.traffic.flow.map (fun h => { h with cancelAsked := true }), flowNext := some s.traffic.flowState.frame } := by
  rw [State.loadFlow, if_neg (Bool.eq_false_iff.1 hclash), if_pos hin]
  rfl

theorem loadFlow_between {s : State} (hclash : s.link.clash = false) (hin : ¬ s.inAttempt .flow = true) :
    s.loadFlow.traffic =
      { s.traffic with flow := some ⟨s.traffic.flowState.frame, 0, false, false⟩, flowNext := none } := by
  rw [State.loadFlow, if_neg (Bool.eq_false_iff.1 hclash), if_neg hin, release_traffic]
  rfl

/-- R98: the flow state changes and its frame is loaded, wherever the holder's old frame is. -/
theorem flowLoaded_loadFlow (s : State) {flow : FlowState} {k : Kind} (hk : flow.frame = ⟨k, []⟩) :
    FlowLoaded flow k s ((s.withTraffic { s.traffic with flowState := flow }).loadFlow) := by
  have loaded := inAttempt_iff (s.withTraffic { s.traffic with flowState := flow }) .flow
  rw [FlowLoaded, ← hk]
  cases hclash : s.link.clash with
  | true =>
    rw [loadFlow_clash (by exact hclash)]
    exact ⟨rfl, fun _ => ⟨rfl, rfl⟩, nofun, nofun⟩
  | false =>
    by_cases hin : s.link.attempt = true ∧ s.link.current = some .flow
    · rw [loadFlow_inAttempt (by exact hclash) (loaded.2 hin)]
      exact ⟨rfl, nofun, fun _ _ _ => ⟨rfl, rfl⟩, fun _ hout => by simp [hin] at hout⟩
    · rw [loadFlow_between (by exact hclash) (mt loaded.1 hin)]
      exact ⟨rfl, nofun, fun _ hatt hcur => absurd ⟨hatt, hcur⟩ hin, fun _ _ => ⟨rfl, rfl⟩⟩

/-! ## A placement (R82, R98) -/

theorem placeFrame_flowLoaded {s : State} (hclear : s.traffic.flowState = .clear)
    (hlen : s.traffic.received.length = 23) (f : RxFrame) : FlowLoaded .asserted .hold s (s.placeFrame f) := by
  rw [State.placeFrame, State.afterPlacement, if_pos ⟨hclear, by simp [hlen]⟩]
  exact flowLoaded_loadFlow (s.withTraffic { s.traffic with received := s.traffic.received ++ [f] }) rfl

theorem placeFrame_unloaded {s : State} (h : s.traffic.flowState = .asserted ∨ s.traffic.received.length ≠ 23)
    (f : RxFrame) : s.placeFrame f = s.withTraffic { s.traffic with received := s.traffic.received ++ [f] } := by
  refine if_neg fun ⟨hclear, hlen⟩ => ?_
  rcases h with h | h
  · exact absurd (h.symm.trans hclear) nofun
  · exact h (by simpa [Config.holdAt] using hlen)

/-! ## A removal (R98, R100) -/

theorem loadFlow_received (s : State) : s.loadFlow.traffic.received = s.traffic.received := by
  cases hclash : s.link.clash with
  | true => rw [loadFlow_clash hclash]
  | false =>
    by_cases hin : s.inAttempt .flow = true
    · rw [loadFlow_inAttempt hclash hin]
    · rw [loadFlow_between hclash hin]

theorem dropReceived_received (s : State) : s.dropReceived.traffic.received = s.traffic.received.tail := by
  unfold State.dropReceived State.afterRemoval
  split
  · exact loadFlow_received _
  · rfl

theorem dropReceived_flowLoaded {s : State} (hasserted : s.traffic.flowState = .asserted)
    (hlen : s.traffic.received.length ≤ 9) : FlowLoaded .clear .resume s s.dropReceived := by
  rw [State.dropReceived, State.afterRemoval, if_pos ⟨hasserted, by simpa using hlen⟩]
  exact flowLoaded_loadFlow (s.withTraffic { s.traffic with received := s.traffic.received.tail }) rfl

theorem dropReceived_unloaded {s : State} (h : s.traffic.flowState = .clear ∨ 9 < s.traffic.received.length) :
    s.dropReceived = s.withTraffic { s.traffic with received := s.traffic.received.tail } := by
  refine if_neg fun ⟨hasserted, hlen⟩ => ?_
  rcases h with h | h
  · exact absurd (h.symm.trans hasserted) nofun
  · have : s.traffic.received.length - 1 ≤ 8 := by simpa using hlen
    omega

end Sys2Proof.Proofs.ReceiveQueue
end

