-- ==== Sys2Proof/Proofs/Frames.lean ====
section
/-! SUPPORT. A frame taken without a line failure (R80, R82, R83), and a frame of the station's own that was sent (R91, R96). -/

namespace Sys2Proof.Proofs.Frames

open Sys2Proof Sys2Proof.Machine Sys2Proof.Safety Sys2Proof.Proofs.ReceiveQueue

/-! ## Reception without a line failure -/

theorem vetoesFull_iff (s : State) {kind : Kind} (hq : kind.queued = true) :
    s.vetoesFull kind = true ↔ 32 ≤ s.traffic.received.length ∧ s.ref.flag = .present := by
  simp [State.vetoesFull, State.queueFull, hq]

/-- R82: a frame of a kind that the receive queue takes is placed. -/
theorem handOn_queued (s : State) (k : Station) {kind : Kind} (hq : kind.queued = true) (body : List Byte) :
    s.handOn k kind body = s.placeFrame ⟨k, kind, body, false⟩ := by
  cases kind <;> first | rfl | cases hq

/-- The link of a receiver that has taken a frame without a line failure. -/
def cleanLink (s : State) (kind : Kind) (r : LineRead) : Link :=
  s.link.countClean.placed (s.cleanDrive kind (slotReadOf r))

/-- A receiver without an attempt of its own takes the frame as it stands. -/
theorem exec_frameReceived_clean {r : LineRead} {k : Station} {kind : Kind} {body : List Byte} {s : State}
    (hs : Receives s) (hr : readFrame r.bits = .clean k kind body) :
    exec (.frameReceived r) s = .next (s.takeClean k kind body (slotReadOf r)) := by
  obtain ⟨hconn, hawait, hatt⟩ := hs
  have takes : (s.link.takes && !s.link.sendsRest && ReadResult.clean k kind body != .noFrame) = true := by
    simp [Link.takes, Link.sendsRest, hconn, hawait, hatt]
  have yields : s.yieldLine = s := if_neg (by simp [hatt])
  show Host.Outcome.next (s.receive (readFrame r.bits) (slotReadOf r)) = _
  rw [hr, State.receive, if_pos takes, yields]
  rfl

/-- The frame stands where no veto bit is read and the queue has room. -/
theorem takeClean_stands {s : State} {r : LineRead} {kind : Kind} (hq : kind.queued = true) (hv : r.vetoBit = false)
    (he : r.echoBit = false) (hroom : s.traffic.received.length < 32) (k : Station) (body : List Byte) :
    s.takeClean k kind body (slotReadOf r) = (s.withLink (cleanLink s kind r)).placeFrame ⟨k, kind, body, false⟩ := by
  have room : s.queueFull = false := by simpa [State.queueFull] using hroom
  have vetoed : (slotReadOf r).vetoed (s.cleanDrive kind (slotReadOf r)) = false := by
    simp [SlotRead.vetoed, slotReadOf, State.cleanDrive, slotDrive, State.vetoesFull, hv, he, room]
  have stands : ((slotReadOf r).vetoed (s.cleanDrive kind (slotReadOf r)) ||
      (kind.queued && (s.withLink (cleanLink s kind r)).queueFull)) = false := by
    rw [vetoed, hq]
    exact room
  rw [← handOn_queued _ k hq]
  exact if_neg (Bool.eq_false_iff.1 stands)

/-- The frame is void where it is vetoed, and discarded where the queue is full. -/
theorem takeClean_void {s : State} {r : LineRead} {kind : Kind} (hq : kind.queued = true)
    (h : r.vetoBit = true ∨ r.echoBit = true ∨ 32 ≤ s.traffic.received.length) (k : Station) (body : List Byte) :
    s.takeClean k kind body (slotReadOf r) = s.withLink (cleanLink s kind r) := by
  refine if_pos ?_
  rcases h with h | h | h
  · simp [SlotRead.vetoed, slotReadOf, h]
  · simp [SlotRead.vetoed, slotReadOf, h]
  · simp [hq, State.queueFull, h]

/-- A placement changes the current frame of the link at most. -/
theorem placeFrame_link {s : State} (hatt : s.link.attempt = false) (f : RxFrame) :
    (s.placeFrame f).link.vetoCount = s.link.vetoCount ∧ (s.placeFrame f).link.quiet = s.link.quiet ∧
      (s.placeFrame f).link.drive = s.link.drive := by
  obtain ⟨-, -, -, hlink⟩ := placeFrame_keeps s f hatt
  rw [hlink]
  exact ⟨rfl, rfl, rfl⟩

/-- What a frame without a line failure leaves of the link, whether it stands or not. -/
theorem takeClean_link {s : State} {r : LineRead} {kind : Kind} (hq : kind.queued = true) (hatt : s.link.attempt = false)
    (k : Station) (body : List Byte) :
    (s.takeClean k kind body (slotReadOf r)).link.vetoCount = (cleanLink s kind r).vetoCount ∧
      (s.takeClean k kind body (slotReadOf r)).link.quiet = (cleanLink s kind r).quiet ∧
      (s.takeClean k kind body (slotReadOf r)).link.drive = (cleanLink s kind r).drive := by
  unfold State.takeClean
  dsimp only
  split
  · exact ⟨rfl, rfl, rfl⟩
  · rw [handOn_queued _ k hq]
    exact placeFrame_link (s := s.withLink (cleanLink s kind r)) hatt _

/-- Settles O38: the link follows from the counting and the drive of a clean frame, the queue from whether it stands. -/
theorem cleanFrame : Obligations.CleanFrame := by
  intro r k kind body s hs hr hq
  obtain ⟨-, -, hatt⟩ := id hs
  obtain ⟨hveto, hquiet, hdrive⟩ := takeClean_link (r := r) hq hatt k body
  refine ⟨_, exec_frameReceived_clean hs hr, hveto, ?quiet, ?veto, ?echo, ?stands, ?void⟩
  case quiet => simp [hquiet, cleanLink, Link.placed, Link.afterSlot, Link.countClean]
  case veto =>
    rw [hdrive]
    exact vetoesFull_iff s hq
  case echo =>
    rw [hdrive]
    exact Bool.or_eq_true _ _ ▸ Iff.rfl
  case stands =>
    intro hv he hroom
    rw [takeClean_stands hq hv he hroom]
    obtain ⟨-, hreceived, -⟩ :=
      placeFrame_keeps (s.withLink (cleanLink s kind r)) ⟨k, kind, body, false⟩ hatt
    refine ⟨hreceived, fun hclear hlen => ?_, fun hkept => ?_⟩
    · exact placeFrame_flowLoaded (s := s.withLink (cleanLink s kind r)) hclear hlen _
    · rw [placeFrame_unloaded (s := s.withLink (cleanLink s kind r)) hkept]
      exact ⟨rfl, rfl, rfl⟩
  case void =>
    intro hvoid
    rw [takeClean_void hq hvoid]
    rfl

end Sys2Proof.Proofs.Frames
end

