-- ==== Sys2Proof/Proofs/SentFrames.lean ====
section
/-! SUPPORT. A frame of the station's own that was sent (R78, R82, R91, R96). -/

namespace Sys2Proof.Proofs.SentFrames

open Sys2Proof Sys2Proof.Machine Sys2Proof.Safety Sys2Proof.Proofs.ReceiveQueue

/-! ## The command and its parts -/

/-- The attempt has ended and the controller holds no frame: the state in which the frame's owner is told. -/
def attemptDone (s : State) : State :=
  s.withLink (({ s.link with attempt := false, current := none } : Link).afterSlot .transmitting .none)

/-- The frame's owner is told and the courtesy gap is loaded; the station has not yet received its own frame. -/
def gapLoaded (s : State) (r : TxRef) (f : TxFrame) : State := ((attemptDone s).afterSent r).loadGap f.kind

theorem exec_sent {s : State} {r : TxRef} {f : TxFrame} (hatt : s.link.attempt = true) (hcur : s.link.current = some r)
    (hf : s.frameOf r = some f) (hroom : f.kind.queued = true → s.traffic.received.length < 32) :
    exec .sent s = .next ((gapLoaded s r f).selfReceive f) := by
  have taken : ¬ s.vetoesFull f.kind = true := by
    intro hfull
    cases hq : f.kind.queued with
    | false => simp [State.vetoesFull, hq] at hfull
    | true => exact Nat.not_le.2 (hroom hq) ((Frames.vetoesFull_iff s hq).1 hfull).1
  show execSent s = _
  simp only [execSent, hatt, hcur, hf, if_true, if_neg taken]
  rfl

/-! ## The entry or the holder (R91, R95, R98) -/

/-- No frame leaves a controller that holds none. -/
theorem release_of_current_none {s : State} (h : s.link.current = none) (r : TxRef) : s.release r = s :=
  if_neg (by simp [State.isCurrent, h])

theorem fillStream_link {s : State} (h : s.link.current = none) (f : TxFrame) : (s.fillStream f).link = s.link := by
  unfold State.fillStream
  split
  · rw [release_of_current_none (s := s.changeEntry _ _) h]
    rfl
  · rfl

theorem nextStream_link {s : State} (h : s.link.current = none) : s.nextStream.link = s.link := by
  unfold State.nextStream
  split
  · split
    · exact fillStream_link h _
    · rfl
  · rfl

theorem streamSent_link {s : State} (h : s.link.current = none) (e : TxEntry) : (s.streamSent e).link = s.link := by
  unfold State.streamSent
  split_ifs
  · rfl
  · rfl
  · exact nextStream_link (s := s.changeEntry _ _) h

theorem afterSent_link {s : State} (h : s.link.current = none) (r : TxRef) : (s.afterSent r).link = s.link := by
  unfold State.afterSent
  split
  · split
    · split
      · rw [streamSent_link (by rw [tell_link]; exact h), tell_link]
      · exact tell_link _ _ _
    · rfl
  · rfl
  · rfl

/-- The receive queue and the flow state are not the sender's. -/
theorem afterSent_received (s : State) (r : TxRef) :
    (s.afterSent r).traffic.received = s.traffic.received ∧ (s.afterSent r).traffic.flowState = s.traffic.flowState := by
  unfold State.afterSent
  split
  · have freed (o : Nat) (e : TxEntry) := (upkeep_freeEntry s o).trans (upkeep_tell _ e e.sentFate)
    have streamed (e : TxEntry) := (upkeep_tell s e e.sentFate).trans (upkeep_streamSent _ e)
    split
    · split
      · exact ⟨(streamed _).received, (streamed _).flowState⟩
      · exact ⟨(freed _ _).received, (freed _ _).flowState⟩
    · exact ⟨rfl, rfl⟩
  · exact ⟨rfl, rfl⟩
  · exact ⟨rfl, rfl⟩

theorem loadGap_eq {s : State} {c : Settings} (hc : s.settings = some c) (k : Kind) :
    s.loadGap k = s.withLink { s.link with gap := if 2 ≤ k.cls then c.courtesyGap else s.link.gap } := by
  unfold State.loadGap
  rw [hc]
  dsimp only
  split <;> rfl

/-! ## Self-reception (R82) -/

theorem selfReceive_placed {s : State} {f : TxFrame} (hq : f.kind.queued = true)
    (hroom : s.traffic.received.length < 32) : s.selfReceive f = s.placeFrame ⟨s.station, f.kind, f.body, true⟩ :=
  if_pos (by simp [hq, State.queueFull, hroom])

theorem selfReceive_not_queued {s : State} {f : TxFrame} (hq : f.kind.queued = false) : s.selfReceive f = s :=
  if_neg (by simp [hq])

theorem loadFlow_link {s : State} (h : s.link.current = none) : s.loadFlow.link = s.link := by
  unfold State.loadFlow
  split_ifs
  · rfl
  · rfl
  · rw [release_of_current_none (by exact h)]
    rfl

theorem placeFrame_link {s : State} (h : s.link.current = none) (f : RxFrame) : (s.placeFrame f).link = s.link := by
  unfold State.placeFrame State.afterPlacement
  split
  · rw [loadFlow_link (by exact h)]
    rfl
  · rfl

theorem selfReceive_keeps {s : State} (hatt : s.link.attempt = false) (f : TxFrame) :
    (s.selfReceive f).traffic.general = s.traffic.general ∧ (s.selfReceive f).mon = s.mon := by
  unfold State.selfReceive
  split
  · obtain ⟨hgeneral, -, hmon, -⟩ := placeFrame_keeps s ⟨s.station, f.kind, f.body, true⟩ hatt
    exact ⟨hgeneral, hmon⟩
  · exact ⟨rfl, rfl⟩

/-! ## What every sent frame leaves -/

/-- The link of a sender whose frame has gone, with the courtesy gap that follows it. -/
def gapLink (s : State) (c : Settings) (k : Kind) : Link :=
  { (attemptDone s).link with gap := if 2 ≤ k.cls then c.courtesyGap else s.link.gap }

section GapLoaded

variable {s : State} {c : Settings} (hc : s.settings = some c) (r : TxRef) (f : TxFrame)

include hc

theorem gapLoaded_eq : gapLoaded s r f = ((attemptDone s).afterSent r).withLink (gapLink s c f.kind) := by
  have settings : ((attemptDone s).afterSent r).settings = some c := by
    rw [(afterSent_cueOnly (attemptDone s) r).keeps.settings_eq]
    exact hc
  rw [gapLoaded, loadGap_eq settings, afterSent_link rfl]
  rfl

/-- R78, R82, R91, R98: a sent frame leaves the link, the receive queue and the flow state as the statement says. -/
theorem sentLeaves (hroom : f.kind.queued = true → s.traffic.received.length < 32) :
    SentLeaves c f s ((gapLoaded s r f).selfReceive f) := by
  obtain ⟨hreceived, hflow⟩ := afterSent_received (attemptDone s) r
  have station : ((attemptDone s).afterSent r).station = s.station := (afterSent_cueOnly _ r).keeps.station_eq
  rw [gapLoaded_eq hc]
  generalize (attemptDone s).afterSent r = v at *
  replace hreceived : v.traffic.received = s.traffic.received := hreceived
  replace hflow : v.traffic.flowState = s.traffic.flowState := hflow
  unfold SentLeaves
  rw [← hreceived] at hroom ⊢
  rw [← hflow, ← station]
  cases hq : f.kind.queued with
  | false =>
    rw [selfReceive_not_queued hq]
    exact ⟨rfl, rfl, rfl, rfl, nofun, nofun, fun _ => rfl, fun _ => rfl⟩
  | true =>
    rw [selfReceive_placed (s := v.withLink (gapLink s c f.kind)) hq (hroom hq), placeFrame_link (by exact rfl)]
    refine ⟨rfl, rfl, rfl, rfl, fun _ => ?_, fun _ hclear hlen => ?_, fun hkept => ?_, nofun⟩
    · obtain ⟨-, placed, -⟩ := placeFrame_keeps (v.withLink (gapLink s c f.kind)) _ rfl
      exact placed
    · obtain ⟨asserted, -, -, loaded⟩ := placeFrame_flowLoaded (s := v.withLink (gapLink s c f.kind)) hclear hlen _
      exact ⟨asserted, fun hclash => (loaded hclash (.inl rfl)).1⟩
    · rw [placeFrame_unloaded (s := v.withLink (gapLink s c f.kind)) (hkept.resolve_left nofun)]
      rfl

/-- The general entries and the monitor are those that the telling of the owner leaves. -/
theorem selfReceive_gapLoaded_keeps (o : Nat) :
    ((gapLoaded s r f).selfReceive f).entry o = ((attemptDone s).afterSent r).entry o ∧
      ((gapLoaded s r f).selfReceive f).mon = ((attemptDone s).afterSent r).mon := by
  rw [gapLoaded_eq hc]
  obtain ⟨hgeneral, hmon⟩ := selfReceive_keeps (s := ((attemptDone s).afterSent r).withLink (gapLink s c f.kind)) rfl f
  exact ⟨congrArg (List.find? fun e : TxEntry => e.order == o) hgeneral, hmon⟩

end GapLoaded

/-! ## A general entry (R91) -/

theorem frameOf_general {s : State} {o : Nat} {e : TxEntry} {f : TxFrame} (he : s.entry o = some e)
    (hf : e.frame = some f) : s.frameOf (.general o) = some f := by
  simp only [State.frameOf, he, Option.bind_some, hf]

theorem afterSent_entry {s : State} {o : Nat} {e : TxEntry} (he : s.entry o = some e) (hs : e.stream = false) :
    (s.afterSent (.general o)).entry o = none := by
  have freed : s.afterSent (.general o) = (s.freeEntry o).tell e e.sentFate := by
    simp only [State.afterSent, he, hs]
    rfl
  rw [freed, State.entry, tell_traffic]
  exact State.freeEntry_entry s o

/-! ## The entry of the recap stream (R96) -/

section Stream

variable {s : State} {o : Nat} {e : TxEntry} {f : TxFrame}

/-- The monitor keeps nothing by a frame of the recap that was sent. -/
theorem afterSent_stream (he : s.entry o = some e) (hs : e.stream = true) (hm : e.owner = .monitor)
    (hcancel : e.cancelAsked = false) : s.afterSent (.general o) = s.streamSent e := by
  have told : s.tell e e.sentFate = s := by simp [State.tell, hm, TxEntry.sentFate, hcancel]
  simp only [State.afterSent, he, hs, if_true, told]

/-- The stream's entry with its frame gone. -/
def emptied (e : TxEntry) : TxEntry := { e with frame := none, vetoes := 0 }

theorem hasKind_iff (hf : e.frame = some f) (k : Kind) : e.hasKind k = true ↔ f.kind = k := by
  simp [TxEntry.hasKind, hf]

theorem streamSent_head (hf : e.frame = some f) (hcancel : e.cancelAsked = false) (hk : f.kind = .recapHead) :
    s.streamSent e = s.changeEntry e.order (fun d => { d with frame := none, vetoes := 0, cancelAsked := false }) :=
  if_pos (by simp [State.holdsHead, (hasKind_iff hf _).2 hk, hcancel])

theorem streamSent_end (hf : e.frame = some f) (hk : f.kind = .recapEnd) :
    s.streamSent e = s.freeEntry e.order := by
  have other : ¬ s.holdsHead e = true := by
    rw [State.holdsHead, Bool.and_eq_true, hasKind_iff hf, hk]
    exact fun h => nomatch h.1
  rw [State.streamSent, if_neg other, if_pos (by simp [(hasKind_iff hf _).2 hk])]

theorem streamSent_next (hf : e.frame = some f) (hcancel : e.cancelAsked = false) (hhead : f.kind ≠ .recapHead)
    (hend : f.kind ≠ .recapEnd) : s.streamSent e = (s.changeEntry e.order emptied).nextStream := by
  have other : ¬ s.holdsHead e = true := by
    rw [State.holdsHead, Bool.and_eq_true, hasKind_iff hf]
    exact fun h => hhead h.1
  rw [State.streamSent, if_neg other, if_neg (by simp [hcancel, mt (hasKind_iff hf _).1 hend])]
  rfl

/-- R96: the next frame fills the only live entry of the stream. -/
theorem fillStream_entry {d : TxEntry} (hd : s.entry o = some d) (hs : d.stream = true) (hlive : d.live = true)
    (hatt : s.link.attempt = false) (honly : ∀ d ∈ s.traffic.general, d.stream = true → d.order = o) (g : TxFrame) :
    (s.fillStream g).entry o = some { d with frame := some g, vetoes := 0 } := by
  have free (n : Nat) : s.inAttempt (.general n) = false := by simp [State.inAttempt, hatt]
  have found : (s.traffic.general.find?
      (fun e => e.stream && e.live && !s.inAttempt (.general e.order))).isSome = true :=
    List.find?_isSome.2 ⟨d, State.entry_mem hd, by simp [hs, hlive, free]⟩
  obtain ⟨e, he⟩ := Option.isSome_iff_exists.1 found
  have stream : e.stream = true := by
    have picked := List.find?_some he
    simp only [Bool.and_eq_true] at picked
    exact picked.1.1
  obtain rfl := honly e (List.mem_of_find?_eq_some he) stream
  simp only [State.fillStream, he, State.entry, release_traffic]
  exact State.changeEntry_entry (f := fun e => { e with frame := some g, vetoes := 0 }) hd fun _ => rfl

/-- The emptied entry is the only one of the stream still. -/
theorem emptied_only (honly : ∀ d ∈ s.traffic.general, d.stream = true → d.order = o) :
    ∀ d ∈ (s.changeEntry o emptied).traffic.general, d.stream = true → d.order = o := by
  intro d hd hs
  obtain ⟨b, hb, rfl⟩ := List.mem_map.1 hd
  split at hs
  case isTrue ho => rwa [if_pos ho]
  case isFalse ho => exact absurd (honly b hb hs) ho

/-- R96, R171: after a frame in the middle of the recap its entry holds the next one. -/
theorem nextStream_filled (he : s.entry o = some e) (hs : e.stream = true) (hlive : e.live = true)
    (hatt : s.link.attempt = false) (honly : ∀ d ∈ s.traffic.general, d.stream = true → d.order = o) {n : Snapshot}
    {filled : Nat} {g : TxFrame} (hown : s.mon.ownRecap = .inProgress n filled) (hg : n.frames[filled]? = some g) :
    (s.changeEntry o emptied).nextStream.entry o = some { e with frame := some g, vetoes := 0 } ∧
      (s.changeEntry o emptied).nextStream.mon = { s.mon with ownRecap := .inProgress n (filled + 1) } := by
  have own : (s.changeEntry o emptied).mon.ownRecap = .inProgress n filled := hown
  have filled := fillStream_entry (s := s.changeEntry o emptied) (State.changeEntry_entry he fun _ => rfl) hs hlive hatt
    (emptied_only honly) g
  simp only [State.nextStream, own, hg]
  exact ⟨filled, rfl⟩

end Stream

/-- The stream's part of the statement: what the entry holds follows from the kind of the frame that was sent. -/
theorem streamSent : StreamSent := by
  intro c o e f s hc hatt hcur he hf hs hm hcancel hdrop honly hq hroom
  obtain rfl : e.order = o := State.entry_order he
  have he' : (attemptDone s).entry e.order = some e := he
  have after := afterSent_stream he' hs hm hcancel
  obtain ⟨hentry, hmon⟩ := selfReceive_gapLoaded_keeps hc (.general e.order) f e.order
  refine ⟨_, exec_sent hatt hcur (frameOf_general he hf) fun _ => hroom, sentLeaves hc _ f fun _ => hroom, ?_, ?_, ?_⟩
  · intro hk
    refine ⟨hentry.trans ?_, hmon.trans ?_⟩ <;> rw [after, streamSent_head hf hcancel hk]
    · rw [State.changeEntry_entry (f := fun d => { d with frame := none, vetoes := 0, cancelAsked := false }) he'
        fun _ => rfl, hcancel]
    · rfl
  · intro hk
    refine ⟨hentry.trans ?_, hmon.trans ?_⟩ <;> rw [after, streamSent_end hf hk]
    · exact State.freeEntry_entry _ _
    · rfl
  · intro n filled g hhead hend hown hg
    have next := nextStream_filled he' hs (by simp [TxEntry.live, hcancel, hdrop]) rfl
      (fun d hd hstream => congrArg TxEntry.order (honly d hd hstream)) hown hg
    refine ⟨hentry.trans ?_, hmon.trans ?_⟩ <;> rw [after, streamSent_next hf hcancel hhead hend]
    · exact next.1
    · exact next.2

/-! ## The holders (R95, R98) -/

/-- Settles O37, entry by entry: a general entry, the entry of the recap stream, and the two holders. -/
theorem sentFrame : Obligations.SentFrame := by
  refine ⟨?general, streamSent, ?holder⟩
  case general =>
    intro c o e f s hc hatt hcur he hf hs hq hroom
    have he' : (attemptDone s).entry o = some e := he
    obtain ⟨hentry, -⟩ := selfReceive_gapLoaded_keeps hc (.general o) f o
    exact ⟨_, exec_sent hatt hcur (frameOf_general he hf) fun _ => hroom, hentry.trans (afterSent_entry he' hs),
      sentLeaves hc _ f fun _ => hroom⟩
  case holder =>
    intro c h s hc hatt hh hq
    have hroom : h.frame.kind.queued = true → s.traffic.received.length < 32 := fun hq' => nomatch hq.symm.trans hq'
    have left (r : TxRef) : ((gapLoaded s r h.frame).selfReceive h.frame).traffic = ((attemptDone s).afterSent r).traffic := by
      rw [selfReceive_not_queued hq, gapLoaded_eq hc]
      rfl
    unfold currentHolder at hh
    split at hh
    case h_1 hcur =>
      have hf : s.frameOf .beacon = some h.frame := congrArg (Option.map Holder.frame) hh
      refine ⟨_, exec_sent hatt hcur hf hroom, sentLeaves hc _ _ hroom, fun _ => ?_, fun hflow => ?_⟩
      · rw [left]
        exact ⟨rfl, rfl⟩
      · exact nomatch hcur.symm.trans hflow
    case h_2 hcur =>
      have hf : s.frameOf .flow = some h.frame := congrArg (Option.map Holder.frame) hh
      refine ⟨_, exec_sent hatt hcur hf hroom, sentLeaves hc _ _ hroom, fun hbeacon => ?_, fun _ => ?_⟩
      · exact nomatch hcur.symm.trans hbeacon
      · rw [left]
        exact ⟨rfl, rfl⟩
    case h_3 => exact nomatch hh

end Sys2Proof.Proofs.SentFrames
end

