-- ==== Sys2Proof/Proofs/OrdinaryStrobe.lean ====
section
/-! SUPPORT. What an ordinary strobe leaves whatever order its parts are taken in (R2, R34, R98, R100). -/

namespace Sys2Proof.Proofs.OrdinaryStrobe

open Sys2Proof Sys2Proof.Machine Sys2Proof.Safety Sys2Proof.Proofs.ReceiveQueue

/-! ## The sequence of the parts (log entry 5) -/

theorem mem_firstMentions (p : StrobePart) (l : List StrobePart) : p ∈ firstMentions l ↔ p ∈ l := by
  induction l with
  | nil => exact .rfl
  | cons q rest ih =>
    rw [firstMentions, List.mem_cons, List.mem_cons, List.mem_filter, ih]
    by_cases h : p = q <;> simp [h]

theorem nodup_firstMentions (l : List StrobePart) : (firstMentions l).Nodup := by
  induction l with
  | nil => exact .nil
  | cons q rest ih => exact List.nodup_cons.2 ⟨by simp, ih.filter _⟩

/-- To move the proposal event behind the slot close leaves the other parts as they are. -/
theorem count_afterClose {p : StrobePart} (hp : p ≠ .proposal) (l : List StrobePart) :
    (afterClose l).count p = l.count p := by
  unfold afterClose
  split
  case isTrue moved =>
    clear moved
    induction l with
    | nil => rfl
    | cons q rest ih =>
      rw [List.flatMap_cons, List.count_append, ih, List.count_cons, Nat.add_comm]
      congr 1
      cases q <;> simp [List.count_cons, hp.symm]
  case isFalse => rfl

/-- Every part but the proposal event is taken once. -/
theorem count_partSequence {p : StrobePart} (hp : p ≠ .proposal) (o : StrobeOrder) : (partSequence o).count p = 1 := by
  rw [partSequence, count_afterClose hp]
  refine List.count_eq_one_of_mem (nodup_firstMentions _) ((mem_firstMentions p _).2 (List.mem_append_right _ ?_))
  cases p <;> decide

/-- A part that is taken once has its place among the others. -/
theorem split_at_part {p : StrobePart} {parts : List StrobePart} (h : parts.count p = 1) :
    ∃ pre post, parts = pre ++ p :: post ∧ p ∉ pre ∧ p ∉ post := by
  obtain ⟨pre, post, rfl⟩ := List.append_of_mem (List.count_pos_iff.1 (h ▸ Nat.one_pos))
  rw [List.count_append, List.count_cons_self] at h
  exact ⟨pre, post, rfl, List.count_eq_zero.1 (by omega), List.count_eq_zero.1 (by omega)⟩

theorem takeParts_append (s : State) (c : Settings) (x : Slot) (own : Bool) (done ps qs : List StrobePart) :
    s.takeParts c x own done (ps ++ qs) = (s.takeParts c x own done ps).takeParts c x own (ps.reverse ++ done) qs := by
  induction ps generalizing s done with
  | nil => rfl
  | cons p ps ih =>
    rw [List.cons_append, State.takeParts, ih, List.reverse_cons, List.append_assoc]
    rfl

/-- The first part is taken, and the rest follow; the completion of the history entry is upkeep. -/
theorem upkeep_takeParts_cons (s : State) (c : Settings) (x : Slot) (own : Bool) (done : List StrobePart) (p : StrobePart)
    (rest : List StrobePart) :
    ∃ u, Upkeep (s.takePart c x own p) u ∧
      s.takeParts c x own done (p :: rest) = u.takeParts c x own (p :: done) rest := by
  refine ⟨_, ?_, rfl⟩
  split
  · exact upkeep_completeEntryAt _ c x
  · exact .refl _

theorem upkeep_takePart (s : State) (c : Settings) (x : Slot) (own : Bool) {p : StrobePart} (hp : p ≠ .intake) :
    Upkeep s (s.takePart c x own p) := by
  cases p with
  | traffic => exact upkeep_trafficStrobe s x own
  | slotClose => exact upkeep_closeAndTag s c x
  | outputStep => exact upkeep_strobeOutput s c x
  | intake => exact absurd rfl hp
  | proposal => exact upkeep_proposalEvent s c x
  | monitor => exact upkeep_monitorStrobe s c x own

/-- Every part but the intake is upkeep. -/
theorem upkeep_takeParts {parts : List StrobePart} (hp : .intake ∉ parts) (s : State) (c : Settings) (x : Slot) (own : Bool)
    (done : List StrobePart) : Upkeep s (s.takeParts c x own done parts) := by
  induction parts generalizing s done with
  | nil => exact .refl s
  | cons p rest ih =>
    obtain ⟨hhead, hrest⟩ := not_or.1 (mt List.mem_cons.2 hp)
    obtain ⟨u, hu, heq⟩ := upkeep_takeParts_cons s c x own done p rest
    rw [heq]
    exact ((upkeep_takePart s c x own (Ne.symm hhead)).trans hu).trans (ih hrest u _)

/-- Among the parts the intake is taken once, with upkeep before it and after it. -/
theorem takeParts_intake (s : State) (c : Settings) (x : Slot) (own : Bool) (o : StrobeOrder) :
    ∃ u, Upkeep s u ∧ Upkeep (u.intake c x own) (s.takeParts c x own [] (partSequence o)) := by
  obtain ⟨pre, post, heq, hpre, hpost⟩ := split_at_part (count_partSequence (p := .intake) nofun o)
  refine ⟨s.takeParts c x own [] pre, upkeep_takeParts hpre s c x own [], ?_⟩
  rw [heq, takeParts_append]
  obtain ⟨u, hu, hrest⟩ := upkeep_takeParts_cons (s.takeParts c x own [] pre) c x own (pre.reverse ++ []) .intake post
  rw [hrest]
  exact hu.trans (upkeep_takeParts hpost u c x own _)

/-! ## The receive queue and the flow state of an intake (R98, R100) -/

/-- The flow state, its holder and what the load of the holder goes by are as they were. -/
structure FlowAside (s t : State) : Prop where
  flowState : t.traffic.flowState = s.traffic.flowState
  flow : t.traffic.flow = s.traffic.flow
  flowNext : t.traffic.flowNext = s.traffic.flowNext
  attempt : t.link.attempt = s.link.attempt
  clash : t.link.clash = s.link.clash
  current : t.link.current = some .flow ↔ s.link.current = some .flow

theorem FlowAside.refl (s : State) : FlowAside s s := ⟨rfl, rfl, rfl, rfl, rfl, .rfl⟩

theorem FlowAside.trans {s t u : State} (h : FlowAside s t) (k : FlowAside t u) : FlowAside s u :=
  ⟨k.flowState.trans h.flowState, k.flow.trans h.flow, k.flowNext.trans h.flowNext, k.attempt.trans h.attempt,
    k.clash.trans h.clash, k.current.trans h.current⟩

theorem FlowAside.of_upkeep {s t : State} (h : Upkeep s t) : FlowAside s t :=
  ⟨h.flowState, h.flow, h.flowNext, h.attempt, h.clash, h.current⟩

theorem FlowAside.kept {s t : State} (h : FlowAside s t) : FlowKept s t := ⟨h.flowState, h.flow, h.flowNext⟩

/-- A load between two operations that leave the flow frame alone is a load of the whole. -/
theorem FlowAside.loaded {s u v t : State} {flow : FlowState} {k : Kind} (h : FlowAside s u) (hl : FlowLoaded flow k u v)
    (h' : FlowAside v t) : FlowLoaded flow k s t := by
  unfold FlowLoaded at *
  rw [h.flow, h.flowNext, h.attempt, h.clash, Ne, h.current] at hl
  rwa [h'.flowState, h'.flow, h'.flowNext]

theorem upkeep_take (k : Intake) (c : Settings) (x : Slot) (n : Nat) (f : RxFrame) :
    Upkeep k.state.dropReceived (k.take c x n f).state :=
  (upkeep_handle ({ k with state := k.state.dropReceived } : Intake) c x f).trans (upkeep_record _ x n f)

theorem take_received (k : Intake) (c : Settings) (x : Slot) (n : Nat) (f : RxFrame) :
    (k.take c x n f).state.traffic.received = k.state.traffic.received.tail :=
  (upkeep_take k c x n f).received.trans (dropReceived_received k.state)

theorem take_aside {k : Intake} (h : k.state.traffic.flowState = .clear ∨ 9 < k.state.traffic.received.length)
    (c : Settings) (x : Slot) (n : Nat) (f : RxFrame) : FlowAside k.state (k.take c x n f).state := by
  refine FlowAside.trans (t := k.state.dropReceived) ?_ (.of_upkeep (upkeep_take k c x n f))
  rw [dropReceived_unloaded h]
  exact ⟨rfl, rfl, rfl, rfl, rfl, .rfl⟩

theorem takeAll_received (fs : List RxFrame) (k : Intake) (c : Settings) (x : Slot) (n : Nat) :
    (k.takeAll c x n fs).state.traffic.received = k.state.traffic.received.drop fs.length := by
  induction fs generalizing k n with
  | nil => rfl
  | cons f fs ih => rw [Intake.takeAll, ih, take_received, List.drop_tail, List.length_cons]

/-- R98: removals that leave more than 8 frames, or find the flow state CLEAR, leave it and its holder alone. -/
theorem takeAll_aside (fs : List RxFrame) {k : Intake}
    (h : k.state.traffic.flowState = .clear ∨ fs.length + 8 < k.state.traffic.received.length) (c : Settings) (x : Slot)
    (n : Nat) : FlowAside k.state (k.takeAll c x n fs).state := by
  induction fs generalizing k n with
  | nil => exact .refl _
  | cons f fs ih =>
    rw [List.length_cons] at h
    have first := take_aside (h.imp_right fun hlen => by omega) c x n f
    refine first.trans (ih (h.imp (fun hclear => first.flowState.trans hclear) fun hlen => ?_) (n + 1))
    rw [take_received, List.length_tail]
    omega

/-- R98: the removal that leaves 8 frames clears an ASSERTED flow state and loads RESUME. -/
theorem takeAll_loaded (fs : List RxFrame) {k : Intake} (hasserted : k.state.traffic.flowState = .asserted)
    (hne : fs ≠ []) (hlen : k.state.traffic.received.length ≤ fs.length + 8) (c : Settings) (x : Slot) (n : Nat) :
    FlowLoaded .clear .resume k.state (k.takeAll c x n fs).state := by
  induction fs generalizing k n with
  | nil => exact absurd rfl hne
  | cons f fs ih =>
    rw [List.length_cons] at hlen
    rw [Intake.takeAll]
    by_cases hfew : k.state.traffic.received.length ≤ 9
    · have loaded := dropReceived_flowLoaded hasserted hfew
      have upkeep := upkeep_take k c x n f
      have rest := takeAll_aside fs (.inl (upkeep.flowState.trans loaded.1)) c x (n + 1)
      exact (FlowAside.refl k.state).loaded loaded ((FlowAside.of_upkeep upkeep).trans rest)
    · have first := take_aside (.inr (not_le.1 hfew)) c x n f
      have received := take_received k c x n f
      refine first.loaded (ih (first.flowState.trans hasserted) ?_ ?_ (n + 1)) (.refl _)
      · rintro rfl
        exact hfew hlen
      · rw [received, List.length_tail]
        omega

theorem length_batchOf (l : List RxFrame) : (batchOf l).length = min 4 l.length := List.length_take

/-- R100: an intake takes up to four frames off the queue. -/
theorem intake_received (s : State) (c : Settings) (x : Slot) (own : Bool) :
    (s.intake c x own).traffic.received = s.traffic.received.drop 4 := by
  rw [State.intake, (upkeep_close _ c).received, takeAll_received, (upkeep_openIntake s x own).received, length_batchOf]
  rcases le_total 4 s.traffic.received.length with h | h
  · rw [min_eq_left h]
  · rw [min_eq_right h, List.drop_length, List.drop_eq_nil_of_le h]

theorem intake_loaded {s : State} (hasserted : s.traffic.flowState = .asserted) (hne : s.traffic.received ≠ [])
    (hlen : s.traffic.received.length ≤ 12) (c : Settings) (x : Slot) (own : Bool) :
    FlowLoaded .clear .resume s (s.intake c x own) := by
  have opened := upkeep_openIntake s x own
  have batch := length_batchOf s.traffic.received
  refine (FlowAside.of_upkeep opened).loaded ?_ (.of_upkeep (upkeep_close _ c))
  refine takeAll_loaded _ (opened.flowState.trans hasserted) ?_ ?_ c x 0
  · exact mt List.take_eq_nil_iff.1 (by simp [hne])
  · rw [opened.received]
    omega

theorem intake_aside {s : State}
    (h : s.traffic.flowState = .clear ∨ s.traffic.received = [] ∨ 12 < s.traffic.received.length) (c : Settings) (x : Slot)
    (own : Bool) : FlowAside s (s.intake c x own) := by
  have opened := upkeep_openIntake s x own
  have closed (k : Intake) := FlowAside.of_upkeep (upkeep_close k c)
  refine (FlowAside.of_upkeep opened).trans (.trans ?_ (closed _))
  rcases h with hclear | hempty | hlen
  · exact takeAll_aside _ (.inl (opened.flowState.trans hclear)) c x 0
  · rw [hempty]
    exact .refl _
  · refine takeAll_aside _ (.inr ?_) c x 0
    rw [opened.received, length_batchOf]
    omega

/-! ## The reference and the slot period (R1, R34) -/

/-- An operation that leaves the reference unit and the ingress as they are. -/
def SameSlot (s t : State) : Prop := t.ref = s.ref ∧ t.ingress = s.ingress

theorem SameSlot.trans {s t u : State} (h : SameSlot s t) (k : SameSlot t u) : SameSlot s u :=
  ⟨k.1.trans h.1, k.2.trans h.2⟩

theorem SameSlot.of_keeps {s t : State} (h : KeepsEssence s t) : SameSlot s t := ⟨h.ref_eq, h.ingress_eq⟩

theorem SameSlot.of_storeSide {s t : State} (h : StoreSide s t) : SameSlot s t := by
  unfold StoreSide at h
  rw [h]
  exact ⟨rfl, rfl⟩

theorem sameSlot_playStep (s : State) (c : Settings) (pt : SchedPoint) : SameSlot s (s.playStep c pt) := by
  refine (SameSlot.trans ?_ (.of_storeSide (removePassed_storeSide _ c pt))).trans (.of_keeps (scheduleHeld_cueOnly _ _).keeps)
  exact .of_keeps (((endBursts_keeps s fun _ => true).trans (output_keeps _ c pt)).trans (withPlan_keeps _ _))

theorem sameSlot_strobeOutput (s : State) (c : Settings) (x : Slot) : SameSlot s (s.strobeOutput c x) := by
  unfold State.strobeOutput State.outputStep
  split
  · split
    · exact sameSlot_playStep s c _
    · exact ⟨rfl, rfl⟩
  · exact (SameSlot.of_keeps (substituteStep_keeps s c x)).trans (.of_storeSide (removeAged_storeSide _ _ _))

/-- R34: the slot period of `x` is open, and no burst of it has begun. -/
def OpenedAt (c : Settings) (x : Slot) (g : Ingress) : Prop := g.period = some x ∧ g.entries = freshEntries c ∧ g.peak = 0

theorem closeSlot_opened (s : State) (c : Settings) (x : Slot) :
    (s.closeSlot c x).ref = s.ref ∧ OpenedAt c x (s.closeSlot c x).ingress := by
  unfold State.closeSlot
  split
  · exact ⟨rfl, rfl, rfl, rfl⟩
  · obtain ⟨href, hingress⟩ := SameSlot.of_storeSide
      (append_storeSide (s.withIngress (.opening c x (s.ingress.record c _).2)) c.planCode (s.ingress.record c _).1)
    exact ⟨href, hingress ▸ ⟨rfl, rfl, rfl⟩⟩

theorem closeAndTag_opened (s : State) (c : Settings) (x : Slot) :
    (s.closeAndTag c x).ref = s.ref ∧ OpenedAt c x (s.closeAndTag c x).ingress := by
  have closed := closeSlot_opened s c x
  have tagged (p : Slot) := SameSlot.of_keeps (maskTagRequest_keeps (s.closeSlot c x) c p)
  unfold State.closeAndTag
  split
  · split
    · exact ⟨(tagged _).1.trans closed.1, (tagged _).2 ▸ closed.2⟩
    · exact closed
  · exact closed

/-- No part of the strobe of `x` changes the reference, or closes the period of `x`. -/
def StaysOpen (c : Settings) (x : Slot) (s t : State) : Prop :=
  t.ref = s.ref ∧ (OpenedAt c x s.ingress → OpenedAt c x t.ingress)

theorem SameSlot.staysOpen {s t : State} (h : SameSlot s t) (c : Settings) (x : Slot) : StaysOpen c x s t :=
  ⟨h.1, fun ho => h.2 ▸ ho⟩

theorem takeParts_staysOpen (s : State) (c : Settings) (x : Slot) (own : Bool) (done parts : List StrobePart) :
    StaysOpen c x s (s.takeParts c x own done parts) := by
  refine takeParts_keeps (StaysOpen c x) (fun _ => ⟨rfl, id⟩) (fun h k => ⟨k.1.trans h.1, k.2 ∘ h.2⟩) c x own
    (fun s p => ?_) (fun s => (SameSlot.of_keeps (completeEntryAt_keeps s c x)).staysOpen c x) parts done s
  cases p with
  | traffic => exact (SameSlot.of_keeps (trafficStrobe_cueOnly s x own).keeps).staysOpen c x
  | slotClose => exact ⟨(closeAndTag_opened s c x).1, fun _ => (closeAndTag_opened s c x).2⟩
  | outputStep => exact (sameSlot_strobeOutput s c x).staysOpen c x
  | intake => exact (SameSlot.of_keeps (intake_keeps s c x own)).staysOpen c x
  | proposal => exact (SameSlot.of_keeps (proposalEvent_cueOnly s c x).keeps).staysOpen c x
  | monitor => exact (SameSlot.of_keeps (monitorStrobe_keeps s c x own)).staysOpen c x

/-- R2, R34: the slot close is one of the parts, so the strobe opens its period. -/
theorem takeParts_opened (s : State) (c : Settings) (x : Slot) (own : Bool) (o : StrobeOrder) :
    OpenedAt c x (s.takeParts c x own [] (partSequence o)).ingress := by
  obtain ⟨pre, post, heq, -, -⟩ := split_at_part (count_partSequence (p := .slotClose) nofun o)
  rw [heq, takeParts_append]
  refine (takeParts_staysOpen _ c x own _ post).2 ?_
  split
  · exact ((SameSlot.of_keeps (completeEntryAt_keeps _ c x)).staysOpen c x).2 (closeAndTag_opened _ c x).2
  · exact (closeAndTag_opened _ c x).2

/-! ## The ordinary strobe -/

theorem exec_ordinaryStrobe {c : Settings} {x : Slot} {s : State} (hc : s.settings = some c)
    (hflag : s.ref.flag = .present) (hx : s.ref.hsn = some x) (o : StrobeOrder) :
    exec (.ordinaryStrobe (x + 1) o) s = .next (s.ordinaryStrobe c (x + 1) o) := by
  have present : ¬ s.ref.flag = .lost := by simp [hflag]
  have follows : s.ref.follows (x + 1) = true := by simp [RefUnit.follows, hx]
  show Host.Outcome.next (s.takeStrobe (x + 1) o) = _
  simp only [State.takeStrobe, hc, State.configuredStrobe, if_neg present, if_pos follows]

/-- An ordinary strobe is upkeep before its intake and after it. -/
theorem ordinaryStrobe_intake (s : State) (c : Settings) (x : Slot) (o : StrobeOrder) :
    ∃ u, Upkeep s u ∧ Upkeep (u.intake c x o.ownSteps) (s.ordinaryStrobe c x o) := by
  obtain ⟨u, before, after⟩ := takeParts_intake ((s.settle c).withRef (.strobe x)) c x o.ownSteps o
  exact ⟨u, ((upkeep_settle s c).trans (.withRef _ _)).trans before, after⟩

/-- The first part of O7: what an ordinary strobe leaves whatever the order of its parts. -/
theorem ordinaryStrobe_leaves (c : Settings) (x : Slot) (o : StrobeOrder) (s : State) (hc : s.settings = some c) :
    (s.ordinaryStrobe c x o).ref = ⟨some x, .present, true⟩ ∧ OpenedAt c x (s.ordinaryStrobe c x o).ingress ∧
      (s.ordinaryStrobe c x o).traffic.received = s.traffic.received.drop 4 ∧
      (s.ordinaryStrobe c x o).mem = s.mem ∧ (s.ordinaryStrobe c x o).settings = some c ∧
      (s.traffic.flowState = .asserted → s.traffic.received ≠ [] → s.traffic.received.length ≤ 12 →
        FlowLoaded .clear .resume s (s.ordinaryStrobe c x o)) ∧
      (s.traffic.flowState = .clear ∨ s.traffic.received = [] ∨ 12 < s.traffic.received.length →
        FlowKept s (s.ordinaryStrobe c x o)) := by
  obtain ⟨hmem, -, -, hsettings, -, -⟩ := ordinaryStrobe_faults s c x o
  obtain ⟨u, before, after⟩ := ordinaryStrobe_intake s c x o
  have aside := FlowAside.of_upkeep before
  refine ⟨(takeParts_staysOpen _ c x o.ownSteps [] _).1, takeParts_opened _ c x o.ownSteps o, ?received, hmem,
    hsettings.trans hc, ?loaded, ?kept⟩
  case received => rw [after.received, intake_received, before.received]
  case loaded =>
    intro hasserted hne hlen
    rw [← before.received] at hne hlen
    exact aside.loaded (intake_loaded (aside.flowState.trans hasserted) hne hlen c x o.ownSteps) (.of_upkeep after)
  case kept =>
    intro h
    rw [← before.received, ← aside.flowState] at h
    exact ((aside.trans (intake_aside h c x o.ownSteps)).trans (.of_upkeep after)).kept

end Sys2Proof.Proofs.OrdinaryStrobe
end

