-- ==== Sys2Proof/Proofs/StrobeVerdict.lean ====
section
/-! SUPPORT. The verdict on a frame that an ordinary strobe takes in (R63, R117, R126, R127, R145): what comes before the
intake leaves the plan to the retirement and the span expiry due, and what comes after it leaves the verdict. -/

namespace Sys2Proof.Proofs.StrobeVerdict

open Sys2Proof Sys2Proof.Machine Sys2Proof.Safety Sys2Proof.Proofs.OrdinaryStrobe

/-! ## What leaves the plan and the schedule alone -/

/-- An operation that leaves the plan, the rescind stack, the schedule point and the station state as they are. -/
structure KeepsSchedule (s t : State) : Prop where
  plan : t.plan = s.plan
  stack : t.orig.stack = s.orig.stack
  point : t.egress.point = s.egress.point
  mode : t.mon.mode = s.mon.mode

theorem KeepsSchedule.refl (s : State) : KeepsSchedule s s := ⟨rfl, rfl, rfl, rfl⟩

theorem KeepsSchedule.trans {s t u : State} (h : KeepsSchedule s t) (k : KeepsSchedule t u) : KeepsSchedule s u :=
  ⟨k.plan.trans h.plan, k.stack.trans h.stack, k.point.trans h.point, k.mode.trans h.mode⟩

/-- The last operation first: it tells what state it is taken in. -/
theorem KeepsSchedule.after {s t u : State} (k : KeepsSchedule t u) (h : KeepsSchedule s t) : KeepsSchedule s u := h.trans k

theorem KeepsSchedule.of_cueOnly {s t : State} (h : CueOnly s t) (hm : t.mon.mode = s.mon.mode) : KeepsSchedule s t :=
  ⟨h.plan_eq, congrArg Originator.stack h.orig_eq, congrArg Egress.point h.egress_eq, hm⟩

theorem KeepsSchedule.of_storeSide {s t : State} (h : StoreSide s t) : KeepsSchedule s t := by
  unfold StoreSide at h
  rw [h]
  exact ⟨rfl, rfl, rfl, rfl⟩

theorem keeps_withMon (s : State) {v : Monitor} (hv : v.mode = s.mon.mode) : KeepsSchedule s (s.withMon v) :=
  ⟨rfl, rfl, rfl, hv⟩

theorem keeps_addEntry (s : State) (owner : Owner) (f : TxFrame) (st : Option Slot) (stream : Bool) :
    KeepsSchedule s (s.addEntry owner f st stream).1 :=
  .of_cueOnly (addEntry_cueOnly _ _ _ _ _) (by rw [addEntry_mon])

theorem withdrawEntry_mon (s : State) (e : TxEntry) : (s.withdrawEntry e).mon = s.mon := by
  unfold State.withdrawEntry
  split_ifs
  · rfl
  · rfl
  · rfl
  · exact tell_cancelled_mon _ _

theorem keeps_withdrawStale (s : State) (x : Slot) : KeepsSchedule s (s.withdrawStale x) :=
  .of_cueOnly (withdrawStale_cueOnly s x) (congrArg Monitor.mode (foldl_mon _ withdrawEntry_mon _ s))

theorem keeps_trafficStrobe (s : State) (x : Slot) : KeepsSchedule s (s.trafficStrobe x false) :=
  .after (keeps_withdrawStale ((s.withHeldBy (tickHeld s.traffic.heldBy)).withHeldBy _) x) ⟨rfl, rfl, rfl, rfl⟩

/-! ## The monitor -/

theorem keeps_addJoin (s : State) : KeepsSchedule s s.addJoin := by
  refine KeepsSchedule.trans (t := s.drawHsn.2) ?_ (keeps_addEntry _ _ _ _ _)
  unfold State.drawHsn
  split <;> exact ⟨rfl, rfl, rfl, rfl⟩

theorem keeps_askAgain (s : State) : KeepsSchedule s s.askAgain := by
  refine KeepsSchedule.trans (t := if s.joinQueued then s else s.addJoin) ?_ (keeps_withMon _ rfl)
  split
  · exact .refl s
  · exact keeps_addJoin s

theorem keeps_failCollection (s : State) : KeepsSchedule s s.failCollection :=
  .after (keeps_askAgain _) (keeps_withMon s rfl)

/-- A station with a schedule is not LISTENING, so that no expiry founds an era. -/
theorem keeps_expireMonitor {s : State} (hm : s.mon.mode.hasSchedule = true) (c : Settings) (x : Slot) :
    KeepsSchedule s (s.expireMonitor c x) := by
  have collect : KeepsSchedule s s.expireCollect := by
    unfold State.expireCollect
    split
    · exact keeps_failCollection s
    · exact .refl s
  have foreign : KeepsSchedule s s.expireCollect.expireForeign := by
    refine collect.trans ?_
    unfold State.expireForeign
    split
    · exact keeps_withMon _ rfl
    · exact .refl _
  have retry : KeepsSchedule s s.expireCollect.expireForeign.expireRetry := by
    refine foreign.trans ?_
    unfold State.expireRetry
    split
    · exact keeps_askAgain _
    · exact .refl _
  have listens : ¬ s.expireCollect.expireForeign.expireRetry.mon.listenDue = true := by
    rw [← retry.mode] at hm
    intro hdue
    simp only [Monitor.listenDue, Bool.and_eq_true, beq_iff_eq] at hdue
    rw [hdue.1] at hm
    exact Bool.false_ne_true hm
  rwa [State.expireMonitor, State.expireListen, if_neg listens]

/-- The monitor's strobe keeps the plan and the rescind stack of a station with a schedule; a RESYNC station may return to
its resync origin. -/
theorem monitorStrobe_plan {s : State} (hm : s.mon.mode.hasSchedule = true) (c : Settings) (x : Slot) :
    (s.monitorStrobe c x false).plan = s.plan ∧ (s.monitorStrobe c x false).orig.stack = s.orig.stack := by
  have expired : KeepsSchedule s ((s.withMon s.mon.tick).expireMonitor c x) :=
    .after (keeps_expireMonitor (s := s.withMon s.mon.tick) hm c x) (keeps_withMon s rfl)
  show (((s.withMon s.mon.tick).expireMonitor c x).checkPeers x).plan = _ ∧
    (((s.withMon s.mon.tick).expireMonitor c x).checkPeers x).orig.stack = _
  rw [← expired.plan, ← expired.stack]
  rw [← expired.mode] at hm
  generalize (s.withMon s.mon.tick).expireMonitor c x = u at hm
  unfold State.checkPeers
  split
  · exact ⟨rfl, rfl⟩
  · split
    case h_1 hjoining =>
      rw [hjoining] at hm
      exact absurd hm Bool.false_ne_true
    case h_2 origin _ =>
      have left := ((withMode_cueOnly u origin.mode).trans (cancelJoin_cueOnly _)).trans (withRetry_cueOnly _ none)
      exact ⟨left.plan_eq, congrArg Originator.stack left.orig_eq⟩
    case h_3 => exact ⟨rfl, rfl⟩

theorem placeBeacon_mon (s : State) (f : TxFrame) : (s.placeBeacon f).mon = s.mon := by
  unfold State.placeBeacon State.release
  split_ifs <;> rfl

theorem keeps_completeEntryAt (s : State) (c : Settings) (x : Slot) : KeepsSchedule s (s.completeEntryAt c x) := by
  have built (u : State) : KeepsSchedule u (u.buildBeacon c x) := by
    refine .of_cueOnly (buildBeacon_cueOnly u c x) ?_
    unfold State.buildBeacon
    split
    · split
      · split
        · rw [placeBeacon_mon]
        · rfl
      · rfl
    · rfl
  unfold State.completeEntryAt
  split
  · exact .after (built _) ⟨rfl, rfl, rfl, rfl⟩
  · exact .refl s

/-! ## The slot close and the proposal event -/

theorem keeps_sendMark (s : State) (m : Mark) : KeepsSchedule s (s.sendMark m) := keeps_addEntry s _ _ _ _

theorem keeps_closeAndTag (s : State) (c : Settings) (x : Slot) : KeepsSchedule s (s.closeAndTag c x) := by
  have closed : KeepsSchedule s (s.closeSlot c x) := by
    unfold State.closeSlot
    split
    · exact ⟨rfl, rfl, rfl, rfl⟩
    · exact .after (.of_storeSide (append_storeSide _ _ _)) ⟨rfl, rfl, rfl, rfl⟩
  have tagged (u : State) (p : Slot) : KeepsSchedule u (u.maskTagRequest c p) := by
    unfold State.maskTagRequest
    split
    · exact .after (keeps_sendMark _ _) ⟨rfl, rfl, rfl, rfl⟩
    · exact .refl u
  unfold State.closeAndTag
  split
  · split
    · exact closed.trans (tagged _ _)
    · exact closed
  · exact closed

theorem keeps_proposalEvent (s : State) (c : Settings) (x : Slot) : KeepsSchedule s (s.proposalEvent c x) := by
  refine .of_cueOnly (proposalEvent_cueOnly s c x) ?_
  have proposed (u : State) (p : Slot) (n : Int) : (u.propose x p n).mon = u.mon := by
    have add := addEntry_mon u .regulator ⟨.pace, paceBody x p n⟩ none false
    unfold State.propose
    split <;> rename_i heq <;> rw [heq] at add <;> exact add
  unfold State.proposalEvent State.formProposal
  dsimp only
  split
  · split_ifs
    · rfl
    · split
      · rfl
      · rw [proposed]
        rfl
    · rfl
  · rfl

/-! ## Before the intake -/

theorem expireSpans_of_not_due {pl : Plan} {x : Slot} (h : ∀ d ∈ pl.spans, (x - d.last).toNat < 500) :
    pl.expireSpans x = pl := by
  have young : pl.spans.filter (fun d => !d.due x) = pl.spans :=
    List.filter_eq_self.2 fun d hd => by
      rw [Span.due, Bool.not_eq_true', decide_eq_false_iff_not]
      exact not_le.2 (h d hd)
  rw [Plan.expireSpans, young]

theorem keeps_settle {s : State} {c : Settings} {x : Slot} (hx : s.ref.hsn = some x)
    (hm : s.mon.mode.hasSchedule = true) (hspans : ∀ d ∈ s.plan.spans, (x - d.last).toNat < 500) :
    KeepsSchedule s (s.settle c) := by
  have stale := KeepsSchedule.after (keeps_withdrawStale (s.withHeldBy (dropLapsed s.traffic.heldBy)) x) (s := s)
    ⟨rfl, rfl, rfl, rfl⟩
  have expired := stale.trans (keeps_expireMonitor (stale.mode ▸ hm) c x)
  unfold State.settle
  simp only [hx]
  generalize ((s.withHeldBy (dropLapsed s.traffic.heldBy)).withdrawStale x).expireMonitor c x = u at expired
  refine .after (keeps_completeEntryAt _ c x) (expired.trans ?_)
  split
  · exact ⟨expireSpans_of_not_due (expired.plan ▸ hspans), rfl, rfl, rfl⟩
  · exact .refl u

theorem outStep_hsn (pl : Plan) (pt : SchedPoint) : (pl.outStep pt).hsn = pt.hsn + 1 := by
  unfold Plan.outStep
  split <;> rfl

/-- R130: the point of the strobe before takes one output step. -/
theorem stepTo_next (pl : Plan) (pt : SchedPoint) : pl.stepTo pt (pt.hsn + 1) = pl.outStep pt := by
  have earlier : ¬ pt.hsn = pt.hsn + 1 := by
    bv_omega
  rw [Plan.stepTo, if_neg earlier, ← outStep_hsn pl pt]

theorem playStep_stack (s : State) (c : Settings) (pt : SchedPoint) : (s.playStep c pt).orig.stack = s.orig.stack := by
  have held (u : State) : (u.scheduleHeld pt.psn).orig.stack = u.orig.stack :=
    congrArg Originator.stack (scheduleHeld_cueOnly u pt.psn).orig_eq
  have passed (u : State) : (u.removePassed c pt).orig.stack = u.orig.stack :=
    (KeepsSchedule.of_storeSide (removePassed_storeSide u c pt)).stack
  exact ((held _).trans (passed _)).trans (KeepsSchedule.of_storeSide (endBursts_storeSide s fun _ => true)).stack

/-! ## The verdict on one frame -/

/-- The plan takes the verdict `v` on a frame, a refusal of an own frame pulses REFUSED, and an inserted cut of the
station's own origin goes on top of the rescind stack. -/
def TakesVerdict (s t : State) (v : Verdict) (own : Bool) : Prop :=
  t.plan = v.plan ∧ (own = true → v.reason ≠ none → t.contacts.refused = true) ∧
    (∀ cut, v.inserted = some cut → cut.id.origin = s.station →
      t.orig.stack = (cut.id :: s.orig.stack.filter (· != cut.id)).take 8) ∧
    ((∀ cut, v.inserted = some cut → cut.id.origin ≠ s.station) → t.orig.stack = s.orig.stack)

theorem TakesVerdict.persists {s t u : State} {v : Verdict} {own : Bool} (h : TakesVerdict s t v own) (hp : u.plan = t.plan)
    (hs : u.orig.stack = t.orig.stack) (hr : t.contacts.refused = true → u.contacts.refused = true) :
    TakesVerdict s u v own := by
  obtain ⟨plan, refused, pushed, kept⟩ := h
  exact ⟨hp.trans plan, fun ho hv => hr (refused ho hv), fun cut hc ho => hs.trans (pushed cut hc ho),
    fun hc => hs.trans (kept hc)⟩

/-- A state with the station number and the rescind stack of `s` takes a verdict as `s` does. -/
theorem TakesVerdict.of_start {r s t : State} {v : Verdict} {own : Bool} (h : TakesVerdict r t v own)
    (hstation : r.station = s.station) (hs : r.orig.stack = s.orig.stack) : TakesVerdict s t v own := by
  unfold TakesVerdict at *
  rwa [hstation, hs] at h

theorem pulseIfRefused_refused (s : State) {own : Bool} {r : Option Reason} (ho : own = true) (hr : r ≠ none) :
    (s.pulseIfRefused own r).contacts.refused = true := by
  rw [State.pulseIfRefused, if_pos (by simp [ho, Option.isSome_iff_ne_none, hr])]
  rfl

theorem reportCut_keeps_plan (s : State) (c : Option Cut) :
    (s.reportCut c).plan = s.plan ∧ (s.reportCut c).contacts = s.contacts ∧ (s.reportCut c).mon = s.mon := by
  unfold State.reportCut
  split
  · split <;> exact ⟨rfl, rfl, rfl⟩
  · exact ⟨rfl, rfl, rfl⟩

theorem reportCut_own {s : State} {c : Cut} (h : c.id.origin = s.station) :
    (s.reportCut (some c)).orig.stack = (c.id :: s.orig.stack.filter (· != c.id)).take 8 := by
  rw [State.reportCut, if_pos h]
  rfl

theorem reportCut_foreign {s : State} {c : Option Cut} (h : ∀ d, c = some d → d.id.origin ≠ s.station) :
    s.reportCut c = s := by
  cases c with
  | none => rfl
  | some d => exact if_neg (h d rfl)

theorem handleMark_takes (s : State) (b : Bounds) (f : RxFrame) :
    TakesVerdict s (s.handleMark b f).1 (s.plan.judgeMark b f.sender f.kind f.body) f.own ∧
      (s.handleMark b f).1.mon = s.mon := by
  unfold State.handleMark
  dsimp only
  generalize s.plan.judgeMark b f.sender f.kind f.body = v
  have pulsed := pulseIfRefused_cueOnly (s.withPlan v.plan) f.own v.reason
  have mon : ((s.withPlan v.plan).pulseIfRefused f.own v.reason).mon = s.mon := by
    unfold State.pulseIfRefused
    split <;> rfl
  have refused := pulseIfRefused_refused (s.withPlan v.plan) (own := f.own) (r := v.reason)
  obtain ⟨hplan, hcontacts, hmon⟩ := reportCut_keeps_plan ((s.withPlan v.plan).pulseIfRefused f.own v.reason) v.inserted
  have station : ((s.withPlan v.plan).pulseIfRefused f.own v.reason).station = s.station := pulsed.keeps.station_eq
  have orig : ((s.withPlan v.plan).pulseIfRefused f.own v.reason).orig = s.orig := pulsed.orig_eq
  refine ⟨⟨hplan.trans pulsed.plan_eq, fun ho hr => hcontacts ▸ refused ho hr, fun cut hcut ho => ?_, fun hf => ?_⟩,
    hmon.trans mon⟩
  · rw [hcut, reportCut_own (ho.trans station.symm), orig]
  · rw [reportCut_foreign (station ▸ hf), orig]

/-- R145: a PACE inserts no cut. -/
theorem judgePace_inserted (pl : Plan) (b : Bounds) (body : List Byte) : (pl.judgePace b body).inserted = none := by
  unfold Plan.judgePace Plan.judgeEntry
  split
  · split_ifs <;> rfl
  · rfl

theorem handlePace_takes (s : State) (c : Settings) (b : Bounds) (f : RxFrame) :
    TakesVerdict s (s.handlePace c b f) (s.plan.judgePace b f.body) f.own ∧ (s.handlePace c b f).mon = s.mon := by
  have inserted := judgePace_inserted s.plan b f.body
  unfold State.handlePace
  dsimp only
  generalize s.plan.judgePace b f.body = v at *
  generalize s.reg.afterPace c b.x f v.adopted = r
  have pulsed := pulseIfRefused_cueOnly ((s.withPlan v.plan).withReg r) f.own v.reason
  refine ⟨⟨pulsed.plan_eq, pulseIfRefused_refused _, fun cut hcut _ => ?_, fun _ => congrArg Originator.stack pulsed.orig_eq⟩,
    ?_⟩
  · exact nomatch inserted.symm.trans hcut
  · unfold State.pulseIfRefused
    split <;> rfl

theorem handle_mark {f : RxFrame} (hf : f.kind.isMark = true) (k : Intake) (c : Settings) (x : Slot) :
    k.handle c x f = k.mark f := by
  obtain ⟨sender, kind, body, own⟩ := f
  cases kind <;> first | rfl | cases hf

/-- R101: with a schedule, a MARK or PACE frame is judged against the plan as the intake finds it. -/
theorem handle_takes {k : Intake} {b : Bounds} (hb : k.bounds = some b) (hm : k.state.mon.mode.hasSchedule = true)
    {f : RxFrame} (hf : f.kind.isMark = true ∨ f.kind = .pace) (c : Settings) (x : Slot) :
    TakesVerdict k.state (k.handle c x f).state (k.state.plan.judgeFrame b f) f.own ∧
      (k.handle c x f).state.mon = k.state.mon := by
  by_cases hpace : f.kind = .pace
  · have handled : (k.handle c x f).state = k.state.handlePace c b f := by
      simp only [Intake.handle, hpace, Intake.pace, hb, hm, if_true]
    rw [handled, Plan.judgeFrame, if_pos hpace]
    exact handlePace_takes k.state c b f
  · have mark : f.kind.isMark = true := hf.resolve_right hpace
    have handled : (k.handle c x f).state = (k.state.handleMark b f).1 := by
      simp only [handle_mark mark, Intake.mark, hb, hm, if_true]
    rw [handled, Plan.judgeFrame, if_neg hpace]
    exact handleMark_takes k.state b f

/-! ## The intake of one frame -/

theorem dropReceived_mon (s : State) : s.dropReceived.mon = s.mon := by
  unfold State.dropReceived State.afterRemoval State.loadFlow State.release
  split_ifs <;> rfl

theorem keeps_recordFrame (s : State) (x : Slot) (n : Nat) (f : RxFrame) : KeepsSchedule s (s.recordFrame x n f) := by
  unfold State.recordFrame
  split
  · exact .refl s
  · split_ifs
    · exact keeps_failCollection s
    · exact keeps_withMon s rfl
    · exact keeps_failCollection s
    · exact keeps_withMon s rfl

theorem keeps_record (k : Intake) (x : Slot) (n : Nat) (f : RxFrame) : KeepsSchedule k.state (k.record x n f).state := by
  unfold Intake.record
  split
  · exact keeps_recordFrame k.state x n f
  · exact .refl _

theorem keeps_close (k : Intake) (c : Settings) : KeepsSchedule k.state (k.close c) := by
  have checked (u : State) (b : Bounds) : KeepsSchedule u (u.checkProposal c b k.cuts) := by
    refine .of_cueOnly (checkProposal_cueOnly u c b k.cuts) (congrArg Monitor.mode ?_)
    unfold State.checkProposal State.cancelProposal
    split
    · split_ifs
      · split
        · split_ifs
          · split
            · exact cancelEntry_mon _ _
            · rfl
          · rfl
        · rfl
      · rfl
    · rfl
  unfold Intake.close
  split
  · exact .after (checked _ _) ⟨rfl, rfl, rfl, rfl⟩
  · exact .refl _

/-- What the intake of `x` finds once the play `q` has been taken: the plan is retired, the point is the play, and the
station has a schedule and the frame `f` to take. -/
structure Played (s v : State) (q : SchedPoint) (f : RxFrame) : Prop where
  plan : v.plan = s.plan.retire q.psn
  stack : v.orig.stack = s.orig.stack
  point : v.egress.point = some q
  mode : v.mon.mode.hasSchedule = true
  station : v.station = s.station
  received : v.traffic.received = [f]

/-- R57, R63, R126: the intake judges its one frame by the plan taken and the bounds taken. -/
theorem intake_takes {s v : State} {q : SchedPoint} {f : RxFrame} (h : Played s v q f)
    (hf : f.kind.isMark = true ∨ f.kind = .pace) (c : Settings) :
    VerdictTaken s (v.intake c q.hsn false) q f ∧ (v.intake c q.hsn false).mon.mode.hasSchedule = true := by
  have opened : v.openIntake q.hsn false =
      ⟨v.beforeIntake q q.hsn true, some ((v.beforeIntake q q.hsn true).plan.boundsAt q q.hsn), []⟩ := by
    simp only [State.openIntake, h.point, h.mode, if_true, Plan.stepTo]
    rfl
  have plan : (v.beforeIntake q q.hsn true).plan = planTaken s q := by
    show v.plan.retireDue q.psn q.hsn true = _
    rw [h.plan, Plan.retireDue_retire]
    rfl
  have batch : v.intake c q.hsn false = ((v.openIntake q.hsn false).take c q.hsn 0 f).close c := by
    rw [State.intake, h.received]
    rfl
  have before : (v.beforeIntake q q.hsn true).orig.stack = v.orig.stack ∧
      (v.beforeIntake q q.hsn true).station = v.station ∧ (v.beforeIntake q q.hsn true).mon = v.mon := ⟨rfl, rfl, rfl⟩
  rw [batch, opened, plan]
  generalize v.beforeIntake q q.hsn true = w at plan before
  obtain ⟨hstack, hstation, hmon⟩ := before
  have dropped := KeepsSchedule.of_cueOnly (dropReceived_cueOnly w) (congrArg Monitor.mode (dropReceived_mon w))
  have station : w.dropReceived.station = s.station :=
    (dropReceived_cueOnly w).keeps.station_eq.trans (hstation.trans h.station)
  have mode : w.dropReceived.mon.mode.hasSchedule = true := by
    rw [dropReceived_mon, hmon]
    exact h.mode
  obtain ⟨taken, mon⟩ := handle_takes (k := ⟨w.dropReceived, some (boundsTaken s q), []⟩) rfl mode hf c q.hsn
  have rest := (keeps_record (Intake.handle ⟨w.dropReceived, some (boundsTaken s q), []⟩ c q.hsn f) q.hsn 0 f).trans
    (keeps_close _ c)
  have lit := (upkeep_record (Intake.handle ⟨w.dropReceived, some (boundsTaken s q), []⟩ c q.hsn f) q.hsn 0 f).trans
    (upkeep_close _ c)
  rw [show (Intake.mk w.dropReceived (some (boundsTaken s q)) []).state.plan = planTaken s q from
    dropped.plan.trans plan] at taken
  constructor
  · exact (taken.of_start station (dropped.stack.trans (hstack.trans h.stack))).persists rest.plan rest.stack lit.refused
  · exact (congrArg Mode.hasSchedule (rest.mode.trans (congrArg Monitor.mode mon))).trans mode

/-! ## The strobe -/

theorem partSequence_canonical : partSequence ⟨[], false⟩ = canonicalParts := by decide

/-- The parts in the model's own order, with the completion of the history entry after the intake. -/
theorem ordinaryStrobe_canonical (s : State) (c : Settings) (x : Slot) :
    s.ordinaryStrobe c x ⟨[], false⟩ =
      ((((((((s.settle c).withRef (.strobe x)).trafficStrobe x false).closeAndTag c x).strobeOutput c x).intake c x
        false).completeEntryAt c x).proposalEvent c x).monitorStrobe c x false := by
  rw [State.ordinaryStrobe, partSequence_canonical]
  simp [canonicalParts, State.takeParts, State.takePart, completesEntry]

/-- Before the intake of a station that takes one frame, its output step has taken the play of the strobe. -/
theorem played_of_takesOne {s : State} {c : Settings} {x : Slot} {q : SchedPoint} {f : RxFrame}
    (h : TakesOne s c x q f) :
    q.hsn = x + 1 ∧
      Played s
        (((((s.settle c).withRef (.strobe (x + 1))).trafficStrobe (x + 1) false).closeAndTag c (x + 1)).strobeOutput c (x + 1))
        q f := by
  obtain ⟨-, -, hx, hm, ⟨pt, hpoint, rfl, rfl⟩, hreceived, hspans⟩ := h
  have keeps := KeepsSchedule.after (keeps_closeAndTag _ c (pt.hsn + 1))
    (.after (keeps_trafficStrobe ((s.settle c).withRef (.strobe (pt.hsn + 1))) (pt.hsn + 1))
      (.trans (keeps_settle hx hm hspans) ⟨rfl, rfl, rfl, rfl⟩))
  have upkeep := ((upkeep_settle s c).trans (.withRef _ (.strobe (pt.hsn + 1)))).trans
    ((upkeep_trafficStrobe _ (pt.hsn + 1) false).trans (upkeep_closeAndTag _ c (pt.hsn + 1)))
  have faults := ((settle_keeps s c).faults.trans (withRef_faults _ (.strobe (pt.hsn + 1)))).trans
    ((trafficStrobe_cueOnly _ (pt.hsn + 1) false).faults.trans (closeAndTag_faults _ c (pt.hsn + 1)))
  generalize (((s.settle c).withRef (.strobe (pt.hsn + 1))).trafficStrobe (pt.hsn + 1) false).closeAndTag c (pt.hsn + 1) = u
    at keeps upkeep faults
  have mode : u.mon.mode.hasSchedule = true := keeps.mode ▸ hm
  have step : u.strobeOutput c (pt.hsn + 1) = u.playStep c (s.plan.outStep pt) := by
    rw [State.strobeOutput, if_pos mode, State.outputStep]
    simp only [keeps.point, hpoint, keeps.plan, stepTo_next]
  obtain ⟨plan, point⟩ := u.playStep_schedule c (s.plan.outStep pt)
  obtain ⟨-, -, ustation, -⟩ := faults
  obtain ⟨-, -, pstation, -⟩ := playStep_faults u c (s.plan.outStep pt)
  refine ⟨outStep_hsn s.plan pt, ?_⟩
  rw [step]
  exact ⟨plan.trans (by rw [keeps.plan]), (playStep_stack u c _).trans keeps.stack, point,
    (u.playStep_hasSchedule c _).trans mode, pstation.trans ustation,
    (upkeep_playStep u c _).received.trans (upkeep.received.trans hreceived)⟩

/-- The second part of O7: the verdict of the intake is seen in the state that the strobe leaves. -/
theorem ordinaryStrobe_verdict {s : State} {c : Settings} {x : Slot} {q : SchedPoint} {f : RxFrame}
    (h : TakesOne s c x q f) (hf : f.kind.isMark = true ∨ f.kind = .pace) :
    VerdictTaken s (s.ordinaryStrobe c (x + 1) ⟨[], false⟩) q f := by
  obtain ⟨hq, played⟩ := played_of_takesOne h
  obtain ⟨taken, mode⟩ := intake_takes played hf c
  rw [ordinaryStrobe_canonical]
  rw [hq] at taken mode
  generalize State.intake _ c (x + 1) false = u at taken mode
  have proposed := (keeps_completeEntryAt u c (x + 1)).trans (keeps_proposalEvent _ c (x + 1))
  obtain ⟨plan, stack⟩ := monitorStrobe_plan (proposed.mode ▸ mode) c (x + 1)
  have lit := ((upkeep_completeEntryAt u c (x + 1)).trans (upkeep_proposalEvent _ c (x + 1))).trans
    (upkeep_monitorStrobe _ c (x + 1) false)
  exact TakesVerdict.persists taken (plan.trans proposed.plan) (stack.trans proposed.stack) lit.refused

/-- Settles O7: the parts in any order, and the verdict in the model's own order. -/
theorem ordinaryStrobe : Obligations.OrdinaryStrobe := by
  constructor
  · rintro c x _ o s hc hflag hx rfl
    obtain ⟨href, ⟨hperiod, hentries, hpeak⟩, rest⟩ := ordinaryStrobe_leaves c (x + 1) o s hc
    obtain ⟨hreceived, hmem, hsettings, hflow⟩ := rest
    exact ⟨_, exec_ordinaryStrobe hc hflag hx o, href, hperiod, hentries, hpeak, hreceived, hmem, hsettings, hflow⟩
  · intro c x q f s h hf
    obtain ⟨hc, hflag, hx, -⟩ := id h
    exact ⟨_, exec_ordinaryStrobe hc hflag hx _, ordinaryStrobe_verdict h hf⟩

end Sys2Proof.Proofs.StrobeVerdict
end

