-- ==== Sys2Proof/Proofs/SpanContexts.lean ====
section
/-! SUPPORT. The span frames (7.6): what SPAN-IN, SPAN-OUT and SPAN-ABANDON make of the sender's context (R121 to R123,
R125). -/

namespace Sys2Proof.Proofs.SpanContexts

open Sys2Proof Sys2Proof.Machine

/-! ## The sender's context and the others (R56) -/

theorem spanOf_setSpan_self (pl : Plan) (c : Span) : (pl.setSpan c).spanOf c.origin = some c := by
  rw [Plan.spanOf_setSpan, if_pos rfl]

theorem spanOf_setSpan_ne (pl : Plan) (c : Span) {j : Station} (h : j ≠ c.origin) :
    (pl.setSpan c).spanOf j = pl.spanOf j := by
  rw [Plan.spanOf_setSpan, if_neg h.symm]

theorem spanOf_idleSpan_self (pl : Plan) (k : Station) : (pl.idleSpan k).spanOf k = none := by
  rw [Plan.spanOf_idleSpan, if_pos rfl]

theorem spanOf_idleSpan_ne (pl : Plan) {k j : Station} (h : j ≠ k) : (pl.idleSpan k).spanOf j = pl.spanOf j := by
  rw [Plan.spanOf_idleSpan, if_neg h.symm]

/-- Settles O24: neither judgement looks at the context's state, so the laws of `setSpan` and `idleSpan` give every
clause. -/
theorem spanInAndAbandon : Obligations.SpanInAndAbandon := by
  intro pl b k p
  have spanIn : pl.judgeSpanIn b k p = (pl.setSpan ⟨k, p, none, b.x⟩).accept := rfl
  have abandon : pl.judgeSpanAbandon k = (pl.idleSpan k).accept := rfl
  rw [spanIn, abandon]
  refine ⟨⟨rfl, ?opened, ?othersKept, rfl, rfl⟩, rfl, ?idle, ?othersLeft, rfl, rfl⟩
  case opened => exact spanOf_setSpan_self pl ⟨k, p, none, b.x⟩
  case othersKept => exact fun j hj => spanOf_setSpan_ne pl ⟨k, p, none, b.x⟩ hj
  case idle => exact spanOf_idleSpan_self pl k
  case othersLeft => exact fun j hj => spanOf_idleSpan_ne pl hj

/-! ## SPAN-OUT, state by state (R123) -/

theorem validOut_iff (p q : Slot) : validOut p q = true ↔ atOrAfter q p = true ∧ (q - p).toNat ≤ 1500 := by
  simp only [validOut, Bool.and_eq_true, decide_eq_true_eq]

section SpanOut

variable {pl : Plan} {k : Station} {c : Span} {q : Slot}

theorem judgeSpanOut_idle (b : Bounds) (h : pl.spanOf k = none) : pl.judgeSpanOut b k q = pl.refuse .stray := by
  simp only [Plan.judgeSpanOut, h]

/-- An OPEN and a CLOSED context are judged alike but for what a bad out point does to them. -/
theorem judgeSpanOut_of_spanOf (b : Bounds) (h : pl.spanOf k = some c) :
    pl.judgeSpanOut b k q =
      if validOut c.inPoint q then (pl.setSpan ⟨k, c.inPoint, some q, b.x⟩).accept
      else if c.outPoint.isSome then pl.refuse .malformed
      else (pl.idleSpan k).refuse .malformed := by
  simp only [Plan.judgeSpanOut, h]

theorem judgeSpanOut_valid (b : Bounds) (h : pl.spanOf k = some c) (hq : validOut c.inPoint q = true) :
    pl.judgeSpanOut b k q = (pl.setSpan ⟨k, c.inPoint, some q, b.x⟩).accept := by
  rw [judgeSpanOut_of_spanOf b h, if_pos hq]

theorem judgeSpanOut_open_invalid (b : Bounds) (h : pl.spanOf k = some c) (hq : ¬ validOut c.inPoint q = true)
    (hout : c.outPoint = none) : pl.judgeSpanOut b k q = (pl.idleSpan k).refuse .malformed := by
  rw [judgeSpanOut_of_spanOf b h, if_neg hq, if_neg (by simp [hout])]

theorem judgeSpanOut_closed_invalid (b : Bounds) (h : pl.spanOf k = some c) (hq : ¬ validOut c.inPoint q = true)
    (hout : c.outPoint ≠ none) : pl.judgeSpanOut b k q = pl.refuse .malformed := by
  rw [judgeSpanOut_of_spanOf b h, if_neg hq, if_pos (Option.isSome_iff_ne_none.2 hout)]

end SpanOut

/-- Settles O25, by the state of the context: IDLE, and a context whose out point is good, or is not while it is OPEN or
CLOSED. -/
theorem spanOutTransition : Obligations.SpanOutTransition := by
  intro pl b k q
  refine ⟨judgeSpanOut_idle b, fun c hc => ?_⟩
  rw [← validOut_iff]
  refine ⟨fun hq => ?accepted, fun hq => ?refused⟩
  case accepted =>
    rw [judgeSpanOut_valid b hc hq]
    exact ⟨rfl, spanOf_setSpan_self pl ⟨k, c.inPoint, some q, b.x⟩⟩
  case refused =>
    by_cases hout : c.outPoint = none
    · rw [judgeSpanOut_open_invalid b hc hq hout]
      exact ⟨rfl, fun _ => spanOf_idleSpan_self pl k, fun hclosed => absurd hout hclosed⟩
    · rw [judgeSpanOut_closed_invalid b hc hq hout]
      exact ⟨rfl, fun hopen => absurd hopen hout, fun _ => rfl⟩

end Sys2Proof.Proofs.SpanContexts
end

