-- ==== Sys2Proof/Proofs/LaneBursts.lean ====
section
/-! SUPPORT. What the burst of one lane carries (R133, R134, R136, R141), what it leaves in its lane when it begins, and the
bursts of all lanes in lane order. -/

namespace Sys2Proof.Proofs.LaneBursts

open Sys2Proof Sys2Proof.Machine

/-! ## The tone (R134) -/

theorem toneSample_eq (positive : Bool) :
    toneSample positive = if positive then bytes24 1048576 else bytes24 (-1048576) := by
  cases positive <;> decide

theorem toneSample_length (positive : Bool) : (toneSample positive).length = 3 := by
  cases positive <;> rfl

theorem toneSamples_length (i n : Nat) : (toneSamples i n).length = n * 3 := by
  induction n generalizing i with
  | zero => rfl
  | succ n ih =>
    rw [toneSamples, List.length_append, toneSample_length, ih]
    omega

/-- The tone's sample number `i + j` is its three bytes from `3 * j` on. -/
theorem toneSamples_sample (i : Nat) {j n : Nat} (h : j < n) :
    ((toneSamples i n).drop (3 * j)).take 3 = toneSample ((i + j) / 24 % 2 == 0) := by
  induction n generalizing i j with
  | zero => exact absurd h (Nat.not_lt_zero j)
  | succ n ih =>
    have first := toneSample_length (i / 24 % 2 == 0)
    rw [toneSamples]
    cases j with
    | zero => exact List.take_left' first
    | succ j =>
      rw [show 3 * (j + 1) = (toneSample (i / 24 % 2 == 0)).length + 3 * j by omega,
        List.drop_length_add_append, ih (i + 1) (Nat.lt_of_succ_lt_succ h), show i + 1 + j = i + (j + 1) by omega]

/-! ## The substitutes (R134) -/

theorem substituteRule (c : Settings) : SubstituteRule c := by
  refine ⟨fun n h => ?silence, fun n h => ?tone, fun hold h hne => ?held, fun h => ?heldEmpty, fun hold h => ?black, rfl⟩
  case silence => simp only [substituteOf, h]
  case tone =>
    simp only [substituteOf, h]
    refine ⟨trivial, toneSamples_length 0 (n / 3), fun i hi => ?_⟩
    rw [toneSamples_sample 0 hi, toneSample_eq, Nat.zero_add]
    simp only [beq_iff_eq]
  case held => simp [substituteOf, h, hne]
  case heldEmpty => simp [substituteOf, h]
  case black => simp only [substituteOf, h]

/-- A substitute is never taken for stored bytes. -/
theorem substituteOf_ne_stored (c : Settings) (l : EgressLane) : (substituteOf c l).1 ≠ .stored := by
  cases l with
  | sound n => cases h : c.soundSubstitute <;> simp [substituteOf, h]
  | picture hold =>
    cases h : c.pictureSubstitute with
    | held => cases hold <;> simp [substituteOf, h]
    | black => simp [substituteOf, h]
  | data => nofun

/-! ## The burst of one lane (R133, R136) -/

theorem masks_iff (v : Coverage) (lane : Nat) :
    v.masks lane = true ↔ ∃ lanes, v = .masked lanes ∧ lanes.getLsbD lane = true := by
  cases v <;> simp [Coverage.masks]

section Lane

variable (c : Settings) (m : Memory) (p : Play) (lane : Nat) (l : EgressLane)

theorem buildLane_not_held : buildLane c m none p lane l = p.substitute c lane l false false true := rfl

section Held

variable {r : SlotRecord} {rec : LaneRecord} (hr : r.lanes[lane]? = some rec)

include hr

theorem buildLane_masked (hm : p.cover.masks lane = true) :
    buildLane c m (some r) p lane l = p.substitute c lane l true false false := by
  simp only [buildLane, Option.bind_some, hr, hm, if_true]

theorem buildLane_absent (hm : ¬ p.cover.masks lane = true) (hp : rec.present = false) :
    buildLane c m (some r) p lane l = p.substitute c lane l false rec.truncated false := by
  simp only [buildLane, Option.bind_some, hr, if_neg hm, hp, Bool.false_eq_true, if_false]

theorem buildLane_stored (hm : ¬ p.cover.masks lane = true) (hp : rec.present = true) :
    buildLane c m (some r) p lane l =
      ⟨lane, p.hsn, p.psn, p.rep, .stored, p.flags false false (rec.truncated || rec.overlong) false,
        readBurst m rec.pages 0 rec.count⟩ := by
  simp only [buildLane, Option.bind_some, hr, if_neg hm, hp, if_true]

end Held

/-- Every burst of a play carries the PSN played. -/
theorem buildLane_psn (r : Option SlotRecord) : (buildLane c m r p lane l).psn = p.psn := by
  unfold buildLane
  split
  · rfl
  · split_ifs <;> rfl

end Lane

/-! ## The bursts in lane order -/

theorem buildLanes_eq_mapIdx (c : Settings) (m : Memory) (r : Option SlotRecord) (p : Play) (k : Nat)
    (lanes : List EgressLane) :
    buildLanes c m r p k lanes = lanes.mapIdx fun i l => buildLane c m r p (k + i) l := by
  induction lanes generalizing k with
  | nil => rfl
  | cons l rest ih =>
    rw [buildLanes, ih, List.mapIdx_cons]
    simp only [Nat.add_zero, Nat.add_assoc, Nat.add_comm 1]

theorem bareBursts_eq_mapIdx (c : Settings) (x : Slot) (k : Nat) (lanes : List EgressLane) :
    bareBursts c x k lanes = lanes.mapIdx fun i l => bareBurst c x (k + i) l := by
  induction lanes generalizing k with
  | nil => rfl
  | cons l rest ih =>
    rw [bareBursts, ih, List.mapIdx_cons]
    simp only [Nat.add_zero, Nat.add_assoc, Nat.add_comm 1]

/-- R141: the bursts of a strobe without a schedule are the substitutes. -/
theorem bareBursts_eq_substituteBursts (c : Settings) (x : Slot) (lanes : List EgressLane) :
    bareBursts c x 0 lanes = substituteBursts c x lanes := by
  rw [bareBursts_eq_mapIdx]
  simp only [Nat.zero_add]
  rfl

theorem substituteBursts_ne_stored {c : Settings} {x : Slot} {lanes : List EgressLane} {b : OutBurst}
    (h : b ∈ substituteBursts c x lanes) : b.subst ≠ .stored := by
  obtain ⟨i, hi, rfl⟩ := List.mem_mapIdx.1 h
  exact substituteOf_ne_stored c _

/-! ## A burst begins on its lane (R134) -/

theorem begin_laneBegun (l : EgressLane) (b : OutBurst) : LaneBegun l b (l.begin b) := by
  refine ⟨fun h => if_neg h, fun h => ⟨?picture, ?sound, ?data⟩⟩
  case picture =>
    rintro hold rfl
    exact if_pos h
  case sound =>
    rintro n rfl
    exact if_pos h
  case data =>
    rintro rfl
    exact if_pos h

end Sys2Proof.Proofs.LaneBursts
end

