-- ==== Sys2Proof/Proofs/EndedBursts.lean ====
section
/-! SUPPORT. What the ending of open bursts leaves in the lanes (R129, R134, R135), and which parts of a strobe leave the
open bursts, the lanes and the jump flag alone. -/

namespace Sys2Proof.Proofs.EndedBursts

open Sys2Proof Sys2Proof.Machine Sys2Proof.Proofs.StrobeVerdict

/-! ## The lanes once bursts have ended short (R129, R134) -/

/-- What the ending of the bursts `bs` makes of the lane `l` at position `i`: a PICTURE lane with a stored burst among
them holds a part of such a burst; every other lane is as it was. -/
inductive LaneEnded (bs : List OutBurst) (i : Nat) (l : EgressLane) : EgressLane → Prop
  | kept (h : ∀ b ∈ bs, b.lane = i → b.subst = .stored → l.isPicture = false) : LaneEnded bs i l l
  | held (hl : l.isPicture = true) (b : OutBurst) (hb : b ∈ bs) (hi : b.lane = i) (hs : b.subst = .stored) (n : Nat)
      (hn : b.bytes = [] ∨ n < b.bytes.length) : LaneEnded bs i l (.picture (b.bytes.take n))

/-- What the ending of the bursts `bs` makes of the lanes. -/
def LanesEnded (bs : List OutBurst) (before after : List EgressLane) : Prop :=
  after.length = before.length ∧
    ∀ (i : Nat) (l : EgressLane), before[i]? = some l → ∃ l', after[i]? = some l' ∧ LaneEnded bs i l l'

theorem isPicture_iff (l : EgressLane) : l.isPicture = true ↔ ∃ hold, l = .picture hold := by
  cases l <;> simp [EgressLane.isPicture]

theorem LaneEnded.append {bs cs : List OutBurst} {i : Nat} {l l' l'' : EgressLane} (h : LaneEnded bs i l l')
    (k : LaneEnded cs i l' l'') : LaneEnded (bs ++ cs) i l l'' := by
  cases h with
  | kept h =>
    cases k with
    | kept k => exact .kept fun b hb => (List.mem_append.1 hb).elim (h b) (k b)
    | held hl b hb hi hs n hn => exact .held hl b (List.mem_append_right _ hb) hi hs n hn
  | held hl b hb hi hs n hn =>
    cases k with
    | kept _ => exact .held hl b (List.mem_append_left _ hb) hi hs n hn
    | held _ d hd hdi hds m hm => exact .held hl d (List.mem_append_right _ hd) hdi hds m hm

theorem LaneEnded.of_mem_iff {bs cs : List OutBurst} (h : ∀ b, b ∈ bs ↔ b ∈ cs) {i : Nat} {l l' : EgressLane}
    (k : LaneEnded bs i l l') : LaneEnded cs i l l' := by
  cases k with
  | kept k => exact .kept fun b hb => k b ((h b).2 hb)
  | held hl b hb hi hs n hn => exact .held hl b ((h b).1 hb) hi hs n hn

theorem LanesEnded.refl (lanes : List EgressLane) : LanesEnded [] lanes lanes :=
  ⟨rfl, fun _ l hl => ⟨l, hl, .kept (by simp)⟩⟩

theorem LanesEnded.append {bs cs : List OutBurst} {l₁ l₂ l₃ : List EgressLane} (h : LanesEnded bs l₁ l₂)
    (k : LanesEnded cs l₂ l₃) : LanesEnded (bs ++ cs) l₁ l₃ := by
  refine ⟨k.1.trans h.1, fun i l hl => ?_⟩
  obtain ⟨l', hl', first⟩ := h.2 i l hl
  obtain ⟨l'', hl'', second⟩ := k.2 i l' hl'
  exact ⟨l'', hl'', first.append second⟩

theorem LanesEnded.of_mem_iff {bs cs : List OutBurst} (h : ∀ b, b ∈ bs ↔ b ∈ cs) {l₁ l₂ : List EgressLane}
    (k : LanesEnded bs l₁ l₂) : LanesEnded cs l₁ l₂ := by
  refine ⟨k.1, fun i l hl => ?_⟩
  obtain ⟨l', hl', ended⟩ := k.2 i l hl
  exact ⟨l', hl', ended.of_mem_iff h⟩

theorem burstsEnded_of_lanesEnded {s : State} {lanes : List EgressLane}
    (h : LanesEnded s.egress.out s.egress.lanes lanes) : BurstsEnded s lanes := by
  refine ⟨h.1, fun i l hl => ?_⟩
  obtain ⟨l', hl', ended⟩ := h.2 i l hl
  cases ended with
  | kept hkept =>
    refine ⟨fun _ => hl', fun hpicture hstored => ?_⟩
    obtain ⟨b, hb, hi, hs⟩ := hstored
    exact absurd ((isPicture_iff l).2 hpicture) (by simp [hkept b hb hi hs])
  | held hl b hb hi hs n hn =>
    refine ⟨fun hother => ?_, fun _ _ => ⟨b, hb, hi, hs, n, hn, hl'⟩⟩
    obtain ⟨hold, rfl⟩ := (isPicture_iff l).1 hl
    exact hother.elim (fun hp => absurd rfl (hp hold)) fun hp => absurd hs (hp b hb hi)

/-! ## The model's ending of bursts -/

/-- A sent part is fewer bytes than the burst has. -/
theorem nil_or_mod_length_lt (b : OutBurst) (n : Nat) : b.bytes = [] ∨ n % b.bytes.length < b.bytes.length := by
  cases hb : b.bytes with
  | nil => exact .inl rfl
  | cons x xs => exact .inr (Nat.mod_lt _ (Nat.succ_pos _))

theorem endShort_lanes (s : State) (b : OutBurst) : LanesEnded [b] s.egress.lanes (s.endShort b).egress.lanes := by
  by_cases hf : s.feedsHold b = true
  · obtain ⟨hs, hp⟩ := Bool.and_eq_true_iff.1 hf
    obtain ⟨d, hd, hpicture⟩ := (Option.any_eq_true _ _).1 hp
    obtain ⟨hold, rfl⟩ := (isPicture_iff d).1 hpicture
    have lanes : (s.endShort b).egress.lanes =
        s.egress.lanes.set b.lane (.picture (b.bytes.take (Config.sentBytes s.free % b.bytes.length))) := by
      rw [State.endShort, if_pos hf, State.holdBytes, hd]
      rfl
    rw [lanes]
    refine ⟨List.length_set, fun i l hl => ?_⟩
    by_cases hi : b.lane = i
    · subst hi
      obtain rfl := Option.some.inj (hd.symm.trans hl)
      exact ⟨_, List.getElem?_set_self (List.getElem?_eq_some_iff.1 hd).1,
        .held rfl b List.mem_cons_self rfl (beq_iff_eq.1 hs) _ (nil_or_mod_length_lt b _)⟩
    · refine ⟨l, (List.getElem?_set_ne hi).trans hl, .kept fun d hd hdi => ?_⟩
      exact absurd (List.mem_singleton.1 hd ▸ hdi) hi
  · rw [State.endShort, if_neg hf]
    refine ⟨rfl, fun i l hl => ⟨l, hl, .kept fun d hd hi hs => ?_⟩⟩
    obtain rfl := List.mem_singleton.1 hd
    subst hi
    simpa [State.feedsHold, hs, hl] using hf

theorem foldl_endShort_lanes (bs : List OutBurst) (s : State) :
    LanesEnded bs s.egress.lanes (bs.foldl State.endShort s).egress.lanes := by
  induction bs generalizing s with
  | nil => exact .refl _
  | cons b bs ih => exact (endShort_lanes s b).append (ih (s.endShort b))

theorem endBursts_lanes (s : State) (p : OutBurst → Bool) :
    LanesEnded (s.egress.out.filter p) s.egress.lanes (s.endBursts p).egress.lanes :=
  foldl_endShort_lanes _ s

/-! ## What leaves the open bursts alone -/

/-- An operation that leaves the open bursts, the lanes and the jump flag as they are. -/
structure KeepsOutput (s t : State) : Prop where
  out : t.egress.out = s.egress.out
  lanes : t.egress.lanes = s.egress.lanes
  jump : t.egress.jump = s.egress.jump

theorem KeepsOutput.refl (s : State) : KeepsOutput s s := ⟨rfl, rfl, rfl⟩

theorem KeepsOutput.trans {s t u : State} (h : KeepsOutput s t) (k : KeepsOutput t u) : KeepsOutput s u :=
  ⟨k.out.trans h.out, k.lanes.trans h.lanes, k.jump.trans h.jump⟩

theorem KeepsOutput.of_egress {s t : State} (h : t.egress = s.egress) : KeepsOutput s t :=
  ⟨congrArg Egress.out h, congrArg Egress.lanes h, congrArg Egress.jump h⟩

theorem KeepsOutput.of_cueOnly {s t : State} (h : CueOnly s t) : KeepsOutput s t := .of_egress h.egress_eq

/-- Some of the open bursts end; the others stay open, and the jump flag stays. -/
structure EndsSome (s t : State) : Prop where
  ended : ∃ bs, (∀ b, b ∈ bs ++ t.egress.out ↔ b ∈ s.egress.out) ∧ LanesEnded bs s.egress.lanes t.egress.lanes
  jump : t.egress.jump = s.egress.jump

theorem EndsSome.of_keepsOutput {s t : State} (h : KeepsOutput s t) : EndsSome s t :=
  ⟨⟨[], by simp [h.out], h.lanes ▸ .refl _⟩, h.jump⟩

theorem EndsSome.trans {s t u : State} (h : EndsSome s t) (k : EndsSome t u) : EndsSome s u := by
  obtain ⟨bs, hbs, first⟩ := h.ended
  obtain ⟨cs, hcs, second⟩ := k.ended
  refine ⟨⟨bs ++ cs, fun b => ?_, first.append second⟩, k.jump.trans h.jump⟩
  rw [← hbs b, List.append_assoc, List.mem_append, hcs b, List.mem_append]

theorem EndsSome.endBursts (s : State) (p : OutBurst → Bool) : EndsSome s (s.endBursts p) := by
  refine ⟨⟨s.egress.out.filter p, fun b => ?_, endBursts_lanes s p⟩, ?_⟩
  · rw [endBursts_out, List.mem_append, List.mem_filter, List.mem_filter]
    cases p b <;> simp
  · have h := endBursts_storeSide s p
    unfold StoreSide at h
    rw [h]

theorem EndsSome.burstsEnded {s t : State} (h : EndsSome s t) (hout : t.egress.out = []) :
    BurstsEnded s t.egress.lanes := by
  obtain ⟨bs, hbs, ended⟩ := h.ended
  rw [hout, List.append_nil] at hbs
  exact burstsEnded_of_lanesEnded (ended.of_mem_iff hbs)

/-! ## The removal of records (R15, R16, R135) -/

/-- Records that no open burst reads leave without an effect on the output. -/
theorem foldl_dropRecord_output (code : Nat) (rs : List SlotRecord) {s : State}
    (h : ∀ b ∈ s.egress.out, ∀ r ∈ rs, b.reads r.psn = false) :
    KeepsOutput s (rs.foldl (fun s r => s.dropRecord code r) s) := by
  induction rs generalizing s with
  | nil => exact .refl s
  | cons r rs ih =>
    have first : KeepsOutput s (s.dropRecord code r) := by
      rw [State.dropRecord, endBursts_none fun b hb => h b hb r List.mem_cons_self]
      exact ⟨rfl, rfl, rfl⟩
    exact first.trans (ih fun b hb d hd => h b (first.out ▸ hb) d (List.mem_cons_of_mem r hd))

theorem removeHead_output {s : State} (code : Nat) {p : SlotRecord → Bool}
    (h : ∀ b ∈ s.egress.out, ∀ r, p r = true → b.reads r.psn = false) : KeepsOutput s (s.removeHead code p) :=
  (foldl_dropRecord_output code (s.index.takeWhile p) fun b hb r hr => h b hb r (List.mem_takeWhile_imp hr)).trans
    ⟨rfl, rfl, rfl⟩

theorem not_reads_of_ne_stored {b : OutBurst} (h : b.subst ≠ .stored) (p : Slot) : b.reads p = false := by
  rw [OutBurst.reads, beq_eq_false_iff_ne.2 h, Bool.false_and]

/-! ## The slot close (R7, R17, R34) -/

theorem forceRelease_endsSome (s : State) (code : Nat) : EndsSome s (s.forceRelease code) := by
  unfold State.forceRelease
  split
  · exact .of_keepsOutput (.refl s)
  · rename_i r rest _
    split
    · exact (EndsSome.endBursts s (·.reads r.psn)).trans (.of_keepsOutput ⟨rfl, rfl, rfl⟩)
    · exact .of_keepsOutput (.refl s)

theorem closeSlot_endsSome (s : State) (c : Settings) (x : Slot) : EndsSome s (s.closeSlot c x) := by
  unfold State.closeSlot
  split
  · exact .of_keepsOutput ⟨rfl, rfl, rfl⟩
  · rename_i p _
    have opened : KeepsOutput s (s.withIngress (.opening c x (s.ingress.record c p).2)) := ⟨rfl, rfl, rfl⟩
    exact ((EndsSome.of_keepsOutput opened).trans (forceRelease_endsSome _ c.planCode)).trans
      (.of_keepsOutput ⟨rfl, rfl, rfl⟩)

theorem maskTagRequest_output (s : State) (c : Settings) (p : Slot) : KeepsOutput s (s.maskTagRequest c p) := by
  unfold State.maskTagRequest
  split
  · exact (KeepsOutput.of_egress (s := s) (t := s.countGiven) rfl).trans (.of_cueOnly (sendMark_cueOnly _ _))
  · exact .refl s

theorem closeAndTag_endsSome (s : State) (c : Settings) (x : Slot) : EndsSome s (s.closeAndTag c x) := by
  have closed := closeSlot_endsSome s c x
  unfold State.closeAndTag
  split
  · split
    · exact closed.trans (.of_keepsOutput (maskTagRequest_output _ c _))
    · exact closed
  · exact closed

/-! ## The monitor -/

theorem addJoin_output (s : State) : KeepsOutput s s.addJoin := by
  refine KeepsOutput.trans (t := s.drawHsn.2) ?_ (.of_cueOnly (addEntry_cueOnly _ _ _ _ _))
  unfold State.drawHsn
  split <;> exact ⟨rfl, rfl, rfl⟩

theorem askAgain_output (s : State) : KeepsOutput s s.askAgain := by
  refine KeepsOutput.trans (t := if s.joinQueued then s else s.addJoin) ?_ (.of_cueOnly (withRetry_cueOnly _ _))
  split
  · exact .refl s
  · exact addJoin_output s

theorem failCollection_output (s : State) : KeepsOutput s s.failCollection :=
  (KeepsOutput.of_cueOnly (withMon_cueOnly s _)).trans (askAgain_output _)

theorem enterResync_output (s : State) (o : Origin) : KeepsOutput s (s.enterResync o) := by
  have left := ((cancelProposal_cueOnly s).trans (leaveRecap_cueOnly _)).trans (withMode_cueOnly _ (.resync o))
  exact ((KeepsOutput.of_cueOnly left).trans (addJoin_output _)).trans (.of_cueOnly (withRetry_cueOnly _ _))

theorem expireCollect_output (s : State) : KeepsOutput s s.expireCollect := by
  unfold State.expireCollect
  split
  · exact failCollection_output s
  · exact .refl s

theorem expireRetry_output (s : State) : KeepsOutput s s.expireRetry := by
  unfold State.expireRetry
  split
  · exact askAgain_output s
  · exact .refl s

theorem expireListen_output (s : State) (c : Settings) (x : Slot) : KeepsOutput s (s.expireListen c x) := by
  unfold State.expireListen
  split
  · exact ⟨rfl, rfl, rfl⟩
  · exact .refl s

theorem expireMonitor_output (s : State) (c : Settings) (x : Slot) : KeepsOutput s (s.expireMonitor c x) :=
  (((expireCollect_output s).trans (.of_cueOnly (expireForeign_cueOnly _))).trans (expireRetry_output _)).trans
    (expireListen_output _ c x)

theorem tick_expireMonitor_output (s : State) (c : Settings) (x : Slot) :
    KeepsOutput s ((s.withMon s.mon.tick).expireMonitor c x) :=
  (KeepsOutput.of_cueOnly (withMon_cueOnly s _)).trans (expireMonitor_output _ c x)

/-- R167: only a station that leaves JOINING empties its hold buffers. -/
theorem checkPeers_output {s : State} (hm : s.mon.mode ≠ .joining) (x : Slot) : KeepsOutput s (s.checkPeers x) := by
  unfold State.checkPeers
  split
  · exact .refl s
  · split
    case h_1 hjoining => exact absurd hjoining hm
    case h_2 origin _ =>
      exact .of_cueOnly (((withMode_cueOnly s origin.mode).trans (cancelJoin_cueOnly _)).trans (withRetry_cueOnly _ none))
    case h_3 => exact .refl s

theorem checkPeers_out (s : State) (x : Slot) : (s.checkPeers x).egress.out = s.egress.out := by
  have listening (u : State) : u.enterListening.egress.out = u.egress.out := rfl
  by_cases hm : s.mon.mode = .joining
  · unfold State.checkPeers
    simp only [hm]
    split
    · rfl
    · exact (listening _).trans (congrArg Egress.out (cancelJoin_cueOnly s).egress_eq)
  · exact (checkPeers_output hm x).out

theorem monitorStrobe_out (s : State) (c : Settings) (x : Slot) : (s.monitorStrobe c x false).egress.out = s.egress.out :=
  (checkPeers_out _ x).trans (tick_expireMonitor_output s c x).out

theorem not_joining_of_hasSchedule {m : Mode} (h : m.hasSchedule = true) : m ≠ .joining := by
  rintro rfl
  exact Bool.false_ne_true h

theorem monitorStrobe_output {s : State} (hm : s.mon.mode.hasSchedule = true) (c : Settings) (x : Slot) :
    KeepsOutput s (s.monitorStrobe c x false) := by
  have mode : ((s.withMon s.mon.tick).expireMonitor c x).mon.mode = s.mon.mode :=
    (keeps_expireMonitor (s := s.withMon s.mon.tick) hm c x).mode
  exact (tick_expireMonitor_output s c x).trans
    (checkPeers_output (mode ▸ not_joining_of_hasSchedule hm) x)

/-! ## The settling and the history entry -/

theorem completeEntryAt_output (s : State) (c : Settings) (x : Slot) : KeepsOutput s (s.completeEntryAt c x) := by
  unfold State.completeEntryAt
  split
  · exact KeepsOutput.trans (t := s.withEgress { s.egress with history := fillDigest s.egress.history x s.plan.digest })
      ⟨rfl, rfl, rfl⟩ (.of_cueOnly (buildBeacon_cueOnly _ c x))
  · exact .refl s

theorem settle_output (s : State) (c : Settings) : KeepsOutput s (s.settle c) := by
  unfold State.settle
  split
  · exact .refl s
  · rename_i x _
    have expired := (KeepsOutput.of_cueOnly
      ((withHeldBy_cueOnly s (dropLapsed s.traffic.heldBy)).trans (withdrawStale_cueOnly _ x))).trans
      (expireMonitor_output _ c x)
    refine KeepsOutput.trans (expired.trans ?_) (completeEntryAt_output _ c x)
    split
    · exact ⟨rfl, rfl, rfl⟩
    · exact .refl _

/-! ## The intake (R100, R101) -/

theorem handleMark_output (s : State) (b : Bounds) (f : RxFrame) : KeepsOutput s (s.handleMark b f).1 := by
  have reported (u : State) (cut : Option Cut) : KeepsOutput u (u.reportCut cut) := by
    unfold State.reportCut
    split
    · split <;> exact ⟨rfl, rfl, rfl⟩
    · exact .refl u
  have judged : KeepsOutput s (s.withPlan (s.plan.judgeMark b f.sender f.kind f.body).plan) := ⟨rfl, rfl, rfl⟩
  exact (judged.trans (.of_cueOnly (pulseIfRefused_cueOnly _ f.own _))).trans (reported _ _)

theorem mark_output (k : Intake) (f : RxFrame) : KeepsOutput k.state (k.mark f).state := by
  unfold Intake.mark
  split
  · split
    · exact handleMark_output k.state _ f
    · exact .refl _
  · exact .refl _

theorem pace_output (k : Intake) (c : Settings) (f : RxFrame) : KeepsOutput k.state (k.pace c f).state := by
  have judged (b : Bounds) : KeepsOutput k.state (k.state.handlePace c b f) :=
    KeepsOutput.trans (t := (k.state.withPlan (k.state.plan.judgePace b f.body).plan).withReg _) ⟨rfl, rfl, rfl⟩
      (.of_cueOnly (pulseIfRefused_cueOnly _ f.own _))
  unfold Intake.pace
  split
  · split
    · exact judged _
    · exact .refl _
  · exact .refl _

theorem takeImage_output (s : State) (f : RxFrame) : KeepsOutput s (s.takeImage f) := by
  unfold State.takeImage
  split
  · exact .refl s
  · refine (KeepsOutput.of_cueOnly (renewForeign_cueOnly s f.sender)).trans ?_
    dsimp only
    split
    · exact .refl _
    · split
      · exact .refl _
      · split
        · exact failCollection_output _
        · exact ⟨rfl, rfl, rfl⟩

/-- R137: a RECAP-END may set the jump flag; no other frame of the batch reaches the output. -/
theorem handle_output (k : Intake) (c : Settings) (x : Slot) {f : RxFrame} (hf : f.kind ≠ .recapEnd) :
    KeepsOutput k.state (k.handle c x f).state := by
  unfold Intake.handle
  split
  case h_1 => exact pace_output k c f
  case h_2 => exact .of_cueOnly (takeHead_cueOnly k.state _ f)
  case h_3 | h_4 | h_5 => exact takeImage_output k.state f
  case h_6 hend => exact absurd hend hf
  case h_7 => exact .of_cueOnly (takeJoin_cueOnly k.state x f)
  case h_8 | h_9 | h_10 => exact .refl _
  case h_11 => exact mark_output k f

theorem adopt_out (s : State) (r : Collecting) (e : RecapEnd) (p : Replay) (x : Slot) :
    (s.adopt r e p x).egress.out = s.egress.out := by
  have point (pl : Plan) : (s.adoptPoint pl p.point x).out = s.egress.out := by
    unfold State.adoptPoint
    split
    · dsimp only
      split <;> rfl
    · rfl
  have cancelled (u : State) : u.cancelJoin.egress.out = u.egress.out :=
    congrArg Egress.out (cancelJoin_cueOnly u).egress_eq
  unfold State.adopt
  dsimp only
  split
  · exact ((enterResync_output _ _).out.trans (cancelled _)).trans (point _)
  · exact (cancelled _).trans (point _)

theorem takeEnd_out (s : State) (x : Slot) (f : RxFrame) : (s.takeEnd x f).1.egress.out = s.egress.out := by
  unfold State.takeEnd
  split
  · dsimp only
    split <;> rfl
  · have ended : (s.endForeign f.sender).egress.out = s.egress.out := rfl
    dsimp only
    split
    · exact ended
    · split
      · exact (askAgain_output _).out.trans ended
      · split
        · exact ended
        · split
          · exact (failCollection_output _).out.trans ended
          · split
            · exact (adopt_out _ _ _ _ x).trans ended
            · exact (failCollection_output _).out.trans ended

theorem handle_out (k : Intake) (c : Settings) (x : Slot) (f : RxFrame) :
    (k.handle c x f).state.egress.out = k.state.egress.out := by
  by_cases hf : f.kind = .recapEnd
  · simp only [Intake.handle, hf]
    exact takeEnd_out k.state x f
  · exact (handle_output k c x hf).out

theorem record_output (k : Intake) (x : Slot) (n : Nat) (f : RxFrame) : KeepsOutput k.state (k.record x n f).state := by
  have recorded (u : State) : KeepsOutput u (u.recordFrame x n f) := by
    unfold State.recordFrame
    split
    · exact .refl u
    · split_ifs
      · exact failCollection_output u
      · exact ⟨rfl, rfl, rfl⟩
      · exact failCollection_output u
      · exact ⟨rfl, rfl, rfl⟩
  unfold Intake.record
  split
  · exact recorded k.state
  · exact .refl _

theorem close_output (k : Intake) (c : Settings) : KeepsOutput k.state (k.close c) := by
  unfold Intake.close
  split
  · exact .of_cueOnly ((withReg_cueOnly _ _).trans (checkProposal_cueOnly _ c _ k.cuts))
  · exact .refl _

theorem openIntake_output (s : State) (x : Slot) (own : Bool) : KeepsOutput s (s.openIntake x own).state := by
  unfold State.openIntake
  split
  · split <;> exact ⟨rfl, rfl, rfl⟩
  · exact .refl s

/-- What the handling of each frame of a batch keeps, and what the other operations of an intake keep, the intake keeps. -/
theorem intake_preserves (R : State → State → Prop) (trans : ∀ {s t u}, R s t → R t u → R s u)
    {s : State} {c : Settings} {x : Slot} {own : Bool} (opened : R s (s.openIntake x own).state)
    (dropped : ∀ u : State, R u u.dropReceived)
    (handled : ∀ f ∈ s.traffic.received.take 4, ∀ k : Intake, R k.state (k.handle c x f).state)
    (recorded : ∀ (k : Intake) (n : Nat) (f : RxFrame), R k.state (k.record x n f).state)
    (closed : ∀ k : Intake, R k.state (k.close c)) : R s (s.intake c x own) := by
  have batch (fs : List RxFrame) (hfs : ∀ f ∈ fs, f ∈ s.traffic.received.take 4) (k : Intake) (n : Nat)
      (hk : R s k.state) : R s (k.takeAll c x n fs).state := by
    induction fs generalizing k n with
    | nil => exact hk
    | cons f fs ih =>
      refine ih (fun d hd => hfs d (List.mem_cons_of_mem f hd)) (k.take c x n f) (n + 1) ?_
      have first := handled f (hfs f List.mem_cons_self) ⟨k.state.dropReceived, k.bounds, k.cuts⟩
      exact trans (trans (trans hk (dropped k.state)) first) (recorded _ n f)
  exact trans (batch _ (fun _ hf => hf) _ 0 opened) (closed _)

theorem intake_out (s : State) (c : Settings) (x : Slot) (own : Bool) : (s.intake c x own).egress.out = s.egress.out :=
  intake_preserves (fun s t => t.egress.out = s.egress.out) (fun h k => k.trans h) (openIntake_output s x own).out
    (fun u => (KeepsOutput.of_cueOnly (dropReceived_cueOnly u)).out) (fun f _ k => handle_out k c x f)
    (fun k n f => (record_output k x n f).out) (fun k => (close_output k c).out)

theorem intake_output {s : State} (h : ∀ f ∈ s.traffic.received.take 4, f.kind ≠ .recapEnd) (c : Settings) (x : Slot)
    (own : Bool) : KeepsOutput s (s.intake c x own) :=
  intake_preserves KeepsOutput .trans (openIntake_output s x own) (fun u => .of_cueOnly (dropReceived_cueOnly u))
    (fun f hf k => handle_output k c x (h f hf)) (fun k n f => record_output k x n f) (fun k => close_output k c)

end Sys2Proof.Proofs.EndedBursts
end

