-- ==== Sys2Proof/Proofs/StrobeBursts.lean ====
section
/-! SUPPORT. The bursts that an ordinary strobe begins (R128 to R137, R141): what comes before the output leaves it its
play and ends bursts at most, and what comes after it leaves the bursts begun. -/

namespace Sys2Proof.Proofs.StrobeBursts

open Sys2Proof Sys2Proof.Machine Sys2Proof.Safety
open Sys2Proof.Proofs.OrdinaryStrobe Sys2Proof.Proofs.StrobeVerdict Sys2Proof.Proofs.LaneBursts
open Sys2Proof.Proofs.EndedBursts

/-! ## The station state through an intake -/

/-- An operation that leaves the station state as it is. -/
def KeepsMode (s t : State) : Prop := t.mon.mode = s.mon.mode

theorem KeepsMode.refl (s : State) : KeepsMode s s := rfl

theorem KeepsMode.trans {s t u : State} (h : KeepsMode s t) (k : KeepsMode t u) : KeepsMode s u := Eq.trans k h

theorem KeepsMode.of_mon {s t : State} (h : t.mon = s.mon) : KeepsMode s t := congrArg Monitor.mode h

theorem closeStream_endOwnRecap_mode (s : State) : KeepsMode s s.closeStream.endOwnRecap := by
  simp [KeepsMode, State.endOwnRecap]

theorem takeOwnHead_mode (s : State) (b : Bounds) : KeepsMode s (s.takeOwnHead b) := by
  have next (u : State) : KeepsMode u u.nextStream := by
    unfold State.nextStream
    split
    · split
      · simp [KeepsMode]
      · exact .refl u
    · exact .refl u
  unfold State.takeOwnHead
  split
  · exact KeepsMode.trans (t := s.withMon _) rfl (next _)
  · exact closeStream_endOwnRecap_mode s

theorem noteForeign_mode (s : State) (k : Station) (e : Slot) : KeepsMode s (s.noteForeign k e) := by
  unfold State.noteForeign
  split
  · split <;> rfl
  · rfl
  · split
    · dsimp only
      split
      · simp [KeepsMode, State.cancelHead, State.endOwnRecap]
      · rfl
    · rfl

theorem joinerHead_mode (s : State) (x : Slot) (k : Station) (e : Slot) : KeepsMode s (s.joinerHead x k e) := by
  unfold State.joinerHead
  split
  · simp [KeepsMode, State.startCollecting, State.cancelJoin]
  · rfl

theorem takeHead_mode (s : State) (b : Bounds) (f : RxFrame) : KeepsMode s (s.takeHead b f) := by
  have closed := closeStream_endOwnRecap_mode s
  unfold State.takeHead
  split
  · split
    · exact closed
    · rfl
  · split
    · split
      · exact closed
      · rfl
    · split
      · exact takeOwnHead_mode s b
      · exact (noteForeign_mode s _ _).trans (joinerHead_mode _ _ _ _)

theorem takeJoin_mode (s : State) (x : Slot) (f : RxFrame) : KeepsMode s (s.takeJoin x f) := by
  have answered (era : Era) : KeepsMode s (s.answerJoin x era) := by
    have add := congrArg Monitor.mode (addEntry_mon s .monitor ⟨.recapHead, headBody x era.founding⟩ none true)
    unfold State.answerJoin
    split <;> rename_i heq <;> rw [heq] at add <;> exact add
  unfold State.takeJoin
  split
  · split
    · rfl
    · exact answered _
  · rfl

theorem takeImage_mode (s : State) (f : RxFrame) : KeepsMode s (s.takeImage f) := by
  have failed (u : State) : KeepsMode u u.failCollection := (keeps_failCollection u).mode
  unfold State.takeImage
  split
  · rfl
  · have renewed : KeepsMode s (s.renewForeign f.sender) := rfl
    dsimp only
    split
    · exact renewed
    · split
      · exact renewed
      · split
        · exact renewed.trans (failed _)
        · exact renewed

/-- R176: only an adoption changes the station state in an intake. -/
theorem handle_mode (k : Intake) (c : Settings) (x : Slot) {f : RxFrame} (hf : f.kind ≠ .recapEnd) :
    KeepsMode k.state (k.handle c x f).state := by
  unfold Intake.handle
  split
  case h_1 =>
    unfold Intake.pace
    split
    · split
      · exact KeepsMode.of_mon (handlePace_takes k.state c _ f).2
      · rfl
    · rfl
  case h_2 => exact takeHead_mode k.state _ f
  case h_3 | h_4 | h_5 => exact takeImage_mode k.state f
  case h_6 hend => exact absurd hend hf
  case h_7 => exact takeJoin_mode k.state x f
  case h_8 | h_9 | h_10 => rfl
  case h_11 =>
    unfold Intake.mark
    split
    · split
      · exact KeepsMode.of_mon (handleMark_takes k.state _ f).2
      · rfl
    · rfl

theorem intake_mode {s : State} (h : ∀ f ∈ s.traffic.received.take 4, f.kind ≠ .recapEnd) (c : Settings) (x : Slot)
    (own : Bool) : KeepsMode s (s.intake c x own) := by
  have opened : KeepsMode s (s.openIntake x own).state := by
    unfold State.openIntake
    split
    · split <;> rfl
    · rfl
  exact intake_preserves KeepsMode .trans opened (fun u => KeepsMode.of_mon (dropReceived_mon u))
    (fun f hf k => handle_mode k c x (h f hf)) (fun k n f => (keeps_record k x n f).mode) (fun k => (keeps_close k c).mode)

/-! ## Before the output -/

/-- What the play of the output step goes by: the point, the cuts and pace entries, the page contents and the station
state. The span contexts may expire. -/
structure KeepsPlay (s t : State) : Prop where
  point : t.egress.point = s.egress.point
  cuts : t.plan.cuts = s.plan.cuts
  paces : t.plan.paces = s.plan.paces
  mem : t.mem = s.mem
  mode : KeepsMode s t

theorem KeepsPlay.trans {s t u : State} (h : KeepsPlay s t) (k : KeepsPlay t u) : KeepsPlay s u :=
  ⟨k.point.trans h.point, k.cuts.trans h.cuts, k.paces.trans h.paces, k.mem.trans h.mem, h.mode.trans k.mode⟩

theorem KeepsPlay.of_keepsSchedule {s t : State} (h : KeepsSchedule s t) (hmem : t.mem = s.mem) : KeepsPlay s t :=
  ⟨h.point, congrArg Plan.cuts h.plan, congrArg Plan.paces h.plan, hmem, h.mode⟩

theorem settle_keepsPlay {s : State} (hm : s.mon.mode.hasSchedule = true) (c : Settings) : KeepsPlay s (s.settle c) := by
  unfold State.settle
  split
  · exact ⟨rfl, rfl, rfl, rfl, rfl⟩
  · rename_i x _
    have stale : KeepsPlay s ((s.withHeldBy (dropLapsed s.traffic.heldBy)).withdrawStale x) :=
      .of_keepsSchedule (.after (keeps_withdrawStale _ x) (s := s) ⟨rfl, rfl, rfl, rfl⟩)
        (withdrawStale_cueOnly _ x).keeps.mem_eq
    have expired := stale.trans (.of_keepsSchedule (keeps_expireMonitor (stale.mode ▸ hm) c x)
      (expireMonitor_keeps _ c x).mem_eq)
    refine (expired.trans ?_).trans (.of_keepsSchedule (keeps_completeEntryAt _ c x) (completeEntryAt_keeps _ c x).mem_eq)
    split <;> exact ⟨rfl, rfl, rfl, rfl, rfl⟩

/-- A station whose listen timer is not due founds no era when the monitor's expiries are taken. -/
theorem expireMonitor_mode {s : State} (h : s.mon.listenDue = false) (c : Settings) (x : Slot) :
    KeepsMode s (s.expireMonitor c x) := by
  have collect : s.expireCollect.mon.mode = s.mon.mode ∧ s.expireCollect.mon.listen = s.mon.listen := by
    unfold State.expireCollect State.failCollection
    split
    · rw [askAgain_mon]
      exact ⟨rfl, rfl⟩
    · exact ⟨rfl, rfl⟩
  have foreign (u : State) : u.expireForeign.mon.mode = u.mon.mode ∧ u.expireForeign.mon.listen = u.mon.listen := by
    unfold State.expireForeign
    split <;> exact ⟨rfl, rfl⟩
  have retry (u : State) : u.expireRetry.mon.mode = u.mon.mode ∧ u.expireRetry.mon.listen = u.mon.listen := by
    unfold State.expireRetry
    split
    · rw [askAgain_mon]
      exact ⟨rfl, rfl⟩
    · exact ⟨rfl, rfl⟩
  obtain ⟨foreignMode, foreignListen⟩ := foreign s.expireCollect
  obtain ⟨retryMode, retryListen⟩ := retry s.expireCollect.expireForeign
  have mode := (retryMode.trans foreignMode).trans collect.1
  have listen := (retryListen.trans foreignListen).trans collect.2
  have notDue : ¬ s.expireCollect.expireForeign.expireRetry.mon.listenDue = true := by
    rw [Monitor.listenDue, mode, listen]
    exact Bool.eq_false_iff.1 h
  rw [State.expireMonitor, State.expireListen, if_neg notDue]
  exact mode

theorem settle_mode {s : State} (h : s.mon.listenDue = false) (c : Settings) : KeepsMode s (s.settle c) := by
  unfold State.settle
  split
  · rfl
  · rename_i x _
    have stale : ((s.withHeldBy (dropLapsed s.traffic.heldBy)).withdrawStale x).mon = s.mon :=
      foldl_mon _ withdrawEntry_mon _ _
    have expired := (KeepsMode.of_mon stale).trans (expireMonitor_mode (by rw [stale, h]) c x)
    refine (expired.trans ?_).trans (keeps_completeEntryAt _ c x).mode
    split <;> rfl

/-- The state in which the output of the strobe of `x` is taken. -/
def beforeOutput (s : State) (c : Settings) (x : Slot) : State :=
  (((s.settle c).withRef (.strobe x)).trafficStrobe x false).closeAndTag c x

section BeforeOutput

variable (s : State) (c : Settings) (x : Slot)

theorem beforeOutput_endsSome : EndsSome s (beforeOutput s c x) := by
  have settled : KeepsOutput s ((s.settle c).withRef (.strobe x)) := (settle_output s c).trans ⟨rfl, rfl, rfl⟩
  have ticked := settled.trans (.of_cueOnly (trafficStrobe_cueOnly _ x false))
  exact (EndsSome.of_keepsOutput ticked).trans (closeAndTag_endsSome _ c x)

theorem beforeOutput_received : (beforeOutput s c x).traffic.received = s.traffic.received :=
  (((upkeep_settle s c).trans (.withRef _ (.strobe x))).trans
    ((upkeep_trafficStrobe _ x false).trans (upkeep_closeAndTag _ c x))).received

/-- The parts between the settling and the output. -/
theorem beforeOutput_of_settle : KeepsPlay (s.settle c) (beforeOutput s c x) := by
  have schedule := KeepsSchedule.after (keeps_closeAndTag _ c x)
    (.after (keeps_trafficStrobe ((s.settle c).withRef (.strobe x)) x) (s := s.settle c) ⟨rfl, rfl, rfl, rfl⟩)
  obtain ⟨closed, -⟩ := closeAndTag_faults (((s.settle c).withRef (.strobe x)).trafficStrobe x false) c x
  exact .of_keepsSchedule schedule (closed.trans (trafficStrobe_cueOnly _ x false).keeps.mem_eq)

end BeforeOutput

/-! ## The play (R130, R132, R133) -/

/-- The play goes by the cuts and the pace entries alone. -/
theorem outStep_congr {pl pl' : Plan} (hcuts : pl'.cuts = pl.cuts) (hpaces : pl'.paces = pl.paces) (pt : SchedPoint) :
    pl'.outStep pt = pl.outStep pt := by
  have passes (p : Slot) : pl'.passesOver p = pl.passesOver p := by
    rw [Plan.passesOver, Plan.passesOver, hcuts, hpaces]
  have search (p : Slot) (n : Nat) : pl'.searchFrom p n = pl.searchFrom p n := by
    induction n generalizing p with
    | zero => rfl
    | succ n ih => rw [Plan.searchFrom, Plan.searchFrom, passes, ih]
  rw [Plan.outStep, Plan.outStep, Plan.advance, Plan.advance, search, hpaces]

theorem not_earlier_self (q : Slot) : earlier q q = false := by
  simp [earlier, later]

/-- The head removal of a play keeps the record played. -/
theorem lookupRecord_dropWhile (ix : List SlotRecord) (q : Slot) :
    lookupRecord (ix.dropWhile fun r => earlier r.psn q) q = lookupRecord ix q := by
  induction ix with
  | nil => rfl
  | cons r ix ih =>
    cases hr : earlier r.psn q with
    | false => rw [List.dropWhile_cons_of_neg (by simp [hr])]
    | true =>
      have other : ¬ (r.psn == q) = true := fun heq => by
        rw [beq_iff_eq.1 heq, not_earlier_self] at hr
        exact Bool.false_ne_true hr
      rw [List.dropWhile_cons_of_pos (by simp [hr]), ih]
      exact (List.find?_cons_of_neg (p := fun d : SlotRecord => d.psn == q) other).symm

theorem removePassed_lookup (s : State) (c : Settings) (pt : SchedPoint) :
    lookupRecord (s.removePassed c pt).index pt.psn = lookupRecord s.index pt.psn := by
  unfold State.removePassed
  split
  · exact lookupRecord_dropWhile s.index pt.psn
  · rfl

/-- R135: no burst of a play reads a record that the play passes. -/
theorem removePassed_output {s : State} {pt : SchedPoint} (h : ∀ b ∈ s.egress.out, b.psn = pt.psn) (c : Settings) :
    KeepsOutput s (s.removePassed c pt) := by
  unfold State.removePassed
  split
  · refine removeHead_output c.planCode fun b hb r hr => ?_
    have other : pt.psn ≠ r.psn := fun heq => by
      rw [heq, not_earlier_self] at hr
      exact Bool.false_ne_true hr
    rw [OutBurst.reads, h b hb, beq_eq_false_iff_ne.2 other, Bool.and_false]
  · exact .refl s

/-- The bursts of the play `q` begin on `lanes`, with the records of `index`. -/
structure PlayBegins (s : State) (c : Settings) (q : SchedPoint) (lanes : List EgressLane) (t : State) : Prop where
  out : t.egress.out =
    lanes.mapIdx fun i l => buildLane c s.mem (lookupRecord t.index q.psn) (s.playOf q) i l
  lanes : t.egress.lanes = lanes.zipWith EgressLane.begin t.egress.out
  jump : t.egress.jump = false

theorem PlayBegins.persists {s t u : State} {c : Settings} {q : SchedPoint} {lanes : List EgressLane}
    (h : PlayBegins s c q lanes t) (hout : KeepsOutput t u)
    (hindex : lookupRecord u.index q.psn = lookupRecord t.index q.psn) : PlayBegins s c q lanes u := by
  refine ⟨?_, ?_, hout.jump.trans h.jump⟩
  · rw [hout.out, h.out, hindex]
  · rw [hout.lanes, hout.out, h.lanes]

theorem output_begins (s : State) (c : Settings) (q : SchedPoint) :
    PlayBegins s c q s.egress.lanes (s.output c q) := by
  refine ⟨?_, rfl, rfl⟩
  show buildLanes c s.mem (lookupRecord s.index q.psn) (s.playOf q) 0 s.egress.lanes = _
  rw [buildLanes_eq_mapIdx]
  simp only [Nat.zero_add]
  rfl

theorem PlayBegins.psn {s t : State} {c : Settings} {q : SchedPoint} {lanes : List EgressLane}
    (h : PlayBegins s c q lanes t) {b : OutBurst} (hb : b ∈ t.egress.out) : b.psn = q.psn := by
  rw [h.out] at hb
  obtain ⟨i, hi, rfl⟩ := List.mem_mapIdx.1 hb
  exact buildLane_psn c s.mem (s.playOf q) i _ _

theorem playStep_begins (s : State) (c : Settings) (q : SchedPoint) :
    PlayBegins s c q (s.endBursts fun _ => true).egress.lanes (s.playStep c q) := by
  have essence := endBursts_keeps s fun _ => true
  have store := endBursts_storeSide s fun _ => true
  have jump := (EndsSome.endBursts s fun _ => true).jump
  have play : (s.endBursts fun _ => true).playOf q = s.playOf q := by
    rw [State.playOf, State.playOf, store.plan_eq, store.mon_eq, jump]
  have begun := output_begins (s.endBursts fun _ => true) c q
  rw [State.playStep]
  generalize s.endBursts (fun _ => true) = e at *
  have retired : PlayBegins e c q e.egress.lanes ((e.output c q).withPlan ((e.output c q).plan.retire q.psn)) :=
    begun.persists ⟨rfl, rfl, rfl⟩ rfl
  have passed := retired.persists (removePassed_output (fun b hb => retired.psn hb) c) (removePassed_lookup _ c q)
  have held := passed.persists (.of_cueOnly (scheduleHeld_cueOnly _ q.psn))
    (by rw [(scheduleHeld_cueOnly _ q.psn).keeps.index_eq])
  refine ⟨held.out.trans ?_, held.lanes, held.jump⟩
  rw [essence.mem_eq, play]

/-! ## After the output -/

/-- The parts after the output of the strobe of `x`. -/
def afterOutput (u : State) (c : Settings) (x : Slot) : State :=
  (((u.intake c x false).completeEntryAt c x).proposalEvent c x).monitorStrobe c x false

section AfterOutput

variable (u : State) (c : Settings) (x : Slot)

theorem afterOutput_out : (afterOutput u c x).egress.out = u.egress.out :=
  (monitorStrobe_out _ c x).trans ((KeepsOutput.of_cueOnly (proposalEvent_cueOnly _ c x)).out.trans
    ((completeEntryAt_output _ c x).out.trans (intake_out u c x false)))

theorem afterOutput_index : (afterOutput u c x).index = u.index :=
  (((intake_keeps u c x false).trans (completeEntryAt_keeps _ c x)).trans
    ((proposalEvent_cueOnly _ c x).keeps.trans (monitorStrobe_keeps _ c x false))).index_eq

variable {u}

/-- With a schedule, and where no RECAP-END is taken, the strobe leaves the lanes as the play has left them. -/
theorem afterOutput_output (hm : u.mon.mode.hasSchedule = true)
    (h : ∀ f ∈ u.traffic.received.take 4, f.kind ≠ .recapEnd) : KeepsOutput u (afterOutput u c x) := by
  have completed := keeps_completeEntryAt (u.intake c x false) c x
  have mode := ((intake_mode h c x false).trans completed.mode).trans (keeps_proposalEvent _ c x).mode
  exact (((intake_output h c x false).trans (completeEntryAt_output _ c x)).trans
    (.of_cueOnly (proposalEvent_cueOnly _ c x))).trans (monitorStrobe_output (by rw [mode, hm]) c x)

end AfterOutput

/-! ## The strobe -/

theorem ordinaryStrobe_output (s : State) (c : Settings) (x : Slot) :
    s.ordinaryStrobe c x ⟨[], false⟩ = afterOutput ((beforeOutput s c x).strobeOutput c x) c x :=
  ordinaryStrobe_canonical s c x

theorem endBursts_all_out (s : State) : (s.endBursts fun _ => true).egress.out = [] := by
  rw [endBursts_out]
  exact List.filter_false _

/-- The lanes of the strobe of `x` once every open burst has ended. -/
def endedLanes (s : State) (c : Settings) (x : Slot) : List EgressLane :=
  ((beforeOutput s c x).endBursts fun _ => true).egress.lanes

theorem endedLanes_burstsEnded (s : State) (c : Settings) (x : Slot) : BurstsEnded s (endedLanes s c x) :=
  ((beforeOutput_endsSome s c x).trans (EndsSome.endBursts _ _)).burstsEnded (endBursts_all_out _)

/-- R130, R133: the play of the step begins, and its bursts are those that the strobe leaves open. -/
theorem ordinaryStrobe_begins {s : State} {pt : SchedPoint} (hm : s.mon.mode.hasSchedule = true)
    (hpoint : s.egress.point = some pt) (h : ∀ f ∈ s.traffic.received.take 4, f.kind ≠ .recapEnd) (c : Settings) :
    PlayBegins s c (s.plan.outStep pt) (endedLanes s c (pt.hsn + 1))
      (s.ordinaryStrobe c (pt.hsn + 1) ⟨[], false⟩) := by
  have keeps := (settle_keepsPlay hm c).trans (beforeOutput_of_settle s c (pt.hsn + 1))
  have jump := (beforeOutput_endsSome s c (pt.hsn + 1)).jump
  have received := beforeOutput_received s c (pt.hsn + 1)
  rw [ordinaryStrobe_output, endedLanes]
  generalize beforeOutput s c (pt.hsn + 1) = u at keeps jump received
  have mode : u.mon.mode.hasSchedule = true := by rw [keeps.mode, hm]
  have step : u.strobeOutput c (pt.hsn + 1) = u.playStep c (s.plan.outStep pt) := by
    rw [State.strobeOutput, if_pos mode, State.outputStep]
    simp only [keeps.point, hpoint, stepTo_next, outStep_congr keeps.cuts keeps.paces]
  have play (q : SchedPoint) : u.playOf q = s.playOf q := by
    rw [State.playOf, State.playOf, keeps.cuts, keeps.mode, jump]
  rw [step]
  have quiet : ∀ f ∈ (u.playStep c (s.plan.outStep pt)).traffic.received.take 4, f.kind ≠ .recapEnd := by
    rwa [(upkeep_playStep u c _).received, received]
  have begun := (playStep_begins u c (s.plan.outStep pt)).persists
    (afterOutput_output c (pt.hsn + 1) ((u.playStep_hasSchedule c _).trans mode) quiet)
    (by rw [afterOutput_index])
  refine ⟨begun.out.trans ?_, begun.lanes, begun.jump⟩
  rw [keeps.mem, play]

theorem stepBegins : StepBegins := by
  rintro c x pt s hc hflag hx hm hpoint rfl hreceived
  obtain ⟨out, lanes, jump⟩ := ordinaryStrobe_begins hm hpoint hreceived c
  have length := congrArg List.length out
  rw [List.length_mapIdx] at length
  have play : s.playOf (s.plan.outStep pt) =
      ⟨pt.hsn + 1, (s.plan.outStep pt).psn, (s.plan.outStep pt).rep, coverage s.plan.cuts (s.plan.outStep pt).psn,
        decide (s.mon.mode = .filling), s.egress.jump⟩ := by
    rw [State.playOf, outStep_hsn]
    rfl
  rw [play] at out
  refine ⟨_, _, exec_ordinaryStrobe hc hflag hx _, endedLanes_burstsEnded s c (pt.hsn + 1), out, jump, ?_, ?_⟩
  · rw [lanes, List.length_zipWith, length, min_self]
  · intro i l l' b hl hl' hb
    rw [lanes, List.getElem?_zipWith, hl, hb] at hl'
    obtain rfl := Option.some.inj hl'
    exact begin_laneBegun l b

/-- R141: without a schedule the substitutes begin. -/
theorem substituteStep_out (s : State) (c : Settings) (x : Slot) :
    (s.substituteStep c x).egress.out = substituteBursts c x (s.endBursts fun _ => true).egress.lanes :=
  bareBursts_eq_substituteBursts c x _

theorem removeAged_out {s : State} (h : ∀ b ∈ s.egress.out, b.subst ≠ .stored) (code : Nat) (x : Slot) :
    (s.removeAged code x).egress.out = s.egress.out :=
  (removeHead_output code fun b hb r _ => not_reads_of_ne_stored (h b hb) r.psn).out

/-- LISTENING with a timer that is not due, and JOINING: the settling founds no era. -/
theorem waiting_modes {m : Monitor} (h : (m.mode = .listening ∧ m.listen ≠ some 0) ∨ m.mode = .joining) :
    m.listenDue = false ∧ m.mode.hasSchedule = false := by
  obtain ⟨hmode, hlisten⟩ | hmode := h
  · exact ⟨by simp [Monitor.listenDue, hlisten], by rw [hmode]; rfl⟩
  · exact ⟨by simp [Monitor.listenDue, hmode], by rw [hmode]; rfl⟩

theorem substitutesBegin : SubstitutesBegin := by
  intro c x s hc hflag hx hwaits
  obtain ⟨notDue, noSchedule⟩ := waiting_modes hwaits
  have mode := (settle_mode notDue c).trans (beforeOutput_of_settle s c (x + 1)).mode
  have waits : ¬ (beforeOutput s c (x + 1)).mon.mode.hasSchedule = true := by
    rw [mode, noSchedule]
    exact Bool.false_ne_true
  refine ⟨_, _, exec_ordinaryStrobe hc hflag hx _, endedLanes_burstsEnded s c (x + 1), ?_⟩
  rw [ordinaryStrobe_output, afterOutput_out, State.strobeOutput, if_neg waits]
  have begun := substituteStep_out (beforeOutput s c (x + 1)) c (x + 1)
  refine Eq.trans (removeAged_out (fun b hb => ?_) c.planCode (x + 1)) begun
  rw [begun] at hb
  exact substituteBursts_ne_stored hb

/-- Settles O29: the bursts begun at a strobe, and the burst of one lane. -/
theorem laneBuilding : Obligations.LaneBuilding := by
  refine ⟨stepBegins, substitutesBegin, substituteRule, fun c m p lane l =>
    ⟨?notHeld, fun r rec hr => ⟨?masked, ?absent, ?stored⟩⟩⟩
  case notHeld => simp [buildLane_not_held, Play.substitute, Play.flags]
  case masked =>
    intro hm
    simp [buildLane_masked c m p lane l hr ((masks_iff _ _).2 hm), Play.substitute, Play.flags]
  case absent =>
    intro hm hp
    simp [buildLane_absent c m p lane l hr (mt (masks_iff _ _).1 hm) hp, Play.substitute, Play.flags]
  case stored =>
    intro hm hp
    simp [buildLane_stored c m p lane l hr (mt (masks_iff _ _).1 hm) hp, Play.flags]

end Sys2Proof.Proofs.StrobeBursts
end

