-- ==== Sys2Proof/Proofs/PaceFrames.lean ====
section
/-! SUPPORT. The judgement of a PACE frame (R146), and the place of the entry that an adopted one becomes (R55). -/

namespace Sys2Proof.Proofs.PaceFrames

open Sys2Proof Sys2Proof.Machine Sys2Proof.Proofs.EditPlan

/-! ## The count byte (R190) -/

theorem paceCountOf_trim : paceCountOf 0xFF#8 = some (-1) := rfl

theorem paceCountOf_fill {c : Byte} (h : 1 ≤ c.toNat ∧ c.toNat ≤ 8) : paceCountOf c = some (c.toNat : Int) := by
  have notTrim : c ≠ 0xFF#8 := by
    rintro rfl
    exact absurd h.2 (by decide)
  rw [paceCountOf, if_neg notTrim, if_pos h]

theorem paceCountOf_eq_none {c : Byte} (h : ¬ (c = 0xFF#8 ∨ (1 ≤ c.toNat ∧ c.toNat ≤ 8))) : paceCountOf c = none := by
  obtain ⟨notTrim, notFill⟩ := not_or.1 h
  rw [paceCountOf, if_neg notTrim, if_neg notFill]

/-! ## The frame (R146 1) -/

theorem parsePace_body (stamp psn : Slot) (c : Byte) :
    parsePace (bytes32 stamp ++ bytes32 psn ++ [c]) = some (stamp, psn, paceCountOf c) := by
  simp only [bytes32, List.cons_append, List.nil_append, parsePace, be32_extract]

theorem judgePace_permitted {stamp psn : Slot} {c : Byte} {n : Int} (h : paceCountOf c = some n) (pl : Plan) (b : Bounds) :
    pl.judgePace b (bytes32 stamp ++ bytes32 psn ++ [c]) = pl.judgeEntry b stamp ⟨psn, n⟩ := by
  simp only [Plan.judgePace, parsePace_body, h]

theorem judgePace_not_permitted {c : Byte} (h : paceCountOf c = none) (pl : Plan) (b : Bounds) (stamp psn : Slot) :
    pl.judgePace b (bytes32 stamp ++ bytes32 psn ++ [c]) = pl.refuse .malformed := by
  simp only [Plan.judgePace, parsePace_body, h]

/-! ## The judgement, reason by reason (R146, R147) -/

/-- R55: the new entry stands behind every entry whose PSN is not later. -/
theorem insertPace_placedIn (e : Pace) (paces : List Pace) :
    PlacedIn (fun d : Pace => earlier e.psn d.psn = true) e paces (insertPace e paces) := by
  rw [insertPace_eq]
  exact placedIn_takeWhile_dropWhile (fun d : Pace => earlier e.psn d.psn) e paces

theorem untimely_pace_iff (pl : Plan) (b : Bounds) (stamp : Slot) (e : Pace) :
    (later stamp b.x = true ∨ ¬ earlier e.psn stamp = true ∨ droppedBy pl.cuts e.psn = true) ↔
      later stamp b.x = true ∨ earlier e.psn stamp = false ∨ coverage pl.cuts e.psn = .dropped := by
  rw [Bool.not_eq_true, coverage_dropped_iff]

/-- An entry that meets none of the first two reasons is judged by its PSN, the room in the list and the cap. -/
theorem judgeEntry_timely {pl : Plan} {b : Bounds} {stamp : Slot} {e : Pace}
    (hbad : ¬ (later stamp b.x = true ∨ ¬ earlier e.psn stamp = true ∨ droppedBy pl.cuts e.psn = true))
    (hlate : ¬ (earlier e.psn b.h = true ∨ (e.count = -1 ∧ later e.psn b.e = true))) :
    pl.judgeEntry b stamp e =
      if (paceAt pl.paces e.psn).isSome then pl.refuse .duplicate
      else if 64 ≤ pl.paces.length then pl.refuse .full
      else if 0 < e.count ∧ 3800 < b.delay + paceSum pl.paces + e.count then pl.refuse .cap
      else ⟨⟨pl.cuts, insertPace e pl.paces, pl.spans⟩, none, none, some e⟩ := by
  rw [Plan.judgeEntry, if_neg hbad, if_neg hlate]
  rfl

/-- Settles O23: the count byte decides whether an entry is judged, and each clause on an entry is one branch of its
judgement. -/
theorem paceJudgement : Obligations.PaceJudgement := by
  refine ⟨fun pl b stamp psn c => ⟨fun h => ?notPermitted, fun h => ?trim, fun h => ?fill⟩, ?entry⟩
  case notPermitted => exact judgePace_not_permitted (paceCountOf_eq_none h) pl b stamp psn
  case trim =>
    subst h
    exact judgePace_permitted paceCountOf_trim pl b
  case fill => exact judgePace_permitted (paceCountOf_fill h) pl b
  case entry =>
    intro pl b stamp e bad late held cap
    have hbad := untimely_pace_iff pl b stamp e
    have hheld : (paceAt pl.paces e.psn).isSome = true ↔ held := paceAt_isSome_iff pl.paces e.psn
    refine ⟨fun h => ?_, fun h hlate => ?_, fun h hlate hdup => ?_, fun h hlate hnew hfull => ?_,
      fun h hlate hnew hroom hcap => ?_, fun h hlate hnew hroom hcap => ?_⟩
    · rw [Plan.judgeEntry, if_pos (hbad.2 h)]
    · rw [Plan.judgeEntry, if_neg (mt hbad.1 h), if_pos hlate]
    · rw [judgeEntry_timely (mt hbad.1 h) hlate, if_pos (hheld.2 hdup)]
    · rw [judgeEntry_timely (mt hbad.1 h) hlate, if_neg (mt hheld.1 hnew), if_pos hfull]
    · rw [judgeEntry_timely (mt hbad.1 h) hlate, if_neg (mt hheld.1 hnew), if_neg (Nat.not_le.2 hroom), if_pos hcap]
    · rw [judgeEntry_timely (mt hbad.1 h) hlate, if_neg (mt hheld.1 hnew), if_neg (Nat.not_le.2 hroom), if_neg hcap]
      exact ⟨rfl, rfl, insertPace_placedIn e pl.paces, rfl, rfl⟩

end Sys2Proof.Proofs.PaceFrames
end

