-- ==== Sys2Proof/Proofs/RebuildDecision.lean ====
section
/-! SUPPORT. What the rebuild regulator decides (R151 to R154): its budget, the slot it chooses, and the decision with its
count. -/

namespace Sys2Proof.Proofs.RebuildDecision

open Sys2Proof Sys2Proof.Machine

/-! ## The budget (R151) -/

theorem budgetOf_proportional {c : Settings} (h : c.mode = .proportional) (deficit : Int) :
    budgetOf c deficit = min c.budget ((deficit.toNat * c.gain + 15) / 16) := by
  simp only [budgetOf, h]

/-- Sixteenths rounded up. -/
theorem sixteenths_roundUp {m k : Nat} (hle : m ≤ 16 * k) (hlt : 16 * k < m + 16) : (m + 15) / 16 = k := by
  omega

theorem budgetRule (c : Settings) (deficit : Int) : BudgetRule c deficit := by
  refine ⟨fun h => ?steady, fun h hd => ?noDeficit, fun k h hd hle hlt => ?proportional⟩
  case steady => simp only [budgetOf, h]
  case noDeficit =>
    rw [budgetOf_proportional h, Int.toNat_of_nonpos hd, Nat.zero_mul]
    exact Nat.min_zero _
  case proportional =>
    obtain ⟨n, rfl⟩ := Int.eq_ofNat_of_zero_le hd.le
    rw [budgetOf_proportional h, Int.toNat_natCast, sixteenths_roundUp (by exact_mod_cast hle) (by exact_mod_cast hlt)]

/-! ## The choice of a slot (R153) -/

theorem coverage_beq_clear (cuts : List Cut) (p : Slot) : (coverage cuts p == .clear) = true ↔ coverage cuts p = .clear :=
  beq_iff_eq

theorem paceAt_isNone_iff (paces : List Pace) (p : Slot) :
    (paceAt paces p).isNone = true ↔ ∀ e ∈ paces, e.psn ≠ p := by
  rw [Option.isNone_iff_eq_none, ← Option.not_isSome_iff_eq_none, paceAt_isSome_iff]
  simp

theorem endBound_atOrAfter_iff (x p : Slot) :
    atOrAfter (endBound x) p = true ↔ p = x - 3 ∨ later (x - 3) p = true := by
  rw [atOrAfter, Bool.or_eq_true, beq_iff_eq, endBound, eq_comm]

/-- R153, condition by condition. -/
theorem qualifies_iff (s : State) (c : Settings) (x : Slot) (d : Decision) (p : Slot) :
    s.qualifies c x d p = true ↔ SlotMeets s c x d p := by
  unfold State.qualifies SlotMeets
  cases lookupRecord s.index p with
  | none => simp
  | some r =>
    have whole : (d != .fill || r.arrival == .whole) = true ↔ (d = .fill → r.arrival = .whole) := by
      cases d <;> simp
    have inTime : (d != .trim || atOrAfter (endBound x) p) = true ↔ (d = .trim → p = x - 3 ∨ later (x - 3) p = true) := by
      rw [← endBound_atOrAfter_iff]
      cases d <;> simp
    simp only [Bool.and_eq_true, whole, inTime, coverage_beq_clear, paceAt_isNone_iff, Option.some.injEq,
      exists_eq_left', and_assoc]
    cases s.reg.lastPace with
    | none => simp
    | some l => simp [dist]

theorem slots_succ (p : Slot) (i : Nat) : p + 1 + slots i = p + slots (i + 1) := by
  rw [slots, slots, BitVec.add_assoc, Nat.add_comm i 1, BitVec.ofNat_add]
  rfl

theorem slots_zero (p : Slot) : p + slots 0 = p := BitVec.add_zero p

section Search

variable {s : State} {c : Settings} {x : Slot} {d : Decision}

/-- The search finds the first PSN that qualifies. -/
theorem firstQualifying_first {p : Slot} {i n : Nat} (hi : i < n) (hq : s.qualifies c x d (p + slots i) = true)
    (hfirst : ∀ j, j < i → ¬ s.qualifies c x d (p + slots j) = true) :
    s.firstQualifying c x d p n = some (p + slots i) := by
  induction n generalizing p i with
  | zero => exact absurd hi (Nat.not_lt_zero i)
  | succ n ih =>
    cases i with
    | zero =>
      rw [slots_zero] at hq ⊢
      rw [State.firstQualifying, if_pos hq]
    | succ i =>
      have notHere := hfirst 0 (Nat.succ_pos i)
      rw [slots_zero] at notHere
      rw [State.firstQualifying, if_neg notHere, ← slots_succ]
      refine ih (Nat.lt_of_succ_lt_succ hi) (by rwa [slots_succ]) fun j hj => ?_
      rw [slots_succ]
      exact hfirst (j + 1) (Nat.succ_lt_succ hj)

theorem firstQualifying_none {p : Slot} {n : Nat} (h : ∀ i, i < n → ¬ s.qualifies c x d (p + slots i) = true) :
    s.firstQualifying c x d p n = none := by
  induction n generalizing p with
  | zero => rfl
  | succ n ih =>
    have notHere := h 0 (Nat.succ_pos n)
    rw [slots_zero] at notHere
    rw [State.firstQualifying, if_neg notHere]
    refine ih fun i hi => ?_
    rw [slots_succ]
    exact h (i + 1) (Nat.succ_lt_succ hi)

end Search

theorem holds_iff (ix : List SlotRecord) (p : Slot) : holds ix p = true ↔ ∃ r ∈ ix, r.psn = p := by
  simp [holds, lookupRecord]

theorem slots_add (h : Slot) (a b : Nat) : h + slots (a + b) = h + slots a + slots b := by
  rw [slots, slots, slots, BitVec.ofNat_add, BitVec.add_assoc]

/-- The search range begins `first` PSNs after the horizon and ends 64 after it. -/
theorem chooseSlot_eq (s : State) (c : Settings) (x h : Slot) (d : Decision) :
    ∃ first, first = (if ∃ r ∈ s.index, r.psn = h + 2 then 2 else 1) ∧ first ≤ 64 ∧
      s.chooseSlot c x h d = s.firstQualifying c x d (h + slots first) (65 - first) := by
  have held := holds_iff s.index (h + 2)
  unfold State.chooseSlot
  by_cases hh : ∃ r ∈ s.index, r.psn = h + 2
  · rw [if_pos (held.2 hh), if_pos hh]
    exact ⟨2, rfl, by decide, rfl⟩
  · rw [if_neg (mt held.1 hh), if_neg hh]
    exact ⟨1, rfl, by decide, rfl⟩

theorem choiceRule (s : State) (c : Settings) (x h : Slot) (d : Decision) : ChoiceRule s c x h d := by
  obtain ⟨first, hfirst, hle, hchoose⟩ := chooseSlot_eq s c x h d
  unfold ChoiceRule
  rw [← hfirst, hchoose]
  simp only [← qualifies_iff]
  refine ⟨fun i hi hi' hq hnot => ?found, fun hnot => ?absent⟩
  case found =>
    obtain ⟨k, rfl⟩ := Nat.exists_eq_add_of_le hi
    rw [slots_add] at hq ⊢
    refine firstQualifying_first (by omega) hq fun j hj => ?_
    rw [← slots_add]
    exact hnot (first + j) (by omega) (by omega)
  case absent =>
    refine firstQualifying_none fun i hi => ?_
    rw [← slots_add]
    exact hnot (first + i) (by omega) (by omega)

/-- Without a record no slot qualifies. -/
theorem chooseSlot_nil {s : State} (hs : s.index = []) (c : Settings) (x h : Slot) (d : Decision) :
    s.chooseSlot c x h d = none :=
  (choiceRule s c x h d).2 fun i _ _ ⟨r, hr, _⟩ => by simp [hs, lookupRecord] at hr

/-- The choice reads the index, the plan and the last pace PSN. -/
theorem chooseSlot_congr {s t : State} (hindex : t.index = s.index) (hplan : t.plan = s.plan)
    (hlast : t.reg.lastPace = s.reg.lastPace) (c : Settings) (x h : Slot) (d : Decision) :
    t.chooseSlot c x h d = s.chooseSlot c x h d := by
  have qualifies (p : Slot) : t.qualifies c x d p = s.qualifies c x d p := by
    rw [State.qualifies, State.qualifies, hindex, hplan, hlast]
  have search (p : Slot) (n : Nat) : t.firstQualifying c x d p n = s.firstQualifying c x d p n := by
    induction n generalizing p with
    | zero => rfl
    | succ n ih => rw [State.firstQualifying, State.firstQualifying, qualifies, ih]
  rw [State.chooseSlot, State.chooseSlot, hindex, search, search]

/-! ## The decision and its count (R152, R154) -/

theorem decideProposal_eq (c : Settings) (tEra : Nat) (projected : Int) (used : Nat) (own peers : Bool) :
    decideProposal c tEra projected used own peers =
      if 0 < (tEra : Int) - projected ∧ own = false ∧ peers = false ∧ used < budgetOf c (tEra - projected) then .fill
      else if (tEra : Int) + c.trimTolerance < projected ∨ (own = true ∧ (tEra : Int) - c.trimTolerance < projected) then
        .trim
      else .nothing := by
  cases own <;> cases peers <;> simp [decideProposal]

/-- R154: with a deficit and budget left, no subtraction of the count is cut off at 0. -/
theorem proposalCount_fill {c : Settings} {deficit : Int} {used : Nat} (hd : 0 < deficit) (hu : used < budgetOf c deficit)
    (brk : Bool) :
    proposalCount c .fill deficit used brk =
      min (min deficit (if brk = true then 8 else c.normalRepeat)) (min ((budgetOf c deficit : Int) - used) 8) := by
  have repeatLimit : ((if brk = true then 8 else c.normalRepeat : Nat) : Int) =
      if brk = true then 8 else (c.normalRepeat : Int) := by
    cases brk <;> rfl
  rw [proposalCount, ← repeatLimit, Nat.cast_min, Nat.cast_min, Nat.cast_min, Int.toNat_of_nonneg hd.le, Nat.cast_sub hu.le]
  rfl

theorem one_le_proposalCount {c : Settings} {deficit : Int} {used : Nat} (hd : 0 < deficit) (hu : used < budgetOf c deficit)
    (hrepeat : 1 ≤ c.normalRepeat) (brk : Bool) : 1 ≤ proposalCount c .fill deficit used brk := by
  have repeatLimit : (1 : Int) ≤ if brk = true then 8 else (c.normalRepeat : Int) := by
    split
    · omega
    · exact_mod_cast hrepeat
  rw [proposalCount_fill hd hu]
  exact le_min (le_min hd repeatLimit) (le_min (by omega) (by decide))

end Sys2Proof.Proofs.RebuildDecision
end

