-- ==== Sys2Proof/Proofs/SparedProposals.lean ====
section
/-! SUPPORT. What the operations of a strobe leave of the outstanding proposal and its general entry (R88, R89, R93, R94,
R156): a withdrawal takes marks and a cancellation of the monitor takes JOINs, so that none of them takes a PACE. -/

namespace Sys2Proof.Proofs.SparedProposals

open Sys2Proof Sys2Proof.Machine Sys2Proof.Safety

/-! ## The general entry of a proposal -/

/-- The entry order `n` has been given out, and an entry of this order holds a PACE. -/
structure ProposalSlot (n : Nat) (s : State) : Prop where
  given : n < s.traffic.nextOrder
  pace : ∀ b ∈ s.traffic.general, b.order = n → b.hasKind .pace = true

/-- The entry of order `n` is as it was. -/
structure EntryKept (n : Nat) (s t : State) : Prop where
  slot : ProposalSlot n t
  entry : t.entry n = s.entry n

theorem EntryKept.of_general {n : Nat} {s t : State} (h : ProposalSlot n s) (hg : t.traffic.general = s.traffic.general)
    (hn : t.traffic.nextOrder = s.traffic.nextOrder) : EntryKept n s t := by
  refine ⟨⟨hn ▸ h.given, hg ▸ h.pace⟩, ?_⟩
  rw [State.entry, State.entry, hg]

theorem EntryKept.trans {n : Nat} {s t u : State} (h : EntryKept n s t) (k : EntryKept n t u) : EntryKept n s u :=
  ⟨k.slot, k.entry.trans h.entry⟩

theorem pace_hasKind {b : TxEntry} {body : List Byte} (h : b.frame = some ⟨.pace, body⟩) : b.hasKind .pace = true := by
  simp [TxEntry.hasKind, h]

/-- A frame has one kind. -/
theorem not_pace_of_hasKind {b : TxEntry} {k : Kind} (hk : k ≠ .pace) (h : b.hasKind k = true) :
    b.hasKind .pace = false := by
  cases hf : b.frame with
  | none => simp [TxEntry.hasKind, hf]
  | some f =>
    obtain rfl : f.kind = k := by simpa [TxEntry.hasKind, hf] using h
    simp [TxEntry.hasKind, hf, hk]

/-- A PACE is of class 2 (R75). -/
theorem not_pace_of_isMark {b : TxEntry} (h : b.isMark = true) : b.hasKind .pace = false := by
  cases hf : b.frame with
  | none => simp [TxEntry.hasKind, hf]
  | some f =>
    have cls : f.kind.cls = 0 := by simpa [TxEntry.isMark, TxEntry.hasClass, hf] using h
    have hk : f.kind ≠ .pace := by
      intro hpace
      rw [hpace] at cls
      exact absurd cls (by decide)
    simp [TxEntry.hasKind, hf, hk]

theorem staleAt_isMark {b : TxEntry} {x : Slot} (h : b.staleAt x = true) : b.isMark = true :=
  (Bool.and_eq_true_iff.1 h).1

/-- Entry orders are given out once (R88). -/
theorem eq_of_order_eq {t : Traffic} (h : EntriesOrdered t) {a b : TxEntry} (ha : a ∈ t.general) (hb : b ∈ t.general)
    (hab : a.order = b.order) : a = b :=
  List.inj_on_of_nodup_map (h.1.imp Nat.ne_of_lt) ha hb hab

theorem proposalSlot_of_entry {s : State} {n : Nat} {e : TxEntry} {body : List Byte} (h : EntriesOrdered s.traffic)
    (he : s.entry n = some e) (hf : e.frame = some ⟨.pace, body⟩) : ProposalSlot n s := by
  have order : e.order = n := State.entry_order he
  refine ⟨order ▸ h.2 e (State.entry_mem he), fun b hb hn => ?_⟩
  obtain rfl := eq_of_order_eq h hb (State.entry_mem he) (hn.trans order.symm)
  exact pace_hasKind hf

/-! ## The regulator -/

/-- The regulator has been told of its frame's end at most: a proposal outstanding then was outstanding before, and the
window, the used budget and the last pace PSN are as they were. -/
structure Told (g g' : Regulator) : Prop where
  window : g'.window = g.window
  used : g'.used = g.used
  lastPace : g'.lastPace = g.lastPace
  outstanding : ∀ o, g'.outstanding = some o → g.outstanding = some o

theorem Told.refl (g : Regulator) : Told g g := ⟨rfl, rfl, rfl, fun _ => id⟩

theorem Told.of_eq {g g' : Regulator} (h : g' = g) : Told g g' := h ▸ .refl g

theorem Told.trans {g g' g'' : Regulator} (h : Told g g') (k : Told g' g'') : Told g g'' :=
  ⟨k.window.trans h.window, k.used.trans h.used, k.lastPace.trans h.lastPace,
    fun o ho => h.outstanding o (k.outstanding o ho)⟩

/-- Without an outstanding proposal there is nothing to be told. -/
theorem Told.eq_of_none {g g' : Regulator} (h : Told g g') (hnone : g.outstanding = none) : g' = g := by
  have none' : g'.outstanding = none :=
    Option.eq_none_iff_forall_ne_some.2 fun o ho => nomatch hnone.symm.trans (h.outstanding o ho)
  cases g
  cases g'
  obtain ⟨rfl, rfl, rfl, -⟩ := h
  cases hnone
  cases none'
  rfl

theorem tell_cancelled_told (s : State) (b : TxEntry) : Told s.reg (s.tell b .cancelled).reg := by
  unfold State.tell State.tellRegulator
  split
  · exact .refl _
  · split
    · split
      · exact ⟨rfl, rfl, rfl, nofun⟩
      · exact .refl _
    · exact .refl _
  · split <;> exact .refl _

/-- The end of another entry's frame does not concern the proposal. -/
theorem tell_reg_of_ne {s : State} {b : TxEntry} {n : Nat} (hb : b.order ≠ n)
    (h : ∀ o, s.reg.outstanding = some o → o.entry = n) (f : Fate) : (s.tell b f).reg = s.reg := by
  unfold State.tell State.tellRegulator
  split
  · rfl
  · split
    · rename_i o ho
      rw [if_neg fun hentry => hb (hentry.symm.trans (h o ho))]
    · rfl
  · split <;> rfl

/-! ## Operations that touch some general entries -/

/-- An operation that touches the general entries `l` and adds new ones at most: another entry that holds a PACE stays, and
so does a proposal outstanding in it; of the link the current frame alone may change, and not from or to a general entry. -/
structure Touches (l : List TxEntry) (s t : State) : Prop where
  link : t.link = { s.link with current := t.link.current }
  current : ∀ n, t.link.current = some (.general n) ↔ s.link.current = some (.general n)
  told : Told s.reg t.reg
  entry : ∀ n, (∀ b ∈ l, b.order ≠ n) → ProposalSlot n s → EntryKept n s t
  reg : ∀ n, (∀ b ∈ l, b.order ≠ n) → ProposalSlot n s → (∀ o, s.reg.outstanding = some o → o.entry = n) → t.reg = s.reg

/-- An operation that touches no general entry with a PACE. -/
def Spares (s t : State) : Prop := Touches [] s t

theorem Touches.append {l m : List TxEntry} {s t u : State} (h : Touches l s t) (k : Touches m t u) :
    Touches (l ++ m) s u where
  link := by rw [k.link, h.link]
  current n := (k.current n).trans (h.current n)
  told := h.told.trans k.told
  entry n hn hs := by
    have first := h.entry n (fun b hb => hn b (List.mem_append_left m hb)) hs
    exact first.trans (k.entry n (fun b hb => hn b (List.mem_append_right l hb)) first.slot)
  reg n hn hs ho := by
    have left := fun b hb => hn b (List.mem_append_left m hb)
    have first := h.reg n left hs ho
    exact (k.reg n (fun b hb => hn b (List.mem_append_right l hb)) (h.entry n left hs).slot (by rwa [first])).trans first

theorem Spares.trans {s t u : State} (h : Spares s t) (k : Spares t u) : Spares s u := Touches.append h k

/-- The last operation first: it tells what state it is taken in. -/
theorem Spares.after {s t u : State} (k : Spares t u) (h : Spares s t) : Spares s u := h.trans k

/-- An operation that leaves the link, the general entries and the regulator alone. -/
theorem Spares.of_general {s t : State} (hl : t.link = s.link) (hg : t.traffic.general = s.traffic.general)
    (hn : t.traffic.nextOrder = s.traffic.nextOrder) (hr : t.reg = s.reg) : Spares s t where
  link := by rw [hl]
  current n := by rw [hl]
  told := .of_eq hr
  entry _ _ hs := .of_general hs hg hn
  reg _ _ _ _ := hr

theorem Spares.refl (s : State) : Spares s s := .of_general rfl rfl rfl rfl

theorem Spares.of_storeSide {s t : State} (h : StoreSide s t) : Spares s t := by
  unfold StoreSide at h
  rw [h]
  exact .of_general rfl rfl rfl rfl

theorem Spares.touches {s t : State} (h : Spares s t) (l : List TxEntry) : Touches l s t :=
  ⟨h.link, h.current, h.told, fun n _ => h.entry n (by simp), fun n _ => h.reg n (by simp)⟩

/-- To touch entries without a PACE is to spare the others. -/
theorem Touches.spares {l : List TxEntry} {s t : State} (h : Touches l s t)
    (hl : ∀ b ∈ l, b ∈ s.traffic.general ∧ b.hasKind .pace = false) : Spares s t := by
  have others {n : Nat} (hs : ProposalSlot n s) : ∀ b ∈ l, b.order ≠ n := fun b hb hn =>
    Bool.false_ne_true ((hl b hb).2.symm.trans (hs.pace b (hl b hb).1 hn))
  exact ⟨h.link, h.current, h.told, fun n _ hs => h.entry n (others hs) hs, fun n _ hs => h.reg n (others hs) hs⟩

theorem Touches.foldl {f : State → TxEntry → State} (hf : ∀ s b, Touches [b] s (f s b)) (l : List TxEntry) (s : State) :
    Touches l s (l.foldl f s) := by
  induction l generalizing s with
  | nil => exact Spares.refl s
  | cons b l ih => exact (hf s b).append (ih (f s b))

/-- An operation that keeps the general entries with a PACE, whatever it does to the regulator. -/
structure KeepsEntries (s t : State) : Prop where
  link : t.link = { s.link with current := t.link.current }
  current : ∀ n, t.link.current = some (.general n) ↔ s.link.current = some (.general n)
  entry : ∀ n, ProposalSlot n s → EntryKept n s t

theorem KeepsEntries.trans {s t u : State} (h : KeepsEntries s t) (k : KeepsEntries t u) : KeepsEntries s u where
  link := by rw [k.link, h.link]
  current n := (k.current n).trans (h.current n)
  entry n hs := (h.entry n hs).trans (k.entry n (h.entry n hs).slot)

theorem KeepsEntries.of_traffic {s t : State} (hl : t.link = s.link) (ht : t.traffic = s.traffic) : KeepsEntries s t where
  link := by rw [hl]
  current n := by rw [hl]
  entry _ hs := .of_general hs (congrArg Traffic.general ht) (congrArg Traffic.nextOrder ht)

theorem Spares.keepsEntries {s t : State} (h : Spares s t) : KeepsEntries s t :=
  ⟨h.link, h.current, fun n => h.entry n (by simp)⟩

/-- A proposal in a general entry that is spared stays outstanding. -/
theorem Spares.reg_eq {s t : State} (h : Spares s t) {n : Nat} (hs : ProposalSlot n s)
    (ho : ∀ o, s.reg.outstanding = some o → o.entry = n) : t.reg = s.reg := h.reg n (by simp) hs ho

/-! ## Cancellation and withdrawal (R93, R94) -/

theorem entryKept_changeEntry {n m : Nat} {s : State} (h : ProposalSlot n s) (hm : m ≠ n) {f : TxEntry → TxEntry}
    (hf : ∀ e, (f e).order = e.order) : EntryKept n s (s.changeEntry m f) := by
  refine ⟨⟨h.given, fun b hb hn => ?_⟩, ?_⟩
  · obtain ⟨e, he, rfl⟩ := List.mem_map.1 hb
    split at hn
    case isTrue hem => exact absurd ((hem.symm.trans (hf e).symm).trans hn) hm
    case isFalse hem => exact (if_neg hem).symm ▸ h.pace e he hn
  · show List.find? _ (s.traffic.general.map _) = List.find? _ s.traffic.general
    induction s.traffic.general with
    | nil => rfl
    | cons d rest ih =>
      rw [List.map_cons, List.find?_cons, List.find?_cons, ih]
      by_cases hd : d.order = m
      · have other : (m == n) = false := beq_eq_false_iff_ne.2 hm
        simp [hd, hf, other]
      · simp [hd]

theorem entryKept_freeEntry {n m : Nat} {s : State} (h : ProposalSlot n s) (hm : m ≠ n) : EntryKept n s (s.freeEntry m) := by
  refine ⟨⟨h.given, fun b hb => h.pace b (List.mem_filter.1 hb).1⟩, ?_⟩
  show List.find? _ (s.traffic.general.filter _) = List.find? _ s.traffic.general
  rw [List.find?_filter]
  congr 1
  funext d
  by_cases hd : d.order = n
  · simp [hd, hm.symm]
  · simp [hd]

theorem touches_changeEntry (s : State) (b : TxEntry) {f : TxEntry → TxEntry} (hf : ∀ e, (f e).order = e.order) :
    Touches [b] s (s.changeEntry b.order f) :=
  ⟨rfl, fun _ => .rfl, .refl _, fun _ hb hs => entryKept_changeEntry hs (hb b List.mem_cons_self) hf, fun _ _ _ _ => rfl⟩

theorem touches_freeEntry_tell (s : State) (b : TxEntry) : Touches [b] s ((s.freeEntry b.order).tell b .cancelled) where
  link := by
    rw [tell_link]
    rfl
  current _ := by
    rw [tell_link]
    exact .rfl
  told := tell_cancelled_told (s.freeEntry b.order) b
  entry n hb hs := by
    have freed := entryKept_freeEntry hs (hb b List.mem_cons_self)
    have traffic := tell_traffic (s.freeEntry b.order) b .cancelled
    exact freed.trans (.of_general freed.slot (congrArg Traffic.general traffic) (congrArg Traffic.nextOrder traffic))
  reg n hb _ ho := tell_reg_of_ne (s := s.freeEntry b.order) (hb b List.mem_cons_self) ho _

theorem touches_cancelEntry (s : State) (b : TxEntry) : Touches [b] s (s.cancelEntry b) := by
  unfold State.cancelEntry
  split_ifs
  · exact touches_changeEntry s b fun _ => rfl
  · exact touches_changeEntry s b fun _ => rfl
  · exact touches_freeEntry_tell s b

theorem spares_pulseRefused (s : State) : Spares s s.pulseRefused := .of_general rfl rfl rfl rfl

theorem touches_withdrawEntry (s : State) (b : TxEntry) : Touches [b] s (s.withdrawEntry b) := by
  have pulsed {t : State} (h : Touches [b] s t) : Touches [b] s t.pulseRefused := h.append (spares_pulseRefused t)
  unfold State.withdrawEntry
  split_ifs
  · exact (Spares.refl s).touches [b]
  · exact touches_changeEntry s b fun _ => rfl
  · exact pulsed (touches_changeEntry s b fun _ => rfl)
  · exact pulsed (touches_freeEntry_tell s b)

theorem spares_withdrawStale (s : State) (x : Slot) : Spares s (s.withdrawStale x) := by
  refine (Touches.foldl touches_withdrawEntry _ s).spares fun b hb => ?_
  obtain ⟨hb, hstale⟩ := List.mem_filter.1 hb
  exact ⟨hb, not_pace_of_isMark (staleAt_isMark hstale)⟩

theorem spares_cancelJoin (s : State) : Spares s s.cancelJoin := by
  refine (Touches.foldl touches_cancelEntry _ s).spares fun b hb => ?_
  obtain ⟨hb, hjoin⟩ := List.mem_filter.1 hb
  exact ⟨hb, not_pace_of_hasKind (by decide) (Bool.and_eq_true_iff.1 hjoin).1⟩

/-! ## Addition (R89) and the holders (R95, R98) -/

theorem spares_addEntry (s : State) (owner : Owner) (f : TxFrame) (st : Option Slot) (stream : Bool) :
    Spares s (s.addEntry owner f st stream).1 := by
  unfold State.addEntry
  split_ifs
  · exact .refl s
  · exact spares_pulseRefused s
  · exact .refl s
  · refine ⟨rfl, fun _ => .rfl, .refl _, fun n _ hs => ?_, fun _ _ _ _ => rfl⟩
    have fresh : s.traffic.nextOrder ≠ n := hs.given.ne'
    refine ⟨⟨Nat.lt_succ_of_lt hs.given, fun b hb hn => ?_⟩, ?_⟩
    · rcases List.mem_append.1 hb with hb | hb
      · exact hs.pace b hb hn
      · obtain rfl := List.mem_singleton.1 hb
        exact absurd hn fresh
    · show List.find? _ (_ ++ _) = List.find? _ _
      rw [List.find?_append]
      simp [fresh]

theorem spares_release (s : State) {r : TxRef} (hr : ∀ n, r ≠ .general n) : Spares s (s.release r) := by
  unfold State.release
  split
  · rename_i hcur
    have current : s.link.current = some r := by simpa [State.isCurrent] using hcur
    refine ⟨rfl, fun n => ?_, .refl _, fun _ _ hs => .of_general hs rfl rfl, fun _ _ _ _ => rfl⟩
    simp [State.withCurrent, current, hr n]
  · exact .refl s

theorem spares_placeBeacon (s : State) (f : TxFrame) : Spares s (s.placeBeacon f) := by
  unfold State.placeBeacon
  split_ifs
  · exact .refl s
  · exact .of_general rfl rfl rfl rfl
  · exact Spares.after (spares_release _ fun _ => TxRef.noConfusion) (.of_general rfl rfl rfl rfl)

theorem spares_loadFlow (s : State) : Spares s s.loadFlow := by
  unfold State.loadFlow
  split_ifs
  · exact .refl s
  · exact .of_general rfl rfl rfl rfl
  · exact Spares.after (spares_release _ fun _ => TxRef.noConfusion) (.of_general rfl rfl rfl rfl)

theorem spares_dropReceived (s : State) : Spares s s.dropReceived := by
  unfold State.dropReceived State.afterRemoval
  split
  · exact Spares.after (spares_loadFlow _) (.of_general rfl rfl rfl rfl)
  · exact .of_general rfl rfl rfl rfl

/-! ## The monitor -/

theorem spares_withMon (s : State) (m : Monitor) : Spares s (s.withMon m) := .of_general rfl rfl rfl rfl

theorem spares_addJoin (s : State) : Spares s s.addJoin := by
  refine Spares.trans (t := s.drawHsn.2) ?_ (spares_addEntry _ _ _ _ _)
  unfold State.drawHsn
  split <;> exact .of_general rfl rfl rfl rfl

theorem spares_askAgain (s : State) : Spares s s.askAgain := by
  refine Spares.trans (t := if s.joinQueued then s else s.addJoin) ?_ (spares_withMon _ _)
  split
  · exact .refl s
  · exact spares_addJoin s

theorem spares_failCollection (s : State) : Spares s s.failCollection := (spares_withMon s _).trans (spares_askAgain _)

theorem spares_expireMonitor (s : State) (c : Settings) (x : Slot) : Spares s (s.expireMonitor c x) := by
  have collect : Spares s s.expireCollect := by
    unfold State.expireCollect
    split
    · exact spares_failCollection s
    · exact .refl s
  have foreign (u : State) : Spares u u.expireForeign := by
    unfold State.expireForeign
    split
    · exact spares_withMon u _
    · exact .refl u
  have retry (u : State) : Spares u u.expireRetry := by
    unfold State.expireRetry
    split
    · exact spares_askAgain u
    · exact .refl u
  have listen (u : State) : Spares u (u.expireListen c x) := by
    unfold State.expireListen
    split <;> exact .of_general rfl rfl rfl rfl
  exact ((collect.trans (foreign _)).trans (retry _)).trans (listen _)

theorem spares_completeEntryAt (s : State) (c : Settings) (x : Slot) : Spares s (s.completeEntryAt c x) := by
  have built (u : State) : Spares u (u.buildBeacon c x) := by
    unfold State.buildBeacon
    split
    · split
      · split
        · exact spares_placeBeacon u _
        · exact .refl u
      · exact .refl u
    · exact .refl u
  unfold State.completeEntryAt
  split
  · exact .after (built _) (.of_general rfl rfl rfl rfl)
  · exact .refl s

/-- The strobe of a station with a schedule: it does not leave JOINING, so its regulator is not reset. -/
theorem spares_monitorStrobe {s : State} (hm : s.mon.mode.hasSchedule = true) (c : Settings) (x : Slot) :
    Spares s (s.monitorStrobe c x false) := by
  have expired := (spares_withMon s s.mon.tick).trans (spares_expireMonitor _ c x)
  have mode := (StrobeVerdict.keeps_expireMonitor (s := s.withMon s.mon.tick) hm c x).mode
  replace hm : ((s.withMon s.mon.tick).expireMonitor c x).mon.mode.hasSchedule = true := by rwa [mode]
  refine expired.trans ?_
  show Spares _ (((s.withMon s.mon.tick).expireMonitor c x).checkPeers x)
  generalize (s.withMon s.mon.tick).expireMonitor c x = u at hm
  unfold State.checkPeers
  split
  · exact .refl u
  · split
    case h_1 hjoining => exact absurd hjoining (EndedBursts.not_joining_of_hasSchedule hm)
    case h_2 => exact ((spares_withMon u _).trans (spares_cancelJoin _)).trans (spares_withMon _ _)
    case h_3 => exact .refl u

/-! ## The parts of the strobe -/

theorem spares_withHeldBy (s : State) (v : List HeldBy) : Spares s (s.withHeldBy v) := .of_general rfl rfl rfl rfl

theorem spares_settle (s : State) (c : Settings) : Spares s (s.settle c) := by
  unfold State.settle
  split
  · exact .refl s
  · rename_i x _
    have expired := ((spares_withHeldBy s (dropLapsed s.traffic.heldBy)).trans (spares_withdrawStale _ x)).trans
      (spares_expireMonitor _ c x)
    refine (expired.trans ?_).trans (spares_completeEntryAt _ c x)
    split <;> exact .of_general rfl rfl rfl rfl

theorem spares_trafficStrobe (s : State) (x : Slot) : Spares s (s.trafficStrobe x false) :=
  ((spares_withHeldBy s (tickHeld s.traffic.heldBy)).trans (spares_withHeldBy _ _)).trans (spares_withdrawStale _ x)

theorem spares_closeAndTag (s : State) (c : Settings) (x : Slot) : Spares s (s.closeAndTag c x) := by
  have closed : Spares s (s.closeSlot c x) := by
    unfold State.closeSlot
    split
    · exact .of_general rfl rfl rfl rfl
    · exact .after (.of_storeSide (append_storeSide _ _ _)) (.of_general rfl rfl rfl rfl)
  have tagged (p : Slot) : Spares s ((s.closeSlot c x).maskTagRequest c p) := by
    refine closed.trans ?_
    unfold State.maskTagRequest
    split
    · exact .after (spares_addEntry _ _ _ _ _) (.of_general rfl rfl rfl rfl)
    · exact .refl _
  unfold State.closeAndTag
  split
  · split
    · exact tagged _
    · exact closed
  · exact closed

theorem spares_beforeOutput (s : State) (c : Settings) (x : Slot) : Spares s (StrobeBursts.beforeOutput s c x) := by
  have settled : Spares s ((s.settle c).withRef (.strobe x)) := (spares_settle s c).trans (.of_general rfl rfl rfl rfl)
  exact (settled.trans (spares_trafficStrobe _ x)).trans (spares_closeAndTag _ c x)

theorem spares_scheduleHeld (s : State) (q : Slot) : Spares s (s.scheduleHeld q) := by
  unfold State.scheduleHeld
  split
  · exact spares_withMon s _
  · exact .refl s

theorem spares_playStep (s : State) (c : Settings) (pt : SchedPoint) : Spares s (s.playStep c pt) := by
  have ended : Spares s (s.endBursts fun _ => true) := .of_storeSide (endBursts_storeSide s _)
  have played := ended.trans (t := _) (u := ((s.endBursts fun _ => true).output c pt).withPlan
    (((s.endBursts fun _ => true).output c pt).plan.retire pt.psn)) (.of_general rfl rfl rfl rfl)
  have passed := played.trans (.of_storeSide (removePassed_storeSide _ c pt))
  exact passed.trans (spares_scheduleHeld _ pt.psn)

theorem spares_strobeOutput (s : State) (c : Settings) (x : Slot) : Spares s (s.strobeOutput c x) := by
  unfold State.strobeOutput State.outputStep
  split
  · split
    · exact spares_playStep s c _
    · exact .refl s
  · have ended : Spares s (s.substituteStep c x) :=
      (Spares.of_storeSide (endBursts_storeSide s fun _ => true)).trans (.of_general rfl rfl rfl rfl)
    exact ended.trans (.of_storeSide (removeAged_storeSide _ _ _))

theorem spares_record (k : Intake) (x : Slot) (n : Nat) (f : RxFrame) : Spares k.state (k.record x n f).state := by
  unfold Intake.record State.recordFrame
  split
  · dsimp only
    split
    · exact .refl _
    · split_ifs
      · exact spares_failCollection _
      · exact spares_withMon _ _
      · exact spares_failCollection _
      · exact spares_withMon _ _
  · exact .refl _

end Sys2Proof.Proofs.SparedProposals
end

