-- ==== Sys2Proof/Proofs/JudgedProposals.lean ====
section
/-! SUPPORT. What a strobe that takes one frame leaves of the regulator (R147, R151, R157): the count of an adoption, and the
outstanding proposal, checked at the end of the intake. -/

namespace Sys2Proof.Proofs.JudgedProposals

open Sys2Proof Sys2Proof.Machine Sys2Proof.Safety
open Sys2Proof.Proofs.OrdinaryStrobe Sys2Proof.Proofs.StrobeVerdict Sys2Proof.Proofs.StrobeBursts
open Sys2Proof.Proofs.SparedProposals

/-! ## The count of an adoption (R147, R151) -/

/-- What an event at `x` that adopted the entry `a` at most makes of the regulator `g`, its proposal aside. -/
structure Counts (c : Settings) (x : Slot) (a : Option Pace) (g g' : Regulator) : Prop where
  window : g'.window = some (x.toNat / c.windowLength)
  used : g'.used = usedAt g c x + ((a.map (fun e => e.count.toNat)).getD 0)
  lastPace : g'.lastPace = a.elim g.lastPace (fun e => laterPace g.lastPace e.psn)

section Counted

variable {c : Settings} {x : Slot} {a : Option Pace} {g g' g'' : Regulator}

theorem Counts.of_told (h : Told g g') (k : Counts c x a g' g'') : Counts c x a g g'' := by
  obtain ⟨window, used, lastPace⟩ := k
  have usedAt_eq : usedAt g' c x = usedAt g c x := by rw [usedAt, usedAt, h.window, h.used]
  rw [usedAt_eq] at used
  rw [h.lastPace] at lastPace
  exact ⟨window, used, lastPace⟩

theorem Counts.told (h : Counts c x a g g') (k : Told g' g'') : Counts c x a g g'' :=
  ⟨k.window.trans h.window, k.used.trans h.used, k.lastPace.trans h.lastPace⟩

/-- A later event of the same strobe changes nothing. -/
theorem Counts.atEvent_eq (h : Counts c x a g g') : g'.atEvent c x = g' := if_pos h.window

theorem counts_atEvent (g : Regulator) (c : Settings) (x : Slot) : Counts c x none g (g.atEvent c x) := by
  obtain ⟨window, used, lastPace, -⟩ := g.atEvent_spec c x
  exact ⟨window, used, lastPace⟩

theorem counts_adopt (g : Regulator) (c : Settings) (x : Slot) (e : Pace) : Counts c x (some e) g (g.adopt c x e) := by
  obtain ⟨window, used, lastPace, -⟩ := g.adopt_spec c x e
  obtain ⟨-, usedAt_eq, -, -⟩ := g.atEvent_spec c x
  exact ⟨window, used.trans (congrArg (· + e.count.toNat) usedAt_eq), lastPace⟩

theorem told_atEvent (h : Told g g') (c : Settings) (x : Slot) : Told (g.atEvent c x) (g'.atEvent c x) := by
  obtain ⟨window, used, lastPace, outstanding⟩ := g.atEvent_spec c x
  obtain ⟨window', used', lastPace', outstanding'⟩ := g'.atEvent_spec c x
  refine ⟨window'.trans window.symm, ?_, (lastPace'.trans h.lastPace).trans lastPace.symm, fun o ho => ?_⟩
  · rw [used', used, h.window, h.used]
  · rw [outstanding'] at ho
    rw [outstanding, h.outstanding o ho]

end Counted

theorem told_endProposal (g : Regulator) (p : Slot) : Told g (g.endProposal p) := by
  unfold Regulator.endProposal
  split
  · exact ⟨rfl, rfl, rfl, nofun⟩
  · exact .refl g

/-- The regulator after the adoption of an entry at most. -/
def adoptAtMost (g : Regulator) (c : Settings) (x : Slot) (a : Option Pace) : Regulator :=
  a.elim g (fun e => g.adopt c x e)

theorem counts_adoptAtMost (g : Regulator) (c : Settings) (x : Slot) (a : Option Pace) :
    Counts c x a g ((adoptAtMost g c x a).atEvent c x) := by
  cases a with
  | none => exact counts_atEvent g c x
  | some e =>
    have adopted := counts_adopt g c x e
    exact (adopted.atEvent_eq (g' := g.adopt c x e)).symm ▸ adopted

theorem adoptAtMost_outstanding (g : Regulator) (c : Settings) (x : Slot) (a : Option Pace) :
    (adoptAtMost g c x a).outstanding = g.outstanding := by
  cases a with
  | none => rfl
  | some e =>
    obtain ⟨-, -, -, outstanding⟩ := g.adopt_spec c x e
    exact outstanding

/-- R147: the PACE of another station changes the counts alone. -/
theorem afterPace_foreign (g : Regulator) (c : Settings) (x : Slot) {f : RxFrame} (hf : f.own = false) (a : Option Pace) :
    g.afterPace c x f a = adoptAtMost g c x a := by
  unfold Regulator.afterPace
  rw [hf]
  cases a <;> dsimp only <;> split <;> rfl

/-- R147, R156: an own PACE ends the proposal that it names. -/
theorem afterPace_own (g : Regulator) (c : Settings) (x : Slot) {f : RxFrame} {stamp p : Slot} {n : Option Int}
    (hf : f.own = true) (hp : parsePace f.body = some (stamp, p, n)) (a : Option Pace) :
    g.afterPace c x f a = (adoptAtMost g c x a).endProposal p := by
  unfold Regulator.afterPace
  rw [hf, hp]
  cases a <;> rfl

theorem told_afterPace (g : Regulator) (c : Settings) (x : Slot) (f : RxFrame) (a : Option Pace) :
    Told (adoptAtMost g c x a) (g.afterPace c x f a) := by
  cases hf : f.own with
  | false => exact .of_eq (afterPace_foreign g c x hf a)
  | true =>
    cases hp : parsePace f.body with
    | none =>
      unfold Regulator.afterPace
      rw [hp]
      cases a <;> exact .refl _
    | some d =>
      obtain ⟨stamp, p, n⟩ := d
      rw [afterPace_own g c x hf hp a]
      exact told_endProposal _ p

theorem endProposal_outstanding {g : Regulator} {p : Slot} (h : ∀ o, g.outstanding = some o → o.psn = p) :
    (g.endProposal p).outstanding = none := by
  unfold Regulator.endProposal
  cases ho : g.outstanding with
  | none => simpa using ho
  | some o => simp [h o ho]

/-! ## The era (R159) -/

/-- An operation that leaves the era as it is. -/
def KeepsEra (s t : State) : Prop := t.mon.era = s.mon.era

theorem KeepsEra.trans {s t u : State} (h : KeepsEra s t) (k : KeepsEra t u) : KeepsEra s u := Eq.trans k h

theorem KeepsEra.of_mon {s t : State} (h : t.mon = s.mon) : KeepsEra s t := congrArg Monitor.era h

theorem failCollection_era (s : State) : KeepsEra s s.failCollection := by
  rw [KeepsEra, State.failCollection, askAgain_mon]
  rfl

/-- The expiries but the founding keep the station state and the era. -/
theorem expireTimers_mode_era (s : State) :
    s.expireCollect.expireForeign.expireRetry.mon.mode = s.mon.mode ∧
      s.expireCollect.expireForeign.expireRetry.mon.era = s.mon.era := by
  have collect : s.expireCollect.mon.mode = s.mon.mode ∧ s.expireCollect.mon.era = s.mon.era := by
    unfold State.expireCollect State.failCollection
    split
    · rw [askAgain_mon]
      exact ⟨rfl, rfl⟩
    · exact ⟨rfl, rfl⟩
  have foreign (u : State) : u.expireForeign.mon.mode = u.mon.mode ∧ u.expireForeign.mon.era = u.mon.era := by
    unfold State.expireForeign
    split <;> exact ⟨rfl, rfl⟩
  have retry (u : State) : u.expireRetry.mon.mode = u.mon.mode ∧ u.expireRetry.mon.era = u.mon.era := by
    unfold State.expireRetry
    split
    · rw [askAgain_mon]
      exact ⟨rfl, rfl⟩
    · exact ⟨rfl, rfl⟩
  rwa [(retry _).1, (retry _).2, (foreign _).1, (foreign _).2]

/-- A station with a schedule founds no era. -/
theorem expireMonitor_era {s : State} (hm : s.mon.mode.hasSchedule = true) (c : Settings) (x : Slot) :
    KeepsEra s (s.expireMonitor c x) := by
  obtain ⟨mode, era⟩ := expireTimers_mode_era s
  have notDue : ¬ s.expireCollect.expireForeign.expireRetry.mon.listenDue = true := by
    intro hdue
    rw [Monitor.listenDue, mode, Bool.and_eq_true, beq_iff_eq] at hdue
    rw [hdue.1] at hm
    exact Bool.false_ne_true hm
  rwa [State.expireMonitor, State.expireListen, if_neg notDue]

theorem withdrawStale_mon (s : State) (x : Slot) : (s.withdrawStale x).mon = s.mon := foldl_mon _ withdrawEntry_mon _ s

theorem trafficStrobe_mon (s : State) (x : Slot) : (s.trafficStrobe x false).mon = s.mon :=
  withdrawStale_mon ((s.withHeldBy (tickHeld s.traffic.heldBy)).withHeldBy _) x

theorem buildBeacon_mon (s : State) (c : Settings) (x : Slot) : (s.buildBeacon c x).mon = s.mon := by
  unfold State.buildBeacon
  split
  · split
    · split
      · exact placeBeacon_mon s _
      · rfl
    · rfl
  · rfl

theorem completeEntryAt_mon (s : State) (c : Settings) (x : Slot) : (s.completeEntryAt c x).mon = s.mon := by
  unfold State.completeEntryAt
  split
  · exact buildBeacon_mon _ c x
  · rfl

theorem closeAndTag_mon (s : State) (c : Settings) (x : Slot) : (s.closeAndTag c x).mon = s.mon := by
  have closed : (s.closeSlot c x).mon = s.mon := by
    unfold State.closeSlot
    split
    · rfl
    · exact (append_storeSide _ _ _).mon_eq
  have tagged (p : Slot) : ((s.closeSlot c x).maskTagRequest c p).mon = s.mon := by
    refine Eq.trans ?_ closed
    unfold State.maskTagRequest
    split
    · exact addEntry_mon _ _ _ _ _
    · rfl
  unfold State.closeAndTag
  split
  · split
    · exact tagged _
    · exact closed
  · exact closed

theorem settle_era {s : State} (hm : s.mon.mode.hasSchedule = true) (c : Settings) : KeepsEra s (s.settle c) := by
  unfold State.settle
  split
  · exact rfl
  · rename_i x _
    have stale : ((s.withHeldBy (dropLapsed s.traffic.heldBy)).withdrawStale x).mon = s.mon := withdrawStale_mon _ x
    have expired := (KeepsEra.of_mon stale).trans (expireMonitor_era (by rwa [stale]) c x)
    refine (expired.trans ?_).trans (.of_mon (completeEntryAt_mon _ c x))
    split <;> exact rfl

theorem beforeOutput_era {s : State} (hm : s.mon.mode.hasSchedule = true) (c : Settings) (x : Slot) :
    KeepsEra s (beforeOutput s c x) :=
  (settle_era hm c).trans (.of_mon ((closeAndTag_mon _ c x).trans (trafficStrobe_mon _ x)))

/-- R142: a play changes the station state at most. -/
theorem playStep_era (s : State) (c : Settings) (pt : SchedPoint) : KeepsEra s (s.playStep c pt) := by
  have held (u : State) : KeepsEra u (u.scheduleHeld pt.psn) := by
    unfold State.scheduleHeld
    split <;> exact rfl
  refine KeepsEra.trans (.trans ?_ (.of_mon (removePassed_storeSide _ c pt).mon_eq)) (held _)
  exact KeepsEra.of_mon (endBursts_storeSide s fun _ => true).mon_eq

theorem strobeOutput_era (s : State) (c : Settings) (x : Slot) : KeepsEra s (s.strobeOutput c x) := by
  unfold State.strobeOutput State.outputStep
  split
  · split
    · exact playStep_era s c _
    · exact rfl
  · exact KeepsEra.of_mon ((removeAged_storeSide _ _ _).mon_eq.trans (endBursts_storeSide s fun _ => true).mon_eq)

theorem record_era (k : Intake) (x : Slot) (n : Nat) (f : RxFrame) : KeepsEra k.state (k.record x n f).state := by
  unfold Intake.record State.recordFrame
  split
  · dsimp only
    split
    · exact rfl
    · split_ifs
      · exact failCollection_era _
      · exact rfl
      · exact failCollection_era _
      · exact rfl
  · exact rfl

/-! ## One frame of the batch (R101, R117, R145) -/

theorem addEntry_reg (s : State) (owner : Owner) (f : TxFrame) (st : Option Slot) (stream : Bool) :
    (s.addEntry owner f st stream).1.reg = s.reg := by
  unfold State.addEntry
  split_ifs <;> rfl

theorem addJoin_reg (s : State) : s.addJoin.reg = s.reg := by
  have drawn : s.drawHsn.2.reg = s.reg := by
    unfold State.drawHsn
    split <;> rfl
  exact (addEntry_reg _ _ _ _ _).trans drawn

theorem failCollection_reg (s : State) : s.failCollection.reg = s.reg := by
  unfold State.failCollection State.askAgain
  split
  · rfl
  · exact addJoin_reg _

theorem record_reg (k : Intake) (x : Slot) (n : Nat) (f : RxFrame) : (k.record x n f).state.reg = k.state.reg := by
  unfold Intake.record State.recordFrame
  split
  · dsimp only
    split
    · rfl
    · split_ifs
      · exact failCollection_reg _
      · rfl
      · exact failCollection_reg _
      · rfl
  · rfl

theorem record_bounds (k : Intake) (x : Slot) (n : Nat) (f : RxFrame) :
    (k.record x n f).bounds = k.bounds ∧ (k.record x n f).cuts = k.cuts := by
  unfold Intake.record
  split <;> exact ⟨rfl, rfl⟩

theorem dropReceived_reg (s : State) : s.dropReceived.reg = s.reg := by
  unfold State.dropReceived State.afterRemoval State.loadFlow State.release
  split_ifs <;> rfl

/-- R118, R145: a MARK adopts no pace entry. -/
theorem judgeMark_adopted (pl : Plan) (b : Bounds) (k : Station) (kind : Kind) (body : List Byte) :
    (pl.judgeMark b k kind body).adopted = none := by
  have insert (pl : Plan) (r : CutRequest) : (pl.judgeInsert b r).adopted = none := by
    unfold Plan.judgeInsert
    split_ifs <;> rfl
  have refused : (pl.refuseFrame k kind).adopted = none := by
    unfold Plan.refuseFrame
    split <;> rfl
  have judged (m : Mark) : (pl.judgeContent b k m).adopted = none := by
    cases m with
    | dump | tagMask => exact insert pl _
    | rescind =>
      simp only [Plan.judgeContent, Plan.judgeRescind]
      split
      · rfl
      · split_ifs <;> rfl
    | spanIn | spanAbandon => rfl
    | spanOut =>
      simp only [Plan.judgeContent, Plan.judgeSpanOut]
      split
      · rfl
      · split_ifs <;> rfl
    | spanCommit =>
      simp only [Plan.judgeContent, Plan.judgeSpanCommit]
      split
      · exact insert _ _
      · rfl
  unfold Plan.judgeMark
  split
  · exact refused
  · split
    · exact refused
    · exact judged _

/-- The regulator after the frame `f` with the verdict `v` at the intake of `x`. -/
def regAfter (g : Regulator) (c : Settings) (x : Slot) (f : RxFrame) (v : Verdict) : Regulator :=
  if f.kind = .pace then g.afterPace c x f v.adopted else g

/-- The handling of the frame `f`: the plan and the regulator take the verdict, and an inserted cut is noted. -/
structure Handled (c : Settings) (b : Bounds) (f : RxFrame) (k k' : Intake) : Prop where
  bounds : k'.bounds = some b
  cuts : k'.cuts = k.cuts ++ (k.state.plan.judgeFrame b f).inserted.toList
  plan : k'.state.plan = (k.state.plan.judgeFrame b f).plan
  reg : k'.state.reg = regAfter k.state.reg c b.x f (k.state.plan.judgeFrame b f)
  link : k'.state.link = k.state.link
  traffic : k'.state.traffic = k.state.traffic
  mon : k'.state.mon = k.state.mon

theorem handleMark_aside (s : State) (b : Bounds) (f : RxFrame) :
    (s.handleMark b f).1.reg = s.reg ∧ (s.handleMark b f).1.link = s.link ∧ (s.handleMark b f).1.traffic = s.traffic := by
  unfold State.handleMark State.pulseIfRefused State.reportCut
  dsimp only
  split
  · split_ifs <;> exact ⟨rfl, rfl, rfl⟩
  · split_ifs <;> exact ⟨rfl, rfl, rfl⟩

theorem handlePace_aside (s : State) (c : Settings) (b : Bounds) (f : RxFrame) :
    (s.handlePace c b f).reg = s.reg.afterPace c b.x f (s.plan.judgePace b f.body).adopted ∧
      (s.handlePace c b f).link = s.link ∧ (s.handlePace c b f).traffic = s.traffic := by
  unfold State.handlePace State.pulseIfRefused
  dsimp only
  split_ifs <;> exact ⟨rfl, rfl, rfl⟩

theorem handled_frame {k : Intake} {b : Bounds} (hb : k.bounds = some b) (hm : k.state.mon.mode.hasSchedule = true)
    {f : RxFrame} (hf : f.kind.isMark = true ∨ f.kind = .pace) (c : Settings) (x : Slot) :
    Handled c b f k (k.handle c x f) := by
  obtain ⟨⟨plan, -⟩, mon⟩ := handle_takes hb hm hf c x
  by_cases hpace : f.kind = .pace
  · have handled : k.handle c x f = { k with state := k.state.handlePace c b f } := by
      simp only [Intake.handle, hpace, Intake.pace, hb, hm, if_true]
    have verdict : k.state.plan.judgeFrame b f = k.state.plan.judgePace b f.body := if_pos hpace
    obtain ⟨reg, link, traffic⟩ := handlePace_aside k.state c b f
    rw [handled] at plan mon ⊢
    refine ⟨hb, ?_, plan, ?_, link, traffic, mon⟩
    · rw [verdict, judgePace_inserted]
      exact (List.append_nil _).symm
    · rw [verdict, regAfter, if_pos hpace]
      exact reg
  · have mark : f.kind.isMark = true := hf.resolve_right hpace
    have handled : k.handle c x f =
        { k with state := (k.state.handleMark b f).1, cuts := k.cuts ++ (k.state.handleMark b f).2.toList } := by
      simp only [handle_mark mark, Intake.mark, hb, hm, if_true]
    have verdict : k.state.plan.judgeFrame b f = k.state.plan.judgeMark b f.sender f.kind f.body := if_neg hpace
    obtain ⟨reg, link, traffic⟩ := handleMark_aside k.state b f
    rw [handled] at plan mon ⊢
    refine ⟨hb, ?_, plan, ?_, link, traffic, mon⟩
    · rw [verdict]
      rfl
    · rw [regAfter, if_neg hpace]
      exact reg

/-- R147: what a frame makes of the counts is its adoption. -/
theorem told_regAfter (g : Regulator) (c : Settings) (b : Bounds) (f : RxFrame) (pl : Plan) :
    Told (adoptAtMost g c b.x (pl.judgeFrame b f).adopted) (regAfter g c b.x f (pl.judgeFrame b f)) := by
  unfold regAfter
  split
  · exact told_afterPace g c b.x f _
  · rename_i hpace
    rw [Plan.judgeFrame, if_neg hpace, judgeMark_adopted]
    exact .refl g

/-! ## The intake of one frame -/

/-- What the intake of one frame leaves before it is closed, `v` being the state in which it was taken. -/
structure FrameTaken (s v w : State) (c : Settings) (q : SchedPoint) (f : RxFrame) : Prop where
  plan : w.plan = (verdictOn s q f).plan
  reg : w.reg = regAfter v.reg c q.hsn f (verdictOn s q f)
  era : w.mon.era = v.mon.era
  entries : KeepsEntries v w

theorem intake_frame {s v : State} {q : SchedPoint} {f : RxFrame} (h : Played s v q f)
    (hf : f.kind.isMark = true ∨ f.kind = .pace) (c : Settings) :
    ∃ w, FrameTaken s v w c q f ∧
      v.intake c q.hsn false =
        (w.withReg (w.reg.atEvent c q.hsn)).checkProposal c (boundsTaken s q) (verdictOn s q f).inserted.toList := by
  have plan : (v.beforeIntake q q.hsn true).plan = planTaken s q := by
    show v.plan.retireDue q.psn q.hsn true = _
    rw [h.plan, Plan.retireDue_retire]
    rfl
  have opened : v.openIntake q.hsn false = ⟨v.beforeIntake q q.hsn true, some (boundsTaken s q), []⟩ := by
    rw [boundsTaken, ← plan]
    simp only [State.openIntake, h.point, h.mode, if_true, Plan.stepTo]
    rfl
  have batch : v.intake c q.hsn false = ((v.openIntake q.hsn false).take c q.hsn 0 f).close c := by
    rw [State.intake, h.received]
    rfl
  have before : KeepsEntries v (v.beforeIntake q q.hsn true) ∧ (v.beforeIntake q q.hsn true).reg = v.reg ∧
      (v.beforeIntake q q.hsn true).mon = v.mon := ⟨.of_traffic rfl rfl, rfl, rfl⟩
  rw [batch, opened]
  generalize v.beforeIntake q q.hsn true = u at plan before
  obtain ⟨entries, reg, mon⟩ := before
  have dropped : u.dropReceived.plan = planTaken s q := (dropReceived_cueOnly u).plan_eq.trans plan
  have mode : u.dropReceived.mon.mode.hasSchedule = true := by
    rw [dropReceived_mon, mon]
    exact h.mode
  have handled := handled_frame (k := ⟨u.dropReceived, some (boundsTaken s q), []⟩) rfl mode hf c q.hsn
  have verdict : u.dropReceived.plan.judgeFrame (boundsTaken s q) f = verdictOn s q f := by
    rw [dropped]
    rfl
  have recorded := record_bounds (Intake.handle ⟨u.dropReceived, some (boundsTaken s q), []⟩ c q.hsn f) q.hsn 0 f
  refine ⟨(Intake.take ⟨u, some (boundsTaken s q), []⟩ c q.hsn 0 f).state, ?_, ?_⟩
  · have spared := spares_record (Intake.handle ⟨u.dropReceived, some (boundsTaken s q), []⟩ c q.hsn f) q.hsn 0 f
    refine ⟨?_, ?_, ?_, ?_⟩
    · exact (keeps_record _ q.hsn 0 f).plan.trans (handled.plan.trans (by rw [verdict]))
    · refine (record_reg _ q.hsn 0 f).trans (handled.reg.trans ?_)
      rw [verdict, dropReceived_reg, reg]
      rfl
    · refine Eq.trans (record_era _ q.hsn 0 f) ((congrArg Monitor.era handled.mon).trans ?_)
      rw [dropReceived_mon, mon]
    · exact ((entries.trans (spares_dropReceived u).keepsEntries).trans (.of_traffic handled.link handled.traffic)).trans
        spared.keepsEntries
  · rw [Intake.close, Intake.take, recorded.1, recorded.2, handled.bounds, handled.cuts, verdict]
    rfl

/-! ## The check of the outstanding proposal (R157) -/

theorem redundant_iff (s : State) (c : Settings) (tEra : Nat) (projected : Int) (h : Slot) (cut : Option Cut) (o : Proposal) :
    s.redundant c tEra projected h cut.toList o = true ↔
      (∃ a ∈ s.plan.paces, a.psn = o.psn) ∨ (∃ d, cut = some d ∧ within d.start d.stop o.psn = true) ∨
        (0 < o.count ∧ budgetOf c (tEra - projected) ≤ s.reg.used) ∨ earlier o.psn h = true := by
  simp only [State.redundant, Bool.or_eq_true, Bool.and_eq_true, decide_eq_true_iff, paceAt_isSome_iff, List.any_eq_true,
    Option.mem_toList, Cut.covers, or_assoc]

section Check

variable {s : State} {o : Proposal} {e : TxEntry} {era : Era}

theorem checkProposal_of_queued (ho : s.reg.outstanding = some o) (hq : o.place = .queued) (hera : s.mon.era = some era)
    (c : Settings) (b : Bounds) (cuts : List Cut) :
    s.checkProposal c b cuts =
      if s.redundant c era.tEra (b.projected s.plan.paces) b.h cuts o = true then s.cancelProposal else s := by
  simp only [State.checkProposal, ho, hera, hq, true_and]

theorem cancelProposal_of_queued (ho : s.reg.outstanding = some o) (hq : o.place = .queued)
    (he : s.entry o.entry = some e) : s.cancelProposal = s.cancelEntry e := by
  simp only [State.cancelProposal, ho, hq, he, if_true]

/-- R93: in an attempt the cancellation is asked for. -/
theorem cancelEntry_inAttempt (hcur : s.link.current = some (.general e.order)) (hatt : s.link.attempt = true) :
    s.cancelEntry e = s.changeEntry e.order (fun d => { d with cancelAsked := true }) := by
  rw [State.cancelEntry, if_pos (by simp [State.inAttempt, State.isCurrent, hcur, hatt])]

/-- R93: between attempts the current frame is to be dropped. -/
theorem cancelEntry_current (hcur : s.link.current = some (.general e.order)) (hatt : s.link.attempt = false) :
    s.cancelEntry e = s.changeEntry e.order (fun d => { d with drop := true }) := by
  rw [State.cancelEntry, if_neg (by simp [State.inAttempt, hatt]), if_pos (by simp [State.isCurrent, hcur])]

/-- R93: a frame that is not current leaves the queue. -/
theorem cancelEntry_waiting (hcur : s.link.current ≠ some (.general e.order)) :
    s.cancelEntry e = (s.freeEntry e.order).tell e .cancelled := by
  have notCurrent : ¬ s.isCurrent (.general e.order) = true := by simpa [State.isCurrent] using hcur
  have notIn : ¬ s.inAttempt (.general e.order) = true := fun h => notCurrent (Bool.and_eq_true_iff.1 h).2
  rw [State.cancelEntry, if_neg notIn, if_neg notCurrent]

/-- R156: the regulator is told of its own frame's end. -/
theorem tell_regulator_cancelled (ho : s.reg.outstanding = some o) (howner : e.owner = .regulator)
    (hentry : o.entry = e.order) : (s.tell e .cancelled).reg.outstanding = none := by
  simp only [State.tell, howner, State.tellRegulator, ho, hentry, if_true]
  rfl

end Check

theorem told_checkProposal (s : State) (c : Settings) (b : Bounds) (cuts : List Cut) :
    Told s.reg (s.checkProposal c b cuts).reg := by
  unfold State.checkProposal State.cancelProposal
  split
  · split_ifs
    · split
      · split_ifs
        · split
          · exact (touches_cancelEntry s _).told
          · exact .refl _
        · exact .refl _
      · exact .refl _
    · exact .refl _
  · exact .refl _

/-! ## The proposal event (R152, R156) -/

/-- A proposal is added as the new outstanding one, or the addition is refused. -/
theorem propose_reg (s : State) (x p : Slot) (count : Int) :
    (s.propose x p count).reg = s.reg ∨
      ∃ o, (s.propose x p count).reg = { s.reg with outstanding := some o } ∧ o.place = .queued ∧ o.stamp = x := by
  have reg := addEntry_reg s .regulator ⟨.pace, paceBody x p count⟩ none false
  unfold State.propose
  split
  case h_1 order heq =>
    rw [heq] at reg
    exact .inr ⟨⟨p, count, x, .queued, order⟩, by rw [← reg]; rfl, rfl, rfl⟩
  case h_2 heq =>
    rw [heq] at reg
    exact .inl reg

/-- What the proposal event at `x` can do to the regulator: a proposal is formed only where none is outstanding and CLASH
is clear. -/
theorem proposalEvent_reg (s : State) (c : Settings) (x : Slot) :
    (s.proposalEvent c x).reg = s.reg.atEvent c x ∨
      ∃ o, (s.proposalEvent c x).reg = { s.reg.atEvent c x with outstanding := some o } ∧ o.place = .queued ∧
        o.stamp = x ∧ s.reg.outstanding = none ∧ s.link.clash = false := by
  obtain ⟨-, -, -, outstanding⟩ := s.reg.atEvent_spec c x
  unfold State.proposalEvent State.formProposal
  dsimp only
  split
  · split
    · rename_i hready
      simp only [State.withReg_reg, State.withReg_link, Bool.not_eq_true', Option.isNone_iff_eq_none, outstanding] at hready
      obtain ⟨-, hnone, hclash, -⟩ := hready
      split
      · exact .inl rfl
      · split
        · exact .inl rfl
        · refine (propose_reg _ _ _ _).imp id ?_
          rintro ⟨o, reg, place, stamp⟩
          exact ⟨o, reg, place, stamp, hnone, hclash⟩
    · exact .inl rfl
  · exact .inl rfl

theorem propose_keepsEntries (s : State) (x p : Slot) (count : Int) : KeepsEntries s (s.propose x p count) := by
  have added := (spares_addEntry s .regulator ⟨.pace, paceBody x p count⟩ none false).keepsEntries
  unfold State.propose
  split <;> rename_i heq <;> rw [heq] at added
  · exact added.trans (.of_traffic rfl rfl)
  · exact added

theorem proposalEvent_keepsEntries (s : State) (c : Settings) (x : Slot) : KeepsEntries s (s.proposalEvent c x) := by
  have event : KeepsEntries s (s.withReg (s.reg.atEvent c x)) := .of_traffic rfl rfl
  unfold State.proposalEvent State.formProposal
  dsimp only
  split
  · split_ifs
    · exact event
    · split
      · exact event
      · exact event.trans (propose_keepsEntries _ _ _ _)
    · exact event
  · exact event

end Sys2Proof.Proofs.JudgedProposals
end

