-- ==== Sys2Proof/Proofs/ProposalChecks.lean ====
section
/-! SUPPORT. The strobe that takes one frame: the adoption it counts (R147, R151), and the check of the outstanding proposal
(R157). -/

namespace Sys2Proof.Proofs.ProposalChecks

open Sys2Proof Sys2Proof.Machine Sys2Proof.Safety
open Sys2Proof.Proofs.OrdinaryStrobe Sys2Proof.Proofs.StrobeVerdict Sys2Proof.Proofs.StrobeBursts
open Sys2Proof.Proofs.SparedProposals Sys2Proof.Proofs.JudgedProposals

/-! ## After the intake -/

/-- The parts of the strobe of `x` after the intake. -/
def afterIntake (y : State) (c : Settings) (x : Slot) : State :=
  ((y.completeEntryAt c x).proposalEvent c x).monitorStrobe c x false

/-- The event of the intake was the first of the strobe. -/
theorem counts_proposalEvent {u : State} {c : Settings} {x : Slot} {a : Option Pace} {g : Regulator}
    (h : Counts c x a g u.reg) : Counts c x a g (u.proposalEvent c x).reg := by
  obtain reg | ⟨o, reg, -⟩ := proposalEvent_reg u c x
  · rwa [reg, h.atEvent_eq]
  · rw [reg, h.atEvent_eq]
    exact ⟨h.window, h.used, h.lastPace⟩

section AfterIntake

variable {y : State} {c : Settings} {x : Slot} (hm : y.mon.mode.hasSchedule = true)

include hm

theorem spares_afterProposal : Spares ((y.completeEntryAt c x).proposalEvent c x) (afterIntake y c x) := by
  refine spares_monitorStrobe ?_ c x
  rwa [(keeps_proposalEvent _ c x).mode, (keeps_completeEntryAt y c x).mode]

theorem counts_afterIntake {a : Option Pace} {g : Regulator} (h : Counts c x a g y.reg) :
    Counts c x a g (afterIntake y c x).reg :=
  (counts_proposalEvent (h.told (spares_completeEntryAt y c x).told)).told (spares_afterProposal hm).told

/-- R152, R156: a proposal that was not outstanding before is one of this strobe. -/
theorem afterIntake_formed (hnone : y.reg.outstanding = none) {o : Proposal}
    (ho : (afterIntake y c x).reg.outstanding = some o) : o.place = .queued ∧ o.stamp = x ∧ y.link.clash = false := by
  have completed := spares_completeEntryAt y c x
  replace ho := (spares_afterProposal hm).told.outstanding o ho
  obtain reg | ⟨o', reg, place, stamp, -, clash⟩ := proposalEvent_reg (y.completeEntryAt c x) c x
  · obtain ⟨-, -, -, outstanding⟩ := (y.completeEntryAt c x).reg.atEvent_spec c x
    rw [reg, outstanding, completed.told.eq_of_none hnone, hnone] at ho
    exact nomatch ho
  · rw [reg] at ho
    obtain rfl : o' = o := Option.some.inj ho
    rw [completed.link] at clash
    exact ⟨place, stamp, clash⟩

theorem afterIntake_entry {n : Nat} (hs : ProposalSlot n y) : (afterIntake y c x).entry n = y.entry n :=
  ((((spares_completeEntryAt y c x).keepsEntries.trans (proposalEvent_keepsEntries _ c x)).trans
    (spares_afterProposal hm).keepsEntries).entry n hs).entry

/-- R157: a proposal that the intake left outstanding stays so. -/
theorem afterIntake_kept {o : Proposal} (hs : ProposalSlot o.entry y) (ho : y.reg.outstanding = some o) :
    (afterIntake y c x).reg.outstanding = some o := by
  have only {s : State} (h : s.reg.outstanding = some o) (o' : Proposal) (h' : s.reg.outstanding = some o') :
      o'.entry = o.entry := by
    rw [Option.some.inj (h.symm.trans h')]
  have completed := (spares_completeEntryAt y c x).keepsEntries
  have completedReg := (spares_completeEntryAt y c x).reg_eq hs (only ho)
  have slot := ((completed.trans (proposalEvent_keepsEntries _ c x)).entry _ hs).slot
  have proposed : ((y.completeEntryAt c x).proposalEvent c x).reg.outstanding = some o := by
    obtain ⟨-, -, -, outstanding⟩ := (y.completeEntryAt c x).reg.atEvent_spec c x
    obtain reg | ⟨o', -, -, -, hnone, -⟩ := proposalEvent_reg (y.completeEntryAt c x) c x
    · rw [reg, outstanding, completedReg, ho]
    · rw [completedReg, ho] at hnone
      exact nomatch hnone
  rwa [(spares_afterProposal hm).reg_eq slot (only proposed)]

end AfterIntake

/-! ## The intake of one frame -/

section Intake

variable {s : State} {c : Settings} {x : Slot} {q : SchedPoint} {f : RxFrame}

/-- R101: the strobe that takes one frame, cut at the check of its intake. -/
theorem strobe_takesOne (h : TakesOne s c x q f) (hf : f.kind.isMark = true ∨ f.kind = .pace) :
    q.hsn = x + 1 ∧ ∃ v w y, Spares s v ∧ v.mon.era = s.mon.era ∧ FrameTaken s v w c q f ∧
      y = (w.withReg (w.reg.atEvent c q.hsn)).checkProposal c (boundsTaken s q) (verdictOn s q f).inserted.toList ∧
      y.mon.mode.hasSchedule = true ∧
      exec (.ordinaryStrobe (x + 1) ⟨[], false⟩) s = .next (afterIntake y c (x + 1)) := by
  obtain ⟨hx, played⟩ := played_of_takesOne h
  obtain ⟨hc, hflag, hhsn, hm, -⟩ := h
  obtain ⟨w, taken, intake⟩ := intake_frame played hf c
  have mode := (intake_takes played hf c).2
  have spared := (spares_beforeOutput s c (x + 1)).trans (spares_strobeOutput _ c (x + 1))
  have era := (beforeOutput_era hm c (x + 1)).trans (strobeOutput_era _ c (x + 1))
  refine ⟨hx, _, w, _, spared, era, taken, intake, mode, ?_⟩
  rw [exec_ordinaryStrobe hc hflag hhsn, ordinaryStrobe_output, hx]
  rfl

/-- R147, R151: the intake's own counts. -/
theorem counts_taken {v w : State} (spared : Spares s v) (taken : FrameTaken s v w c q f) :
    Counts c q.hsn (verdictOn s q f).adopted s.reg (w.reg.atEvent c q.hsn) := by
  have adopted := (counts_adoptAtMost v.reg c q.hsn (verdictOn s q f).adopted).of_told spared.told
  rw [taken.reg]
  exact adopted.told (told_atEvent (told_regAfter v.reg c (boundsTaken s q) f (planTaken s q)) c q.hsn)

/-- Without an outstanding proposal there is nothing to check. -/
theorem checkProposal_of_none {u : State} (h : u.reg.outstanding = none) (b : Bounds) (cuts : List Cut) :
    u.checkProposal c b cuts = u := by
  simp only [State.checkProposal, h]

/-- R156: an own PACE that names the outstanding proposal ends it. -/
theorem regAfter_own {g : Regulator} {stamp p : Slot} {n : Option Int} (hpace : f.kind = .pace) (hown : f.own = true)
    (hp : parsePace f.body = some (stamp, p, n)) (h : ∀ o, g.outstanding = some o → o.psn = p) (v : Verdict) :
    (regAfter g c x f v).outstanding = none := by
  rw [regAfter, if_pos hpace, afterPace_own g c x hown hp]
  exact endProposal_outstanding (by rwa [adoptAtMost_outstanding])

/-- R147: another station's frame leaves the proposal. -/
theorem regAfter_foreign (hown : f.own = false) (g : Regulator) (v : Verdict) :
    (regAfter g c x f v).outstanding = g.outstanding := by
  unfold regAfter
  split
  · rw [afterPace_foreign g c x hown, adoptAtMost_outstanding]
  · rfl

end Intake

theorem atEvent_outstanding (g : Regulator) (c : Settings) (x : Slot) : (g.atEvent c x).outstanding = g.outstanding := by
  obtain ⟨-, -, -, outstanding⟩ := g.atEvent_spec c x
  exact outstanding

theorem adoptionCounts : AdoptionCounts := by
  intro c x q f s h hpace
  obtain ⟨hx, v, w, y, spared, -, taken, hy, hm, ran⟩ := strobe_takesOne h (.inr hpace)
  have counts : Counts c (x + 1) (verdictOn s q f).adopted s.reg (afterIntake y c (x + 1)).reg := by
    refine counts_afterIntake hm ?_
    rw [hy, ← hx]
    exact (counts_taken spared taken).told (told_checkProposal (w.withReg (w.reg.atEvent c q.hsn)) c _ _)
  refine ⟨_, ran, counts.window, fun ha => ?refused, fun e ha => ?adopted, fun stamp p n o hown hp ho hpsn => ?own⟩
  case refused =>
    rw [ha] at counts
    exact ⟨counts.used, counts.lastPace⟩
  case adopted =>
    rw [ha] at counts
    refine ⟨counts.used, fun hl => counts.lastPace.trans ?_, fun l hl => counts.lastPace.trans ?_⟩
    · rw [hl]
      rfl
    · rw [hl]
      exact (apply_ite some _ _ _).symm
  case own =>
    have named (o' : Proposal) (ho' : v.reg.outstanding = some o') : o'.psn = p := by
      rw [← hpsn, Option.some.inj (ho.symm.trans (spared.told.outstanding o' ho'))]
    have ended : (w.withReg (w.reg.atEvent c q.hsn)).reg.outstanding = none := by
      show (w.reg.atEvent c q.hsn).outstanding = none
      rw [atEvent_outstanding, taken.reg]
      exact regAfter_own hpace hown hp named _
    rw [checkProposal_of_none ended] at hy
    have formed {o' : Proposal} := afterIntake_formed (c := c) (x := x + 1) (o := o') hm (by rw [hy]; exact ended)
    refine ⟨fun hclash => Option.eq_none_iff_forall_ne_some.2 fun o' ho' => ?_, fun o' ho' => ?_⟩
    · obtain ⟨-, -, noClash⟩ := formed ho'
      have link : y.link.clash = s.link.clash := by
        rw [hy]
        show w.link.clash = s.link.clash
        rw [taken.entries.link, spared.link]
      exact Bool.false_ne_true (noClash.symm.trans (link.trans hclash))
    · obtain ⟨place, stamp, -⟩ := formed ho'
      exact ⟨place, stamp⟩

/-! ## The check of a QUEUED proposal (R157) -/

/-- What the check of the QUEUED proposal `o` with its general entry `e` finds. -/
structure Checkable (s w : State) (o : Proposal) (e : TxEntry) : Prop where
  outstanding : w.reg.outstanding = some o
  entry : w.entry o.entry = some e
  slot : ProposalSlot o.entry w
  era : w.mon.era = s.mon.era
  current : w.link.current = some (.general o.entry) ↔ s.link.current = some (.general o.entry)
  attempt : w.link.attempt = s.link.attempt

section Check

variable {s : State} {o : Proposal} {e : TxEntry}

theorem checkable_taken {v w : State} {c : Settings} {q : SchedPoint} {f : RxFrame} {body : List Byte}
    (spared : Spares s v) (era : v.mon.era = s.mon.era) (taken : FrameTaken s v w c q f) (hown : f.own = false)
    (ho : s.reg.outstanding = some o) (he : s.entry o.entry = some e) (hframe : e.frame = some ⟨.pace, body⟩)
    (hordered : EntriesOrdered s.traffic) : Checkable s (w.withReg (w.reg.atEvent c q.hsn)) o e := by
  have slot := proposalSlot_of_entry hordered he hframe
  have only (o' : Proposal) (h' : s.reg.outstanding = some o') : o'.entry = o.entry := by
    rw [Option.some.inj (ho.symm.trans h')]
  have entries := spared.keepsEntries.trans taken.entries
  have kept := entries.entry _ slot
  refine ⟨?_, kept.entry.trans he, ⟨kept.slot.given, kept.slot.pace⟩, taken.era.trans era, entries.current _, ?_⟩
  · show (w.reg.atEvent c q.hsn).outstanding = some o
    rw [atEvent_outstanding, taken.reg, regAfter_foreign hown, spared.reg_eq slot only, ho]
  · show w.link.attempt = s.link.attempt
    rw [entries.link]

variable {w : State} (h : Checkable s w o e)

include h

theorem Checkable.order : e.order = o.entry := State.entry_order h.entry

/-- A mark on the proposal's entry. -/
theorem Checkable.slot_changeEntry {g : TxEntry → TxEntry} (hg : ∀ d, (g d).frame = d.frame)
    (horder : ∀ d, (g d).order = d.order) : ProposalSlot o.entry (w.changeEntry o.entry g) := by
  refine ⟨h.slot.given, fun b hb hn => ?_⟩
  obtain ⟨d, hd, rfl⟩ := List.mem_map.1 hb
  split at hn
  case isTrue hdo =>
    rw [if_pos hdo, TxEntry.hasKind, hg]
    exact h.slot.pace d hd ((horder d).symm.trans hn)
  case isFalse hdo =>
    rw [if_neg hdo]
    exact h.slot.pace d hd hn

theorem Checkable.slot_freed (fate : Fate) : ProposalSlot o.entry ((w.freeEntry o.entry).tell e fate) := by
  have traffic := tell_traffic (w.freeEntry o.entry) e fate
  refine ⟨traffic ▸ h.slot.given, fun b hb => h.slot.pace b ?_⟩
  rw [traffic] at hb
  exact (List.mem_filter.1 hb).1

end Check

theorem freeEntry_tell_entry (s : State) (n : Nat) (e : TxEntry) (fate : Fate) :
    ((s.freeEntry n).tell e fate).entry n = none := by
  rw [State.entry, tell_traffic]
  exact State.freeEntry_entry s n

theorem proposalChecked : ProposalChecked := by
  intro c x q f era o e body s h hf hown hera ho hqueued he howner hframe hordered
  obtain ⟨hx, v, w₀, y, spared, eraKept, taken, hy, hm, ran⟩ := strobe_takesOne h hf
  have checkable := checkable_taken spared eraKept taken hown ho he hframe hordered
  have counts := counts_taken spared taken
  refine ⟨_, ran, ?_⟩
  have plan : (w₀.withReg (w₀.reg.atEvent c q.hsn)).plan = (verdictOn s q f).plan := taken.plan
  have counted : (w₀.withReg (w₀.reg.atEvent c q.hsn)).reg.used = _ := counts.used
  generalize w₀.withReg (w₀.reg.atEvent c q.hsn) = w at hy checkable plan counted
  rw [checkProposal_of_queued checkable.outstanding hqueued (checkable.era.trans hera),
    cancelProposal_of_queued checkable.outstanding hqueued checkable.entry] at hy
  have order := checkable.order
  have redundant := redundant_iff w c era.tEra ((boundsTaken s q).projected w.plan.paces) (boundsTaken s q).h
    (verdictOn s q f).inserted o
  rw [counted, plan, Bounds.projected, hx] at redundant
  dsimp only
  rw [← redundant]
  refine ⟨fun hr => ?stays, fun hr hcur => ?waiting, fun hr hcur => ?current⟩
  case stays =>
    rw [Bounds.projected, plan, if_neg hr] at hy
    subst hy
    exact ⟨afterIntake_kept hm checkable.slot checkable.outstanding,
      (afterIntake_entry hm checkable.slot).trans checkable.entry⟩
  case waiting =>
    rw [Bounds.projected, plan, if_pos hr, cancelEntry_waiting (by rwa [order, Ne, checkable.current]), order] at hy
    subst hy
    refine ⟨(afterIntake_entry hm (checkable.slot_freed _)).trans (freeEntry_tell_entry w o.entry e _), fun o' ho' => ?_⟩
    have ended := tell_regulator_cancelled (s := w.freeEntry o.entry) checkable.outstanding howner order.symm
    obtain ⟨place, stamp, -⟩ := afterIntake_formed hm ended ho'
    exact ⟨place, stamp⟩
  case current =>
    rw [Bounds.projected, plan, if_pos hr] at hy
    replace hcur : w.link.current = some (.general e.order) := by rwa [order, checkable.current]
    have marked {g : TxEntry → TxEntry} (hyg : y = w.changeEntry o.entry g) (hg : ∀ d, (g d).frame = d.frame)
        (horder : ∀ d, (g d).order = d.order) : (afterIntake y c (x + 1)).reg.outstanding = some o ∧
          (afterIntake y c (x + 1)).entry o.entry = some (g e) := by
      subst hyg
      have slot := checkable.slot_changeEntry hg horder
      exact ⟨afterIntake_kept hm slot checkable.outstanding,
        (afterIntake_entry hm slot).trans (State.changeEntry_entry checkable.entry horder)⟩
    have attempt := checkable.attempt
    cases hatt : w.link.attempt with
    | true =>
      rw [cancelEntry_inAttempt hcur hatt, order] at hy
      obtain ⟨outstanding, entry⟩ := marked hy (fun _ => rfl) fun _ => rfl
      exact ⟨outstanding, fun _ => entry, fun hno => nomatch hatt.symm.trans (attempt.trans hno)⟩
    | false =>
      rw [cancelEntry_current hcur hatt, order] at hy
      obtain ⟨outstanding, entry⟩ := marked hy (fun _ => rfl) fun _ => rfl
      exact ⟨outstanding, fun hyes => (nomatch hatt.symm.trans (attempt.trans hyes)), fun _ => entry⟩

end Sys2Proof.Proofs.ProposalChecks
end

