-- ==== Sys2Proof/Proofs/CalmStrobe.lean ====
section
/-! SUPPORT. The strobe of an ALIGNED station that asks for nothing and collects nothing (R152): its monitor, its transmit
queue, its play history and its index before the proposal event. -/

namespace Sys2Proof.Proofs.CalmStrobe

open Sys2Proof Sys2Proof.Machine Sys2Proof.Safety
open Sys2Proof.Proofs.OrdinaryStrobe Sys2Proof.Proofs.StrobeVerdict Sys2Proof.Proofs.StrobeBursts
open Sys2Proof.Proofs.SparedProposals Sys2Proof.Proofs.JudgedProposals

/-! ## The monitor (R159) -/

/-- An ALIGNED station that neither asks for a recap nor collects one. -/
structure Calm (m : Monitor) : Prop where
  mode : m.mode = .aligned
  retry : m.retry = none
  collecting : m.collecting = none

/-- The monitors agree but for the listen timer, the foreign recap and the own one. -/
structure SameStation (m m' : Monitor) : Prop where
  mode : m'.mode = m.mode
  era : m'.era = m.era
  peers : m'.peers = m.peers
  retry : m'.retry = m.retry
  collecting : m'.collecting = m.collecting

theorem SameStation.refl (m : Monitor) : SameStation m m := ⟨rfl, rfl, rfl, rfl, rfl⟩

theorem SameStation.of_eq {m m' : Monitor} (h : m' = m) : SameStation m m' := h ▸ .refl m

theorem SameStation.trans {m m' m'' : Monitor} (h : SameStation m m') (k : SameStation m' m'') : SameStation m m'' :=
  ⟨k.mode.trans h.mode, k.era.trans h.era, k.peers.trans h.peers, k.retry.trans h.retry, k.collecting.trans h.collecting⟩

theorem Calm.of_same {m m' : Monitor} (h : Calm m) (k : SameStation m m') : Calm m' :=
  ⟨k.mode.trans h.mode, k.retry.trans h.retry, k.collecting.trans h.collecting⟩

theorem Calm.hasSchedule {m : Monitor} (h : Calm m) : m.mode.hasSchedule = true := by
  rw [h.mode]
  rfl

/-- Only the silence of a foreign recap can expire. -/
theorem expireMonitor_calm {s : State} (h : Calm s.mon) (c : Settings) (x : Slot) :
    ∃ m, SameStation s.mon m ∧ s.expireMonitor c x = s.withMon m := by
  have collect : s.expireCollect = s := by simp [State.expireCollect, Monitor.collectDue, h.collecting]
  have foreign : ∃ m, SameStation s.mon m ∧ s.expireForeign = s.withMon m := by
    unfold State.expireForeign
    split
    · exact ⟨{ s.mon with foreign := none }, ⟨rfl, rfl, rfl, rfl, rfl⟩, rfl⟩
    · exact ⟨s.mon, .refl _, rfl⟩
  obtain ⟨m, same, foreign⟩ := foreign
  have calm := h.of_same same
  have retry : (s.withMon m).expireRetry = s.withMon m := by simp [State.expireRetry, Monitor.retryDue, calm.retry]
  have listen : (s.withMon m).expireListen c x = s.withMon m := by
    simp [State.expireListen, Monitor.listenDue, calm.mode]
  exact ⟨m, same, by rw [State.expireMonitor, collect, foreign, retry, listen]⟩

theorem Calm.same_tick {m : Monitor} (h : Calm m) : SameStation m m.tick :=
  ⟨rfl, rfl, rfl, by simp [Monitor.tick, h.retry], by simp [Monitor.tick, h.collecting]⟩

theorem monitorStrobe_calm {s : State} (h : Calm s.mon) (c : Settings) (x : Slot) :
    ∃ m, s.monitorStrobe c x false = s.withMon m := by
  obtain ⟨m, same, expired⟩ := expireMonitor_calm (s := s.withMon s.mon.tick) (h.of_same h.same_tick) c x
  have mode : m.mode = .aligned := same.mode.trans (h.of_same h.same_tick).mode
  refine ⟨m, ?_⟩
  have checked : (s.withMon m).checkPeers x = s.withMon m := by
    simp only [State.checkPeers, State.withMon_mon, mode, ite_self]
  show ((s.withMon s.mon.tick).expireMonitor c x).checkPeers x = s.withMon m
  rw [expired]
  exact checked

/-! ## The parts of the strobe -/

/-- The station is as it was, the play history reads the same, and the transmit queue holds at most `k` general entries
more; a full queue without marks stays. -/
structure Undisturbed (k : Nat) (s t : State) : Prop where
  station : SameStation s.mon t.mon
  played : ∀ y, playedAt t.egress.history y = playedAt s.egress.history y
  length : t.traffic.general.length ≤ s.traffic.general.length + k
  full : 16 ≤ s.traffic.general.length → (∀ e ∈ s.traffic.general, e.isMark = false) →
    t.traffic.general = s.traffic.general

theorem Undisturbed.trans {j k : Nat} {s t u : State} (h : Undisturbed j s t) (i : Undisturbed k t u) :
    Undisturbed (j + k) s u where
  station := h.station.trans i.station
  played y := (i.played y).trans (h.played y)
  length := by
    have first := h.length
    have second := i.length
    omega
  full hlen hmark := by
    have first := h.full hlen hmark
    exact (i.full (by rwa [first]) (by rwa [first])).trans first

theorem Undisturbed.of_eq {s t : State} (hmon : t.mon = s.mon) (hhist : t.egress.history = s.egress.history)
    (hgen : t.traffic.general = s.traffic.general) : Undisturbed 0 s t :=
  ⟨.of_eq hmon, fun y => by rw [hhist], by rw [hgen, Nat.add_zero], fun _ _ => hgen⟩

theorem withdrawEntry_length (s : State) (e : TxEntry) :
    (s.withdrawEntry e).traffic.general.length ≤ s.traffic.general.length := by
  have changed (f : TxEntry → TxEntry) : (s.changeEntry e.order f).traffic.general.length = s.traffic.general.length :=
    List.length_map _
  unfold State.withdrawEntry
  split_ifs
  · exact le_rfl
  · exact (changed _).le
  · exact (changed _).le
  · show (((s.freeEntry e.order).tell e .cancelled).traffic.general).length ≤ _
    rw [tell_traffic]
    exact List.length_filter_le _ _

/-- R94: a withdrawal takes marks alone. -/
theorem undisturbed_withdrawStale (s : State) (x : Slot) : Undisturbed 0 s (s.withdrawStale x) := by
  refine ⟨.of_eq (withdrawStale_mon s x), fun y => by rw [(withdrawStale_cueOnly s x).egress_eq], ?_, fun _ hmark => ?_⟩
  · unfold State.withdrawStale
    generalize s.traffic.general.filter (·.staleAt x) = l
    induction l generalizing s with
    | nil => exact le_rfl
    | cons e l ih => exact (ih (s.withdrawEntry e)).trans (withdrawEntry_length s e)
  · have stale : s.traffic.general.filter (·.staleAt x) = [] := by
      refine List.filter_eq_nil_iff.2 fun e he hstale => ?_
      exact Bool.false_ne_true ((hmark e he).symm.trans (staleAt_isMark hstale))
    rw [State.withdrawStale, stale]
    rfl

/-- R89: a full queue refuses. -/
theorem undisturbed_addEntry (s : State) (owner : Owner) (f : TxFrame) (st : Option Slot) (stream : Bool) :
    Undisturbed 1 s (s.addEntry owner f st stream).1 := by
  have egress := (addEntry_cueOnly s owner f st stream).egress_eq
  refine ⟨.of_eq (addEntry_mon s owner f st stream), fun y => by rw [egress], ?_, ?_⟩
  · unfold State.addEntry
    split_ifs
    · exact Nat.le_succ _
    · exact Nat.le_succ _
    · exact Nat.le_succ _
    · exact (List.length_append ..).le
  · intro hlen _
    unfold State.addEntry
    split_ifs with _ hrefused
    · rfl
    · rfl
    · rfl
    · simp [Config.generalEntries, hlen] at hrefused

theorem playedAt_fillDigest (hist : List HistEntry) (x y : Slot) (d : Digest) :
    playedAt (fillDigest hist x d) y = playedAt hist y := by
  unfold playedAt fillDigest
  induction hist with
  | nil => rfl
  | cons e hist ih =>
    rw [List.map_cons, List.find?_cons, List.find?_cons]
    by_cases he : e.hsn = y
    · split_ifs <;> simp [he]
    · have other : (e.hsn == y) = false := beq_eq_false_iff_ne.2 he
      split_ifs <;> simp only [other, ih]

/-- R95: the beacon has a holder of its own. -/
theorem undisturbed_buildBeacon (s : State) (c : Settings) (x : Slot) : Undisturbed 0 s (s.buildBeacon c x) := by
  have released (u : State) (r : TxRef) : (u.release r).traffic = u.traffic := by
    unfold State.release
    split <;> rfl
  have placed (f : TxFrame) : (s.placeBeacon f).traffic.general = s.traffic.general := by
    unfold State.placeBeacon
    split_ifs
    · rfl
    · rfl
    · rw [released]
      rfl
  refine .of_eq (buildBeacon_mon s c x) (congrArg Egress.history (buildBeacon_cueOnly s c x).egress_eq) ?_
  unfold State.buildBeacon
  split
  · split
    · split
      · exact placed _
      · rfl
    · rfl
  · rfl

theorem undisturbed_completeEntryAt (s : State) (c : Settings) (x : Slot) : Undisturbed 0 s (s.completeEntryAt c x) := by
  unfold State.completeEntryAt
  split
  · have filled : Undisturbed 0 s
        (s.withEgress { s.egress with history := fillDigest s.egress.history x s.plan.digest }) :=
      ⟨.refl _, fun y => playedAt_fillDigest _ x y _, le_rfl, fun _ _ => rfl⟩
    exact filled.trans (undisturbed_buildBeacon _ c x)
  · exact .of_eq rfl rfl rfl

theorem undisturbed_settle {s : State} (h : Calm s.mon) (c : Settings) : Undisturbed 0 s (s.settle c) := by
  unfold State.settle
  split
  · exact .of_eq rfl rfl rfl
  · rename_i x _
    have stale := (Undisturbed.of_eq (s := s) (t := s.withHeldBy (dropLapsed s.traffic.heldBy)) rfl rfl rfl).trans
      (undisturbed_withdrawStale _ x)
    obtain ⟨m, same, expired⟩ := expireMonitor_calm (h.of_same stale.station) c x
    dsimp only
    rw [expired]
    have timed : Undisturbed 0 ((s.withHeldBy (dropLapsed s.traffic.heldBy)).withdrawStale x)
        (((s.withHeldBy (dropLapsed s.traffic.heldBy)).withdrawStale x).withMon m) :=
      ⟨same, fun _ => rfl, le_rfl, fun _ _ => rfl⟩
    refine ((stale.trans timed).trans (k := 0) ?_).trans (undisturbed_completeEntryAt _ c x)
    split <;> exact .of_eq rfl rfl rfl

theorem undisturbed_trafficStrobe (s : State) (x : Slot) : Undisturbed 0 s (s.trafficStrobe x false) :=
  (Undisturbed.of_eq (s := s)
    (t := (s.withHeldBy (tickHeld s.traffic.heldBy)).withHeldBy (dropLapsed (tickHeld s.traffic.heldBy))) rfl rfl
    rfl).trans (undisturbed_withdrawStale _ x)

theorem undisturbed_closeSlot (s : State) (c : Settings) (x : Slot) : Undisturbed 0 s (s.closeSlot c x) := by
  have appended (u : State) (r : SlotRecord) : Undisturbed 0 u (u.append c.planCode r) := by
    have store := append_storeSide u c.planCode r
    unfold StoreSide at store
    rw [store]
    exact .of_eq rfl rfl rfl
  unfold State.closeSlot
  split
  · exact .of_eq rfl rfl rfl
  · rename_i x' _
    have opened : Undisturbed 0 s (s.withIngress (.opening c x (s.ingress.record c x').2)) := .of_eq rfl rfl rfl
    exact opened.trans (appended _ _)

/-- R34, R110: a slot record with a mask tag asks for one mark. -/
theorem undisturbed_closeAndTag (s : State) (c : Settings) (x : Slot) : Undisturbed 1 s (s.closeAndTag c x) := by
  have closed := undisturbed_closeSlot s c x
  have untagged : Undisturbed 1 s (s.closeSlot c x) :=
    ⟨closed.station, closed.played, closed.length.trans (Nat.le_succ _), closed.full⟩
  have tagged (p : Slot) : Undisturbed 1 s ((s.closeSlot c x).maskTagRequest c p) := by
    unfold State.maskTagRequest
    split
    · have counted : Undisturbed 0 (s.closeSlot c x) (s.closeSlot c x).countGiven := .of_eq rfl rfl rfl
      exact (closed.trans counted).trans (undisturbed_addEntry _ _ _ _ _)
    · exact untagged
  unfold State.closeAndTag
  split
  · split
    · exact tagged _
    · exact untagged
  · exact untagged

theorem undisturbed_beforeOutput {s : State} (h : Calm s.mon) (c : Settings) (x : Slot) :
    Undisturbed 1 s (beforeOutput s c x) :=
  (((undisturbed_settle h c).trans (.of_eq (t := (s.settle c).withRef (.strobe x)) rfl rfl rfl)).trans
    (undisturbed_trafficStrobe _ x)).trans (undisturbed_closeAndTag _ c x)

/-! ## The append (R14, R152) -/

/-- The period that ends at the strobe of `x + 1` is the last record of the index. -/
theorem beforeOutput_appended {s : State} {x : Slot} (h : s.ingress.period = some x) (c : Settings) (y : Slot) :
    ∃ r, (beforeOutput s c y).index.getLast? = some r ∧ r.psn = x := by
  have ingress : (((s.settle c).withRef (.strobe y)).trafficStrobe y false).ingress = s.ingress :=
    (trafficStrobe_cueOnly _ y false).keeps.ingress_eq.trans (settle_keeps s c).ingress_eq
  unfold beforeOutput
  generalize ((s.settle c).withRef (.strobe y)).trafficStrobe y false = u at ingress
  have period : u.ingress.period = some x := by rw [ingress, h]
  have closed : ∃ r, (u.closeSlot c y).index.getLast? = some r ∧ r.psn = x := by
    refine ⟨(u.ingress.record c x).1, ?_, ?_⟩
    · simp only [State.closeSlot, period]
      exact List.getLast?_concat
    · unfold Ingress.record
      dsimp only
      split <;> rfl
  simp only [State.closeAndTag, period]
  split
  · rwa [(maskTagRequest_keeps _ c x).index_eq]
  · exact closed

/-- A head removal takes all records or leaves the last. -/
theorem getLast?_of_suffix {α : Type} {l l' : List α} (h : l' <:+ l) {a : α} (ha : l.getLast? = some a) :
    l' = [] ∨ l'.getLast? = some a := by
  obtain ⟨front, rfl⟩ := h
  rw [List.getLast?_append] at ha
  cases hl : l'.getLast? with
  | none => exact .inl (List.getLast?_eq_none_iff.1 hl)
  | some b =>
    rw [hl, Option.some_or] at ha
    exact .inr ha

/-! ## The play of the strobe (R130, R138) -/

/-- R138: the entry opened at a strobe is the play of its HSN. -/
theorem playedAt_openEntry {hist : List HistEntry} {q : SchedPoint} (h : playedAt hist q.hsn = none) :
    playedAt (openEntry hist q) q.hsn = some q.psn := by
  have other : ∀ e ∈ hist, ¬ (e.hsn == q.hsn) = true := by
    simpa [playedAt] using h
  have kept : ∃ n, openEntry hist q = hist.drop n ++ [⟨q.hsn, q.psn, q.rep, none⟩] := by
    refine ⟨_, List.drop_append_of_le_length ?_⟩
    rw [List.length_append, Config.historyCapacity]
    simp
  obtain ⟨n, kept⟩ := kept
  have passed : (hist.drop n).find? (·.hsn == q.hsn) = none :=
    List.find?_eq_none.2 fun e he => other e (List.mem_of_mem_drop he)
  rw [playedAt, kept, List.find?_append, passed]
  simp

/-- What the output step of an ALIGNED station leaves for the play `q`. -/
structure Stepped (q : SchedPoint) (u v : State) : Prop where
  plan : v.plan = u.plan.retire q.psn
  point : v.egress.point = some q
  history : v.egress.history = openEntry u.egress.history q
  mon : v.mon = u.mon
  traffic : v.traffic = u.traffic
  index : v.index <:+ u.index

theorem playStep_stepped {u : State} (h : u.mon.mode = .aligned) (c : Settings) (q : SchedPoint) :
    Stepped q u (u.playStep c q) := by
  have ended : Stepped q u (((u.endBursts fun _ => true).output c q).withPlan
      (((u.endBursts fun _ => true).output c q).plan.retire q.psn)) := by
    have store := endBursts_storeSide u fun _ => true
    have index := (endBursts_keeps u fun _ => true).index_eq
    generalize u.endBursts (fun _ => true) = e at store index
    unfold StoreSide at store
    refine ⟨?_, rfl, ?_, ?_, ?_, ?_⟩
    · show e.plan.retire q.psn = _
      rw [store]
    · show openEntry e.egress.history q = _
      rw [store]
    · show e.mon = _
      rw [store]
    · show e.traffic = _
      rw [store]
    · show e.index <:+ _
      rw [index]
  rw [State.playStep]
  generalize ((u.endBursts fun _ => true).output c q).withPlan _ = p at ended
  have store := removePassed_storeSide p c q
  have index : (p.removePassed c q).index <:+ p.index := by
    unfold State.removePassed
    split
    · exact List.dropWhile_suffix _
    · exact List.suffix_rfl
  have passed : Stepped q u (p.removePassed c q) := by
    refine ⟨?_, ?_, ?_, ?_, ?_, index.trans ended.index⟩
    all_goals
      unfold StoreSide at store
      rw [store]
    exacts [ended.plan, ended.point, ended.history, ended.mon, ended.traffic]
  have held : (p.removePassed c q).scheduleHeld q.psn = p.removePassed c q := by
    have notFilling : ¬ ((p.removePassed c q).mon.mode = .filling ∧ holds (p.removePassed c q).index q.psn = true) := by
      rintro ⟨filling, -⟩
      rw [passed.mon, h] at filling
      exact nomatch filling
    rw [State.scheduleHeld, if_neg notFilling]
  rwa [held]

end Sys2Proof.Proofs.CalmStrobe
end

