-- ==== Sys2Proof/Proofs/ProposalForming.lean ====
section
/-! SUPPORT. The proposal event of an ALIGNED station at a strobe (R152 to R156), and the decision of the rebuild regulator. -/

namespace Sys2Proof.Proofs.ProposalForming

open Sys2Proof Sys2Proof.Machine Sys2Proof.Safety
open Sys2Proof.Proofs.OrdinaryStrobe Sys2Proof.Proofs.StrobeVerdict Sys2Proof.Proofs.StrobeBursts
open Sys2Proof.Proofs.SparedProposals Sys2Proof.Proofs.JudgedProposals Sys2Proof.Proofs.ProposalChecks
open Sys2Proof.Proofs.CalmStrobe Sys2Proof.Proofs.RebuildDecision

/-! ## Before the proposal event -/

/-- What the strobe of the play `q` leaves to its proposal event. -/
structure Ready (s : State) (c : Settings) (q : SchedPoint) (u : State) : Prop where
  point : u.egress.point = some q
  played : playedAt u.egress.history q.hsn = some q.psn
  station : SameStation s.mon u.mon
  reg : u.reg = s.reg.atEvent c q.hsn
  link : u.link = { s.link with current := u.link.current }
  retired : (u.plan.retire q.psn).paces = u.plan.paces
  appended : u.index = [] ∨ appendedAt u.index q.hsn = true
  length : u.traffic.general.length ≤ s.traffic.general.length + 1
  full : 16 ≤ s.traffic.general.length → (∀ e ∈ s.traffic.general, e.isMark = false) →
    u.traffic.general = s.traffic.general

/-- R100: an intake without a frame. -/
theorem intake_none {v : State} {q : SchedPoint} (hpoint : v.egress.point = some q)
    (hm : v.mon.mode.hasSchedule = true) (hreceived : v.traffic.received = []) (hnone : v.reg.outstanding = none)
    (c : Settings) :
    v.intake c q.hsn false = (v.beforeIntake q q.hsn true).withReg (v.reg.atEvent c q.hsn) := by
  have opened : v.openIntake q.hsn false =
      ⟨v.beforeIntake q q.hsn true, some ((v.beforeIntake q q.hsn true).plan.boundsAt q q.hsn), []⟩ := by
    simp only [State.openIntake, hpoint, hm, if_true, Plan.stepTo]
    rfl
  have batch : v.intake c q.hsn false = (v.openIntake q.hsn false).close c := by
    rw [State.intake, hreceived]
    rfl
  rw [batch, opened]
  exact checkProposal_of_none ((atEvent_outstanding v.reg c q.hsn).trans hnone) _ _

theorem retireDue_retired (pl : Plan) (p : Slot) (x : Slot) :
    ((pl.retireDue p x true).retire p).paces = (pl.retireDue p x true).paces :=
  congrArg Plan.paces (Plan.retire_retire (pl.expireSpans x) p)

/-- The output step, an intake without a frame and the completion of the entry. -/
theorem ready_of_stepped {s u v : State} {c : Settings} {q : SchedPoint} (h : Calm s.mon) (hnone : s.reg.outstanding = none)
    (spared : Spares s v) (before : Undisturbed 1 s u) (stepped : Stepped q u v) (hreceived : u.traffic.received = [])
    (unplayed : playedAt s.egress.history q.hsn = none) {r : SlotRecord} (last : u.index.getLast? = some r)
    (psn : r.psn + 1 = q.hsn) : Ready s c q ((v.intake c q.hsn false).completeEntryAt c q.hsn) := by
  have reg : v.reg = s.reg := spared.told.eq_of_none hnone
  have mode : v.mon.mode.hasSchedule = true := by
    rw [stepped.mon]
    exact (h.of_same before.station).hasSchedule
  rw [intake_none stepped.point mode (by rw [stepped.traffic, hreceived]) (by rw [reg, hnone]), reg]
  have completed := undisturbed_completeEntryAt ((v.beforeIntake q q.hsn true).withReg (s.reg.atEvent c q.hsn)) c q.hsn
  have schedule := keeps_completeEntryAt ((v.beforeIntake q q.hsn true).withReg (s.reg.atEvent c q.hsn)) c q.hsn
  have kept := spares_completeEntryAt ((v.beforeIntake q q.hsn true).withReg (s.reg.atEvent c q.hsn)) c q.hsn
  have index := (completeEntryAt_keeps ((v.beforeIntake q q.hsn true).withReg (s.reg.atEvent c q.hsn)) c q.hsn).index_eq
  have none' : (s.reg.atEvent c q.hsn).outstanding = none := (atEvent_outstanding s.reg c q.hsn).trans hnone
  have general : v.traffic.general = u.traffic.general := congrArg Traffic.general stepped.traffic
  refine ⟨schedule.point, ?_, ?_, kept.told.eq_of_none none', ?_, ?_, ?_, ?_, fun hlen hmark => ?_⟩
  · refine (completed.played q.hsn).trans ?_
    show playedAt v.egress.history q.hsn = _
    rw [stepped.history, playedAt_openEntry ((before.played q.hsn).trans unplayed)]
  · exact (before.station.trans (.of_eq stepped.mon)).trans completed.station
  · have taken : KeepsEntries v ((v.beforeIntake q q.hsn true).withReg (s.reg.atEvent c q.hsn)) := .of_traffic rfl rfl
    exact ((spared.keepsEntries.trans taken).trans kept.keepsEntries).link
  · rw [schedule.plan]
    exact retireDue_retired v.plan q.psn q.hsn
  · rw [index]
    refine (getLast?_of_suffix stepped.index last).imp_right fun last => ?_
    show appendedAt v.index q.hsn = true
    rw [appendedAt, last, Option.any_some, ← psn, BitVec.add_sub_cancel, beq_self_eq_true]
  · refine completed.length.trans ?_
    show v.traffic.general.length ≤ _
    rw [general]
    exact before.length
  · have first := before.full hlen hmark
    have whole : v.traffic.general = s.traffic.general := general.trans first
    exact (completed.full (by rwa [← whole] at hlen) (by rwa [← whole] at hmark)).trans whole

section Prepared

variable {s : State} {pt : SchedPoint} (h : Calm s.mon) (hpoint : s.egress.point = some pt)

include h hpoint

/-- R130: the output step of the strobe plays the next point. -/
theorem strobeOutput_eq_playStep (c : Settings) :
    (beforeOutput s c (pt.hsn + 1)).strobeOutput c (pt.hsn + 1) =
      (beforeOutput s c (pt.hsn + 1)).playStep c (s.plan.outStep pt) := by
  have keeps := (settle_keepsPlay h.hasSchedule c).trans (beforeOutput_of_settle s c (pt.hsn + 1))
  have mode : (beforeOutput s c (pt.hsn + 1)).mon.mode.hasSchedule = true := by rw [keeps.mode, h.hasSchedule]
  rw [State.strobeOutput, if_pos mode, State.outputStep]
  simp only [keeps.point, hpoint, stepTo_next, outStep_congr keeps.cuts keeps.paces]

theorem ready_beforeProposal (hperiod : s.ingress.period = some pt.hsn)
    (hhist : ∀ d ∈ s.egress.history, d.hsn ≠ pt.hsn + 1) (hreceived : s.traffic.received = [])
    (hnone : s.reg.outstanding = none) (c : Settings) :
    Ready s c (s.plan.outStep pt)
      ((((beforeOutput s c (pt.hsn + 1)).strobeOutput c (pt.hsn + 1)).intake c (pt.hsn + 1) false).completeEntryAt c
        (pt.hsn + 1)) := by
  have spared := (spares_beforeOutput s c (pt.hsn + 1)).trans (spares_strobeOutput _ c (pt.hsn + 1))
  have before := undisturbed_beforeOutput h c (pt.hsn + 1)
  have received := (beforeOutput_received s c (pt.hsn + 1)).trans hreceived
  obtain ⟨r, last, psn⟩ := beforeOutput_appended hperiod c (pt.hsn + 1)
  have stepped := playStep_stepped (h.of_same before.station).mode c (s.plan.outStep pt)
  have unplayed : playedAt s.egress.history (pt.hsn + 1) = none := by
    simpa [playedAt] using hhist
  rw [strobeOutput_eq_playStep h hpoint] at spared ⊢
  have hq := outStep_hsn s.plan pt
  have ready := ready_of_stepped (c := c) h hnone spared before stepped received (by rwa [hq]) last (by rw [psn, hq])
  rwa [hq] at ready

end Prepared

/-! ## The proposal event (R152 to R156) -/

/-- The decision of the regulator for the play `q`. -/
def decisionAt (u : State) (c : Settings) (q : SchedPoint) (tEra : Nat) : Decision :=
  decideProposal c tEra ((q.hsn - q.psn).toInt + paceSum u.plan.paces) u.reg.used u.store.stationPressure
    (peerPressure u.mon.peers q.hsn)

/-- The count of its proposal for the slot `p`. -/
def countAt (u : State) (c : Settings) (q : SchedPoint) (tEra : Nat) (p : Slot) : Int :=
  proposalCount c (decisionAt u c q tEra) (tEra - ((q.hsn - q.psn).toInt + paceSum u.plan.paces)) u.reg.used
    ((lookupRecord u.index p).any SlotRecord.brk)

/-- The slot it chooses. -/
def slotAt (u : State) (c : Settings) (q : SchedPoint) (tEra : Nat) : Option Slot :=
  u.chooseSlot c q.hsn (u.plan.horizon q q.hsn) (decisionAt u c q tEra)

theorem proposalEvent_mon (u : State) (c : Settings) (x : Slot) : (u.proposalEvent c x).mon = u.mon := by
  have proposed (w : State) (p : Slot) (n : Int) : (w.propose x p n).mon = w.mon := by
    have added := addEntry_mon w .regulator ⟨.pace, paceBody x p n⟩ none false
    unfold State.propose
    split <;> rename_i heq <;> rw [heq] at added <;> exact added
  unfold State.proposalEvent State.formProposal
  dsimp only
  split
  · split_ifs
    · rfl
    · split
      · rfl
      · exact proposed _ _ _
    · rfl
  · rfl

section Event

variable {s u : State} {c : Settings} {q : SchedPoint} {era : Era} (h : Ready s c q u)

include h

theorem Ready.projectedAt : u.projectedAt q q.hsn = (q.hsn - q.psn).toInt + paceSum u.plan.paces := by
  have stays : u.plan.playAt q q.hsn = q := by
    rw [Plan.playAt, BitVec.sub_self]
    rfl
  rw [State.projectedAt, State.delayOf, h.played, stays, h.retired]
  rfl

theorem Ready.formProposal (tEra : Nat) :
    u.formProposal c q tEra q.hsn =
      if decisionAt u c q tEra = .nothing then u
      else
        match slotAt u c q tEra with
        | none => u
        | some p => u.propose q.hsn p (countAt u c q tEra p) := by
  rw [State.formProposal, h.projectedAt]
  rfl

theorem Ready.clash : u.link.clash = s.link.clash := by rw [h.link]

theorem Ready.connected : u.link.connected = s.link.connected := by rw [h.link]

variable (hcalm : Calm s.mon) (hera : s.mon.era = some era) (hnone : s.reg.outstanding = none)

include hcalm hera hnone

/-- R151: the event of the intake was the first of the strobe. -/
theorem Ready.proposalEvent :
    u.proposalEvent c q.hsn =
      if s.link.clash = false ∧ appendedAt u.index q.hsn = true then u.formProposal c q era.tEra q.hsn else u := by
  have again : u.withReg (u.reg.atEvent c q.hsn) = u := by
    rw [h.reg, (counts_atEvent s.reg c q.hsn).atEvent_eq, ← h.reg]
    rfl
  have none' : u.reg.outstanding = none := by rw [h.reg, atEvent_outstanding, hnone]
  simp only [State.proposalEvent, again, h.point, h.station.era, hera, h.station.mode, hcalm.mode, none', h.clash,
    Option.isNone_none, Bool.not_eq_true', true_and]

theorem Ready.refused (hl : s.link.connected = true)
    (hno : s.link.clash = true ∨ decisionAt u c q era.tEra = .nothing ∨ slotAt u c q era.tEra = none ∨
      16 ≤ u.traffic.general.length) : (u.proposalEvent c q.hsn).reg.outstanding = none := by
  have none' : u.reg.outstanding = none := by rw [h.reg, atEvent_outstanding, hnone]
  rw [h.proposalEvent hcalm hera hnone]
  split
  case isFalse => exact none'
  case isTrue hopen =>
    rw [h.formProposal]
    split
    case isTrue => exact none'
    case isFalse hd =>
      split
      case h_1 => exact none'
      case h_2 p hp =>
        have full : 16 ≤ u.traffic.general.length :=
          ((hno.resolve_left (by simp [hopen])).resolve_left hd).resolve_left (by simp [hp])
        rw [State.propose, addEntry_refused (h.connected.trans hl) (.inr full)]
        exact none'

/-- R156: the PACE is queued, and its proposal is outstanding. -/
theorem Ready.formed (hl : s.link.connected = true) (hclash : s.link.clash = false)
    (hd : decisionAt u c q era.tEra ≠ .nothing) {p : Slot} (hp : slotAt u c q era.tEra = some p)
    (hroom : u.traffic.general.length < 16) :
    ∃ e ∈ (u.proposalEvent c q.hsn).traffic.general, e.owner = .regulator ∧
      e.frame = some ⟨.pace, paceBody q.hsn p (countAt u c q era.tEra p)⟩ ∧
      (u.proposalEvent c q.hsn).reg.outstanding =
        some ⟨p, countAt u c q era.tEra p, q.hsn, .queued, e.order⟩ := by
  have appended : appendedAt u.index q.hsn = true :=
    h.appended.resolve_left fun hempty => nomatch (chooseSlot_nil hempty c q.hsn _ _).symm.trans hp
  rw [h.proposalEvent hcalm hera hnone, if_pos ⟨hclash, appended⟩, h.formProposal, if_neg hd]
  simp only [hp]
  rw [State.propose, addEntry_queued (h.connected.trans hl) (h.clash.trans hclash) hroom]
  exact ⟨_, List.mem_append_right _ (List.mem_singleton_self _), rfl, rfl, rfl⟩

end Event

theorem proposalFormed : ProposalFormed := by
  rintro c x pt era s hc hflag hx hperiod hmode hera hretry hcollecting hpoint rfl hhist hreceived hconnected hnone
  have calm : Calm s.mon := ⟨hmode, hretry, hcollecting⟩
  have ready := ready_beforeProposal calm hpoint hperiod hhist hreceived hnone c
  refine ⟨_, exec_ordinaryStrobe hc hflag hx _, ?_⟩
  rw [ordinaryStrobe_output, afterOutput]
  have hq := outStep_hsn s.plan pt
  rw [← hq] at ready ⊢
  generalize s.plan.outStep pt = q at *
  generalize (((beforeOutput s c q.hsn).strobeOutput c q.hsn).intake c q.hsn false).completeEntryAt c q.hsn = u at *
  have counts := counts_proposalEvent (c := c) (x := q.hsn) (ready.reg ▸ counts_atEvent s.reg c q.hsn)
  have refused := ready.refused calm hera hnone hconnected
  have formed := ready.formed calm hera hnone hconnected
  have cue := proposalEvent_cueOnly u c q.hsn
  have mon := proposalEvent_mon u c q.hsn
  generalize u.proposalEvent c q.hsn = w at *
  obtain ⟨m, strobe⟩ := monitorStrobe_calm (s := w) (by rw [mon]; exact calm.of_same ready.station) c q.hsn
  rw [strobe]
  have plan : (w.withMon m).plan = u.plan := cue.plan_eq
  have store : (w.withMon m).store = u.store := cue.keeps.store_eq
  have index : (w.withMon m).index = u.index := cue.keeps.index_eq
  have used : u.reg.used = usedAt s.reg c q.hsn := by
    rw [ready.reg]
    exact (counts_atEvent s.reg c q.hsn).used
  have lastPace : (w.withMon m).reg.lastPace = u.reg.lastPace := by
    rw [ready.reg]
    exact counts.lastPace.trans (counts_atEvent s.reg c q.hsn).lastPace.symm
  have decision : decideProposal c era.tEra ((q.hsn - q.psn).toInt + paceSum u.plan.paces) (usedAt s.reg c q.hsn)
      u.store.stationPressure (peerPressure s.mon.peers q.hsn) = decisionAt u c q era.tEra := by
    rw [decisionAt, used, ready.station.peers]
  dsimp only
  rw [chooseSlot_congr index plan lastPace, plan, store, index, decision, ← used]
  refine ⟨counts.window, counts.used.trans used.symm, counts.lastPace, fun hno => refused ?_,
    fun p hclash hd hp hroom => formed hclash hd hp ?_⟩
  · exact hno.imp_right (Or.imp_right (Or.imp_right fun ⟨hlen, hmark⟩ => (ready.full hlen hmark).symm ▸ hlen))
  · have length := ready.length
    omega

/-- Settles O31: the decision of the rebuild regulator, its count, and what a strobe makes of a proposal. -/
theorem proposalDecision : Obligations.ProposalDecision := by
  refine ⟨proposalFormed, adoptionCounts, proposalChecked, budgetRule, choiceRule, ?_⟩
  intro c tEra projected used own peers
  have decided := decideProposal_eq c tEra projected used own peers
  refine ⟨fun hfill => ?fill, fun hno htrim => ?trim, fun hno hno' => ?nothing, fun _ => rfl, fun hfill brk => ?count⟩
  case fill => rw [decided, if_pos hfill]
  case trim => rw [decided, if_neg hno, if_pos htrim]
  case nothing => rw [decided, if_neg hno, if_neg hno']
  case count =>
    obtain ⟨deficit, -, -, budgetLeft⟩ := hfill
    exact ⟨proposalCount_fill deficit budgetLeft brk, fun hrepeat => one_le_proposalCount deficit budgetLeft hrepeat brk⟩

end Sys2Proof.Proofs.ProposalForming
end

