-- ==== Sys2Proof/Proofs/Tallies.lean ====
section
/-! SUPPORT. What lights the tallies (R186, R187, R189; log entry 30). -/

namespace Sys2Proof.Proofs.Tallies

open Sys2Proof Sys2Proof.Machine

/-! ## FAULT and ARMED (R187, R189) -/

theorem faultLit_iff (s : State) :
    faultLit s = true ↔
      s.mon.mode = .configuring ∨ s.mon.mode = .configFault ∨ s.ref.flag = .lost ∨ s.link.clash = true ∨
        s.store.exhausted = true ∨ s.link.quiet = true := by
  simp only [faultLit, Bool.or_eq_true, beq_iff_eq, or_assoc]

theorem armed_or_active (c : CutState) : c = .armed ∨ c = .active := by
  cases c with
  | armed => exact .inl rfl
  | active => exact .inr rfl

/-- A held cut is ARMED or ACTIVE, so the table is not empty exactly when it holds one of the two. -/
theorem armedLit_iff (s : State) :
    armedLit s = true ↔ ∃ c ∈ s.plan.cuts, c.state = .armed ∨ c.state = .active := by
  rw [armedLit, Bool.not_eq_true', List.isEmpty_eq_false_iff_exists_mem]
  exact exists_congr fun c => (and_iff_left (armed_or_active c.state)).symm

/-! ## The delay (R8) -/

/-- R8: the delay from the PSN that the output step at `x` played. -/
theorem delayOf_played {s : State} {x : Slot} {e : HistEntry}
    (played : s.egress.history.find? (fun d => d.hsn == x) = some e) (pt : SchedPoint) :
    s.delayOf pt x = dist x e.psn := by
  rw [State.delayOf, playedAt, played]
  rfl

/-- R8: the delay from the PSN scheduled for `x`, where the output step at `x` is still to come. -/
theorem delayOf_scheduled {s : State} {x : Slot} (unplayed : ∀ d ∈ s.egress.history, d.hsn ≠ x) (pt : SchedPoint) :
    s.delayOf pt x = dist x (s.plan.playAt pt x).psn := by
  have absent : s.egress.history.find? (fun d => d.hsn == x) = none :=
    List.find?_eq_none.mpr fun d hd => by simpa using unplayed d hd
  rw [State.delayOf, playedAt, absent]
  rfl

theorem delay_eq {s : State} {pt : SchedPoint} {x : Slot} (hpoint : s.egress.point = some pt)
    (hx : s.ref.hsn = some x) : s.delay = some (s.delayOf pt x) := by
  rw [State.delay, hpoint, hx]

/-! ## READY and DUMP-AVAILABLE (R186) -/

theorem readyLit_iff {s : State} {c : Settings} {era : Era} {d : Int} (hc : s.settings = some c)
    (hera : s.mon.era = some era) (hd : s.delay = some d) :
    readyLit s = true ↔ s.mon.mode = .aligned ∧ (era.tEra : Int) - c.readyTolerance ≤ d := by
  simp only [readyLit, hc, hera, hd, Bool.and_eq_true, beq_iff_eq, decide_eq_true_eq]

theorem dumpAvailableLit_iff {s : State} {c : Settings} {d : Int} (hc : s.settings = some c)
    (hd : s.delay = some d) :
    dumpAvailableLit s = true ↔ s.mon.mode = .aligned ∧ (c.dumpLength : Int) + 8 ≤ d := by
  simp only [dumpAvailableLit, hc, hd, Bool.and_eq_true, beq_iff_eq, decide_eq_true_eq, Config.dumpMargin,
    Nat.cast_ofNat]

theorem readyLit_dark {s : State} (h : s.mon.mode ≠ .aligned) : readyLit s = false := by
  unfold readyLit
  split
  · rw [beq_false_of_ne h, Bool.false_and]
  · rfl

theorem dumpAvailableLit_dark {s : State} (h : s.mon.mode ≠ .aligned) : dumpAvailableLit s = false := by
  unfold dumpAvailableLit
  split
  · rw [beq_false_of_ne h, Bool.false_and]
  · rfl

theorem delayTallies_of_delay {s : State} {c : Settings} {era : Era} {x q : Slot} (hc : s.settings = some c)
    (hera : s.mon.era = some era) (hd : s.delay = some (dist x q)) : DelayTallies s c era x q :=
  ⟨readyLit_iff hc hera hd, dumpAvailableLit_iff hc hd⟩

/-- Settles O49: what lights FAULT, ARMED, READY and DUMP-AVAILABLE, and the fault set of a beacon. -/
theorem faultAndArmedTallies : Obligations.FaultAndArmedTallies := by
  intro s
  refine ⟨fun _ _ _ _ => ⟨rfl, rfl, rfl⟩, faultLit_iff s, armedLit_iff s,
    fun h => ⟨readyLit_dark h, dumpAvailableLit_dark h⟩, fun c era pt x hc hera hpoint hx => ⟨?played, ?scheduled⟩⟩
  case played =>
    intro e played
    exact delayTallies_of_delay hc hera (delayOf_played played pt ▸ delay_eq hpoint hx)
  case scheduled =>
    intro unplayed
    exact delayTallies_of_delay hc hera (delayOf_scheduled unplayed pt ▸ delay_eq hpoint hx)

end Sys2Proof.Proofs.Tallies
end

