-- ==== Sys2Proof/Proofs/StationMode.lean ====
section
/-! SUPPORT. No operation takes the station back to CONFIGURING (R159, R179): only RESET does. -/

namespace Sys2Proof.Proofs.StationMode

open Sys2Proof Sys2Proof.Machine
open Sys2Proof.Proofs.StrobeVerdict Sys2Proof.Proofs.EndedBursts Sys2Proof.Proofs.StrobeBursts

/-! ## Operations that never enter CONFIGURING -/

/-- `t` is CONFIGURING only where `s` was. -/
def NeverRestarts (s t : State) : Prop := t.mon.mode = .configuring → s.mon.mode = .configuring

theorem NeverRestarts.refl (s : State) : NeverRestarts s s := id

theorem NeverRestarts.trans {s t u : State} (h : NeverRestarts s t) (k : NeverRestarts t u) : NeverRestarts s u := h ∘ k

theorem NeverRestarts.of_mode {s t : State} (h : KeepsMode s t) : NeverRestarts s t := Eq.trans (Eq.symm h)

theorem NeverRestarts.of_mon {s t : State} (h : t.mon = s.mon) : NeverRestarts s t := .of_mode (.of_mon h)

theorem NeverRestarts.of_ne {s t : State} (h : t.mon.mode ≠ .configuring) : NeverRestarts s t := fun ht => absurd ht h

theorem foldl_keepsMode {α : Type} {f : State → α → State} (hf : ∀ s a, KeepsMode s (f s a)) (l : List α) (s : State) :
    KeepsMode s (l.foldl f s) := by
  induction l generalizing s with
  | nil => exact .refl s
  | cons a l ih => exact (hf s a).trans (ih _)

theorem origin_mode_ne (o : Origin) : o.mode ≠ .configuring := by cases o <;> nofun

/-! ## The cue traffic unit -/

theorem tell_mode (s : State) (e : TxEntry) (f : Fate) : KeepsMode s (s.tell e f) := by
  unfold State.tell
  split
  · rfl
  · unfold State.tellRegulator
    split
    · split <;> rfl
    · rfl
  · split <;> rfl

theorem release_mode (s : State) (r : TxRef) : KeepsMode s (s.release r) := by
  unfold State.release
  split <;> rfl

theorem loadFlow_mode (s : State) : KeepsMode s s.loadFlow := by
  unfold State.loadFlow
  split
  · rfl
  · split
    · rfl
    · exact KeepsMode.trans (t := s.withTraffic _) rfl (release_mode _ _)

theorem placeFrame_mode (s : State) (f : RxFrame) : KeepsMode s (s.placeFrame f) := by
  unfold State.placeFrame State.afterPlacement
  split
  · exact loadFlow_mode ((s.withTraffic _).withTraffic _)
  · rfl

theorem purgeCancelled_mode (s : State) : KeepsMode s s.purgeCancelled := by
  have removed (u : State) (e : TxEntry) :
      KeepsMode u (((u.freeEntry e.order).tell e .cancelled).release (.general e.order)) :=
    (tell_mode (u.freeEntry e.order) e .cancelled).trans (release_mode _ _)
  exact foldl_keepsMode removed _ s

theorem endHolderAttempt_mode (s : State) (r : TxRef) : KeepsMode s (s.endHolderAttempt r) := by
  unfold State.endHolderAttempt
  split
  · rfl
  · split
    · exact release_mode (s.withTraffic _) _
    · rfl
  · split
    · exact release_mode (s.withTraffic _) _
    · rfl

theorem endAttempt_mode (s : State) : KeepsMode s s.endAttempt := by
  have stale (u : State) (r : TxRef) : KeepsMode u (u.endStale r) := by
    unfold State.endStale
    split
    · split <;> rfl
    · rfl
  unfold State.endAttempt
  split
  · rfl
  · refine KeepsMode.trans ?_ (endHolderAttempt_mode _ _)
    exact stale (s.withLink { s.link with attempt := false }) _

theorem abandon_mode (s : State) : KeepsMode s s.abandon := by
  have entry (u : State) (e : TxEntry) : KeepsMode u (u.abandonEntry e) := by
    unfold State.abandonEntry
    split
    · exact tell_mode (u.freeEntry e.order) e _
    · split
      · rfl
      · exact tell_mode (u.freeEntry e.order) e _
  unfold State.abandon
  dsimp only
  split
  · rfl
  · split
    · exact entry (s.withCurrent none) _
    · rfl
  · rfl
  · exact loadFlow_mode (s.withCurrent none)

theorem vetoAttempt_mode (s : State) : KeepsMode s s.vetoAttempt := by
  have counted (r : TxRef) : KeepsMode s (s.addVeto r).endAttempt :=
    KeepsMode.trans (by cases r <;> rfl) (endAttempt_mode (s.addVeto r))
  unfold State.vetoAttempt
  split
  · rfl
  · rename_i r _
    dsimp only
    split
    · refine (counted r).trans ?_
      unfold State.abandonHeld
      split
      · exact abandon_mode _
      · rfl
    · exact counted r

theorem nextStream_mode (s : State) : KeepsMode s s.nextStream := by
  unfold State.nextStream
  split
  · split
    · simp [KeepsMode]
    · rfl
  · rfl

theorem afterSent_mode (s : State) (r : TxRef) : KeepsMode s (s.afterSent r) := by
  have stream (u : State) (e : TxEntry) : KeepsMode u (u.streamSent e) := by
    unfold State.streamSent
    split
    · rfl
    · split
      · rfl
      · exact nextStream_mode (u.changeEntry _ _)
  unfold State.afterSent
  split
  · split
    · split
      · exact (tell_mode s _ _).trans (stream _ _)
      · exact tell_mode (s.freeEntry _) _ _
    · rfl
  · rfl
  · rfl

theorem stood_mode (s : State) (r : TxRef) (f : TxFrame) : KeepsMode s (s.stood r f) := by
  have gap (u : State) : KeepsMode u (u.loadGap f.kind) := by
    unfold State.loadGap
    split
    · split <;> rfl
    · rfl
  have received (u : State) : KeepsMode u (u.selfReceive f) := by
    unfold State.selfReceive
    split
    · exact placeFrame_mode u _
    · rfl
  refine (KeepsMode.trans ?_ (gap _)).trans (received _)
  exact afterSent_mode (State.withLink (s.withLink { s.link with attempt := false, current := none }) _) r

theorem setClash_mode (s : State) : KeepsMode s s.setClash := by
  refine foldl_keepsMode (f := fun u e => if e.isMark then (u.tell e .abandoned).pulseRefused else u.tell e .abandoned)
    (fun u e => ?_) s.traffic.general s
  split
  · exact tell_mode u e _
  · exact tell_mode u e _

/-! ## The alignment monitor -/

theorem enterResync_restarts (s : State) (o : Origin) : NeverRestarts s (s.enterResync o) :=
  .of_ne (by rw [(enterResync_mon s o).1]; nofun)

theorem enterJoining_restarts (s : State) : NeverRestarts s s.enterJoining :=
  .of_ne (by simp [State.enterJoining, State.withRetry])

theorem frameLost_restarts (s : State) (k : Option Station) : NeverRestarts s (s.frameLost k) := by
  unfold State.frameLost
  split
  · exact enterResync_restarts s _
  · exact enterResync_restarts s _
  · exact .of_mode rfl
  · exact .of_mode rfl
  · exact .refl s

theorem compareBeacon_restarts (s : State) (k : Station) (b : Beacon) (o : Origin) :
    NeverRestarts s (s.compareBeacon k b o) := by
  unfold State.compareBeacon
  split
  · split
    · exact enterResync_restarts s o
    · exact .refl s
  · exact .refl s

theorem actOnBeacon_restarts (s : State) (k : Station) (b : Beacon) : NeverRestarts s (s.actOnBeacon k b) := by
  unfold State.actOnBeacon
  split
  · split
    · exact enterJoining_restarts s
    · exact .refl s
  · exact compareBeacon_restarts s k b _
  · exact compareBeacon_restarts s k b _
  · exact .refl s

theorem takeBeacon_restarts (s : State) (k : Station) (body : List Byte) : NeverRestarts s (s.takeBeacon k body) := by
  unfold State.takeBeacon
  split
  · exact .refl s
  · split
    · exact .refl s
    · refine NeverRestarts.trans ?_ (actOnBeacon_restarts _ k _)
      have drawn : s.drawHsn.2.mon.mode = s.mon.mode := congrArg Monitor.mode (drawHsn_mon s)
      exact .of_mode drawn

theorem failCollection_restarts (s : State) : NeverRestarts s s.failCollection := .of_mode (keeps_failCollection s).mode

theorem askAgain_restarts (s : State) : NeverRestarts s s.askAgain := .of_mode (keeps_askAgain s).mode

theorem adopt_restarts (s : State) (r : Collecting) (e : RecapEnd) (p : Replay) (x : Slot) :
    NeverRestarts s (s.adopt r e p x) := by
  have adopted (m : Mode) : m.adopted ≠ .configuring := by
    unfold Mode.adopted
    split
    · exact origin_mode_ne _
    · nofun
  unfold State.adopt
  dsimp only
  split
  · exact .of_ne (by rw [(enterResync_mon _ _).1]; nofun)
  · exact .of_ne (by simpa [State.cancelJoin] using adopted _)

theorem takeEnd_restarts (s : State) (x : Slot) (f : RxFrame) : NeverRestarts s (s.takeEnd x f).1 := by
  unfold State.takeEnd
  split
  · dsimp only
    split
    · exact .of_mode rfl
    · exact .refl s
  · refine NeverRestarts.trans (t := s.endForeign f.sender) (.of_mode rfl) ?_
    dsimp only
    split
    · exact .refl _
    · split
      · exact askAgain_restarts _
      · split
        · exact .refl _
        · split
          · exact failCollection_restarts _
          · split
            · exact adopt_restarts _ _ _ _ _
            · exact failCollection_restarts _

theorem expireListen_restarts (s : State) (c : Settings) (x : Slot) : NeverRestarts s (s.expireListen c x) := by
  unfold State.expireListen
  split
  · exact .of_ne nofun
  · exact .refl s

theorem expireRetry_restarts (s : State) : NeverRestarts s s.expireRetry := by
  unfold State.expireRetry
  split
  · exact askAgain_restarts s
  · exact .refl s

theorem expireCollect_restarts (s : State) : NeverRestarts s s.expireCollect := by
  unfold State.expireCollect
  split
  · exact failCollection_restarts s
  · exact .refl s

theorem expireForeign_restarts (s : State) : NeverRestarts s s.expireForeign := by
  unfold State.expireForeign
  split
  · exact .of_mode rfl
  · exact .refl s

theorem expireMonitor_restarts (s : State) (c : Settings) (x : Slot) : NeverRestarts s (s.expireMonitor c x) :=
  (((expireCollect_restarts s).trans (expireForeign_restarts _)).trans (expireRetry_restarts _)).trans
    (expireListen_restarts _ c x)

theorem checkPeers_restarts (s : State) (x : Slot) : NeverRestarts s (s.checkPeers x) := by
  unfold State.checkPeers
  split
  · exact .refl s
  · split
    · exact .of_ne nofun
    · rename_i origin _
      exact .of_ne (by simpa [State.leaveResync, State.withRetry, State.cancelJoin, State.withMode] using origin_mode_ne origin)
    · exact .refl s

theorem monitorStrobe_restarts (s : State) (c : Settings) (x : Slot) (own : Bool) :
    NeverRestarts s (s.monitorStrobe c x own) := by
  refine NeverRestarts.trans (t := s.withMon s.mon.tick) (.of_mode rfl) ?_
  unfold State.monitorStrobe
  dsimp only
  split
  · exact checkPeers_restarts _ x
  · exact (expireMonitor_restarts _ c x).trans (checkPeers_restarts _ x)

/-! ## The strobe, the loss and the return -/

theorem withdrawStale_mode (s : State) (x : Slot) : KeepsMode s (s.withdrawStale x) := (keeps_withdrawStale s x).mode

theorem settle_restarts (s : State) (c : Settings) : NeverRestarts s (s.settle c) := by
  unfold State.settle
  split
  · exact .refl s
  · rename_i x _
    have expired : NeverRestarts s (((s.withHeldBy (dropLapsed s.traffic.heldBy)).withdrawStale x).expireMonitor c x) :=
      NeverRestarts.trans (.of_mode (withdrawStale_mode (s.withHeldBy (dropLapsed s.traffic.heldBy)) x))
        (expireMonitor_restarts _ c x)
    dsimp only
    split
    · exact expired.trans (.of_mode (keeps_completeEntryAt (State.withPlan _ _) c x).mode)
    · exact expired.trans (.of_mode (keeps_completeEntryAt _ c x).mode)

theorem trafficStrobe_mode (s : State) (x : Slot) (own : Bool) : KeepsMode s (s.trafficStrobe x own) := by
  unfold State.trafficStrobe
  dsimp only
  split
  · rfl
  · exact withdrawStale_mode ((s.withHeldBy _).withHeldBy _) x

theorem scheduleHeld_restarts (s : State) (q : Slot) : NeverRestarts s (s.scheduleHeld q) := by
  unfold State.scheduleHeld
  split
  · exact .of_ne nofun
  · exact .refl s

theorem strobeOutput_restarts (s : State) (c : Settings) (x : Slot) : NeverRestarts s (s.strobeOutput c x) := by
  have removed {u v : State} (h : StoreSide u v) : NeverRestarts u v := .of_mon h.mon_eq
  have played (u : State) (pt : SchedPoint) : NeverRestarts u (u.playStep c pt) := by
    refine (removed (endBursts_storeSide u fun _ => true)).trans ?_
    exact (removed (removePassed_storeSide ((State.output _ c pt).withPlan _) c pt)).trans (scheduleHeld_restarts _ _)
  unfold State.strobeOutput State.outputStep
  split
  · split
    · exact played s _
    · exact .refl s
  · refine (removed (endBursts_storeSide s fun _ => true)).trans ?_
    exact removed (removeAged_storeSide (State.withEgress _ _) _ x)

theorem intake_restarts (s : State) (c : Settings) (x : Slot) (own : Bool) : NeverRestarts s (s.intake c x own) := by
  refine intake_preserves NeverRestarts .trans ?opened (fun u => ?dropped) (fun f _ k => ?handled)
    (fun k n f => .of_mode (keeps_record k x n f).mode) (fun k => .of_mode (keeps_close k c).mode)
  case opened =>
    unfold State.openIntake
    split
    · split
      · exact .of_mode rfl
      · exact .refl s
    · exact .refl s
  case dropped => exact .of_mon (dropReceived_mon u)
  case handled =>
    by_cases hend : f.kind = .recapEnd
    · simp only [Intake.handle, hend]
      exact takeEnd_restarts k.state x f
    · exact .of_mode (handle_mode k c x hend)

theorem takePart_restarts (s : State) (c : Settings) (x : Slot) (own : Bool) (p : StrobePart) :
    NeverRestarts s (s.takePart c x own p) := by
  cases p with
  | traffic => exact .of_mode (trafficStrobe_mode s x own)
  | slotClose => exact .of_mode (keeps_closeAndTag s c x).mode
  | outputStep => exact strobeOutput_restarts s c x
  | intake => exact intake_restarts s c x own
  | proposal => exact .of_mode (keeps_proposalEvent s c x).mode
  | monitor => exact monitorStrobe_restarts s c x own

theorem ordinaryStrobe_restarts (s : State) (c : Settings) (x : Slot) (o : StrobeOrder) :
    NeverRestarts s (s.ordinaryStrobe c x o) := by
  refine NeverRestarts.trans (t := (s.settle c).withRef (.strobe x)) (settle_restarts s c) ?_
  exact takeParts_keeps NeverRestarts .refl .trans c x o.ownSteps (fun s p => takePart_restarts s c x o.ownSteps p)
    (fun s => .of_mode (keeps_completeEntryAt s c x).mode) _ _ _

theorem takeStrobe_restarts (s : State) (x : Slot) (o : StrobeOrder) : NeverRestarts s (s.takeStrobe x o) := by
  unfold State.takeStrobe
  split
  · unfold State.configuredStrobe
    split
    · exact .of_ne nofun
    · split
      · exact ordinaryStrobe_restarts s _ x o
      · exact .of_ne nofun
  · unfold State.bareStrobe
    dsimp only
    split <;> exact .of_mode rfl

/-! ## The link -/

theorem handOn_restarts (s : State) (k : Station) (kind : Kind) (body : List Byte) :
    NeverRestarts s (s.handOn k kind body) := by
  unfold State.handOn
  split
  · exact .of_mode rfl
  · exact .of_mode rfl
  · exact takeBeacon_restarts s k body
  · exact .of_mode (placeFrame_mode s _)

theorem takeClean_restarts (s : State) (k : Station) (kind : Kind) (body : List Byte) (v : SlotRead) :
    NeverRestarts s (s.takeClean k kind body v) := by
  unfold State.takeClean
  dsimp only
  split
  · exact .of_mode rfl
  · exact handOn_restarts (s.withLink _) k kind body

theorem receive_restarts (s : State) (r : ReadResult) (v : SlotRead) : NeverRestarts s (s.receive r v) := by
  have yielded : NeverRestarts s s.yieldLine := by
    unfold State.yieldLine
    split
    · exact .of_mode (endAttempt_mode s)
    · exact .refl s
  have failed (u : State) (k : Station) : NeverRestarts u (u.takeFailure k v) := by
    unfold State.takeFailure
    dsimp only
    split
    · exact frameLost_restarts (u.withLink _) _
    · split
      · exact .of_mode rfl
      · exact frameLost_restarts (u.withLink _) _
  unfold State.receive
  split
  · refine yielded.trans ?_
    cases r with
    | noFrame => exact .refl _
    | lostPlace k => exact frameLost_restarts (State.withLink _ _) k
    | failure k => exact failed _ k
    | clean k kind body => exact takeClean_restarts _ k kind body v
  · exact .refl s

theorem arrive_restarts (s : State) (k : Station) (kind : Kind) (body : List Byte) :
    NeverRestarts s (s.arrive k kind body) := by
  unfold State.arrive
  split
  · exact handOn_restarts s k kind body
  · exact receive_restarts s _ _

theorem clashWith_restarts (s : State) (r : LineRead) : NeverRestarts s (s.clashWith r) := by
  unfold State.clashWith
  split
  · exact (NeverRestarts.of_mode (setClash_mode s)).trans (takeClean_restarts _ _ _ _ _)
  · exact .refl s
  · exact .of_mode (vetoAttempt_mode s)
  · exact .of_mode (vetoAttempt_mode s)

theorem busIdle_restarts (s : State) (n : Nat) : NeverRestarts s (s.busIdle n) := by
  unfold State.busIdle
  dsimp only
  split
  · exact .of_mode rfl
  · exact .of_mode (purgeCancelled_mode (s.withLink _))

/-! ## The presses and the output port -/

theorem press_restarts (s : State) (c : Settings) (k : Contact) : NeverRestarts s (s.press c k) := by
  have sent (u : State) (m : Mark) : KeepsMode u (u.sendMark m) := (keeps_sendMark u m).mode
  have rescinded (u : State) (x : Slot) : KeepsMode u (u.pressRescind x) := by
    unfold State.pressRescind
    dsimp only
    split
    · exact sent (u.withOrig _) _
    · rfl
  refine NeverRestarts.trans (.of_mon (drawHsn_mon s)) (.of_mode ?_)
  cases k with
  | dump => exact sent (State.countGiven _) _
  | markIn => exact sent _ _
  | markOut => exact sent _ _
  | commitDrop => exact sent (State.countGiven _) _
  | commitMask => exact sent (State.countGiven _) _
  | abandon => exact sent _ _
  | rescind => exact rescinded _ _

theorem finishBurst_mon (s : State) (b : OutBurst) : (s.finishBurst b).mon = s.mon := by
  unfold State.finishBurst State.holdBytes
  dsimp only
  split
  · split <;> rfl
  · rfl

theorem takeByte_mon (s : State) (c : Settings) (lane : Nat) (e : LaneEntry) (b : Byte) :
    (s.takeByte c lane e b).mon = s.mon := by
  have paged (u : LaneEntry) (sound : Bool) : (s.storeOnNewPage c sound lane u b).mon = s.mon := by
    unfold State.storeOnNewPage
    split
    · rfl
    · split <;> rfl
  unfold State.takeByte
  dsimp only
  split
  · rfl
  · split
    · rfl
    · split
      · exact paged _ _
      · rfl

end Sys2Proof.Proofs.StationMode
end

