-- ==== Sys2Proof/Proofs/Commands.lean ====
section
/-! SUPPORT. What each group of commands answers and leaves alone: the cue link, the contacts, the timers and the output
port leave the essence side alone, the input port changes nothing else, and every command answers a next state. -/

namespace Sys2Proof.Proofs.Commands

open Sys2Proof Sys2Proof.Machine Sys2Proof.Proofs.StationMode

/-! ## The cue link leaves the plan, the originator and the output alone -/

/-- `t` has the plan, the originator and the egress of `s`. -/
structure KeepsPlanned (s t : State) : Prop where
  plan : t.plan = s.plan
  orig : t.orig = s.orig
  egress : t.egress = s.egress

theorem KeepsPlanned.refl (s : State) : KeepsPlanned s s := ⟨rfl, rfl, rfl⟩

theorem KeepsPlanned.trans {s t u : State} (h : KeepsPlanned s t) (k : KeepsPlanned t u) : KeepsPlanned s u :=
  ⟨k.plan.trans h.plan, k.orig.trans h.orig, k.egress.trans h.egress⟩

theorem KeepsPlanned.of_cueOnly {s t : State} (h : CueOnly s t) : KeepsPlanned s t := ⟨h.plan_eq, h.orig_eq, h.egress_eq⟩

theorem withLink_planned (s : State) (v : Link) : KeepsPlanned s (s.withLink v) := ⟨rfl, rfl, rfl⟩

theorem drawHsn_planned (s : State) : KeepsPlanned s s.drawHsn.2 := by
  unfold State.drawHsn
  split <;> exact ⟨rfl, rfl, rfl⟩

theorem addJoin_planned (s : State) : KeepsPlanned s s.addJoin :=
  (drawHsn_planned s).trans (.of_cueOnly (addEntry_cueOnly _ _ _ _ _))

theorem enterJoining_planned (s : State) : KeepsPlanned s s.enterJoining :=
  ((KeepsPlanned.of_cueOnly (withMon_cueOnly s _)).trans (addJoin_planned _)).trans (.of_cueOnly (withRetry_cueOnly _ _))

theorem enterResync_planned (s : State) (o : Origin) : KeepsPlanned s (s.enterResync o) :=
  ((KeepsPlanned.of_cueOnly (((cancelProposal_cueOnly s).trans (leaveRecap_cueOnly _)).trans (withMode_cueOnly _ _))).trans
    (addJoin_planned _)).trans (.of_cueOnly (withRetry_cueOnly _ _))

theorem frameLost_planned (s : State) (k : Option Station) : KeepsPlanned s (s.frameLost k) := by
  unfold State.frameLost
  split
  · exact enterResync_planned s _
  · exact enterResync_planned s _
  · exact .of_cueOnly (withMon_cueOnly s _)
  · exact .of_cueOnly (withMon_cueOnly s _)
  · exact .refl s

theorem takeBeacon_planned (s : State) (k : Station) (body : List Byte) : KeepsPlanned s (s.takeBeacon k body) := by
  have compared (u : State) (b : Beacon) (o : Origin) : KeepsPlanned u (u.compareBeacon k b o) := by
    unfold State.compareBeacon
    split
    · split
      · exact enterResync_planned u o
      · exact .refl u
    · exact .refl u
  have acted (u : State) (b : Beacon) : KeepsPlanned u (u.actOnBeacon k b) := by
    unfold State.actOnBeacon
    split
    · split
      · exact enterJoining_planned u
      · exact .refl u
    · exact compared u b _
    · exact compared u b _
    · exact .refl u
  unfold State.takeBeacon
  split
  · exact .refl s
  · split
    · exact .refl s
    · exact ((drawHsn_planned s).trans (.of_cueOnly (withMon_cueOnly _ _))).trans (acted _ _)

theorem handOn_planned (s : State) (k : Station) (kind : Kind) (body : List Byte) :
    KeepsPlanned s (s.handOn k kind body) := by
  unfold State.handOn
  split
  · exact .of_cueOnly (withHeldBy_cueOnly s _)
  · exact .of_cueOnly (withHeldBy_cueOnly s _)
  · exact takeBeacon_planned s k body
  · exact .of_cueOnly (placeFrame_cueOnly s _)

theorem takeFailure_planned (s : State) (k : Station) (v : SlotRead) : KeepsPlanned s (s.takeFailure k v) := by
  unfold State.takeFailure
  dsimp only
  split
  · exact (withLink_planned s _).trans (frameLost_planned _ _)
  · split
    · exact withLink_planned s _
    · exact (withLink_planned s _).trans (frameLost_planned _ _)

theorem takeClean_planned (s : State) (k : Station) (kind : Kind) (body : List Byte) (v : SlotRead) :
    KeepsPlanned s (s.takeClean k kind body v) := by
  unfold State.takeClean
  dsimp only
  split
  · exact withLink_planned s _
  · exact (withLink_planned s _).trans (handOn_planned _ _ _ _)

theorem loseArbitration_planned (s : State) : KeepsPlanned s s.loseArbitration :=
  (KeepsPlanned.of_cueOnly (endAttempt_cueOnly s)).trans (withLink_planned _ _)

theorem receive_planned (s : State) (r : ReadResult) (v : SlotRead) : KeepsPlanned s (s.receive r v) := by
  have yielded : KeepsPlanned s s.yieldLine := by
    unfold State.yieldLine
    split
    · exact loseArbitration_planned s
    · exact .refl s
  unfold State.receive
  split
  · refine yielded.trans ?_
    cases r with
    | noFrame => exact .refl _
    | lostPlace k => exact (withLink_planned _ _).trans (frameLost_planned _ k)
    | failure k => exact takeFailure_planned _ k v
    | clean k kind body => exact takeClean_planned _ k kind body v
  · exact .refl s

theorem arrive_planned (s : State) (k : Station) (kind : Kind) (body : List Byte) :
    KeepsPlanned s (s.arrive k kind body) := by
  unfold State.arrive
  split
  · exact handOn_planned s k kind body
  · exact receive_planned s _ _

theorem clashWith_planned (s : State) (r : LineRead) : KeepsPlanned s (s.clashWith r) := by
  have vetoed : KeepsPlanned s s.vetoAttempt := .of_cueOnly (vetoAttempt_cueOnly s)
  have set : KeepsPlanned s s.setClash :=
    (KeepsPlanned.of_cueOnly ((purgeAll_cueOnly s).trans (endOwnRecap_cueOnly _))).trans (withLink_planned _ _)
  unfold State.clashWith
  split
  · exact set.trans (takeClean_planned _ _ _ _ _)
  · exact .refl s
  · exact vetoed.trans (withLink_planned _ _)
  · exact vetoed.trans (withLink_planned _ _)

theorem busIdle_planned (s : State) (n : Nat) : KeepsPlanned s (s.busIdle n) := by
  unfold State.busIdle
  dsimp only
  split
  · exact withLink_planned s _
  · have purged := KeepsPlanned.of_cueOnly (purgeCancelled_cueOnly (s.withLink (s.link.atIdle n)))
    exact ⟨purged.plan, purged.orig, purged.egress⟩

theorem ownVeto_planned (s : State) (v : VetoSlot) : KeepsPlanned s (s.ownVeto v) :=
  (KeepsPlanned.of_cueOnly (vetoAttempt_cueOnly s)).trans (withLink_planned _ _)

theorem stood_planned (s : State) (r : TxRef) (f : TxFrame) : KeepsPlanned s (s.stood r f) := by
  have gap (u : State) : KeepsPlanned u (u.loadGap f.kind) := by
    unfold State.loadGap
    split
    · split <;> exact ⟨rfl, rfl, rfl⟩
    · exact .refl u
  refine KeepsPlanned.trans ?_ (.of_cueOnly (selfReceive_cueOnly _ f))
  refine KeepsPlanned.trans ?_ (gap _)
  exact (KeepsPlanned.trans (withLink_planned s _) (withLink_planned _ _)).trans (.of_cueOnly (afterSent_cueOnly _ r))

/-! ## The commands, group by group -/

/-- What a command of the cue link, a contact, a timer or the output port leaves: the essence side, and a station that is
not taken back to CONFIGURING. -/
structure Aside (s t : State) : Prop where
  side : LinkSide s t
  mode : NeverRestarts s t

theorem Aside.refl (s : State) : Aside s s := ⟨.refl s, .refl s⟩

theorem Aside.of_keeps {s t : State} (h : KeepsEssence s t) (m : NeverRestarts s t) : Aside s t := ⟨h.linkSide, m⟩

/-- The outcome is a next state to which `R` leads. -/
def Answers (R : State → State → Prop) (s : State) (o : Host.Outcome State Fault Refusal) : Prop := ∃ t, o = .next t ∧ R s t

theorem answers_next {R : State → State → Prop} {s t : State} (h : R s t) : Answers R s (.next t) := ⟨t, rfl, h⟩

theorem answers_ite {R : State → State → Prop} {p : Prop} [Decidable p] {s t u : State} (ht : R s t) (hu : R s u) :
    Answers R s (if p then .next t else .next u) := by
  split
  · exact answers_next ht
  · exact answers_next hu

theorem Answers.of_eq {R : State → State → Prop} {s t : State} {o : Host.Outcome State Fault Refusal} (h : Answers R s o)
    (ho : o = .next t) : R s t := by
  obtain ⟨u, hu, hr⟩ := h
  exact Host.Outcome.next.inj (hu.symm.trans ho) ▸ hr

/-- A command of the cue link leaves the essence side, the plan, the originator and the output alone. -/
def LinkAside (s t : State) : Prop := Aside s t ∧ KeepsPlanned s t

theorem LinkAside.refl (s : State) : LinkAside s s := ⟨.refl s, .refl s⟩

theorem exec_sent_aside (s : State) : Answers LinkAside s (execSent s) := by
  have vetoed : LinkAside s (s.ownVeto .vetoBit) :=
    ⟨⟨ownVeto_linkSide s _, .of_mode (vetoAttempt_mode s)⟩, ownVeto_planned s _⟩
  unfold execSent
  split
  · split
    · exact answers_next (.refl s)
    · split
      · exact answers_ite vetoed ⟨⟨stood_linkSide s _ _, .of_mode (stood_mode s _ _)⟩, stood_planned s _ _⟩
      · exact answers_next (.refl s)
  · exact answers_next (.refl s)

theorem exec_link {i : Instr} (hi : isLinkCommand i = true) (s : State) : Answers LinkAside s (exec i s) := by
  have received (r : ReadResult) (v : SlotRead) : LinkAside s (s.receive r v) :=
    ⟨⟨receive_linkSide s r v, receive_restarts s r v⟩, receive_planned s r v⟩
  have arrived (k : Station) (kind : Kind) (body : List Byte) : LinkAside s (s.arrive k kind body) :=
    ⟨⟨arrive_linkSide s k kind body, arrive_restarts s k kind body⟩, arrive_planned s k kind body⟩
  have idle (n : Nat) : LinkAside s (s.busIdle n) := ⟨⟨busIdle_linkSide s n, busIdle_restarts s n⟩, busIdle_planned s n⟩
  cases i with
  | busIdle n => exact answers_ite (idle n) (.refl s)
  | courtesyGapExpiry => exact answers_ite (idle _) (.refl s)
  | arbitrationLost =>
    exact answers_ite ⟨⟨loseArbitration_linkSide s, .of_mode (endAttempt_mode s)⟩, loseArbitration_planned s⟩ (.refl s)
  | lineFault n =>
    exact answers_ite ⟨⟨lineFault_linkSide s n, .of_mode (vetoAttempt_mode s)⟩,
      (KeepsPlanned.of_cueOnly (vetoAttempt_cueOnly s)).trans (withLink_planned _ _)⟩ (.refl s)
  | clash r => exact answers_ite ⟨⟨clashWith_linkSide s r, clashWith_restarts s r⟩, clashWith_planned s r⟩ (.refl s)
  | frameVetoed v =>
    exact answers_ite ⟨⟨ownVeto_linkSide s v, .of_mode (vetoAttempt_mode s)⟩, ownVeto_planned s v⟩ (.refl s)
  | sent => exact exec_sent_aside s
  | frameReceived r => exact answers_next (received _ _)
  | holdReceived k => exact answers_next (arrived k _ _)
  | resumeReceived k => exact answers_next (arrived k _ _)
  | beaconReceived k body => exact answers_ite (arrived k _ body) (received _ _)
  | _ => cases hi

theorem exec_debounceStable_aside (k : Contact) (s : State) : Answers Aside s (execDebounceStable k s) := by
  have settled : Aside s (s.setDebouncer k (s.debouncer k).settled) :=
    .of_keeps (withContacts_cueOnly s _).keeps (.of_mode rfl)
  unfold execDebounceStable
  refine answers_ite ?_ (.refl s)
  split
  · unfold State.closingEdge
    split
    · split
      · exact .of_keeps ((withContacts_cueOnly s _).keeps.trans (press_keeps _ _ k))
          (NeverRestarts.trans (.of_mode rfl) (press_restarts (s.setDebouncer k (s.debouncer k).settled) _ k))
      · exact settled
    · exact settled
  · exact settled

theorem exec_own {i : Instr} (hi : isOwnCommand i = true) (s : State) : Answers Aside s (exec i s) := by
  cases i with
  | listenTimerExpiry =>
    simp only [exec, execListenTimerExpiry]
    split
    · exact answers_next (.of_keeps (expireListen_keeps s _ _) (expireListen_restarts s _ _))
    · exact answers_next (.refl s)
  | joinRetryExpiry => exact answers_next (.of_keeps (expireRetry_keeps s) (expireRetry_restarts s))
  | collectSilenceExpiry => exact answers_next (.of_keeps (expireCollect_keeps s) (expireCollect_restarts s))
  | foreignRecapExpiry => exact answers_next (.of_keeps (expireForeign_cueOnly s).keeps (expireForeign_restarts s))
  | spanTimeout k =>
    simp only [exec, execSpanTimeout]
    split
    · exact answers_ite (.of_keeps ((withPlan_keeps s _).trans (completeEntryAt_keeps _ _ _))
        (.of_mode (StrobeVerdict.keeps_completeEntryAt (s.withPlan _) _ _).mode)) (.refl s)
    · exact answers_next (.refl s)
  | holdTimeout k => exact answers_next (.of_keeps (withHeldBy_cueOnly s _).keeps (.of_mode rfl))
  | markStaleWithdrawal o =>
    simp only [exec, execMarkStaleWithdrawal]
    split
    · exact answers_ite (.of_keeps (withdrawEntry_cueOnly s _).keeps (.of_mon (StrobeVerdict.withdrawEntry_mon s _)))
        (.refl s)
    · exact answers_next (.refl s)
  | refusedPulseExpiry => exact answers_next (.of_keeps (withContacts_cueOnly s _).keeps (.of_mode rfl))
  | debounceStable k => exact exec_debounceStable_aside k s
  | contactRawLevelChange k level =>
    exact answers_ite (.refl s) (.of_keeps (withContacts_cueOnly s _).keeps (.of_mode rfl))
  | outputBurstEnd pos =>
    simp only [exec, execOutputBurstEnd]
    split
    · exact answers_next (.of_keeps (finishBurst_keeps s _) (.of_mon (finishBurst_mon s _)))
    · exact answers_next (.refl s)
  | _ => cases hi

theorem exec_aside {i : Instr} (hi : isLinkCommand i = true ∨ isOwnCommand i = true) (s : State) :
    Answers Aside s (exec i s) := by
  obtain hl | ho := hi
  · obtain ⟨t, ht, h, -⟩ := exec_link hl s
    exact ⟨t, ht, h⟩
  · exact exec_own ho s

/-- `t` differs from `s` in the page contents, the page accounts and the ingress at most, and keeps STORE-EXHAUSTED. -/
def InputSide (s t : State) : Prop :=
  t = { s with mem := t.mem, store := t.store, ingress := t.ingress } ∧
    (s.store.exhausted = true → t.store.exhausted = true)

theorem InputSide.refl (s : State) : InputSide s s := ⟨rfl, id⟩

theorem withIngress_inputSide (s : State) (g : Ingress) : InputSide s (s.withIngress g) := ⟨rfl, id⟩

theorem takeByte_inputSide (s : State) (c : Settings) (lane : Nat) (e : LaneEntry) (b : Byte) :
    InputSide s (s.takeByte c lane e b) := by
  have paged (e : LaneEntry) (sound : Bool) : InputSide s (s.storeOnNewPage c sound lane e b) := by
    unfold State.storeOnNewPage
    split
    · exact withIngress_inputSide s _
    · split
      · exact ⟨rfl, fun _ => rfl⟩
      · exact ⟨rfl, id⟩
  unfold State.takeByte
  dsimp only
  split
  · exact withIngress_inputSide s _
  · split
    · exact withIngress_inputSide s _
    · split
      · exact paged _ _
      · exact ⟨rfl, id⟩

theorem exec_input {i : Instr} (hi : isInputCommand i = true) (s : State) : Answers InputSide s (exec i s) := by
  cases i with
  | burstStart pos header =>
    simp only [exec, execBurstStart]
    split
    · exact answers_next (withIngress_inputSide s _)
    · exact answers_next (.refl s)
  | essenceByte pos b =>
    simp only [exec, execEssenceByte]
    split
    · split
      · exact answers_ite (takeByte_inputSide s _ _ _ b) (.refl s)
      · exact answers_next (.refl s)
    · exact answers_next (.refl s)
  | burstEnd pos => exact answers_next (withIngress_inputSide s _)
  | _ => cases hi

/-- The bursts' starts and ends leave the page contents alone. -/
theorem exec_input_mem {i : Instr} (hi : isInputCommand i = true) (hb : ∀ pos b, i ≠ .essenceByte pos b) (s : State) :
    Answers (fun s t => t.mem = s.mem) s (exec i s) := by
  cases i with
  | burstStart pos header =>
    simp only [exec, execBurstStart]
    split <;> exact answers_next rfl
  | essenceByte pos b => exact absurd rfl (hb pos b)
  | burstEnd pos => exact answers_next rfl
  | _ => cases hi

/-- The strobes, the loss of reference and the end of the configuration reading. -/
def isReferenceCommand : Instr → Bool
  | .configReadComplete _ | .ordinaryStrobe _ _ | .referenceReturn _ | .referenceBreak _ | .referenceLossTimeout => true
  | _ => false

/-- What the commands of the reference keep of the faults and the page contents; CONFIG_READ_COMPLETE sets the
settings. -/
structure FaultsStay (s t : State) : Prop where
  mem : t.mem = s.mem
  pending : t.pending = s.pending
  clash : s.link.clash = true → t.link.clash = true
  exhausted : s.store.exhausted = true → t.store.exhausted = true

theorem FaultsStay.of_keepsFaults {s t : State} (h : KeepsFaults s t) : FaultsStay s t := by
  obtain ⟨mem, pending, -, -, clash, exhausted⟩ := h
  exact ⟨mem, pending, clash, exhausted⟩

theorem FaultsStay.refl (s : State) : FaultsStay s s := .of_keepsFaults (.refl s)

theorem timeoutReference_faults (s : State) : KeepsFaults s s.timeoutReference := by
  unfold State.timeoutReference
  split
  · exact loseReference_faults s _
  · exact withRef_faults s _

theorem exec_reference {i : Instr} (hi : isReferenceCommand i = true) (s : State) : Answers FaultsStay s (exec i s) := by
  cases i with
  | configReadComplete bytes =>
    simp only [exec, execConfigReadComplete]
    split
    · split
      · exact answers_next ⟨rfl, rfl, id, id⟩
      · exact answers_next ⟨rfl, rfl, id, id⟩
    · exact answers_next (.refl s)
  | ordinaryStrobe x o => exact answers_next (.of_keepsFaults (takeStrobe_faults s x o))
  | referenceReturn x => exact answers_next (.of_keepsFaults (takeStrobe_faults s x _))
  | referenceBreak x => exact answers_next (.of_keepsFaults (takeStrobe_faults s x _))
  | referenceLossTimeout => exact answers_ite (.of_keepsFaults (timeoutReference_faults s)) (.refl s)
  | _ => cases hi

/-- Every command but RESET is of one of the four groups. -/
theorem command_cases (i : Instr) :
    (∃ cause k levels, i = .reset cause k levels) ∨ (isLinkCommand i = true ∨ isOwnCommand i = true) ∨
      isInputCommand i = true ∨ isReferenceCommand i = true := by
  cases i with
  | reset cause k levels => exact .inl ⟨cause, k, levels, rfl⟩
  | busIdle | courtesyGapExpiry | arbitrationLost | lineFault | clash | frameVetoed | sent | frameReceived | holdReceived
  | resumeReceived | beaconReceived => exact .inr (.inl (.inl rfl))
  | listenTimerExpiry | joinRetryExpiry | collectSilenceExpiry | foreignRecapExpiry | spanTimeout | holdTimeout
  | markStaleWithdrawal | refusedPulseExpiry | debounceStable | contactRawLevelChange | outputBurstEnd =>
    exact .inr (.inl (.inr rfl))
  | burstStart | essenceByte | burstEnd => exact .inr (.inr (.inl rfl))
  | configReadComplete | ordinaryStrobe | referenceReturn | referenceBreak | referenceLossTimeout =>
    exact .inr (.inr (.inr rfl))

/-! ## The statements -/

/-- Settles O2: each group of commands answers a next state and leaves the queue alone. -/
theorem everyCommandAnswersNext : Obligations.EveryCommandAnswersNext := by
  intro i s
  obtain ⟨cause, k, levels, rfl⟩ | ha | hin | hr := command_cases i
  · exact ⟨_, rfl, rfl⟩
  · obtain ⟨t, ht, h⟩ := exec_aside ha s
    exact ⟨t, ht, h.side.faults.2.1⟩
  · obtain ⟨t, ht, h, -⟩ := exec_input hin s
    exact ⟨t, ht, by rw [h]⟩
  · obtain ⟨t, ht, h⟩ := exec_reference hr s
    exact ⟨t, ht, h.pending⟩

/-- Settles O41: no command but RESET clears CLASH or STORE-EXHAUSTED. -/
theorem stickyFaults : Obligations.StickyFaults := by
  intro i s t ht hreset
  obtain ⟨cause, k, levels, rfl⟩ | ha | hin | hr := command_cases i
  · exact absurd rfl (hreset cause k levels)
  · obtain ⟨-, -, -, -, clash, exhausted⟩ := ((exec_aside ha s).of_eq ht).side.faults
    exact ⟨clash, exhausted⟩
  · obtain ⟨h, exhausted⟩ := (exec_input hin s).of_eq ht
    exact ⟨fun hc => by rw [h]; exact hc, exhausted⟩
  · have h := (exec_reference hr s).of_eq ht
    exact ⟨h.clash, h.exhausted⟩

/-- O19: page contents are changed by essence bytes and a power-on only. -/
theorem exec_mem {i : Instr} {s t : State} (ht : exec i s = .next t) (hb : ∀ pos b, i ≠ .essenceByte pos b)
    (hp : ∀ k levels, i ≠ .reset .powerOn k levels) : t.mem = s.mem := by
  obtain ⟨cause, k, levels, rfl⟩ | ha | hin | hr := command_cases i
  · cases cause with
    | powerOn => exact absurd rfl (hp k levels)
    | resetLine =>
      rw [← Host.Outcome.next.inj ht]
      rfl
  · exact ((exec_aside ha s).of_eq ht).side.faults.1
  · exact (exec_input_mem hin hb s).of_eq ht
  · exact ((exec_reference hr s).of_eq ht).mem

/-- Settles O19: the frame of each group of commands. -/
theorem commandFrames : Obligations.CommandFrames := by
  intro i s t ht
  refine ⟨exec_mem ht, fun ha => ?aside, fun hl => ?planned, fun hin => ((exec_input hin s).of_eq ht).1⟩
  case aside =>
    obtain ⟨h, -⟩ := ((exec_aside ha s).of_eq ht).side
    rw [h]
    exact ⟨rfl, rfl, rfl, rfl, rfl, rfl⟩
  case planned =>
    obtain ⟨-, plan, orig, egress⟩ := (exec_link hl s).of_eq ht
    exact ⟨plan, orig, egress⟩

end Sys2Proof.Proofs.Commands
end

