-- ==== Sys2Proof/Proofs/IndexOrder.lean ====
section
/-! SUPPORT. Every step keeps the slot index in order, joined to the open period (R13, R14), and what the loss of reference
and a return leave of the index, the ingress and the reference unit. -/

namespace Sys2Proof.Proofs.IndexOrder

open Sys2Proof Sys2Proof.Machine Sys2Proof.Safety
open Sys2Proof.Proofs.OrdinaryStrobe Sys2Proof.Proofs.StationMode Sys2Proof.Proofs.Commands

/-! ## Consecutive PSNs (R13) -/

theorem consecutive_suffix {l m : List Slot} (h : Consecutive m) (hl : l <:+ m) : Consecutive l := by
  induction m with
  | nil => rw [List.suffix_nil.1 hl]; trivial
  | cons a m ih =>
    obtain rfl | hl := List.suffix_cons_iff.1 hl
    · exact h
    · refine ih ?_ hl
      cases m with
      | nil => trivial
      | cons b m => exact h.2

theorem consecutive_append {l : List Slot} {b : Slot} (h : Consecutive l) (hb : ∀ a, l.getLast? = some a → a + 1 = b) :
    Consecutive (l ++ [b]) := by
  induction l with
  | nil => trivial
  | cons a l ih =>
    cases l with
    | nil => exact ⟨(hb a rfl).symm, trivial⟩
    | cons a' l => exact ⟨h.1, ih h.2 fun d hd => hb d (by rw [List.getLast?_cons_cons]; exact hd)⟩

/-! ## The index joined to the period -/

/-- The index is in order, holds at most 4,096 records, and joins the open period; without one it is empty, as it is at a
station whose reference is present. -/
structure IndexJoined (ix : List SlotRecord) (period : Option Slot) : Prop where
  consecutive : Consecutive (ix.map SlotRecord.psn)
  length : ix.length ≤ 4096
  joined : ∀ x, period = some x → ∀ r, ix.getLast? = some r → r.psn + 1 = x
  empty : period = none → ix = []

theorem IndexJoined.suffix {ix jx : List SlotRecord} {p : Option Slot} (h : IndexJoined ix p) (hs : jx <:+ ix) :
    IndexJoined jx p where
  consecutive := consecutive_suffix h.consecutive (hs.map _)
  length := hs.length_le.trans h.length
  joined x hx r hr := by
    obtain ⟨front, rfl⟩ := hs
    refine h.joined x hx r ?_
    rw [List.getLast?_append, hr, Option.some_or]
  empty hp := by
    rw [h.empty hp] at hs
    exact List.suffix_nil.1 hs

theorem indexJoined_nil (x : Slot) : IndexJoined [] (some x) := ⟨trivial, Nat.zero_le _, nofun, nofun⟩

/-- R14: the record of the period just ended joins the index, which then joins the next period. -/
theorem IndexJoined.append {ix : List SlotRecord} {x : Slot} (h : IndexJoined ix (some x)) (hroom : ix.length < 4096)
    {r : SlotRecord} (hr : r.psn = x) : IndexJoined (ix ++ [r]) (some (x + 1)) where
  consecutive := by
    rw [List.map_append]
    refine consecutive_append h.consecutive fun a ha => ?_
    rw [List.getLast?_map, Option.map_eq_some_iff] at ha
    obtain ⟨d, hd, rfl⟩ := ha
    exact (h.joined x rfl d hd).trans hr.symm
  length := by
    rw [List.length_append]
    exact hroom
  joined y hy d hd := by
    rw [List.getLast?_append, List.getLast?_singleton, Option.some_or] at hd
    rw [← Option.some.inj hd, hr]
    exact Option.some.inj hy
  empty := nofun

/-! ## The operations that shorten the index -/

/-- An operation that leaves the ingress alone and removes records from the head of the index at most. -/
structure Trims (s t : State) : Prop where
  index : t.index <:+ s.index
  ingress : t.ingress = s.ingress

theorem Trims.refl (s : State) : Trims s s := ⟨List.suffix_refl _, rfl⟩

theorem Trims.trans {s t u : State} (h : Trims s t) (k : Trims t u) : Trims s u :=
  ⟨k.index.trans h.index, k.ingress.trans h.ingress⟩

theorem Trims.of_keeps {s t : State} (h : KeepsEssence s t) : Trims s t := ⟨h.index_eq ▸ List.suffix_refl _, h.ingress_eq⟩

theorem Trims.joined {s t : State} (h : Trims s t) (hj : IndexJoined s.index s.ingress.period) :
    IndexJoined t.index t.ingress.period := by
  rw [h.ingress]
  exact hj.suffix h.index

theorem removePassed_index (s : State) (c : Settings) (pt : SchedPoint) : (s.removePassed c pt).index <:+ s.index := by
  unfold State.removePassed
  split
  · exact List.dropWhile_suffix _
  · exact List.suffix_refl _

theorem strobeOutput_trims (s : State) (c : Settings) (x : Slot) : Trims s (s.strobeOutput c x) := by
  have played (pt : SchedPoint) : (s.playStep c pt).index <:+ s.index := by
    have before := (endBursts_keeps s fun _ => true).trans (output_keeps _ c pt)
    unfold State.playStep
    rw [(scheduleHeld_cueOnly _ _).keeps.index_eq]
    refine (removePassed_index _ c pt).trans ?_
    rw [State.withPlan_index, before.index_eq]
  refine ⟨?_, (sameSlot_strobeOutput s c x).2⟩
  unfold State.strobeOutput State.outputStep
  split
  · split
    · exact played _
    · exact List.suffix_refl _
  · exact (List.dropWhile_suffix _).trans ((substituteStep_keeps s c x).index_eq ▸ List.suffix_refl _)

theorem takePart_trims (s : State) (c : Settings) (x : Slot) (own : Bool) {p : StrobePart} (hp : p ≠ .slotClose) :
    Trims s (s.takePart c x own p) := by
  cases p with
  | traffic => exact .of_keeps (trafficStrobe_cueOnly s x own).keeps
  | slotClose => exact absurd rfl hp
  | outputStep => exact strobeOutput_trims s c x
  | intake => exact .of_keeps (intake_keeps s c x own)
  | proposal => exact .of_keeps (proposalEvent_cueOnly s c x).keeps
  | monitor => exact .of_keeps (monitorStrobe_keeps s c x own)

theorem takeParts_trims {parts : List StrobePart} (hp : .slotClose ∉ parts) (s : State) (c : Settings) (x : Slot)
    (own : Bool) (done : List StrobePart) : Trims s (s.takeParts c x own done parts) := by
  induction parts generalizing s done with
  | nil => exact .refl s
  | cons p rest ih =>
    obtain ⟨hne, hrest⟩ := not_or.1 (mt List.mem_cons.2 hp)
    have part := takePart_trims s c x own (Ne.symm hne)
    refine Trims.trans ?_ (ih hrest _ _)
    split
    · exact part.trans (.of_keeps (completeEntryAt_keeps _ c x))
    · exact part

/-! ## The slot close (R14, R17) -/

theorem dropRecord_index (s : State) (code : Nat) (r : SlotRecord) : (s.dropRecord code r).index = s.index :=
  (endBursts_keeps s _).index_eq

theorem forceRelease_index (s : State) (code : Nat) :
    (s.forceRelease code).index = if 4096 ≤ s.index.length then s.index.tail else s.index := by
  unfold State.forceRelease
  split
  next h => simp [h]
  next r rest h =>
    rw [h]
    split <;> simp_all [Config.indexCapacity]

theorem append_index (s : State) (code : Nat) (r : SlotRecord) :
    (s.append code r).index = (if 4096 ≤ s.index.length then s.index.tail else s.index) ++ [r] := by
  rw [← forceRelease_index s code]
  rfl

theorem closeAndTag_index (s : State) (c : Settings) (x : Slot) : (s.closeAndTag c x).index = (s.closeSlot c x).index := by
  unfold State.closeAndTag
  split
  · split
    · exact (maskTagRequest_keeps _ c _).index_eq
    · rfl
  · rfl

theorem closeSlot_joined {s : State} {h : Slot} (hj : IndexJoined s.index s.ingress.period)
    (hnext : ∀ x, s.ingress.period = some x → h = x + 1) (c : Settings) :
    IndexJoined (s.closeSlot c h).index (some h) := by
  unfold State.closeSlot
  split
  next hp =>
    show IndexJoined s.index (some h)
    rw [hj.empty hp]
    exact indexJoined_nil h
  next x hp =>
    rw [hp] at hj
    rw [hnext x hp]
    show IndexJoined (State.append _ _ _).index _
    rw [append_index]
    split
    next hfull =>
      refine (hj.suffix (List.tail_suffix _)).append ?_ (Ingress.record_psn _ c x)
      have := hj.length
      rw [List.length_tail]
      simp only [State.withIngress_index] at hfull
      omega
    next hroom => exact hj.append (Nat.lt_of_not_le hroom) (Ingress.record_psn _ c x)

/-- R2, R14: the parts of an ordinary strobe of `h`, in every order, leave the index in order and joined to `h`. -/
theorem takeParts_joined {s : State} {h : Slot} (hj : IndexJoined s.index s.ingress.period)
    (hnext : ∀ x, s.ingress.period = some x → h = x + 1) (c : Settings) (own : Bool) (o : StrobeOrder) :
    IndexJoined (s.takeParts c h own [] (partSequence o)).index (some h) := by
  obtain ⟨pre, post, heq, hpre, hpost⟩ := split_at_part (count_partSequence (p := .slotClose) nofun o)
  rw [heq, takeParts_append]
  have before := takeParts_trims hpre s c h own []
  have closed := closeSlot_joined (before.joined hj) (by rwa [before.ingress]) c
  rw [← closeAndTag_index] at closed
  refine IndexJoined.suffix ?_ (takeParts_trims hpost _ c h own _).index
  split
  · rw [(completeEntryAt_keeps _ c h).index_eq]
    exact closed
  · exact closed

/-! ## The loss of reference and the return (R3, R4) -/

theorem loseIngress_leaves (s : State) (c : Settings) :
    (s.loseIngress c).ingress.period = none ∧ (s.loseIngress c).index = s.index ∧ (s.loseIngress c).ref = s.ref := by
  unfold State.loseIngress
  split
  next h => exact ⟨h, rfl, rfl⟩
  next => exact ⟨rfl, rfl, rfl⟩

/-- R3, R46: the loss of reference closes the period without a record and keeps the index. -/
theorem loseReference_leaves (s : State) (c : Settings) :
    (s.loseReference c).ingress.period = none ∧ (s.loseReference c).index = s.index ∧
      (s.loseReference c).ref = ⟨s.ref.hsn, .lost, false⟩ := by
  have settled := settle_keeps s c
  obtain ⟨period, index, ref⟩ := loseIngress_leaves
    ((s.settle c).withRef { (s.settle c).ref with flag := .lost, timerRunning := false }) c
  have after := ((loseTraffic_cueOnly (((s.settle c).withRef
    { (s.settle c).ref with flag := .lost, timerRunning := false }).loseIngress c)).trans (loseMonitor_cueOnly _)).keeps
  refine ⟨(congrArg Ingress.period after.ingress_eq).trans period,
    after.index_eq.trans (index.trans settled.index_eq), after.ref_eq.trans (ref.trans ?_)⟩
  show RefUnit.mk (s.settle c).ref.hsn .lost false = _
  rw [settled.ref_eq]

/-- R4: what a return does after the store discard and the opening of the period leaves the essence side alone. -/
theorem takeReturn_keeps (s : State) (c : Settings) (h : Slot) :
    KeepsEssence ((((s.withRef (.strobe h)).returnEgress c h).discardStore c).withIngress (.opening c h 0))
      (s.takeReturn c h) :=
  (returnTraffic_cueOnly _).keeps.trans (enterListening_keeps _)

/-- R4: a return leaves an empty index, the period of its HSN and a reference that is present. -/
theorem takeReturn_leaves (s : State) (c : Settings) (h : Slot) :
    (s.takeReturn c h).index = [] ∧ (s.takeReturn c h).ingress = .opening c h 0 ∧ (s.takeReturn c h).ref = .strobe h := by
  have egress := (returnEgress_keeps (s.withRef (.strobe h)) c h).ref_eq
  have kept := takeReturn_keeps s c h
  refine ⟨?index, ?ingress, ?ref⟩
  case index =>
    rw [kept.index_eq]
    rfl
  case ingress =>
    rw [kept.ingress_eq]
    rfl
  case ref =>
    rw [kept.ref_eq, State.withIngress_ref, State.discardStore, State.withStore_ref, State.withIndex_ref, egress,
      State.withRef_ref]

/-! ## The input port leaves the period open -/

theorem takeHeader_period (g : Ingress) (c : Settings) (pos : Fin 4) (header : HeaderRead) :
    (g.takeHeader c pos header).period = g.period := by
  unfold Ingress.takeHeader
  split
  · rfl
  · unfold Ingress.burstStart
    dsimp only
    split
    · rfl
    · split
      · rfl
      · split
        · rfl
        · split <;> rfl

theorem burstEnd_period (g : Ingress) (pos : Fin 4) : (g.burstEnd pos).period = g.period := by
  unfold Ingress.burstEnd
  split
  · rfl
  · split
    · split <;> rfl
    · rfl

theorem storeByte_period (s : State) (sound : Bool) (lane : Nat) (e : LaneEntry) (b : Byte) :
    (s.storeByte sound lane e b).ingress.period = s.ingress.period := by
  unfold State.storeByte
  dsimp only [State.withIngress_ingress]
  split <;> rfl

theorem takeByte_period (s : State) (c : Settings) (lane : Nat) (e : LaneEntry) (b : Byte) :
    (s.takeByte c lane e b).ingress.period = s.ingress.period := by
  have paged (u : LaneEntry) (sound : Bool) : (s.storeOnNewPage c sound lane u b).ingress.period = s.ingress.period := by
    unfold State.storeOnNewPage
    split
    · rfl
    · split
      · rfl
      · exact storeByte_period _ _ _ _ _
  unfold State.takeByte
  dsimp only
  split
  · rfl
  · split
    · rfl
    · split
      · exact paged _ _
      · exact storeByte_period s _ _ _ _

theorem exec_input_period {i : Instr} (hi : isInputCommand i = true) (s : State) :
    Answers (fun s t => t.ingress.period = s.ingress.period) s (exec i s) := by
  cases i with
  | burstStart pos header =>
    simp only [exec, execBurstStart]
    split
    · exact answers_next (takeHeader_period _ _ pos header)
    · exact answers_next rfl
  | essenceByte pos b =>
    simp only [exec, execEssenceByte]
    split
    · split
      · exact answers_ite (takeByte_period s _ _ _ b) rfl
      · exact answers_next rfl
    · exact answers_next rfl
  | burstEnd pos => exact answers_next (burstEnd_period _ pos)
  | _ => cases hi

/-! ## A station without settings (R22, R49) -/

theorem unconfigured_of_same {s t : State} (h : Unconfigured s) (hindex : t.index = s.index)
    (hperiod : t.ingress.period = s.ingress.period) (hsettings : t.settings = s.settings) (hmode : NeverRestarts s t) :
    Unconfigured t := by
  unfold Unconfigured
  rw [hindex, hperiod, hsettings]
  exact ⟨h.1, h.2 ∘ hmode⟩

theorem unconfigured_of_settings {t : State} {c : Settings} (hc : t.settings = some c) (hm : t.mon.mode ≠ .configuring) :
    Unconfigured t := by
  refine ⟨fun hn => ?_, fun h => absurd h hm⟩
  rw [hc] at hn
  cases hn

theorem mode_ne_of_settings {s : State} {c : Settings} (h : Unconfigured s) (hc : s.settings = some c) :
    s.mon.mode ≠ .configuring := fun hm => by
  have := h.2 hm
  rw [hc] at this
  cases this

/-! ## The commands of the reference -/

theorem indexOrdered_of_same {s t : State} (h : IndexOrdered s) (hindex : t.index = s.index)
    (hperiod : t.ingress.period = s.ingress.period) (href : t.ref = s.ref) (hsettings : t.settings = s.settings)
    (hmode : NeverRestarts s t) : IndexOrdered t := by
  obtain ⟨consecutive, length, opened, closed, unconfigured⟩ := h
  unfold IndexOrdered
  rw [hindex, hperiod, href]
  exact ⟨consecutive, length, opened, closed, unconfigured_of_same unconfigured hindex hperiod hsettings hmode⟩

theorem indexOrdered_of_joined {t : State} {h : Slot} (hj : IndexJoined t.index (some h))
    (hperiod : t.ingress.period = some h) (href : t.ref = .strobe h) (hu : Unconfigured t) : IndexOrdered t := by
  refine ⟨hj.consecutive, hj.length, fun x hx => ?_, fun hn => ?_, hu⟩
  · rw [hperiod] at hx
    exact ⟨by rw [href]; rfl, by rw [href, ← hx]; rfl, hj.joined x hx⟩
  · rw [hperiod] at hn
    cases hn

/-- A station whose reference is lost, or that has no records, without an open period. -/
theorem indexOrdered_of_closed {t : State} (hc : Consecutive (t.index.map SlotRecord.psn)) (hl : t.index.length ≤ 4096)
    (hperiod : t.ingress.period = none) (hempty : t.ref.flag = .present → t.index = []) (hu : Unconfigured t) :
    IndexOrdered t := by
  refine ⟨hc, hl, fun x hx => ?_, fun _ => hempty, hu⟩
  rw [hperiod] at hx
  cases hx

theorem indexOrdered_takeReturn {s : State} {c : Settings} (hc : s.settings = some c) (h : Slot) :
    IndexOrdered (s.takeReturn c h) := by
  obtain ⟨index, ingress, ref⟩ := takeReturn_leaves s c h
  obtain ⟨-, -, -, settings, -, -⟩ := takeReturn_faults s c h
  refine indexOrdered_of_joined ?_ (by rw [ingress]; rfl) ref (unconfigured_of_settings (settings.trans hc) nofun)
  rw [index]
  exact indexJoined_nil h

theorem indexOrdered_ordinaryStrobe {s : State} (hs : IndexOrdered s) {c : Settings} (hc : s.settings = some c) {h : Slot}
    (hflag : s.ref.flag = .present) (hnext : s.ref.follows h = true) (o : StrobeOrder) :
    IndexOrdered (s.ordinaryStrobe c h o) := by
  obtain ⟨consecutive, length, opened, closed, unconfigured⟩ := hs
  obtain ⟨ref, ⟨period, -, -⟩, -, -, settings, -⟩ := ordinaryStrobe_leaves c h o s hc
  have settled := settle_keeps s c
  have joined : IndexJoined s.index s.ingress.period :=
    ⟨consecutive, length, fun x hx => (opened x hx).2.2, fun hp => closed hp hflag⟩
  have next : ∀ x, s.ingress.period = some x → h = x + 1 := fun x hx => by
    obtain ⟨-, hsn, -⟩ := opened x hx
    simpa [RefUnit.follows, hsn] using hnext
  refine indexOrdered_of_joined (takeParts_joined (s := (s.settle c).withRef (.strobe h)) ?_ ?_ c o.ownSteps o) period ref
    (unconfigured_of_settings settings fun hm =>
      mode_ne_of_settings unconfigured hc (ordinaryStrobe_restarts s c h o hm))
  · show IndexJoined (s.settle c).index (s.settle c).ingress.period
    rw [settled.index_eq, settled.ingress_eq]
    exact joined
  · show ∀ x, (s.settle c).ingress.period = some x → h = x + 1
    rw [settled.ingress_eq]
    exact next

theorem indexOrdered_takeStrobe {s : State} (hs : IndexOrdered s) (h : Slot) (o : StrobeOrder) :
    IndexOrdered (s.takeStrobe h o) := by
  unfold State.takeStrobe
  split
  next c hc =>
    unfold State.configuredStrobe
    split
    · exact indexOrdered_takeReturn hc h
    next hflag =>
      have present : s.ref.flag = .present := by
        cases hf : s.ref.flag with
        | present => rfl
        | lost => exact absurd hf hflag
      split
      next hnext => exact indexOrdered_ordinaryStrobe hs hc present hnext o
      · obtain ⟨-, -, -, settings, -, -⟩ := loseReference_faults s c
        exact indexOrdered_takeReturn (settings.trans hc) h
  next hn =>
    obtain ⟨-, -, -, -, unconfigured⟩ := hs
    obtain ⟨index, period⟩ := unconfigured.1 hn
    have bare : (s.bareStrobe h).index = s.index ∧ (s.bareStrobe h).ingress = s.ingress ∧
        (s.bareStrobe h).settings = s.settings ∧ (s.bareStrobe h).mon = s.mon := by
      unfold State.bareStrobe
      dsimp only
      split <;> exact ⟨rfl, rfl, rfl, rfl⟩
    obtain ⟨hindex, hingress, hsettings, hmon⟩ := bare
    rw [index] at hindex
    refine indexOrdered_of_closed (by rw [hindex]; trivial) (by rw [hindex]; exact Nat.zero_le _)
      (by rw [hingress, period]) (fun _ => hindex) ?_
    exact unconfigured_of_same unconfigured (hindex.trans index.symm) (by rw [hingress]) hsettings (.of_mon hmon)

theorem indexOrdered_timeoutReference {s : State} (hs : IndexOrdered s) : IndexOrdered s.timeoutReference := by
  obtain ⟨consecutive, length, -, -, unconfigured⟩ := hs
  unfold State.timeoutReference
  split
  next c hc =>
    obtain ⟨period, index, ref⟩ := loseReference_leaves s c
    obtain ⟨-, -, -, settings, -, -⟩ := loseReference_faults s c
    refine indexOrdered_of_closed (by rw [index]; exact consecutive) (by rw [index]; exact length) period (fun hf => ?_)
      (unconfigured_of_settings (settings.trans hc) nofun)
    rw [ref] at hf
    cases hf
  next hn =>
    exact indexOrdered_of_closed consecutive length (unconfigured.1 hn).2 nofun unconfigured

theorem indexOrdered_configure {s : State} (hs : IndexOrdered s) (hm : s.mon.mode = .configuring) (c : Settings) :
    IndexOrdered (s.configure c) := by
  obtain ⟨-, -, -, -, unconfigured⟩ := hs
  obtain ⟨index, -⟩ := unconfigured.1 (unconfigured.2 hm)
  have kept : (s.configure c).index = [] := index
  exact indexOrdered_of_closed (by rw [kept]; trivial) (by rw [kept]; exact Nat.zero_le _) rfl (fun _ => kept)
    (unconfigured_of_settings (c := c) rfl nofun)

theorem indexOrdered_failConfig {s : State} (hs : IndexOrdered s) (hm : s.mon.mode = .configuring) :
    IndexOrdered s.failConfig := by
  obtain ⟨-, -, -, -, unconfigured⟩ := hs
  have period := (unconfigured.1 (unconfigured.2 hm)).2
  exact indexOrdered_of_closed trivial (Nat.zero_le _) period (fun _ => rfl) ⟨fun _ => ⟨rfl, period⟩, nofun⟩

theorem exec_reference_indexOrdered {i : Instr} (hi : isReferenceCommand i = true) {s : State} (hs : IndexOrdered s) :
    Answers (fun _ t => IndexOrdered t) s (exec i s) := by
  cases i with
  | configReadComplete bytes =>
    simp only [exec, execConfigReadComplete]
    split
    next hm =>
      split
      · exact answers_next (indexOrdered_configure hs hm _)
      · exact answers_next (indexOrdered_failConfig hs hm)
    next => exact answers_next hs
  | ordinaryStrobe x o => exact answers_next (indexOrdered_takeStrobe hs x o)
  | referenceReturn x => exact answers_next (indexOrdered_takeStrobe hs x _)
  | referenceBreak x => exact answers_next (indexOrdered_takeStrobe hs x _)
  | referenceLossTimeout => exact answers_ite (indexOrdered_timeoutReference hs) hs
  | _ => cases hi

/-! ## Every step -/

theorem indexOrdered_of_aside {s t : State} (hs : IndexOrdered s) (h : Aside s t) : IndexOrdered t := by
  obtain ⟨side, mode⟩ := h
  have fields := side.1
  exact indexOrdered_of_same hs (by rw [fields]) (by rw [fields]) (by rw [fields]) (by rw [fields]) mode

theorem indexOrdered_reset (cause : ResetCause) (k : Station) (levels : PerContact Level) {s t : State}
    (ht : exec (.reset cause k levels) s = .next t) : IndexOrdered t := by
  rw [← Host.Outcome.next.inj ht]
  exact indexOrdered_of_closed trivial (Nat.zero_le _) rfl (fun _ => rfl) ⟨fun _ => ⟨rfl, rfl⟩, fun _ => rfl⟩

theorem indexOrdered_exec {i : Instr} {s t : State} (hs : IndexOrdered s) (ht : exec i s = .next t) : IndexOrdered t := by
  obtain ⟨cause, k, levels, rfl⟩ | ha | hin | hr := command_cases i
  · exact indexOrdered_reset cause k levels ht
  · exact indexOrdered_of_aside hs ((exec_aside ha s).of_eq ht)
  · have period := (exec_input_period hin s).of_eq ht
    have fields := ((exec_input hin s).of_eq ht).1
    exact indexOrdered_of_same hs (by rw [fields]) period (by rw [fields]) (by rw [fields])
      (.of_mon (by rw [fields]))
  · exact (exec_reference_indexOrdered hr hs).of_eq ht

theorem elapse_aside (s : State) : Aside s s.elapse := by
  refine ⟨elapse_linkSide s, .of_mode ?_⟩
  unfold State.elapse
  split <;> rfl

/-- What every command keeps of a state, whatever the queue holds, every step keeps. -/
theorem step_keeps {P : State → Prop} (pending : ∀ (s : State) (rest : List Instr), P s → P (s.withPending rest))
    (elapsed : ∀ s : State, P s → P s.elapse) (executed : ∀ (i : Instr) (s t : State), P s → exec i s = .next t → P t)
    {s t : State} (hs : P s) (ht : step s = .next t) : P t := by
  unfold step at ht
  split at ht
  · exact Host.Outcome.next.inj ht ▸ elapsed s hs
  · exact executed _ _ t (pending s _ hs) ht

/-- Settles O59: each command keeps the index joined to the open period; an ordinary strobe takes the slot close once, and
its other parts remove records from the head at most. -/
theorem stepKeepsIndexOrder : Obligations.StepKeepsIndexOrder := fun _ _ hs ht =>
  step_keeps (fun _ _ h => h) (fun s h => indexOrdered_of_aside h (elapse_aside s)) (fun _ _ _ => indexOrdered_exec) hs ht

end Sys2Proof.Proofs.IndexOrder
end

