-- ==== Sys2Proof/Proofs/StationRecord.lean ====
section
/-! SUPPORT. The configuration record: its check and ranges, the settings of its fields, and what an accepted or a failed
one leaves (R180 to R183, 12.3). -/

namespace Sys2Proof.Proofs.StationRecord

open Sys2Proof Sys2Proof.Machine

/-! ## The fields (12.3) -/

theorem recordByte_le (b : List Byte) (i : Nat) : recordByte b i ≤ 255 := Nat.le_of_lt_succ (BitVec.isLt _)

theorem recordWord_lt (b : List Byte) (i : Nat) : recordWord b i < 65536 := by
  have := recordByte_le b i
  have := recordByte_le b (i + 1)
  unfold recordWord
  omega

theorem recordCheckGood_iff (b : List Byte) :
    recordCheckGood b = true ↔ b.length = 64 ∧ (crc16 (bytesBits (b.take 62))).toNat = recordWord b 62 := by
  simp only [recordCheckGood, Bool.and_eq_true, beq_iff_eq]

/-- R181: the ranges of the fields. -/
theorem recordFieldsGood_iff (b : List Byte) :
    recordFieldsGood b = true ↔
      (1 ≤ recordByte b 0 ∧ recordByte b 0 ≤ 5) ∧ recordByte b 1 = (planQuarters (recordByte b 0)).length ∧
        (∀ i, i < recordByte b 1 → 1 ≤ recordByte b (2 + i) ∧ recordByte b (2 + i) ≤ 3) ∧
        (100 ≤ recordWord b 6 ∧ recordWord b 6 ≤ 3000) ∧ (25 ≤ recordWord b 8 ∧ recordWord b 8 ≤ 1000) ∧
        (1 ≤ recordByte b 11 ∧ recordByte b 11 ≤ 16) ∧ (1 ≤ recordByte b 12 ∧ recordByte b 12 ≤ 4) ∧
        (1 ≤ recordByte b 13 ∧ recordByte b 13 ≤ 2) ∧ (25 ≤ recordWord b 14 ∧ recordWord b 14 ≤ 1000) ∧
        1 ≤ recordByte b 16 ∧ 1 ≤ recordByte b 17 ∧ (1 ≤ recordByte b 18 ∧ recordByte b 18 ≤ 50) ∧
        recordByte b 19 ≤ 200 ∧ (10 ≤ recordByte b 20 ∧ recordByte b 20 ≤ 250) ∧
        (1 ≤ recordByte b 21 ∧ recordByte b 21 ≤ 2) ∧ recordByte b 22 ≤ 31 ∧ recordByte b 23 ≤ 3 ∧
        (1 ≤ recordByte b 28 ∧ recordByte b 28 ≤ 15) ∧ (1 ≤ recordByte b 29 ∧ recordByte b 29 ≤ 15) ∧
        (1 ≤ recordByte b 30 ∧ recordByte b 30 ≤ 2) ∧ (1 ≤ recordByte b 31 ∧ recordByte b 31 ≤ 2) ∧
        recordByte b 32 = 1 ∧ recordByte b 33 ≤ 50 := by
  simp only [recordFieldsGood, laneMaskGood, inRange, Bool.and_eq_true, decide_eq_true_eq, beq_iff_eq, List.all_eq_true,
    List.mem_range, and_assoc, Nat.zero_le, true_and, recordByte_le]

theorem parseRecord_isSome_iff (b : List Byte) :
    (parseRecord b).isSome = true ↔ recordCheckGood b = true ∧ recordFieldsGood b = true := by
  unfold parseRecord
  rw [← Bool.and_eq_true]
  split <;> simp_all

theorem parseRecord_eq_some {b : List Byte} {c : Settings} (h : parseRecord b = some c) :
    recordFieldsGood b = true ∧ c = recordFields b := by
  unfold parseRecord at h
  split at h
  next good => exact ⟨((Bool.and_eq_true _ _).mp good).2, (Option.some.inj h).symm⟩
  next => cases h

/-! ## The lanes -/

/-- The kind of the lane with kind byte `n`, where `n` is in its range. -/
theorem laneKindOf_getD {n : Nat} (h : 1 ≤ n ∧ n ≤ 3) : laneKindOf n = some ((laneKindOf n).getD .data) := by
  obtain rfl | rfl | rfl : n = 1 ∨ n = 2 ∨ n = 3 := by omega
  all_goals rfl

theorem recordFields_lanes {b : List Byte}
    (h : ∀ i, i < recordByte b 1 → 1 ≤ recordByte b (2 + i) ∧ recordByte b (2 + i) ≤ 3) :
    (recordFields b).lanes =
      (List.range (recordByte b 1)).map (fun i => (laneKindOf (recordByte b (2 + i))).getD .data) := by
  rw [← List.filterMap_eq_map]
  exact List.filterMap_congr fun i hi => laneKindOf_getD (h i (List.mem_range.1 hi))

/-- R181: a record whose fields are good gives the settings of its fields. -/
theorem recordSettings_recordFields {b : List Byte} (hg : recordFieldsGood b = true) : RecordSettings b (recordFields b) := by
  obtain ⟨-, -, kinds, -, -, -, -, -, -, -, -, -, -, -, -, -, -, maskLanes, commitLanes, -⟩ := (recordFieldsGood_iff b).1 hg
  have lanes := recordFields_lanes kinds
  have lane (i : Nat) (hi : i < recordByte b 1) :
      (recordFields b).lanes[i]? = some ((laneKindOf (recordByte b (2 + i))).getD .data) := by
    rw [lanes, List.getElem?_map, List.getElem?_range hi]
    rfl
  have word (i : Nat) : (BitVec.ofNat 16 (recordWord b i)).toNat = recordWord b i :=
    Nat.mod_eq_of_lt (recordWord_lt b i)
  have nibble {n : Nat} (h : 1 ≤ n ∧ n ≤ 15) : (BitVec.ofNat 4 n).toNat = n := Nat.mod_eq_of_lt (by omega)
  refine ⟨rfl, by rw [lanes]; simp, fun i hi => ⟨fun h => ?_, fun h => ?_, fun h => ?_⟩, rfl, rfl, rfl, rfl, rfl,
    fun h => if_pos h, fun h => if_neg (by omega), rfl, rfl, rfl, rfl, rfl, rfl, rfl, rfl, ?breakBit, ?maskBit, word 24,
    word 26, nibble maskLanes, nibble commitLanes, fun h => if_pos h, fun h => if_neg (by omega), fun h => if_pos h,
    fun h => if_neg (by omega), rfl⟩
  · rw [lane i hi, h]; rfl
  · rw [lane i hi, h]; rfl
  · rw [lane i hi, h]; rfl
  case breakBit => simp [recordFields, Nat.testBit_zero]
  case maskBit => simp [recordFields, Nat.testBit_succ, Nat.testBit_zero]

/-- Settles O5: the check and the ranges decide, and the settings are read off field by field. -/
theorem recordJudgement : Obligations.RecordJudgement := by
  refine ⟨fun b c h => ?settings, fun b => ?accepted⟩
  case settings =>
    obtain ⟨good, rfl⟩ := parseRecord_eq_some h
    exact recordSettings_recordFields good
  case accepted => rw [parseRecord_isSome_iff, recordCheckGood_iff, recordFieldsGood_iff, and_assoc]

/-- R21, R181: an accepted record names as many lanes as its lane plan has. -/
theorem planQuarters_length {b : List Byte} {c : Settings} (h : parseRecord b = some c) :
    (planQuarters c.planCode).length = c.lanes.length := by
  obtain ⟨good, rfl⟩ := parseRecord_eq_some h
  obtain ⟨-, count, kinds, -⟩ := (recordFieldsGood_iff b).1 good
  rw [recordFields_lanes kinds, List.length_map, List.length_range]
  exact count.symm

/-! ## The record in force (R182) and CONFIG-FAULT (R183) -/

theorem fullLanes_length (code : Nat) : (fullLanes code).length = (planQuarters code).length := by simp [fullLanes]

theorem fullLanes_getElem? {code i : Nat} {l : LaneStore} (h : (fullLanes code)[i]? = some l) : l = LaneStore.full code i := by
  simp only [fullLanes, List.getElem?_map, Option.map_eq_some_iff] at h
  obtain ⟨j, hj, rfl⟩ := h
  rw [(List.getElem?_eq_some_iff.1 hj).2.symm, List.getElem_range]

theorem configure_lanes (s : State) (c : Settings) : (s.configure c).egress.lanes = c.lanes.map laneKept := by
  show (c.lanes.map LaneKind.egress).map EgressLane.clearHold = c.lanes.map laneKept
  rw [List.map_map]
  refine List.map_congr_left fun k _ => ?_
  cases k <;> rfl

/-- Settles O6: the record in force, and the entry to CONFIG-FAULT. -/
theorem configRead : Obligations.ConfigRead := by
  intro bytes s hm
  have read : exec (.configReadComplete bytes) s =
      match parseRecord bytes with
      | some c => .next (s.configure c)
      | none => .next s.failConfig := if_pos hm
  refine ⟨fun c hc => ⟨s.configure c, by rw [read, hc], rfl, fullLanes_length _, fun i l hl => fullLanes_getElem? hl, rfl,
    rfl, configure_lanes s c, rfl, rfl, rfl, rfl, rfl, rfl, rfl⟩, fun hn hoff => ⟨s.failConfig, by rw [read, hn], rfl, rfl,
    rfl, rfl, rfl, rfl, rfl, hoff, rfl, rfl, ?_⟩⟩
  simp [faultLit, State.failConfig, State.withMode]

end Sys2Proof.Proofs.StationRecord
end

