-- ==== Sys2Proof/Proofs/LaneAccounts.lean ====
section
/-! SUPPORT. The account of one lane's pages under release and allocation (R24 to R28), and the account of every lane for a
store, an index and the lane entries of the ingress. -/

namespace Sys2Proof.Proofs.LaneAccounts

open Sys2Proof Sys2Proof.Machine Sys2Proof.Safety
open Sys2Proof.Proofs.StationRecord

/-! ## One lane -/

/-- The free pages of a lane and the pages `held` are together its quota; the free count and the pressure flag agree with
the free list. -/
structure LaneHolds (code lane : Nat) (held : List PageNo) (l : LaneStore) : Prop where
  count : l.count = l.free.length
  pages : (l.free ++ held).Perm (lanePages code lane)
  pressure : PressureAgrees code lane l

theorem laneAccount_iff (s : State) (code lane : Nat) (l : LaneStore) :
    LaneAccount s code lane l ↔ LaneHolds code lane (recordPages s.index lane ++ burstPages s.ingress lane) l := by
  unfold LaneAccount
  rw [List.append_assoc]
  exact ⟨fun ⟨hc, hp, ha⟩ => ⟨hc, hp, ha⟩, fun ⟨hc, hp, ha⟩ => ⟨hc, hp, ha⟩⟩

theorem lowWatermark_le (code lane : Nat) : lowWatermark code lane ≤ highWatermark code lane := by
  unfold lowWatermark highWatermark
  omega

section Lane
variable {code lane : Nat} {held : List PageNo} {l : LaneStore}

theorem LaneHolds.of_perm (h : LaneHolds code lane held l) {held' : List PageNo} (hp : held'.Perm held) :
    LaneHolds code lane held' l :=
  ⟨h.count, (hp.append_left _).trans h.pages, h.pressure⟩

theorem laneHolds_full (code lane : Nat) : LaneHolds code lane [] (LaneStore.full code lane) where
  count := by simp [LaneStore.full, lanePages]
  pages := by simp [LaneStore.full]
  pressure := by
    refine ⟨fun hlow => ?_, fun _ => rfl⟩
    simp only [LaneStore.full, lowWatermark] at hlow
    omega

theorem LaneHolds.release {p : PageNo} (h : LaneHolds code lane (p :: held) l) :
    LaneHolds code lane held (l.release (highWatermark code lane) p) where
  count := by simp [LaneStore.release, h.count]
  pages := by simpa [LaneStore.release] using h.pages
  pressure := by
    obtain ⟨low, high⟩ := h.pressure
    have := lowWatermark_le code lane
    refine ⟨fun hl => ?_, fun hh => ?_⟩
    · simp only [LaneStore.release] at hl ⊢
      rw [low (by omega), decide_eq_false (by omega)]
      rfl
    · simp only [LaneStore.release] at hh ⊢
      rw [decide_eq_true hh, Bool.not_true, Bool.and_false]

/-- The lane with the pages of one list given back in list order (R25). -/
def givenBack (l : LaneStore) (code lane : Nat) (pages : List PageNo) : LaneStore :=
  pages.foldl (fun l p => l.release (highWatermark code lane) p) l

theorem LaneHolds.releaseAll {pages : List PageNo} (h : LaneHolds code lane (pages ++ held) l) :
    LaneHolds code lane held (givenBack l code lane pages) := by
  induction pages generalizing l with
  | nil => exact h
  | cons p rest ih => exact ih h.release

theorem LaneHolds.allocate {p : PageNo} {l' : LaneStore} (h : LaneHolds code lane held l)
    (ha : l.allocate (lowWatermark code lane) = some (p, l')) : LaneHolds code lane (p :: held) l' := by
  unfold LaneStore.allocate at ha
  split at ha
  · cases ha
  next q rest hfree =>
    obtain ⟨rfl, rfl⟩ := Prod.mk.inj (Option.some.inj ha)
    have hcount : l.count = rest.length + 1 := by rw [h.count, hfree, List.length_cons]
    obtain ⟨-, high⟩ := h.pressure
    have hle := lowWatermark_le code lane
    refine ⟨?count, ?pages, ?low, ?high⟩
    case count =>
      show l.count - 1 = rest.length
      omega
    case pages =>
      have := h.pages
      rw [hfree] at this
      exact List.perm_middle.trans this
    case low =>
      intro hl
      simp only at hl ⊢
      rw [decide_eq_true hl, Bool.or_true]
    case high =>
      intro hh
      simp only at hh ⊢
      rw [high (by omega), decide_eq_false (by omega)]
      rfl

end Lane

/-! ## The store's lanes under a release -/

theorem releaseLane_getElem? (st : PageStore) (code lane : Nat) (pages : List PageNo) (i : Nat) :
    (st.releaseLane code lane pages).lanes[i]? =
      st.lanes[i]?.map fun l => givenBack l code i (if lane = i then pages else []) := by
  unfold PageStore.releaseLane
  split
  next hn =>
    by_cases hi : lane = i
    · subst hi
      rw [hn]
      rfl
    · simp [hi, givenBack]
  next l hl =>
    rw [List.getElem?_set]
    split
    next hi =>
      subst hi
      obtain ⟨hlt, -⟩ := List.getElem?_eq_some_iff.1 hl
      rw [hl, if_pos hlt]
      rfl
    next => simp [givenBack]

/-- The pages that a list of page lists, one per lane from `lane` on, names for the lane `i`. -/
def pagesFor (lane i : Nat) (pagess : List (List PageNo)) : List PageNo :=
  if lane ≤ i then (pagess[i - lane]?).getD [] else []

theorem releaseLanes_getElem? (st : PageStore) (code lane : Nat) (pagess : List (List PageNo)) (i : Nat) :
    (st.releaseLanes code lane pagess).lanes[i]? =
      st.lanes[i]?.map fun l => givenBack l code i (pagesFor lane i pagess) := by
  induction pagess generalizing st lane with
  | nil => simp [PageStore.releaseLanes, pagesFor, givenBack]
  | cons pages rest ih =>
    have here : pagesFor lane i (pages :: rest) = if lane = i then pages else pagesFor (lane + 1) i rest := by
      unfold pagesFor
      by_cases hi : lane = i
      · simp [hi]
      · by_cases hlt : lane + 1 ≤ i
        · rw [if_pos (by omega), if_pos hlt, if_neg hi, show i - lane = i - (lane + 1) + 1 by omega,
            List.getElem?_cons_succ]
        · rw [if_neg (by omega), if_neg hlt, if_neg hi]
    have later : lane = i → pagesFor (lane + 1) i rest = [] := fun h => if_neg (by omega)
    rw [PageStore.releaseLanes, ih, releaseLane_getElem?, Option.map_map, here]
    congr 1
    funext l
    by_cases hi : lane = i
    · rw [Function.comp_apply, later hi, if_pos hi]
      rfl
    · rw [Function.comp_apply, if_neg hi, if_neg hi]
      rfl

theorem releaseLanes_zero_getElem? (st : PageStore) (code : Nat) (pagess : List (List PageNo)) (i : Nat) :
    (st.releaseLanes code 0 pagess).lanes[i]? =
      st.lanes[i]?.map fun l => givenBack l code i ((pagess[i]?).getD []) := by
  rw [releaseLanes_getElem?, pagesFor, if_pos (Nat.zero_le i), Nat.sub_zero]

theorem releaseLanes_length (st : PageStore) (code lane : Nat) (pagess : List (List PageNo)) :
    (st.releaseLanes code lane pagess).lanes.length = st.lanes.length := by
  induction pagess generalizing st lane with
  | nil => rfl
  | cons pages rest ih =>
    rw [PageStore.releaseLanes, ih]
    unfold PageStore.releaseLane
    split
    · rfl
    · exact List.length_set

/-! ## Every lane -/

/-- The pages of one lane that the lane entries list. -/
def entryPages (es : List LaneEntry) (lane : Nat) : List PageNo := ((es[lane]?).map LaneEntry.pages).getD []

theorem burstPages_eq (g : Ingress) (lane : Nat) : burstPages g lane = entryPages g.entries lane := rfl

/-- The account of every lane's pages for a store, an index and the lane entries: `LanesMatch` and `LaneAccount` together
(`accounts_iff`). -/
structure Accounts (c : Settings) (st : PageStore) (ix : List SlotRecord) (es : List LaneEntry) : Prop where
  plan : (planQuarters c.planCode).length = c.lanes.length
  store : st.lanes.length = c.lanes.length
  entries : es.length = c.lanes.length
  records : ∀ r ∈ ix, r.lanes.length = c.lanes.length
  lanes : ∀ i l, st.lanes[i]? = some l → LaneHolds c.planCode i (recordPages ix i ++ entryPages es i) l

theorem accounts_iff (s : State) (c : Settings) :
    (LanesMatch s c ∧ ∀ i l, s.store.lanes[i]? = some l → LaneAccount s c.planCode i l) ↔
      Accounts c s.store s.index s.ingress.entries := by
  simp only [laneAccount_iff, burstPages_eq]
  exact ⟨fun ⟨⟨plan, store, entries, records⟩, lanes⟩ => ⟨plan, store, entries, records, lanes⟩,
    fun ⟨plan, store, entries, records, lanes⟩ => ⟨⟨plan, store, entries, records⟩, lanes⟩⟩

theorem recordPages_cons (r : SlotRecord) (ix : List SlotRecord) (lane : Nat) :
    recordPages (r :: ix) lane = (((r.lanes.map LaneRecord.pages)[lane]?).getD []) ++ recordPages ix lane := by
  rw [List.getElem?_map]
  rfl

theorem recordPages_append (ix jx : List SlotRecord) (lane : Nat) :
    recordPages (ix ++ jx) lane = recordPages ix lane ++ recordPages jx lane := List.flatMap_append

theorem entryPages_freshEntries (c : Settings) (lane : Nat) : entryPages (freshEntries c) lane = [] := by
  unfold entryPages freshEntries
  rw [List.getElem?_map]
  cases c.lanes[lane]? <;> rfl

theorem freshEntries_length (c : Settings) : (freshEntries c).length = c.lanes.length := List.length_map _

section Store
variable {c : Settings} {st : PageStore} {ix : List SlotRecord} {es : List LaneEntry}

/-- R15: the pages of the head record go back as it leaves the index. -/
theorem Accounts.releaseRecord {r : SlotRecord} (h : Accounts c st (r :: ix) es) :
    Accounts c (st.releaseRecord c.planCode r) ix es where
  plan := h.plan
  store := (releaseLanes_length st _ _ _).trans h.store
  entries := h.entries
  records d hd := h.records d (List.mem_cons_of_mem r hd)
  lanes i l hl := by
    rw [PageStore.releaseRecord, releaseLanes_zero_getElem?, Option.map_eq_some_iff] at hl
    obtain ⟨l₀, hl₀, rfl⟩ := hl
    have held := h.lanes i l₀ hl₀
    rw [recordPages_cons, List.append_assoc] at held
    exact held.releaseAll

/-- R46: the pages of the lane entries go back as the period is lost. -/
theorem Accounts.releaseEntries (h : Accounts c st ix es) :
    Accounts c (st.releaseLanes c.planCode 0 (es.map LaneEntry.pages)) ix (freshEntries c) where
  plan := h.plan
  store := (releaseLanes_length st _ _ _).trans h.store
  entries := freshEntries_length c
  records := h.records
  lanes i l hl := by
    rw [releaseLanes_zero_getElem?, Option.map_eq_some_iff] at hl
    obtain ⟨l₀, hl₀, rfl⟩ := hl
    rw [entryPages_freshEntries, List.append_nil, List.getElem?_map]
    exact ((h.lanes i l₀ hl₀).of_perm List.perm_append_comm).releaseAll

/-- R34, R43: the pages of the entries pass to the record of the period, and fresh entries open the next one. -/
theorem Accounts.recorded (h : Accounts c st ix es) {r : SlotRecord}
    (hr : r.lanes = (es.map LaneEntry.atStrobe).map LaneEntry.record) : Accounts c st (ix ++ [r]) (freshEntries c) where
  plan := h.plan
  store := h.store
  entries := freshEntries_length c
  records d hd := by
    obtain hd | hd := List.mem_append.1 hd
    · exact h.records d hd
    · rw [List.mem_singleton.1 hd, hr, List.length_map, List.length_map]
      exact h.entries
  lanes i l hl := by
    have pages : recordPages [r] i = entryPages es i := by
      rw [recordPages_cons, hr, List.map_map, List.map_map, List.getElem?_map, entryPages]
      cases es[i]? with
      | none => rfl
      | some e =>
        show e.atStrobe.pages ++ [] = e.pages
        rw [LaneEntry.atStrobe_pages, List.append_nil]
    rw [recordPages_append, pages, entryPages_freshEntries, List.append_nil]
    exact h.lanes i l hl

/-- R34: entries without pages make room for fresh ones. -/
theorem Accounts.opened (h : Accounts c st ix es) (hes : ∀ e ∈ es, e.pages = []) : Accounts c st ix (freshEntries c) where
  plan := h.plan
  store := h.store
  entries := freshEntries_length c
  records := h.records
  lanes i l hl := by
    have none : entryPages es i = [] := by
      unfold entryPages
      cases he : es[i]? with
      | none => rfl
      | some e => exact hes e (List.mem_of_getElem? he)
    rw [entryPages_freshEntries, ← none]
    exact h.lanes i l hl

/-- R23, R32: every page of every lane is free where no record and no entry holds one. -/
theorem accounts_full (hp : (planQuarters c.planCode).length = c.lanes.length) (exhausted : Bool) :
    Accounts c ⟨fullLanes c.planCode, exhausted⟩ [] (freshEntries c) where
  plan := hp
  store := (fullLanes_length _).trans hp
  entries := freshEntries_length c
  records := nofun
  lanes i l hl := by
    rw [entryPages_freshEntries, fullLanes_getElem? hl]
    exact laneHolds_full _ _

theorem entryPages_set {lane : Nat} (hlt : lane < es.length) (e : LaneEntry) (i : Nat) :
    entryPages (es.set lane e) i = if lane = i then e.pages else entryPages es i := by
  unfold entryPages
  rw [List.getElem?_set]
  split
  next hi =>
    subst hi
    rfl
  next => rfl

/-- An entry changed that keeps its page list. -/
theorem Accounts.setEntry (h : Accounts c st ix es) {lane : Nat} {e e' : LaneEntry} (he : es[lane]? = some e)
    (hp : e'.pages = e.pages) : Accounts c st ix (es.set lane e') where
  plan := h.plan
  store := h.store
  entries := List.length_set.trans h.entries
  records := h.records
  lanes i l hl := by
    have kept : entryPages (es.set lane e') i = entryPages es i := by
      rw [entryPages_set (List.getElem?_eq_some_iff.1 he).1]
      split
      next hi => rw [hp, ← hi, entryPages, he]; rfl
      next => rfl
    rw [kept]
    exact h.lanes i l hl

/-- R24: a page of the lane's free list passes to the burst's page list. -/
theorem Accounts.allocate (h : Accounts c st ix es) {lane : Nat} {e e' : LaneEntry} (he : es[lane]? = some e) {l l' : LaneStore}
    {p : PageNo} (hl : st.lanes[lane]? = some l) (ha : l.allocate (lowWatermark c.planCode lane) = some (p, l'))
    (hp : e'.pages = e.pages ++ [p]) (exhausted : Bool) :
    Accounts c ⟨st.lanes.set lane l', exhausted⟩ ix (es.set lane e') where
  plan := h.plan
  store := List.length_set.trans h.store
  entries := List.length_set.trans h.entries
  records := h.records
  lanes i k hk := by
    rw [entryPages_set (List.getElem?_eq_some_iff.1 he).1]
    rw [List.getElem?_set] at hk
    split at hk
    next hi =>
      subst hi
      split at hk
      · obtain rfl := Option.some.inj hk
        have held := (h.lanes lane l hl).allocate ha
        rw [entryPages, he] at held
        rw [if_pos rfl, hp, ← List.append_assoc]
        exact held.of_perm List.perm_append_comm
      · cases hk
    next hi =>
      rw [if_neg hi]
      exact h.lanes i k hk

end Store

end Sys2Proof.Proofs.LaneAccounts
end

