-- ==== Sys2Proof/Proofs/PagesKept.lean ====
section
/-! SUPPORT. Every step keeps the account of the pages (R22, R26, R28): a page is free, or held by one record or one burst. -/

namespace Sys2Proof.Proofs.PagesKept

open Sys2Proof Sys2Proof.Machine Sys2Proof.Safety
open Sys2Proof.Proofs.StationMode Sys2Proof.Proofs.Commands Sys2Proof.Proofs.IndexOrder
open Sys2Proof.Proofs.StationRecord Sys2Proof.Proofs.LaneAccounts

/-! ## The account of a configured station -/

/-- The account of the pages at a station with the settings `c`. -/
structure Sound (c : Settings) (s : State) : Prop where
  accounts : Accounts c s.store s.index s.ingress.entries
  clean : EntriesClean s.ingress

theorem PagesAccounted.sound {s : State} {c : Settings} (h : PagesAccounted s) (hc : s.settings = some c) : Sound c s := by
  obtain ⟨clean, accounts, -, -⟩ := h
  exact ⟨(accounts_iff s c).1 (accounts c hc), clean⟩

theorem Sound.pagesAccounted {s : State} {c : Settings} (h : Sound c s) (hc : s.settings = some c) (hu : Unconfigured s) :
    PagesAccounted s := by
  refine ⟨h.clean, fun d hd => ?_, fun hn => ?_, hu⟩
  · obtain rfl := Option.some.inj (hc.symm.trans hd)
    exact (accounts_iff s c).2 h.accounts
  · rw [hc] at hn
    cases hn

theorem Sound.of_keeps {s t : State} {c : Settings} (h : Sound c s) (k : KeepsEssence s t) : Sound c t := by
  refine ⟨?_, ?_⟩
  · rw [k.store_eq, k.index_eq, k.ingress_eq]
    exact h.accounts
  · rw [k.ingress_eq]
    exact h.clean

theorem entriesClean_fresh {g : Ingress} {c : Settings} (hg : g.entries = freshEntries c) : EntriesClean g := by
  have fresh : ∀ e ∈ g.entries, e = LaneEntry.fresh := fun e he => by
    rw [hg] at he
    obtain ⟨_, -, rfl⟩ := List.mem_map.1 he
    rfl
  exact ⟨fun e he _ => by rw [fresh e he]; rfl, fun _ e he => by rw [fresh e he]; rfl⟩

/-! ## Removal from the index (R15 to R17) -/

theorem dropRecord_store (s : State) (code : Nat) (r : SlotRecord) :
    (s.dropRecord code r).store = s.store.releaseRecord code r := by
  unfold State.dropRecord
  dsimp only
  rw [State.withStore_store, (endBursts_keeps s _).store_eq]

theorem dropRecord_ingress (s : State) (code : Nat) (r : SlotRecord) : (s.dropRecord code r).ingress = s.ingress :=
  (endBursts_keeps s _).ingress_eq

theorem foldl_dropRecord_accounts {c : Settings} {ix : List SlotRecord} {es : List LaneEntry} (front : List SlotRecord)
    {s : State} (h : Accounts c s.store (front ++ ix) es) :
    Accounts c (front.foldl (fun s r => s.dropRecord c.planCode r) s).store ix es := by
  induction front generalizing s with
  | nil => exact h
  | cons r front ih =>
    refine ih ?_
    rw [dropRecord_store]
    exact Accounts.releaseRecord h

theorem foldl_dropRecord_ingress (code : Nat) (front : List SlotRecord) (s : State) :
    (front.foldl (fun s r => s.dropRecord code r) s).ingress = s.ingress := by
  induction front generalizing s with
  | nil => rfl
  | cons r front ih => exact (ih _).trans (dropRecord_ingress s code r)

theorem Sound.removeHead {s : State} {c : Settings} (h : Sound c s) (p : SlotRecord → Bool) :
    Sound c (s.removeHead c.planCode p) := by
  have ingress := foldl_dropRecord_ingress c.planCode (s.index.takeWhile p) s
  refine ⟨?_, ?_⟩
  · show Accounts c (List.foldl _ s _).store (s.index.dropWhile p) (List.foldl _ s _).ingress.entries
    rw [ingress]
    refine foldl_dropRecord_accounts _ ?_
    rw [List.takeWhile_append_dropWhile]
    exact h.accounts
  · show EntriesClean (List.foldl _ s _).ingress
    rw [ingress]
    exact h.clean

theorem Sound.removePassed {s : State} {c : Settings} (h : Sound c s) (pt : SchedPoint) : Sound c (s.removePassed c pt) := by
  unfold State.removePassed
  split
  · exact h.removeHead _
  · exact h

theorem Sound.strobeOutput {s : State} {c : Settings} (h : Sound c s) (x : Slot) : Sound c (s.strobeOutput c x) := by
  have played (pt : SchedPoint) : Sound c (s.playStep c pt) := by
    have before := h.of_keeps ((endBursts_keeps s fun _ => true).trans (output_keeps _ c pt))
    unfold State.playStep
    exact ((before.of_keeps (withPlan_keeps _ _)).removePassed pt).of_keeps (scheduleHeld_cueOnly _ _).keeps
  unfold State.strobeOutput State.outputStep
  split
  · split
    · exact played _
    · exact h
  · exact (h.of_keeps (substituteStep_keeps s c x)).removeHead _

/-! ## The slot close (R14, R34, R43) -/

theorem forceRelease_accounts {s : State} {c : Settings} {r : SlotRecord} {es : List LaneEntry}
    (h : Accounts c s.store (s.index ++ [r]) es) :
    Accounts c (s.forceRelease c.planCode).store ((s.forceRelease c.planCode).index ++ [r]) es := by
  unfold State.forceRelease
  split
  next => exact h
  next d rest hi =>
    split
    · show Accounts c (s.dropRecord c.planCode d).store (rest ++ [r]) es
      rw [dropRecord_store]
      rw [hi] at h
      exact Accounts.releaseRecord h
    · exact h

theorem forceRelease_ingress (s : State) (code : Nat) : (s.forceRelease code).ingress = s.ingress := by
  unfold State.forceRelease
  split
  · rfl
  · split
    · exact dropRecord_ingress s code _
    · rfl

theorem Sound.closeSlot {s : State} {c : Settings} (h : Sound c s) (x : Slot) : Sound c (s.closeSlot c x) := by
  obtain ⟨listed, closed⟩ := h.clean
  unfold State.closeSlot
  split
  next hp => exact ⟨h.accounts.opened fun e he => listed e he (closed hp e he), entriesClean_fresh rfl⟩
  next y hp =>
    dsimp only
    refine ⟨?_, ?_⟩
    · show Accounts c (State.forceRelease _ _).store ((State.forceRelease _ _).index ++ [_])
        (State.forceRelease _ _).ingress.entries
      rw [forceRelease_ingress]
      exact forceRelease_accounts (h.accounts.recorded (Ingress.record_lanes s.ingress c y))
    · show EntriesClean (State.forceRelease _ _).ingress
      rw [forceRelease_ingress]
      exact entriesClean_fresh rfl

theorem Sound.closeAndTag {s : State} {c : Settings} (h : Sound c s) (x : Slot) : Sound c (s.closeAndTag c x) := by
  unfold State.closeAndTag
  split
  · split
    · exact (h.closeSlot x).of_keeps (maskTagRequest_keeps _ c _)
    · exact h.closeSlot x
  · exact h.closeSlot x

/-! ## The strobes and the loss -/

theorem Sound.takePart {s : State} {c : Settings} (h : Sound c s) (x : Slot) (own : Bool) (p : StrobePart) :
    Sound c (s.takePart c x own p) := by
  cases p with
  | traffic => exact h.of_keeps (trafficStrobe_cueOnly s x own).keeps
  | slotClose => exact h.closeAndTag x
  | outputStep => exact h.strobeOutput x
  | intake => exact h.of_keeps (intake_keeps s c x own)
  | proposal => exact h.of_keeps (proposalEvent_cueOnly s c x).keeps
  | monitor => exact h.of_keeps (monitorStrobe_keeps s c x own)

theorem Sound.ordinaryStrobe {s : State} {c : Settings} (h : Sound c s) (x : Slot) (o : StrobeOrder) :
    Sound c (s.ordinaryStrobe c x o) := by
  have settled := h.of_keeps (settle_keeps s c)
  have struck : Sound c ((s.settle c).withRef (.strobe x)) := ⟨settled.accounts, settled.clean⟩
  exact takeParts_keeps (fun s t => Sound c s → Sound c t) (fun _ => id) (fun h k => k ∘ h) c x o.ownSteps
    (fun _ p h => h.takePart x o.ownSteps p) (fun s h => h.of_keeps (completeEntryAt_keeps s c x)) _ _ _ struck

theorem Sound.takeReturn {s : State} {c : Settings} (h : Sound c s) (x : Slot) : Sound c (s.takeReturn c x) :=
  Sound.of_keeps ⟨accounts_full h.accounts.plan _, entriesClean_fresh rfl⟩ (takeReturn_keeps s c x)

theorem Sound.loseReference {s : State} {c : Settings} (h : Sound c s) : Sound c (s.loseReference c) := by
  have settled := h.of_keeps (settle_keeps s c)
  have lost : ∀ t : State, Sound c t → Sound c (t.loseIngress c) := fun t ht => by
    unfold State.loseIngress
    split
    · exact ht
    · exact ⟨ht.accounts.releaseEntries, entriesClean_fresh rfl⟩
  have closed := lost ((s.settle c).withRef { (s.settle c).ref with flag := .lost, timerRunning := false })
    ⟨settled.accounts, settled.clean⟩
  exact closed.of_keeps ((loseTraffic_cueOnly _).trans (loseMonitor_cueOnly _)).keeps

/-! ## The input port (R35 to R39) -/

theorem entriesClean_set {g g' : Ingress} (h : EntriesClean g) {lane : Nat} {e e' : LaneEntry}
    (hentries : g'.entries = g.entries.set lane e') (hperiod : g'.period = g.period) (he : g.entries[lane]? = some e)
    (hb : e.burst = .opened ∨ g.period ≠ none) (hb' : e'.burst ≠ .none) : EntriesClean g' := by
  obtain ⟨listed, closed⟩ := h
  have opened : g.period ≠ none := by
    obtain hb | hb := hb
    · intro hp
      have := closed hp e (List.mem_of_getElem? he)
      rw [hb] at this
      cases this
    · exact hb
  refine ⟨fun d hd hn => ?_, fun hp => absurd (hperiod.symm.trans hp) opened⟩
  rw [hentries] at hd
  obtain hd | rfl := List.mem_or_eq_of_mem_set hd
  · exact listed d hd hn
  · exact absurd hn hb'

/-- The ingress with one lane entry changed, which keeps its page list and has a burst. -/
theorem Sound.changedEntry {s : State} {c : Settings} (h : Sound c s) {g : Ingress} {lane : Nat} {e e' : LaneEntry}
    (hentries : g.entries = s.ingress.entries.set lane e') (hperiod : g.period = s.ingress.period)
    (he : s.ingress.entries[lane]? = some e) (hb : e.burst = .opened ∨ s.ingress.period ≠ none) (hb' : e'.burst ≠ .none)
    (hp : e'.pages = e.pages) : Sound c (s.withIngress g) := by
  refine ⟨?_, entriesClean_set h.clean hentries hperiod he hb hb'⟩
  show Accounts c s.store s.index g.entries
  rw [hentries]
  exact h.accounts.setEntry he hp

theorem Sound.sameEntries {s : State} {c : Settings} (h : Sound c s) {g : Ingress} (hentries : g.entries = s.ingress.entries)
    (hperiod : g.period = s.ingress.period) : Sound c (s.withIngress g) := by
  refine ⟨?_, ?_⟩
  · show Accounts c s.store s.index g.entries
    rw [hentries]
    exact h.accounts
  · show EntriesClean g
    unfold EntriesClean
    rw [hentries, hperiod]
    exact h.clean

theorem Sound.burstStart {s : State} {c : Settings} (h : Sound c s) {x : Slot} (hx : s.ingress.period = some x)
    (pos : Fin 4) (header : HeaderRead) : Sound c (s.withIngress (s.ingress.takeHeader c pos header)) := by
  have period : s.ingress.period ≠ none := by rw [hx]; nofun
  unfold Ingress.takeHeader
  split
  · exact h.sameEntries rfl rfl
  · unfold Ingress.burstStart
    dsimp only
    split
    · exact h.sameEntries rfl rfl
    · split
      · exact h.sameEntries rfl rfl
      · split
        · exact h.sameEntries rfl rfl
        next e he =>
          split
          next hb =>
            exact h.changedEntry rfl rfl he (.inr period) nofun (h.clean.1 e (List.mem_of_getElem? he) hb).symm
          next => exact h.changedEntry rfl rfl he (.inr period) nofun rfl
          next => exact h.sameEntries rfl rfl

theorem Sound.burstEnd {s : State} {c : Settings} (h : Sound c s) (pos : Fin 4) :
    Sound c (s.withIngress (s.ingress.burstEnd pos)) := by
  unfold Ingress.burstEnd
  split
  · exact h
  · split
    next e he =>
      split
      next hb => exact h.changedEntry rfl rfl he (.inl hb) nofun rfl
      · exact h.sameEntries rfl rfl
    · exact h.sameEntries rfl rfl

theorem Sound.storeByte {s : State} {c : Settings} {lane : Nat} {e : LaneEntry} (sound : Bool) (b : Byte)
    (h : Sound c (s.withIngress (s.ingress.setEntry lane { e with stored := e.stored + 1 }))) :
    Sound c (s.storeByte sound lane e b) := by
  unfold State.storeByte
  dsimp only
  split <;> exact ⟨h.accounts, h.clean⟩

theorem Sound.storeOnNewPage {s : State} {c : Settings} (h : Sound c s) {lane : Nat} {e e' : LaneEntry}
    (he : s.ingress.entries[lane]? = some e) (hb : e.burst = .opened) (hb' : e'.burst = .opened) (hp : e'.pages = e.pages)
    (sound : Bool) (b : Byte) : Sound c (s.storeOnNewPage c sound lane e' b) := by
  have open' : e'.burst ≠ .none := by rw [hb']; nofun
  unfold State.storeOnNewPage
  split
  · exact h.changedEntry rfl rfl he (.inl hb) open' hp
  next l hl =>
    split
    · have kept := h.changedEntry (g := s.ingress.setEntry lane { e' with truncated := true }) rfl rfl he (.inl hb) open' hp
      exact ⟨⟨kept.accounts.plan, kept.accounts.store, kept.accounts.entries, kept.accounts.records, kept.accounts.lanes⟩,
        kept.clean⟩
    next p l' ha =>
      refine Sound.storeByte sound b ⟨?_, ?_⟩
      · exact h.accounts.allocate he hl ha (by rw [hp]) _
      · exact entriesClean_set h.clean rfl rfl he (.inl hb) open'

theorem Sound.takeByte {s : State} {c : Settings} (h : Sound c s) {lane : Nat} {e : LaneEntry}
    (he : s.ingress.entries[lane]? = some e) (hb : e.burst = .opened) (b : Byte) : Sound c (s.takeByte c lane e b) := by
  have opened : e.burst ≠ .none := by rw [hb]; nofun
  unfold State.takeByte
  dsimp only
  split
  · exact h.changedEntry rfl rfl he (.inl hb) opened rfl
  · split
    · exact h.changedEntry rfl rfl he (.inl hb) opened rfl
    · split
      · exact h.storeOnNewPage (e' := { e with received := e.received + 1 }) he hb hb rfl _ b
      · exact Sound.storeByte _ b (h.changedEntry rfl rfl he (.inl hb) opened rfl)

/-- The input port at a configured station. -/
theorem exec_input_sound {i : Instr} (hi : isInputCommand i = true) {s : State} {c : Settings} (hc : s.settings = some c)
    (h : Sound c s) : Answers (fun _ t => Sound c t) s (exec i s) := by
  cases i with
  | burstStart pos header =>
    simp only [exec, execBurstStart, hc]
    split
    next d x hd hx =>
      obtain rfl := Option.some.inj hd
      exact answers_next (h.burstStart hx pos header)
    next => exact answers_next h
  | essenceByte pos b =>
    simp only [exec, execEssenceByte, hc]
    split
    next d lane hd hl =>
      obtain rfl := Option.some.inj hd
      split
      next e he =>
        split
        next hb => exact answers_next (h.takeByte he hb b)
        next => exact answers_next h
      next => exact answers_next h
    next => exact answers_next h
  | burstEnd pos => exact answers_next (h.burstEnd pos)
  | _ => cases hi

/-- The input port at a station without settings: a period is not open, so that no burst is (R49). -/
theorem exec_input_unconfigured {i : Instr} (hi : isInputCommand i = true) {s : State} (hn : s.settings = none)
    (hclean : EntriesClean s.ingress) (hp : s.ingress.period = none) :
    Answers (fun s t => t.store = s.store ∧ EntriesClean t.ingress) s (exec i s) := by
  cases i with
  | burstStart pos header =>
    simp only [exec, execBurstStart, hn]
    exact answers_next ⟨rfl, hclean⟩
  | essenceByte pos b =>
    simp only [exec, execEssenceByte, hn]
    exact answers_next ⟨rfl, hclean⟩
  | burstEnd pos =>
    refine answers_next ⟨rfl, ?_⟩
    show EntriesClean (s.ingress.burstEnd pos)
    unfold Ingress.burstEnd
    split
    · exact hclean
    · split
      next e he =>
        rw [if_neg (by rw [hclean.2 hp e (List.mem_of_getElem? he)]; nofun)]
        exact hclean
      · exact hclean
  | _ => cases hi

/-! ## The commands -/

theorem pagesAccounted_of_same {s t : State} (h : PagesAccounted s) (hstore : t.store = s.store) (hindex : t.index = s.index)
    (hingress : t.ingress = s.ingress) (hsettings : t.settings = s.settings) (hmode : NeverRestarts s t) :
    PagesAccounted t := by
  have unconfigured := unconfigured_of_same h.2.2.2 hindex (congrArg Ingress.period hingress) hsettings hmode
  unfold PagesAccounted LanesMatch LaneAccount
  rw [hstore, hindex, hingress, hsettings]
  exact ⟨h.1, h.2.1, h.2.2.1, unconfigured⟩

theorem pagesAccounted_takeStrobe {s : State} (hs : PagesAccounted s) (x : Slot) (o : StrobeOrder) :
    PagesAccounted (s.takeStrobe x o) := by
  have restarts := takeStrobe_restarts s x o
  obtain ⟨-, -, -, settings, -, -⟩ := takeStrobe_faults s x o
  cases hc : s.settings with
  | none =>
    have bare : (s.bareStrobe x).store = s.store ∧ (s.bareStrobe x).index = s.index ∧
        (s.bareStrobe x).ingress = s.ingress := by
      unfold State.bareStrobe
      dsimp only
      split <;> exact ⟨rfl, rfl, rfl⟩
    have taken : s.takeStrobe x o = s.bareStrobe x := by rw [State.takeStrobe, hc]
    obtain ⟨store, index, ingress⟩ := bare
    exact pagesAccounted_of_same hs (by rw [taken, store]) (by rw [taken, index]) (by rw [taken, ingress]) settings restarts
  | some c =>
    have sound := PagesAccounted.sound hs hc
    have taken : s.takeStrobe x o = s.configuredStrobe c x o := by rw [State.takeStrobe, hc]
    have hc' := settings.trans hc
    have unconfigured := unconfigured_of_settings hc' fun hm => mode_ne_of_settings hs.2.2.2 hc (restarts hm)
    refine Sound.pagesAccounted ?_ hc' unconfigured
    rw [taken]
    unfold State.configuredStrobe
    split
    · exact sound.takeReturn x
    · split
      · exact sound.ordinaryStrobe x o
      · exact sound.loseReference.takeReturn x

theorem pagesAccounted_timeoutReference {s : State} (hs : PagesAccounted s) : PagesAccounted s.timeoutReference := by
  unfold State.timeoutReference
  split
  next c hc =>
    obtain ⟨-, -, -, settings, -, -⟩ := loseReference_faults s c
    have hc' := settings.trans hc
    exact (PagesAccounted.sound hs hc).loseReference.pagesAccounted hc' (unconfigured_of_settings hc' nofun)
  next => exact hs

theorem pagesAccounted_configure {s : State} (hs : PagesAccounted s) (hm : s.mon.mode = .configuring) {bytes : List Byte}
    {c : Settings} (hr : parseRecord bytes = some c) : PagesAccounted (s.configure c) := by
  obtain ⟨-, -, -, unconfigured⟩ := hs
  obtain ⟨index, -⟩ := unconfigured.1 (unconfigured.2 hm)
  refine Sound.pagesAccounted (c := c) ⟨?_, entriesClean_fresh rfl⟩ rfl (unconfigured_of_settings (c := c) rfl nofun)
  show Accounts c ⟨fullLanes c.planCode, _⟩ s.index (freshEntries c)
  rw [index]
  exact accounts_full (planQuarters_length hr) _

theorem pagesAccounted_failConfig {s : State} (hs : PagesAccounted s) (hm : s.mon.mode = .configuring) :
    PagesAccounted s.failConfig := by
  obtain ⟨clean, -, lanes, unconfigured⟩ := hs
  have hn := unconfigured.2 hm
  refine ⟨clean, fun c hc => ?_, fun _ => lanes hn, fun _ => ⟨rfl, (unconfigured.1 hn).2⟩, nofun⟩
  exact nomatch hn.symm.trans hc

theorem exec_reference_pagesAccounted {i : Instr} (hi : isReferenceCommand i = true) {s : State} (hs : PagesAccounted s) :
    Answers (fun _ t => PagesAccounted t) s (exec i s) := by
  cases i with
  | configReadComplete bytes =>
    simp only [exec, execConfigReadComplete]
    split
    next hm =>
      split
      next c hr => exact answers_next (pagesAccounted_configure hs hm hr)
      next => exact answers_next (pagesAccounted_failConfig hs hm)
    next => exact answers_next hs
  | ordinaryStrobe x o => exact answers_next (pagesAccounted_takeStrobe hs x o)
  | referenceReturn x => exact answers_next (pagesAccounted_takeStrobe hs x _)
  | referenceBreak x => exact answers_next (pagesAccounted_takeStrobe hs x _)
  | referenceLossTimeout => exact answers_ite (pagesAccounted_timeoutReference hs) hs
  | _ => cases hi

theorem pagesAccounted_input {i : Instr} (hi : isInputCommand i = true) {s t : State} (hs : PagesAccounted s)
    (ht : exec i s = .next t) : PagesAccounted t := by
  have fields := ((exec_input hi s).of_eq ht).1
  have period := (exec_input_period hi s).of_eq ht
  have settings : t.settings = s.settings := by rw [fields]
  have unconfigured := unconfigured_of_same hs.2.2.2 (by rw [fields]) period settings (.of_mon (by rw [fields]))
  cases hc : s.settings with
  | some c => exact ((exec_input_sound hi hc (PagesAccounted.sound hs hc)).of_eq ht).pagesAccounted (settings.trans hc) unconfigured
  | none =>
    obtain ⟨clean, -, lanes, unconfigured₀⟩ := hs
    obtain ⟨store, clean'⟩ := (exec_input_unconfigured hi hc clean (unconfigured₀.1 hc).2).of_eq ht
    refine ⟨clean', fun c hc' => ?_, fun _ => by rw [store]; exact lanes hc, unconfigured⟩
    exact nomatch (settings.trans hc).symm.trans hc'

theorem pagesAccounted_aside {s t : State} (hs : PagesAccounted s) (h : Aside s t) : PagesAccounted t := by
  obtain ⟨⟨fields, -⟩, mode⟩ := h
  exact pagesAccounted_of_same hs (by rw [fields]) (by rw [fields]) (by rw [fields]) (by rw [fields]) mode

theorem pagesAccounted_reset : PagesAccounted State.reset := by
  refine ⟨⟨nofun, fun _ => nofun⟩, nofun, fun _ => rfl, fun _ => ⟨rfl, rfl⟩, fun _ => rfl⟩

theorem pagesAccounted_exec {i : Instr} {s t : State} (hs : PagesAccounted s) (ht : exec i s = .next t) :
    PagesAccounted t := by
  obtain ⟨cause, k, levels, rfl⟩ | ha | hin | hr := command_cases i
  · rw [← Host.Outcome.next.inj ht]
    exact pagesAccounted_of_same pagesAccounted_reset rfl rfl rfl rfl (.of_mode rfl)
  · exact pagesAccounted_aside hs ((exec_aside ha s).of_eq ht)
  · exact pagesAccounted_input hin hs ht
  · exact (exec_reference_pagesAccounted hr hs).of_eq ht

/-- Settles O60: each command moves pages between the free lists, the records and the bursts, and changes no account
otherwise. -/
theorem stepKeepsPages : Obligations.StepKeepsPages := fun _ _ hs ht =>
  step_keeps (fun _ _ h => h) (fun s h => pagesAccounted_aside h (elapse_aside s)) (fun _ _ _ => pagesAccounted_exec) hs ht

end Sys2Proof.Proofs.PagesKept
end

