-- ==== Sys2Proof/Proofs/ResetAndStep.lean ====
section
/-! SUPPORT. The step, RESET with the values it leaves, and the two expiries that change one field. -/

namespace Sys2Proof.Proofs.ResetAndStep

open Sys2Proof Sys2Proof.Machine Sys2Proof.Safety
open Sys2Proof.Proofs.IndexOrder Sys2Proof.Proofs.PagesKept

/-- Settles O1: the queue's two forms, and the two phases of an empty queue. -/
theorem stepRunsFrontCommand : Obligations.StepRunsFrontCommand := by
  refine ⟨fun i rest s hp => ?front, fun s hp => ⟨fun hphase => ?idle, fun hphase => ?key⟩⟩
  case front => rw [step, hp]
  case idle => rw [step, hp, State.elapse, if_neg hphase]
  case key => rw [step, hp, State.elapse, if_pos hphase]

/-- Settles O3: the blocks' reset values are those of `State.reset`. -/
theorem blocksAtReset : Obligations.BlocksAtReset :=
  ⟨rfl, rfl, rfl, rfl, rfl, rfl, rfl, rfl, rfl, rfl, rfl, rfl, rfl, rfl, rfl, rfl, rfl, rfl⟩

/-- R184: at a reset every contact's debouncer restarts on the raw level sampled. -/
theorem contactOf_reset (levels : PerContact Level) (k : Contact) :
    contactOf (Contacts.reset levels).lines k = ⟨contactOf levels k, true, none⟩ := by
  cases k <;> rfl

/-- Settles O4: RESET builds its state from the reset values, the straps and the levels. -/
theorem resetCommand : Obligations.ResetCommand := by
  intro cause straps levels s
  refine ⟨_, rfl, rfl, rfl, rfl, rfl, rfl, rfl, rfl, rfl, rfl, rfl, rfl, rfl, rfl, contactOf_reset levels, rfl, ?memory, rfl⟩
  rintro rfl
  rfl

/-- Settles O48. -/
theorem refusedPulseExpiry : Obligations.RefusedPulseExpiry := fun _ => rfl

/-- Settles O53: the filter of HOLD_TIMEOUT drops the station's entry with a count of 0. -/
theorem holdTimeout : Obligations.HoldTimeout := by
  intro k s _
  refine ⟨_, rfl, fun h => ?_, rfl⟩
  obtain ⟨station, remaining⟩ := h
  have lapsed : (station != k || remaining != 0) = true ↔ HeldBy.mk station remaining ≠ ⟨k, 0⟩ := by
    simp only [Bool.or_eq_true, bne_iff_ne, ne_eq, HeldBy.mk.injEq]
    tauto
  exact List.mem_filter.trans (and_congr_right fun _ => lapsed)

/-- Settles O57: the lists are empty at reset, no period is open and no lane has pages. -/
theorem invariantsAtReset : Obligations.InvariantsAtReset :=
  ⟨(capacities_iff_fits _).2 fits_reset,
    indexOrdered_of_closed trivial (Nat.zero_le _) rfl (fun _ => rfl) ⟨fun _ => ⟨rfl, rfl⟩, fun _ => rfl⟩,
    pagesAccounted_reset⟩

end Sys2Proof.Proofs.ResetAndStep
end

