-- ==== Sys2Proof/Proofs/ContactsAndCount.lean ====
section
/-! SUPPORT. The contacts' debouncers (R184), the origin count (R112) and the rescind stack (R114). -/

namespace Sys2Proof.Proofs.ContactsAndCount

open Sys2Proof Sys2Proof.Machine

/-! ## The debouncers -/

/-- A contact that settles is handed on only where it closes and the station takes presses. -/
theorem closingEdge_of_not_taken {s : State} (h : s.mon.mode ≠ .filling ∧ s.mon.mode ≠ .aligned) (k : Contact) :
    s.closingEdge k = s := by
  have taken : s.mon.mode.takesPresses = false := by
    unfold Mode.takesPresses
    split
    · exact absurd ‹_› h.1
    · exact absurd ‹_› h.2
    · rfl
  unfold State.closingEdge
  split
  · rw [taken]
    rfl
  · rfl

theorem exec_debounceStable_quiet {k : Contact} {s : State} (ht : (contactOf s.contacts.lines k).timing = true)
    (hquiet : (contactOf s.contacts.lines k).debounced ≠ some .opened ∨ (contactOf s.contacts.lines k).raw = .opened ∨
      (s.mon.mode ≠ .filling ∧ s.mon.mode ≠ .aligned)) :
    exec (.debounceStable k) s = .next (s.setDebouncer k (contactOf s.contacts.lines k).settled) := by
  have timing : (s.debouncer k).timing = true := ht
  simp only [exec, execDebounceStable, timing, if_true]
  split
  next hcloses =>
    obtain ⟨opened, closed⟩ : (s.debouncer k).debounced = some .opened ∧ (s.debouncer k).raw = .closed := by
      simpa [Debouncer.closes] using hcloses
    obtain hd | hraw | hmode := hquiet
    · exact absurd opened hd
    · exact nomatch closed.symm.trans hraw
    · exact congrArg Host.Outcome.next (closingEdge_of_not_taken (s := s.setDebouncer k _) hmode k)
  next => rfl

/-- Settles O44: both commands set one contact's debouncer. -/
theorem contactDebounce : Obligations.ContactDebounce := by
  intro k s
  refine ⟨fun level hlevel => ?changed, fun ht hquiet => ?settled⟩
  case changed =>
    refine ⟨s.setDebouncer k { s.debouncer k with raw := level, timing := true }, if_neg hlevel, ?_, ?_, rfl, rfl⟩
    · exact contactOf_setContact_same _ k _
    · exact fun j hj => contactOf_setContact_other _ _ hj
  case settled =>
    refine ⟨_, exec_debounceStable_quiet ht hquiet, ?_, ?_, rfl, rfl⟩
    · exact contactOf_setContact_same _ k _
    · exact fun j hj => contactOf_setContact_other _ _ hj

/-! ## The origin count -/

theorem holdsCut_iff (cuts : List Cut) (id : CutId) : holdsCut cuts id = true ↔ ∃ d ∈ cuts, d.id = id :=
  findCut_isSome_iff cuts id

/-- R112: the search passes over held identifiers and stops at one that is not held, or when its fuel ends. -/
theorem freeCount_spec (cuts : List Cut) (k : Station) (c : Byte) (fuel : Nat) :
    ∃ n ≤ fuel, freeCount cuts k c fuel = c + BitVec.ofNat 8 n ∧
      (∀ i < n, holdsCut cuts ⟨k, c + BitVec.ofNat 8 i⟩ = true) ∧
      (n < fuel → holdsCut cuts ⟨k, c + BitVec.ofNat 8 n⟩ = false) := by
  induction fuel generalizing c with
  | zero => exact ⟨0, Nat.le_refl 0, (BitVec.add_zero c).symm, nofun, nofun⟩
  | succ fuel ih =>
    rw [freeCount]
    split
    next held =>
      obtain ⟨n, hn, heq, below, stops⟩ := ih (c + 1)
      have shift (i : Nat) : c + 1 + BitVec.ofNat 8 i = c + BitVec.ofNat 8 (i + 1) := by
        rw [Nat.add_comm i 1, BitVec.ofNat_add, BitVec.add_assoc]
        rfl
      refine ⟨n + 1, Nat.succ_le_succ hn, heq.trans (shift n), fun i hi => ?_, fun hlt => ?_⟩
      · cases i with
        | zero => rwa [BitVec.add_zero]
        | succ i =>
          rw [← shift]
          exact below i (Nat.lt_of_succ_lt_succ hi)
      · rw [← shift]
        exact stops (Nat.lt_of_succ_lt_succ hlt)
    next free =>
      refine ⟨0, Nat.zero_le _, (BitVec.add_zero c).symm, nofun, fun _ => ?_⟩
      rw [BitVec.add_zero]
      exact Bool.not_eq_true _ ▸ free

/-- At most as many identifiers are held as there are cuts, so that of 33 consecutive counts one is not held. -/
theorem not_all_held {cuts : List Cut} (hcuts : cuts.length ≤ 32) (k : Station) (c : Byte) :
    ¬ ∀ i < 33, holdsCut cuts ⟨k, c + BitVec.ofNat 8 i⟩ = true := by
  intro held
  have distinct : ((List.range 33).map fun i => CutId.mk k (c + BitVec.ofNat 8 i)).Nodup := by
    refine (List.nodup_map_iff_inj_on List.nodup_range).2 fun i hi j hj heq => ?_
    have counts := BitVec.add_right_inj c |>.1 (CutId.mk.inj heq).2
    have := congrArg BitVec.toNat counts
    simp only [BitVec.toNat_ofNat, List.mem_range] at this hi hj
    omega
  have among : ((List.range 33).map fun i => CutId.mk k (c + BitVec.ofNat 8 i)) ⊆ cuts.map Cut.id := by
    intro id hid
    obtain ⟨i, hi, rfl⟩ := List.mem_map.1 hid
    obtain ⟨d, hd, heq⟩ := (holdsCut_iff _ _).1 (held i (List.mem_range.1 hi))
    exact List.mem_map.2 ⟨d, hd, heq⟩
  have count := (distinct.subperm among).length_le
  rw [List.length_map, List.length_map, List.length_range] at count
  omega

/-- R112: with at most 32 cuts held the count given out is the first, from the present one on, that is not held. -/
theorem nextCount_spec {s : State} (hcuts : s.plan.cuts.length ≤ 32) :
    ∃ n ≤ 32, s.nextCount = s.orig.count + BitVec.ofNat 8 n ∧
      (∀ i < n, holdsCut s.plan.cuts ⟨s.station, s.orig.count + BitVec.ofNat 8 i⟩ = true) ∧
      holdsCut s.plan.cuts ⟨s.station, s.nextCount⟩ = false := by
  obtain ⟨n, hn, heq, below, stops⟩ := freeCount_spec s.plan.cuts s.station s.orig.count 32
  refine ⟨n, hn, heq, below, ?_⟩
  have next : s.nextCount = s.orig.count + BitVec.ofNat 8 n := heq
  rw [next]
  obtain hlt | rfl := Nat.lt_or_eq_of_le hn
  · exact stops hlt
  · refine Bool.eq_false_iff.2 fun held => not_all_held hcuts s.station s.orig.count fun i hi => ?_
    obtain hi | rfl := Nat.lt_or_eq_of_le (Nat.le_of_lt_succ hi)
    · exact below i hi
    · exact held

/-! ## The rescind stack -/

theorem push_keeps_all {o : Originator} {id : CutId} (hl : o.stack.length ≤ 8) (h : id ∈ o.stack ∨ o.stack.length < 8)
    {d : CutId} (hd : d ∈ o.stack) : d ∈ (o.push id).stack := by
  have room : (id :: o.stack.filter (· != id)).length ≤ 8 := by
    rw [List.length_cons]
    obtain hid | hlt := h
    · have : (o.stack.filter (· != id)).length < o.stack.length :=
        List.length_filter_lt_length_iff_exists.2 ⟨id, hid, by simp⟩
      omega
    · have := List.length_filter_le (· != id) o.stack
      omega
  rw [Originator.push, List.take_of_length_le room, List.mem_cons, List.mem_filter]
  by_cases heq : d = id
  · exact .inl heq
  · exact .inr ⟨hd, by simpa using heq⟩

/-- Settles O47: the search of the origin count, and the push. -/
theorem originatorState : Obligations.OriginatorState := by
  refine ⟨fun s hcuts => ?count, fun o id hnodup hlength => ?push⟩
  case count =>
    obtain ⟨n, hn, heq, below, free⟩ := nextCount_spec hcuts
    refine ⟨n, hn, heq, fun i hi => (holdsCut_iff _ _).1 (below i hi), fun d hd hid => ?_, rfl⟩
    rw [(holdsCut_iff _ _).2 ⟨d, hd, hid⟩] at free
    cases free
  case push =>
    have distinct : (id :: o.stack.filter (· != id)).Nodup :=
      List.nodup_cons.2 ⟨by simp, hnodup.filter _⟩
    refine ⟨rfl, distinct.sublist (List.take_sublist _ _), List.length_take_le _ _, rfl, fun d hd => ?_,
      fun h d hd => push_keeps_all hlength h hd⟩
    obtain heq | hd := List.mem_cons.1 (List.mem_of_mem_take hd)
    · exact .inl heq
    · exact .inr (List.mem_of_mem_filter hd)

end Sys2Proof.Proofs.ContactsAndCount
end

