-- ==== Sys2Proof/Proofs/IngressCommands.lean ====
section
/-! SUPPORT. BURST_START, ESSENCE_BYTE and BURST_END case by case (R35 to R40), and the record of a period (R41 to R43). -/

namespace Sys2Proof.Proofs.IngressCommands

open Sys2Proof Sys2Proof.Machine

/-! ## Lane entries and positions -/

theorem unport_portLane (g : Ingress) (pos : Fin 4) : (g.unport pos).portLane pos = none := by
  have gone : (g.port.filter (·.position != pos)).find? (·.position == pos) = none :=
    List.find?_eq_none.2 fun b hb heq => by simp_all
  exact congrArg (Option.map PortBurst.lane) gone

theorem setEntry_same {g : Ingress} {lane : Nat} {e : LaneEntry} (he : g.entries[lane]? = some e) (e' : LaneEntry) :
    (g.setEntry lane e').entries[lane]? = some e' :=
  List.getElem?_set_self (List.getElem?_eq_some_iff.1 he).1

theorem setEntry_other (g : Ingress) (lane : Nat) (e : LaneEntry) {i : Nat} (hi : i ≠ lane) :
    (g.setEntry lane e).entries[i]? = g.entries[i]? := List.getElem?_set_ne hi.symm

/-! ## BURST_START (R35, R36) -/

section BurstStart
variable {c : Settings} {pos : Fin 4} {header : HeaderRead} {g : Ingress}

theorem exec_burstStart {x : Slot} {s : State} (hc : s.settings = some c) (hx : s.ingress.period = some x) :
    exec (.burstStart pos header) s = .next (s.withIngress (s.ingress.takeHeader c pos header)) := by
  simp only [exec, execBurstStart, hc, hx]

theorem takeHeader_discarded
    (h : header.interrupted = true ∨ parseHeader header.bytes = none ∨
      ∃ h, parseHeader header.bytes = some h ∧
        (524288 < h.declared ∨ g.entries[h.lane]? = none ∨ ∃ e, g.entries[h.lane]? = some e ∧ e.burst = .ended)) :
    g.takeHeader c pos header = g.unport pos := by
  unfold Ingress.takeHeader
  split
  · rfl
  next hi =>
    unfold Ingress.burstStart
    obtain hint | hnone | ⟨h, hsome, hcase⟩ := h
    · exact absurd hint hi
    · rw [hnone]
    · simp only [hsome]
      split
      · rfl
      next hfits =>
        obtain hlong | hlane | ⟨e, he, hended⟩ := hcase
        · exact absurd hlong hfits
        · rw [show (g.unport pos).entries[h.lane]? = none from hlane]
        · simp only [show (g.unport pos).entries[h.lane]? = some e from he, hended]

variable {h : BurstHeader} {e : LaneEntry}

theorem takeHeader_accepted (hi : header.interrupted = false) (hh : parseHeader header.bytes = some h)
    (hd : h.declared ≤ 524288) (he : g.entries[h.lane]? = some e) (hb : e.burst = .none) :
    g.takeHeader c pos header =
      { (g.unport pos).setEntry h.lane (.accepted c h) with port := ⟨pos, h.lane⟩ :: (g.unport pos).port } := by
  have found : (g.unport pos).entries[h.lane]? = some e := he
  simp only [Ingress.takeHeader, hi, Ingress.burstStart, hh, found, hb, Bool.false_eq_true, if_false,
    if_neg (Nat.not_lt.2 hd)]

theorem takeHeader_second (hi : header.interrupted = false) (hh : parseHeader header.bytes = some h)
    (hd : h.declared ≤ 524288) (he : g.entries[h.lane]? = some e) (hb : e.burst = .opened) :
    g.takeHeader c pos header = (g.unport pos).setEntry h.lane e.finish := by
  have found : (g.unport pos).entries[h.lane]? = some e := he
  simp only [Ingress.takeHeader, hi, Ingress.burstStart, hh, found, hb, Bool.false_eq_true, if_false,
    if_neg (Nat.not_lt.2 hd)]

end BurstStart

/-- Settles O12: the three outcomes of a header. -/
theorem burstStart : Obligations.BurstStart := by
  intro c x pos header s hc hx
  have taken := exec_burstStart (pos := pos) (header := header) hc hx
  refine ⟨fun hdiscard => ?discarded, fun h e hi hh hd he => ⟨fun hb => ?accepted, fun hb => ?second⟩⟩
  case discarded =>
    rw [takeHeader_discarded hdiscard] at taken
    exact ⟨_, taken, rfl, unport_portLane s.ingress pos, rfl⟩
  case accepted =>
    rw [takeHeader_accepted hi hh hd he hb] at taken
    refine ⟨_, taken, setEntry_same (g := s.ingress.unport pos) he _, ?_, fun i => setEntry_other (s.ingress.unport pos) _ _,
      rfl⟩
    simp [Ingress.portLane]
  case second =>
    rw [takeHeader_second hi hh hd he hb] at taken
    exact ⟨_, taken, setEntry_same (g := s.ingress.unport pos) he _, unport_portLane s.ingress pos,
      fun i => setEntry_other (s.ingress.unport pos) _ _, rfl⟩

/-! ## ESSENCE_BYTE (R37, R38, R40) -/

section EssenceByte
variable {c : Settings} {pos : Fin 4} {b : Byte} {lane declared : Nat} {e : LaneEntry} {s : State}

theorem exec_essenceByte (hd : Delivers s c pos lane e declared) :
    exec (.essenceByte pos b) s = .next (s.takeByte c lane e b) := by
  obtain ⟨hc, hlane, he, hb, -⟩ := hd
  simp only [exec, execEssenceByte, hc, hlane, he, hb, if_true]

theorem takeByte_overlong (hd : e.declared = some declared) (hr : declared ≤ e.received) :
    s.takeByte c lane e b =
      s.withIngress (s.ingress.setEntry lane { e with received := e.received + 1, overlong := true }) := by
  unfold State.takeByte
  rw [hd]
  exact if_pos (Nat.lt_succ_of_le hr)

theorem takeByte_truncated (hd : e.declared = some declared) (hr : e.received < declared) (ht : e.truncated = true) :
    s.takeByte c lane e b = s.withIngress (s.ingress.setEntry lane { e with received := e.received + 1 }) := by
  unfold State.takeByte
  rw [hd]
  exact (if_neg (Nat.not_lt.2 hr)).trans (if_pos ht)

/-- R40: the lane is a SOUND lane. -/
def isSound (c : Settings) (lane : Nat) : Bool := c.lanes[lane]? == some .sound

theorem takeByte_newPage (hd : e.declared = some declared) (hr : e.received < declared) (ht : e.truncated = false)
    (hp : e.stored % 8192 = 0) :
    s.takeByte c lane e b = s.storeOnNewPage c (isSound c lane) lane { e with received := e.received + 1 } b := by
  unfold State.takeByte
  rw [hd]
  exact (if_neg (Nat.not_lt.2 hr)).trans ((if_neg (Bool.eq_false_iff.1 ht)).trans (if_pos hp))

theorem takeByte_stored (hd : e.declared = some declared) (hr : e.received < declared) (ht : e.truncated = false)
    (hp : e.stored % 8192 ≠ 0) :
    s.takeByte c lane e b = s.storeByte (isSound c lane) lane { e with received := e.received + 1 } b := by
  unfold State.takeByte
  rw [hd]
  exact (if_neg (Nat.not_lt.2 hr)).trans ((if_neg (Bool.eq_false_iff.1 ht)).trans (if_neg hp))

theorem storeByte_mem (s : State) (sound : Bool) (lane : Nat) (e : LaneEntry) (b : Byte) :
    (s.storeByte sound lane e b).mem = s.mem.write (burstAddress e.pages e.stored) b := rfl

theorem storeByte_entries (s : State) (sound : Bool) (lane : Nat) (e : LaneEntry) (b : Byte) :
    (s.storeByte sound lane e b).ingress.entries = s.ingress.entries.set lane { e with stored := e.stored + 1 } := by
  unfold State.storeByte
  dsimp only [State.withIngress_ingress]
  split <;> rfl

/-- R40: the peak rises to the level of the sample that the byte completes on a SOUND lane. -/
theorem storeByte_peak (hwf : s.mem.wf = true) :
    PeakAfter c lane e.stored e.pages (s.storeByte (isSound c lane) lane e b).mem b s.ingress.peak
      (s.storeByte (isSound c lane) lane e b).ingress.peak := by
  have complete : (isSound c lane && (e.stored + 1) % 3 == 0) = true ↔
      c.lanes[lane]? = some .sound ∧ (e.stored + 1) % 3 = 0 := by
    simp [isSound]
  have peak : (s.storeByte (isSound c lane) lane e b).ingress.peak =
      if isSound c lane && (e.stored + 1) % 3 == 0 then
        samplePeak (s.mem.write (burstAddress e.pages e.stored) b) { e with stored := e.stored + 1 } s.ingress.peak
      else s.ingress.peak := by
    unfold State.storeByte
    dsimp only [State.withIngress_ingress]
    split <;> rfl
  rw [PeakAfter, peak, storeByte_mem]
  refine ⟨fun hn => if_neg (mt complete.1 hn), fun hs => ?_⟩
  have last := Memory.read_write_same (burstAddress e.pages e.stored) b hwf
  rw [if_pos (complete.2 hs)]
  show max _ (sampleLevel _ _ (Memory.read _ (burstAddress e.pages (e.stored + 1 - 1)))) = _
  rw [Nat.add_sub_cancel, last]
  rfl

end EssenceByte

/-- Settles O13: the byte goes into the last page. -/
theorem essenceStored : Obligations.EssenceStored := by
  intro c pos b lane declared e s hd hr ht hp hwf
  have taken := exec_essenceByte (b := b) hd
  obtain ⟨-, -, he, -, hdecl⟩ := hd
  rw [takeByte_stored hdecl hr ht hp] at taken
  refine ⟨_, taken, ?_, ?_, ?_, ?_, storeByte_peak (e := { e with received := e.received + 1 }) hwf, rfl⟩
  · exact Memory.read_write_same _ b hwf
  · exact fun a ha => Memory.read_write_other b ha
  · rw [storeByte_entries]
    exact setEntry_same he _
  · intro i hi
    rw [storeByte_entries]
    exact setEntry_other s.ingress lane _ hi

theorem storeOnNewPage_allocated {c : Settings} {b : Byte} {lane : Nat} {e : LaneEntry} {l : LaneStore} {p : PageNo}
    {rest : List PageNo} {s : State} (sound : Bool) (hl : s.store.lanes[lane]? = some l) (hf : l.free = p :: rest) :
    s.storeOnNewPage c sound lane e b =
      (s.withStore { s.store with
        lanes := s.store.lanes.set lane
          ⟨rest, l.count - 1, l.pressure || decide (l.count - 1 < lowWatermark c.planCode lane)⟩ }).storeByte sound lane
        { e with pages := e.pages ++ [p] } b := by
  simp only [State.storeOnNewPage, hl, LaneStore.allocate, hf]

/-- Settles O14: the first byte of a page takes the page at the head of the free list. -/
theorem essenceOnNewPage : Obligations.EssenceOnNewPage := by
  intro c pos b lane declared e l p rest s hd hr ht hp hwf hl hf
  have taken := exec_essenceByte (b := b) hd
  obtain ⟨-, -, he, -, hdecl⟩ := hd
  rw [takeByte_newPage hdecl hr ht hp, storeOnNewPage_allocated _ hl hf] at taken
  refine ⟨_, taken, ?_, ?_, ?_, ?_, ?_, ?_, rfl, ?_, rfl⟩
  · exact List.getElem?_set_self (List.getElem?_eq_some_iff.1 hl).1
  · rw [storeByte_entries]
    exact setEntry_same he _
  · intro i hi
    rw [storeByte_entries]
    exact setEntry_other s.ingress lane _ hi
  · exact Memory.read_write_same _ b hwf
  · exact fun a ha => Memory.read_write_other b ha
  · exact storeByte_peak (s := s.withStore _)
      (e := { e with received := e.received + 1, pages := e.pages ++ [p] }) hwf
  · exact fun i hi => List.getElem?_set_ne hi.symm

/-- Settles O15: the three ways in which a byte is discarded. -/
theorem essenceDiscarded : Obligations.EssenceDiscarded := by
  intro c pos b lane declared e s hd
  have taken := exec_essenceByte (b := b) hd
  obtain ⟨-, -, he, -, hdecl⟩ := hd
  refine ⟨fun hr => ?overlong, fun hr ht => ?truncated, fun l hr ht hp hl hf => ?exhausted⟩
  case overlong =>
    rw [takeByte_overlong hdecl hr] at taken
    exact ⟨_, taken, setEntry_same he _, rfl⟩
  case truncated =>
    rw [takeByte_truncated hdecl hr ht] at taken
    exact ⟨_, taken, setEntry_same he _, rfl⟩
  case exhausted =>
    have refused : s.storeOnNewPage c (isSound c lane) lane { e with received := e.received + 1 } b =
        (s.withStore { s.store with exhausted := true }).withIngress
          (s.ingress.setEntry lane { e with received := e.received + 1, truncated := true }) := by
      simp only [State.storeOnNewPage, hl, LaneStore.allocate, hf]
    rw [takeByte_newPage hdecl hr ht hp, refused] at taken
    exact ⟨_, taken, rfl, setEntry_same he _, rfl, rfl, rfl, rfl⟩

/-! ## BURST_END (R39) -/

/-- Settles O16: the end of the burst on a position. -/
theorem burstEnd : Obligations.BurstEnd := by
  refine ⟨fun pos s hn => ?unported, fun pos lane e s hl he => ⟨fun hb => ?opened, fun hb => ?other⟩⟩
  case unported =>
    have same : s.ingress.burstEnd pos = s.ingress := by rw [Ingress.burstEnd, hn]
    exact congrArg (fun g => Host.Outcome.next (s.withIngress g)) same
  case opened =>
    have ends : s.ingress.burstEnd pos = (s.ingress.setEntry lane e.finish).unport pos := by
      simp only [Ingress.burstEnd, hl, he, hb, if_true]
    refine ⟨_, congrArg (fun g => Host.Outcome.next (s.withIngress g)) ends, setEntry_same he _, ?_, rfl⟩
    exact fun i hi => setEntry_other s.ingress lane _ hi
  case other =>
    have ends : s.ingress.burstEnd pos = s.ingress.unport pos := by
      simp only [Ingress.burstEnd, hl, he, if_neg hb]
    exact ⟨_, congrArg (fun g => Host.Outcome.next (s.withIngress g)) ends, rfl, rfl⟩

/-! ## The record of a period (R41 to R43) -/

theorem record_peak (g : Ingress) (c : Settings) (x : Slot) : (g.record c x).1.peak = g.peak := by
  unfold Ingress.record
  dsimp only
  split <;> rfl

theorem record_brk (g : Ingress) (c : Settings) (x : Slot) :
    (g.record c x).1.brk = (g.entries.map LaneEntry.atStrobe).any (·.breakMatch) := by
  unfold Ingress.record
  dsimp only
  split <;> rfl

theorem record_maskTag (g : Ingress) (c : Settings) (x : Slot) :
    (g.record c x).1.maskTag = (g.entries.map LaneEntry.atStrobe).any (·.maskMatch) := by
  unfold Ingress.record
  dsimp only
  split <;> rfl

/-- R42: what the strobe does to a lane entry. -/
theorem atStrobe_eq (e : LaneEntry) :
    e.atStrobe.stored = e.stored ∧ e.atStrobe.overlong = e.overlong ∧ e.atStrobe.breakMatch = e.breakMatch ∧
      e.atStrobe.maskMatch = e.maskMatch ∧
      e.atStrobe.truncated =
        (e.truncated || (decide (e.burst = .opened) && decide (e.received < e.declared.getD 0))) := by
  unfold LaneEntry.atStrobe
  split
  next hb => exact ⟨rfl, rfl, rfl, rfl, by simp [LaneEntry.finish, hb]⟩
  next hb => exact ⟨rfl, rfl, rfl, rfl, by simp [hb]⟩

theorem atStrobe_record (e : LaneEntry) :
    e.atStrobe.record =
      ⟨decide (1 ≤ e.stored), e.stored, e.pages,
        e.truncated || (decide (e.burst = .opened) && decide (e.received < e.declared.getD 0)), e.overlong⟩ := by
  obtain ⟨stored, overlong, -, -, truncated⟩ := atStrobe_eq e
  rw [LaneEntry.record, stored, overlong, truncated, LaneEntry.atStrobe_pages]

theorem any_atStrobe {f : LaneEntry → Bool} (hf : ∀ e, f e.atStrobe = f e) (es : List LaneEntry) :
    (es.map LaneEntry.atStrobe).any f = true ↔ ∃ e ∈ es, f e = true := by
  rw [List.any_map, List.any_eq_true]
  simp only [Function.comp_apply, hf]

theorem arrivalOf_void_iff (lanes : List LaneRecord) : arrivalOf lanes = .void ↔ ∀ l ∈ lanes, l.present = false := by
  have all : (lanes.all fun l => !l.present) = true ↔ ∀ l ∈ lanes, l.present = false := by simp
  rw [← all]
  unfold arrivalOf
  split
  next h => simp [h]
  next h => split <;> simp [h]

theorem arrivalOf_whole_iff {lanes : List LaneRecord} (hne : lanes ≠ []) :
    arrivalOf lanes = .whole ↔ ∀ l ∈ lanes, l.present = true ∧ l.truncated = false := by
  have all : (lanes.all fun l => l.present && !l.truncated) = true ↔
      ∀ l ∈ lanes, l.present = true ∧ l.truncated = false := by simp
  rw [← all]
  unfold arrivalOf
  split
  next hvoid =>
    obtain ⟨l, hl⟩ := List.exists_mem_of_ne_nil lanes hne
    have absent := List.all_eq_true.1 hvoid l hl
    refine iff_of_false nofun fun hwhole => ?_
    have present := List.all_eq_true.1 hwhole l hl
    simp_all
  next => split <;> simp_all

/-- Settles O17: the record's lanes are those of the entries at the strobe. -/
theorem recordOfPeriod : Obligations.RecordOfPeriod := by
  intro g c x
  refine ⟨Ingress.record_psn g c x, record_peak g c x, fun i e he => ?lane, Ingress.record_lanes_length g c x, ?void,
    fun hne => ?whole, ?brk, ?mask⟩
  case lane =>
    rw [Ingress.record_lanes, List.getElem?_map, List.getElem?_map, he, Option.map_some, Option.map_some, atStrobe_record]
  case void =>
    rw [Ingress.record_arrival]
    exact arrivalOf_void_iff _
  case whole =>
    rw [Ingress.record_arrival]
    refine arrivalOf_whole_iff fun hnil => hne ?_
    rw [← List.length_eq_zero_iff, ← Ingress.record_lanes_length g c x, hnil, List.length_nil]
  case brk =>
    rw [record_brk]
    exact any_atStrobe (fun e => (atStrobe_eq e).2.2.1) g.entries
  case mask =>
    rw [record_maskTag]
    exact any_atStrobe (fun e => (atStrobe_eq e).2.2.2.1) g.entries

theorem record_void {g : Ingress} {c : Settings} {x : Slot} (h : (g.record c x).1.arrival = .void) :
    (g.record c x).1.quiet = false ∧ (g.record c x).1.pauseEligible = false ∧ (g.record c x).2 = 0 := by
  rw [Ingress.record_arrival, Ingress.record_lanes] at h
  unfold Ingress.record
  dsimp only
  rw [if_pos h]
  exact ⟨rfl, rfl, rfl⟩

/-- R41: the flags of a record that is not VOID. -/
theorem record_held {g : Ingress} {c : Settings} {x : Slot} (h : (g.record c x).1.arrival ≠ .void) :
    (g.record c x).1.quiet = quietSlot (soundPresent c (g.record c x).1.lanes) g.peak c.pauseThreshold ∧
      (g.record c x).2 = nextQuietRun g.quietRun (g.record c x).1.quiet ∧
      (g.record c x).1.pauseEligible =
        pauseEligible (g.record c x).1.quiet (g.record c x).1.brk (g.record c x).2 c.pauseRun := by
  rw [Ingress.record_arrival, Ingress.record_lanes] at h
  unfold Ingress.record
  dsimp only
  rw [if_neg h]
  exact ⟨rfl, rfl, rfl⟩

/-- Settles O18: the flags of a VOID record, and of the others. -/
theorem quietRun : Obligations.QuietRun := by
  intro g c x
  refine ⟨record_void, fun h => ?_⟩
  obtain ⟨quiet, run, eligible⟩ := record_held h
  refine ⟨?_, fun hq => ?_, fun hq => ?_, ?_⟩
  · rw [quiet, quietSlot, Bool.and_eq_true, decide_eq_true_iff]
  · rw [run, hq]
    rfl
  · rw [run, hq]
    rfl
  · rw [eligible, pauseEligible, Bool.or_eq_true, Bool.and_eq_true, decide_eq_true_iff]

end Sys2Proof.Proofs.IngressCommands
end

