-- ==== Sys2Proof/Proofs/PlanRules.lean ====
section
/-! SUPPORT. The judgement of a RESCIND and of a SPAN-COMMIT with the checks of every MARK frame, retirement and the output
step (R62 to R65, R118, R124, R130). -/

namespace Sys2Proof.Proofs.PlanRules

open Sys2Proof Sys2Proof.Machine
open Sys2Proof.Proofs.SpanContexts

/-! ## Rescind (R64, R65) -/

theorem add_slots_succ (p : Slot) (n : Nat) : p + 1 + slots n = p + slots (n + 1) := by
  unfold slots
  rw [Nat.add_comm n 1, BitVec.ofNat_add, BitVec.add_assoc]
  rfl

theorem countUndropped_eq (cuts : List Cut) (p : Slot) (n : Nat) :
    countUndropped cuts p n = (List.range n).countP fun i => !droppedBy cuts (p + slots i) := by
  induction n generalizing p with
  | zero => rfl
  | succ n ih =>
    have here : p + slots 0 = p := BitVec.add_zero p
    rw [countUndropped, ih, List.range_succ_eq_map, List.countP_cons, List.countP_map, here, Nat.add_comm]
    congr 1
    · congr 1
      funext i
      rw [Function.comp_apply, add_slots_succ]
    · cases droppedBy cuts p <;> rfl

theorem isDrop_eq (k : CutKind) : k.isDrop = (k == .drop) := by cases k <;> rfl

/-- R64 4: the restored count, counted PSN by PSN. -/
theorem restoredCount_eq (cuts : List Cut) (c : Cut) :
    restoredCount cuts c = (List.range ((c.stop - c.start).toNat + 1)).countP fun i =>
      !cuts.any fun d => d.id != c.id && d.kind == .drop && within d.start d.stop (c.start + slots i) := by
  have dropped (q : Slot) : droppedBy (cuts.filter fun d => d.id != c.id) q =
      cuts.any fun d => d.id != c.id && d.kind == .drop && within d.start d.stop q := by
    unfold droppedBy
    rw [List.any_filter]
    simp only [isDrop_eq, Cut.covers, Bool.and_assoc]
  rw [restoredCount, countUndropped_eq]
  simp only [dropped]

section Rescind
variable {pl : Plan} {b : Bounds} {sender : Station} {id : CutId}

theorem judgeRescind_unknown (h : ∀ d ∈ pl.cuts, d.id ≠ id) : pl.judgeRescind b sender id = pl.refuse .unknown := by
  have none : findCut pl.cuts id = none := List.find?_eq_none.2 fun d hd => by simpa using h d hd
  simp only [Plan.judgeRescind, none]

theorem judgeRescind_held {c : Cut} (h : findCut pl.cuts id = some c) :
    pl.judgeRescind b sender id =
      if sender ≠ id.origin then pl.refuse .foreign
      else if earlier c.start b.h then pl.refuse .rescindLate
      else if c.kind.isDrop ∧ Config.delayCap < b.projected pl.paces + restoredCount pl.cuts c then pl.refuse .cap
      else Plan.accept { pl with cuts := pl.cuts.filter fun d => d.id != id } := by
  simp only [Plan.judgeRescind, h, findCut_id h]

end Rescind

/-- Settles O22: the reasons in their order, with the restored count counted PSN by PSN. -/
theorem rescindJudgement : Obligations.RescindJudgement := by
  intro pl b sender id
  refine ⟨judgeRescind_unknown, fun c hc => ?_⟩
  have restored := restoredCount_eq pl.cuts c
  rw [findCut_id hc] at restored
  have cap : (c.kind.isDrop ∧ Config.delayCap < b.projected pl.paces + restoredCount pl.cuts c) ↔
      c.kind = .drop ∧ 3800 < b.delay + paceSum pl.paces + restoredCount pl.cuts c :=
    and_congr (CutKind.isDrop_iff c.kind) Iff.rfl
  rw [judgeRescind_held hc]
  simp only [cap, ← restored]
  refine ⟨fun hs => if_pos hs, fun hs hlate => ?late, fun hs hlate hcap => ?cap, fun hs hlate hcap => ?accepted⟩
  case late => rw [if_neg (not_not.2 hs), if_pos hlate]
  case cap => rw [if_neg (not_not.2 hs), if_neg (Bool.eq_false_iff.1 hlate), if_pos hcap]
  case accepted =>
    rw [if_neg (not_not.2 hs), if_neg (Bool.eq_false_iff.1 hlate), if_neg hcap]
    exact ⟨rfl, rfl, rfl, rfl⟩

/-! ## Span frames and the frame checks (R118, R124) -/

theorem spanOf_congr {p q : Plan} (h : p.spans = q.spans) (k : Station) : p.spanOf k = q.spanOf k := by
  rw [Plan.spanOf, h]
  rfl

/-- An insertion request is judged by the cuts and the pace entries, and leaves the span contexts as they are. -/
theorem judgeInsert_spans (pl : Plan) (spans : List Span) (b : Bounds) (r : CutRequest) :
    Plan.judgeInsert { pl with spans := spans } b r =
      { pl.judgeInsert b r with plan := { (pl.judgeInsert b r).plan with spans := spans } } := by
  have refused (reason : Reason) : Plan.refuse { pl with spans := spans } reason =
      { pl.refuse reason with plan := { (pl.refuse reason).plan with spans := spans } } := rfl
  unfold Plan.judgeInsert
  dsimp only
  split
  · exact refused _
  · split
    · exact refused _
    · split
      · exact refused _
      · split
        · exact refused _
        · split
          · exact refused _
          · rfl

theorem judgeSpanCommit_closed {pl : Plan} {k : Station} {c : Span} {q : Slot} (b : Bounds) (n : Byte) (kind : CutKind)
    (hc : pl.spanOf k = some c) (hq : c.outPoint = some q) :
    pl.judgeSpanCommit b k n kind = (pl.idleSpan k).judgeInsert b ⟨⟨k, n⟩, kind, c.inPoint, q, .span⟩ := by
  obtain ⟨origin, inPoint, outPoint, last⟩ := c
  obtain rfl := hq
  simp only [Plan.judgeSpanCommit, hc]

theorem judgeSpanCommit_open {pl : Plan} {k : Station} {c : Span} (b : Bounds) (n : Byte) (kind : CutKind)
    (hc : pl.spanOf k = some c) (hq : c.outPoint = none) : pl.judgeSpanCommit b k n kind = pl.refuse .stray := by
  obtain ⟨origin, inPoint, outPoint, last⟩ := c
  obtain rfl := hq
  simp only [Plan.judgeSpanCommit, hc]

theorem spanClosed_iff (pl : Plan) (k : Station) :
    pl.spanClosed k = true ↔ ∃ d q, pl.spanOf k = some d ∧ d.outPoint = some q := by
  unfold Plan.spanClosed
  split
  next c hc => simp [hc, Option.isSome_iff_exists]
  next hn => simp [hn]

theorem untimely_iff (m : Mark) (x : Slot) :
    m.untimely x = true ↔ later m.stamp x = true ∨ ∃ p, markPoint m = some p ∧ later p m.stamp = true := by
  cases m <;> simp [Mark.untimely, markPoint, Mark.stamp]

section Checks
variable {pl : Plan} {b : Bounds} {k : Station} {kind : Kind} {body : List Byte}

theorem judgeMark_of_fails (h : FailsChecks b.x kind body) : pl.judgeMark b k kind body = pl.refuseFrame k kind := by
  obtain hn | ⟨m, hm, hbad⟩ := h
  · simp only [Plan.judgeMark, hn]
  · simp only [Plan.judgeMark, hm, (untimely_iff m b.x).2 hbad, if_true]

theorem judgeMark_of_passes (h : ¬ FailsChecks b.x kind body) {m : Mark} (hm : parseMark kind body = some m) :
    pl.judgeMark b k kind body = pl.judgeContent b k m := by
  have timely : ¬ m.untimely b.x = true := fun hbad => h (.inr ⟨m, hm, (untimely_iff m b.x).1 hbad⟩)
  simp only [Plan.judgeMark, hm, if_neg timely]

theorem refuseFrame_commit (h : kind = .spanCommit ∧ ∃ d q, pl.spanOf k = some d ∧ d.outPoint = some q) :
    pl.refuseFrame k kind = (pl.idleSpan k).refuse .malformed :=
  if_pos ⟨h.1, (spanClosed_iff pl k).2 h.2⟩

theorem refuseFrame_other (h : ¬ (kind = .spanCommit ∧ ∃ d q, pl.spanOf k = some d ∧ d.outPoint = some q)) :
    pl.refuseFrame k kind = pl.refuse .malformed :=
  if_neg fun hc => h ⟨hc.1, (spanClosed_iff pl k).1 hc.2⟩

end Checks

/-- O26: the checks of every MARK frame. -/
theorem markChecks : MarkChecks := by
  intro pl b k kind body
  refine ⟨fun hfails => ?fails, fun hpasses => ?passes⟩
  case fails =>
    rw [judgeMark_of_fails hfails]
    by_cases hclosed : kind = .spanCommit ∧ ∃ d q, pl.spanOf k = some d ∧ d.outPoint = some q
    · rw [refuseFrame_commit hclosed]
      exact ⟨rfl, rfl, rfl, fun j hj => spanOf_idleSpan_ne pl hj, fun _ => spanOf_idleSpan_self pl k,
        fun hn => absurd hclosed hn⟩
    · rw [refuseFrame_other hclosed]
      exact ⟨rfl, rfl, rfl, fun _ _ => rfl, fun hc => absurd hc hclosed, fun _ => rfl⟩
  case passes =>
    have judged {m : Mark} (hm : parseMark kind body = some m) := judgeMark_of_passes (pl := pl) (k := k) hpasses hm
    exact ⟨fun _ _ _ _ => judged, fun _ _ _ _ => judged, fun _ _ => judged, fun _ _ => judged, fun _ _ => judged,
      fun _ _ _ => judged, fun _ => judged⟩

/-- Settles O26: in CLOSED the insertion is judged on the plan without the context. -/
theorem spanCommitTransition : Obligations.SpanCommitTransition := by
  refine ⟨fun pl b k n kind => ⟨fun hn => ?idle, fun c hc hq => judgeSpanCommit_open b n kind hc hq, fun c q hc hq => ?closed⟩,
    markChecks⟩
  case idle => simp only [Plan.judgeSpanCommit, hn]
  case closed =>
    have judged := judgeInsert_spans pl (pl.idleSpan k).spans b ⟨⟨k, n⟩, kind, c.inPoint, q, .span⟩
    rw [judgeSpanCommit_closed b n kind hc hq,
      show pl.idleSpan k = { pl with spans := (pl.idleSpan k).spans } from rfl, judged]
    refine ⟨rfl, rfl, rfl, ?_, fun j hj => ?_⟩
    · exact (spanOf_congr rfl k).trans (spanOf_idleSpan_self pl k)
    · exact (spanOf_congr rfl j).trans (spanOf_idleSpan_ne pl hj)

/-! ## Retirement and the output step (R62, R63, R130) -/

/-- Settles O27: the filters and the states of `Plan.retire`. -/
theorem retirementRule : Obligations.RetirementRule := by
  intro pl q
  refine ⟨fun c => ?cuts, fun e => ?paces, rfl⟩
  case cuts =>
    rw [Plan.retire, List.mem_map]
    refine exists_congr fun d => ?_
    rw [List.mem_filter, and_assoc, Bool.not_eq_true', eq_comm (b := c)]
    rfl
  case paces => rw [Plan.retire, List.mem_filter, Bool.not_eq_true']

theorem passesOver_iff (pl : Plan) (p : Slot) :
    pl.passesOver p = true ↔ coverage pl.cuts p = .dropped ∨ paceAt pl.paces p = some (-1) := by
  rw [Plan.passesOver, Bool.or_eq_true, coverage_dropped_iff, trimmedAt, beq_iff_eq]

/-- Settles O28: a repeat, or the search that stops at the first PSN that is neither dropped nor trimmed. -/
theorem outputStepRule : Obligations.OutputStepRule := by
  intro pl pt
  refine ⟨fun howed => if_pos howed, fun howed n hn hpassed hcover htrim => ?_⟩
  have stops : pl.advance pt.psn = pt.psn + 1 + slots n := by
    refine Plan.searchFrom_stops pl (pt.psn + 1) n _ hn (fun i hi => (passesOver_iff pl _).2 (hpassed i hi)) ?_
    exact Bool.eq_false_iff.2 fun h => ((passesOver_iff pl _).1 h).elim hcover htrim
  rw [Plan.outStep, if_neg (by omega), stops]
  rfl

end Sys2Proof.Proofs.PlanRules
end

