-- ==== Sys2Proof/Proofs/OutputAndOffer.lean ====
section
/-! SUPPORT. The end of an output burst (R129, R134), the offer of the traffic unit (R90) and the bus idle (R72, R73). -/

namespace Sys2Proof.Proofs.OutputAndOffer

open Sys2Proof Sys2Proof.Machine

/-! ## OUTPUT_BURST_END -/

/-- The lanes of the egress once the burst `b` has been sent whole. -/
def lanesFinished (s : State) (b : OutBurst) : List EgressLane :=
  if s.feedsHold b then (s.holdBytes b.lane b.bytes).egress.lanes else s.egress.lanes

theorem holdBytes_eq (s : State) (lane : Nat) (bytes : List Byte) :
    s.holdBytes lane bytes = s.withEgress { s.egress with lanes := (s.holdBytes lane bytes).egress.lanes } := by
  unfold State.holdBytes
  split <;> rfl

theorem finishBurst_eq (s : State) (b : OutBurst) :
    s.finishBurst b =
      s.withEgress { s.egress with lanes := lanesFinished s b, out := s.egress.out.filter fun d => d.lane != b.lane } := by
  unfold State.finishBurst lanesFinished
  dsimp only
  split
  · rw [holdBytes_eq]
    rfl
  · rfl

theorem lanesFinished_picture {s : State} {b : OutBurst} {hold : List Byte} (hb : b.subst = .stored)
    (hl : s.egress.lanes[b.lane]? = some (.picture hold)) :
    (lanesFinished s b)[b.lane]? = some (.picture b.bytes) := by
  have feeds : s.feedsHold b = true := by
    rw [State.feedsHold, hb, hl]
    rfl
  have held : (s.holdBytes b.lane b.bytes).egress.lanes = s.egress.lanes.set b.lane (.picture b.bytes) := by
    simp only [State.holdBytes, hl]
    rfl
  rw [lanesFinished, if_pos feeds, held]
  exact List.getElem?_set_self (List.getElem?_eq_some_iff.1 hl).1

/-- Settles O30: the burst found on the position leaves it, and a stored picture fills the hold buffer. -/
theorem outputBurstEnd : Obligations.OutputBurstEnd := by
  intro pos b s hfound
  have lane : b.lane = pos.val := by simpa using List.find?_some hfound
  have taken : exec (.outputBurstEnd pos) s = .next (s.finishBurst b) := by
    simp only [exec, execOutputBurstEnd, hfound]
  rw [finishBurst_eq, lane] at taken
  refine ⟨_, taken, rfl, fun hold hb hl => ?_, fun hb => if_neg ?_, rfl⟩
  · rw [← lane] at hl ⊢
    exact lanesFinished_picture hb hl
  · rw [State.feedsHold, beq_eq_false_iff_ne.2 hb]
    nofun

/-! ## The offer -/

theorem firstOfClass_eq_some {es : List TxEntry} {cls : Nat} {r : TxRef} (h : firstOfClass es cls = some r) :
    ∃ e ∈ es, e.live = true ∧ e.hasClass cls = true ∧ r = .general e.order := by
  obtain ⟨e, he, rfl⟩ := Option.map_eq_some_iff.1 h
  have picked : e.live = true ∧ e.hasClass cls = true := by simpa using List.find?_some he
  exact ⟨e, List.mem_of_find?_eq_some he, picked.1, picked.2, rfl⟩

/-- Settles O32: the offer's alternatives in their order. -/
theorem offerRanking : Obligations.OfferRanking := by
  intro t
  refine ⟨fun h => ?mark, fun hheld r hr => ?held⟩
  case mark =>
    obtain ⟨e, he, live, cls, hfirst⟩ := firstOfClass_some h
    refine ⟨e, he, live, cls, ?_⟩
    rw [Traffic.offer, hfirst]
    rfl
  case held =>
    have notEmpty : t.heldBy.isEmpty = false := by simpa using hheld
    rw [Traffic.offer, notEmpty] at hr
    cases hmark : firstOfClass t.general 0 with
    | some q =>
      rw [hmark] at hr
      obtain rfl := Option.some.inj hr
      exact .inr (firstOfClass_eq_some hmark)
    | none =>
      left
      rw [hmark] at hr
      cases hflow : t.flow.any Holder.live with
      | true =>
        have offered : holderRef t.flow .flow = some .flow := by rw [holderRef, hflow]; rfl
        rw [offered] at hr
        exact (Option.some.inj hr).symm
      | false =>
        have offered : holderRef t.flow .flow = none := by rw [holderRef, hflow]; rfl
        rw [offered] at hr
        cases hr

/-! ## The bus idle -/

/-- The link at a bus idle with the offer `r`, before the controller contends. -/
def offered (l : Link) (n : Nat) (r : TxRef) : Link := { l.atIdle n with current := some r }

theorem busIdle_link {s : State} {r : TxRef} (hc : s.link.clash = false) (hlive : AllLive s.traffic)
    (ho : s.traffic.offer = some r) (n : Nat) : (s.busIdle n).link = (offered s.link n r).contend := by
  obtain ⟨general, beacon, flow⟩ := hlive
  have purged : (s.withLink (s.link.atIdle n)).purgeCancelled = s.withLink (s.link.atIdle n) :=
    purgeCancelled_live general beacon flow
  have open' : (s.withLink (s.link.atIdle n)).link.clash = false := hc
  unfold State.busIdle State.takeOffer
  simp only [open', purged, Bool.false_eq_true, if_false]
  show Link.contend { s.link.atIdle n with current := s.traffic.offer } = _
  rw [ho]
  rfl

theorem exec_busIdle {s : State} (hconn : s.link.connected = true) (ha : s.link.attempt = false) {n : Nat} (hn : 11 ≤ n) :
    exec (.busIdle n) s = .next (s.busIdle n) := by
  have listens : (s.link.listens && decide (Config.busIdleBits ≤ n)) = true := by
    rw [Link.listens, hconn, ha, decide_eq_true hn]
    rfl
  exact if_pos listens

/-- R73: the gap and the place decide whether the controller contends. -/
theorem mayContend_offered (l : Link) (n : Nat) (r : TxRef) :
    (offered l n r).mayContend = true ↔ l.gap ≤ l.idleBits n ∧ (l.lostPlace = false ∨ 18 ≤ n) := by
  simp [Link.mayContend, offered, Link.atIdle, Config.recoverBits, Nat.sub_eq_zero_iff_le]

theorem contend_current (l : Link) : l.contend.current = l.current ∧ l.contend.gap = l.gap := by
  unfold Link.contend
  split <;> exact ⟨rfl, rfl⟩

theorem contends_of {t : State} {l : Link} (ht : t.link = l.contend) (hl : l.mayContend = true) : Contends t := by
  rw [Link.contend, if_pos hl] at ht
  rw [Contends, ht]
  exact ⟨rfl, rfl, rfl⟩

theorem staysIdle_of {t : State} {l : Link} {n : Nat} {r : TxRef} (ht : t.link = (offered l n r).contend)
    (ha : l.attempt = false) (hl : ¬ (offered l n r).mayContend = true) : StaysIdle t n := by
  rw [Link.contend, if_neg hl] at ht
  rw [StaysIdle, ht]
  exact ⟨rfl, ha, rfl⟩

/-- Settles O33: a bus idle takes the offer, and contends as the gap and the place allow. -/
theorem busIdleContends : Obligations.BusIdleContends := by
  intro r s hconn ha hc hlive ho
  have link := busIdle_link hc hlive ho
  have may := mayContend_offered s.link (r := r)
  have current (n : Nat) : (s.busIdle n).link.current = some r := by
    rw [link, (contend_current _).1]
    rfl
  have gap (n : Nat) : (s.busIdle n).link.gap = s.link.gap - s.link.idleBits n := by
    rw [link, (contend_current _).2]
    rfl
  refine ⟨fun n hn => ⟨_, exec_busIdle hconn ha hn, current n, fun hgap hplace => ?contends, fun hlost hlt => ?lost,
    fun hphase hrun => ?fresh, fun hphase hrun => ?running⟩, fun hphase hgap hplace hidle => ?expiry⟩
  case contends => exact contends_of (link n) ((may n).2 ⟨by omega, hplace⟩)
  case lost =>
    refine staysIdle_of (link n) ha fun h => ?_
    obtain hplace | hwide := ((may n).1 h).2
    · rw [hlost] at hplace
      cases hplace
    · omega
  case fresh =>
    have bits : s.link.idleBits n = n - 11 := if_neg hphase
    refine ⟨staysIdle_of (link n) ha fun h => ?_, by rw [gap, bits]⟩
    have := ((may n).1 h).1
    omega
  case running =>
    have bits : s.link.idleBits n = n - s.link.idleCount := if_pos hphase
    refine ⟨staysIdle_of (link n) ha fun h => ?_, by rw [gap, bits]⟩
    have := ((may n).1 h).1
    omega
  case expiry =>
    have bits : s.link.idleBits (s.link.idleCount + s.link.gap) = s.link.gap := by
      rw [Link.idleBits, if_pos hphase, Nat.add_sub_cancel_left]
    have taken : exec .courtesyGapExpiry s = .next (s.busIdle (s.link.idleCount + s.link.gap)) := by
      have running : (s.link.gap != 0) = true := bne_iff_ne.2 (Nat.ne_of_gt hgap)
      refine if_pos ?_
      rw [Link.listens, hconn, ha, hphase, running]
      rfl
    refine ⟨_, taken, by rw [gap, bits, Nat.sub_self], current _, contends_of (link _) ((may _).2 ⟨by rw [bits], .inl hplace⟩)⟩

end Sys2Proof.Proofs.OutputAndOffer
end

