-- ==== Sys2Proof/Proofs/EndedAttempts.lean ====
section
/-! SUPPORT. The ends of an attempt short of success: a lost arbitration, a veto and the sixteenth veto, of an entry's frame
and of a holder's (R77 to R81, R92 to R95, R98). -/

namespace Sys2Proof.Proofs.EndedAttempts

open Sys2Proof Sys2Proof.Machine
open Sys2Proof.Proofs.ReceiveQueue Sys2Proof.Proofs.Frames

/-! ## The end of an attempt -/

/-- The link once its attempt has ended. -/
def idled (l : Link) : Link := { l with attempt := false }

theorem endAttempt_current {s : State} {r : TxRef} (hc : s.link.current = some r) :
    s.endAttempt = ((s.withLink (idled s.link)).endStale r).endHolderAttempt r := by
  unfold State.endAttempt
  dsimp only
  split
  next hn => exact nomatch hc.symm.trans hn
  next q hq =>
    obtain rfl := Option.some.inj (hc.symm.trans hq)
    rfl

theorem endAttempt_beacon {s : State} (hc : s.link.current = some .beacon) :
    s.endAttempt =
      match s.traffic.beaconNext with
      | none => s.withLink (idled s.link)
      | some f =>
        (s.withTraffic { s.traffic with beacon := some ⟨f, 0, false, false⟩, beaconNext := none }).withLink
          { idled s.link with current := none } := by
  have current : (s.withLink (idled s.link)).isCurrent .beacon = true := by simp [State.isCurrent, idled, hc]
  rw [endAttempt_current hc]
  unfold State.endStale State.endHolderAttempt
  dsimp only [State.withLink_traffic]
  cases s.traffic.beaconNext with
  | none => rfl
  | some f => exact if_pos current

theorem endAttempt_flow {s : State} (hc : s.link.current = some .flow) :
    s.endAttempt =
      match s.traffic.flowNext with
      | none => s.withLink (idled s.link)
      | some f =>
        (s.withTraffic { s.traffic with flow := some ⟨f, 0, false, false⟩, flowNext := none }).withLink
          { idled s.link with current := none } := by
  have current : (s.withLink (idled s.link)).isCurrent .flow = true := by simp [State.isCurrent, idled, hc]
  rw [endAttempt_current hc]
  unfold State.endStale State.endHolderAttempt
  dsimp only [State.withLink_traffic]
  cases s.traffic.flowNext with
  | none => rfl
  | some f => exact if_pos current

theorem currentHolder_cases {s : State} {h : Holder} (hh : currentHolder s = some h) :
    (s.link.current = some .beacon ∧ s.traffic.beacon = some h) ∨ (s.link.current = some .flow ∧ s.traffic.flow = some h) := by
  unfold currentHolder at hh
  split at hh
  next hc => exact .inl ⟨hc, hh⟩
  next hc => exact .inr ⟨hc, hh⟩
  next => cases hh

/-- What the end of an attempt of a holder's frame leaves alone. -/
structure HolderSide (s t : State) : Prop where
  general : t.traffic.general = s.traffic.general
  received : t.traffic.received = s.traffic.received
  flowState : t.traffic.flowState = s.traffic.flowState
  link : t.link = { s.link with attempt := false, current := t.link.current }

theorem endAttempt_holderSide {s : State} {h : Holder} (hh : currentHolder s = some h) : HolderSide s s.endAttempt := by
  obtain ⟨hc, -⟩ | ⟨hc, -⟩ := currentHolder_cases hh
  · rw [endAttempt_beacon hc]
    split <;> exact ⟨rfl, rfl, rfl, rfl⟩
  · rw [endAttempt_flow hc]
    split <;> exact ⟨rfl, rfl, rfl, rfl⟩

/-- R95, R98: a frame that waits takes the holder, and else the holder's frame stays current. -/
theorem endAttempt_holderKept {s : State} {h : Holder} (hh : currentHolder s = some h) :
    HolderKept s s.endAttempt h.vetoes := by
  obtain ⟨hc, hb⟩ | ⟨hc, hf⟩ := currentHolder_cases hh
  · refine ⟨fun d _ hd => ?_, fun d hflow => ?_⟩
    · obtain rfl := Option.some.inj (hb.symm.trans hd)
      rw [endAttempt_beacon hc]
      refine ⟨fun hn => ?_, fun f hn => ?_⟩
      · rw [hn]
        exact ⟨hb, hc⟩
      · rw [hn]
        exact ⟨rfl, rfl, rfl⟩
    · rw [hc] at hflow
      cases hflow
  · refine ⟨fun d hbeacon => ?_, fun d _ hd => ?_⟩
    · rw [hc] at hbeacon
      cases hbeacon
    · obtain rfl := Option.some.inj (hf.symm.trans hd)
      rw [endAttempt_flow hc]
      refine ⟨fun hn => ?_, fun f hn => ?_⟩
      · rw [hn]
        exact ⟨hf, hc⟩
      · rw [hn]
        exact ⟨rfl, rfl, rfl⟩

/-! ## ARBITRATION_LOST (R77) -/

theorem exec_arbitrationLost {s : State} (hp : s.link.phase = .arbitrating) (ha : s.link.attempt = true) :
    exec .arbitrationLost s = .next s.loseArbitration := by
  refine if_pos ?_
  rw [Link.sendsKey, ha, hp]
  rfl

/-- Settles O34: the end of the attempt, with the controller receiving. -/
theorem arbitrationLost : Obligations.ArbitrationLost := by
  refine ⟨fun o e s hp ha hc he => ?entry, fun h s hp ha hh => ?holder, fun s hp => ?outside⟩
  case entry =>
    obtain ⟨link, entry, -, refused, traffic⟩ := endAttempt_general hc he
    refine ⟨_, exec_arbitrationLost hp ha, ?_, ?_, rfl, rfl, entry, refused, traffic⟩
    · exact (congrArg Link.current link).trans hc
    · exact congrArg Link.attempt link
  case holder =>
    obtain ⟨general, -, -, link⟩ := endAttempt_holderSide hh
    exact ⟨_, exec_arbitrationLost hp ha, congrArg Link.attempt link, rfl, endAttempt_holderKept hh, general⟩
  case outside =>
    refine if_neg fun hs => hp ?_
    simpa [Link.sendsKey] using (Bool.and_eq_true_iff.1 hs).2

/-! ## The veto of an attempt (R78) -/

theorem vetoAttempt_below {s : State} {r : TxRef} (hc : s.link.current = some r) (h : (s.addVeto r).vetoesOf r < 16) :
    s.vetoAttempt = (s.addVeto r).endAttempt := by
  simp only [State.vetoAttempt, hc]
  exact if_neg (Nat.not_le.2 h)

theorem vetoAttempt_sixteenth {s : State} {r : TxRef} (hc : s.link.current = some r) (h : 16 ≤ (s.addVeto r).vetoesOf r) :
    s.vetoAttempt = (s.addVeto r).endAttempt.abandonHeld r := by
  simp only [State.vetoAttempt, hc]
  exact if_pos h

/-- The command ends the attempt in a veto; of the link the phase, the idle count, the wait for idle and the drive are its
own. -/
def EndsVetoed (i : Instr) (s : State) : Prop :=
  ∃ l : Link, exec i s = .next (s.vetoAttempt.withLink l) ∧ l.current = s.vetoAttempt.link.current ∧
    l.attempt = s.vetoAttempt.link.attempt ∧ l.vetoCount = s.vetoAttempt.link.vetoCount

theorem endsVetoed_frameVetoed {s : State} (ha : s.link.attempt = true) (slot : VetoSlot) :
    EndsVetoed (.frameVetoed slot) s := ⟨_, if_pos ha, rfl, rfl, rfl⟩

theorem endsVetoed_lineFault {s : State} (ha : s.link.attempt = true) (n : Nat) : EndsVetoed (.lineFault n) s := by
  obtain ⟨-, -, current, attempt, vetoCount, -, -⟩ :=
    Link.counted_keeps { s.vetoAttempt.link.receiving with awaitIdle := true } n
  exact ⟨_, if_pos ha, current, attempt, vetoCount⟩

theorem endsVetoed_of_endsInVeto {i : Instr} {s : State} (h : EndsInVeto i) (ha : s.link.attempt = true) : EndsVetoed i s := by
  obtain ⟨slot, rfl⟩ | ⟨n, rfl⟩ := h
  · exact endsVetoed_frameVetoed ha slot
  · exact endsVetoed_lineFault ha n

theorem vetoesFull_iff_full (s : State) (k : Kind) :
    s.vetoesFull k = true ↔ k.queued = true ∧ 32 ≤ s.traffic.received.length ∧ s.ref.flag = .present := by
  simp [State.vetoesFull, State.queueFull, and_assoc]

theorem endsVetoed_of_vetoed {i : Instr} {e : TxEntry} {s : State} {o : Nat} (h : Vetoed i e s) (ha : s.link.attempt = true)
    (hc : s.link.current = some (.general o)) (he : s.entry o = some e) : EndsVetoed i s := by
  obtain h | ⟨rfl, f, hf, hfull⟩ := h
  · exact endsVetoed_of_endsInVeto h ha
  · have frame : s.frameOf (.general o) = some f := by simp only [State.frameOf, he, Option.bind_some, hf]
    have taken : exec .sent s = .next (s.ownVeto .vetoBit) := by
      simp only [exec, execSent, ha, hc, frame, (vetoesFull_iff_full s f.kind).2 hfull, if_true]
    exact ⟨_, taken, rfl, rfl, rfl⟩

/-- R77: after a line fault the controller drives nothing and counts idle from the line. -/
theorem vetoedLink_lineFault {s : State} (ha : s.link.attempt = true) (n : Nat) :
    ∃ t, exec (.lineFault n) s = .next t ∧ CountsFromLine n t ∧ t.link.drive = ⟨false, false⟩ := by
  obtain ⟨-, -, -, -, -, -, idleCount⟩ := Link.counted_keeps { s.vetoAttempt.link.receiving with awaitIdle := true } n
  refine ⟨_, if_pos ha, ⟨idleCount, fun hn => ?_, fun hn => ?_⟩, ?_⟩
  · rw [State.lineFault, State.withLink_link, Link.counted_below _ n hn]
    exact ⟨rfl, rfl⟩
  · rw [State.lineFault, State.withLink_link, Link.counted_idle _ n hn]
    exact ⟨rfl, rfl, rfl⟩
  · rw [State.lineFault, State.withLink_link, Link.counted]
    split <;> rfl

/-- O35: the link after a line fault and after a vetoed own frame. -/
theorem vetoedLink : VetoedLink := by
  refine ⟨fun n s ha => vetoedLink_lineFault ha n, fun slot o e f s ha hc he hf => ?_⟩
  have own : s.vetoesOwn = s.vetoesFull f.kind := by
    simp [State.vetoesOwn, hc, State.frameOf, he, hf]
  refine ⟨_, if_pos ha, rfl, rfl, ?_, ?_⟩
  · show s.vetoesOwn = true ↔ _
    rw [own]
    exact vetoesFull_iff_full s f.kind
  · show (s.vetoesOwn || slot == .vetoBit) = true ↔ slot = .vetoBit ∨ s.vetoesOwn = true
    rw [Bool.or_eq_true, beq_iff_eq, or_comm]

/-! ## A veto of a holder's frame -/

/-- The state with one veto more on the current frame. -/
def vetoAdded (s : State) : State := (s.link.current.map s.addVeto).getD s

theorem vetoAdded_eq {s : State} {r : TxRef} (hc : s.link.current = some r) : vetoAdded s = s.addVeto r := by
  rw [vetoAdded, hc]
  rfl

section Holders
variable {s : State} {h : Holder}

theorem currentHolder_vetoAdded (hh : currentHolder s = some h) :
    currentHolder (vetoAdded s) = some { h with vetoes := h.vetoes + 1 } := by
  obtain ⟨hc, hb⟩ | ⟨hc, hf⟩ := currentHolder_cases hh
  · rw [vetoAdded_eq hc, currentHolder, show (s.addVeto .beacon).link.current = _ from hc]
    exact congrArg (Option.map _) hb
  · rw [vetoAdded_eq hc, currentHolder, show (s.addVeto .flow).link.current = _ from hc]
    exact congrArg (Option.map _) hf

/-- A veto changes the count of the current frame alone. -/
theorem vetoAdded_keeps (hh : currentHolder s = some h) :
    (vetoAdded s).link = s.link ∧ (vetoAdded s).traffic.received = s.traffic.received ∧
      (vetoAdded s).traffic.general = s.traffic.general := by
  obtain ⟨hc, -⟩ | ⟨hc, -⟩ := currentHolder_cases hh
  · rw [vetoAdded_eq hc]
    exact ⟨rfl, rfl, rfl⟩
  · rw [vetoAdded_eq hc]
    exact ⟨rfl, rfl, rfl⟩

theorem vetoesOf_vetoAdded {r : TxRef} (hh : currentHolder s = some h) (hc : s.link.current = some r) :
    (s.addVeto r).vetoesOf r = h.vetoes + 1 := by
  obtain ⟨hc', hb⟩ | ⟨hc', hf⟩ := currentHolder_cases hh
  · obtain rfl := Option.some.inj (hc.symm.trans hc')
    simp [State.addVeto, State.vetoesOf, hb]
  · obtain rfl := Option.some.inj (hc.symm.trans hc')
    simp [State.addVeto, State.vetoesOf, hf]

theorem exists_current (hh : currentHolder s = some h) : ∃ r, s.link.current = some r := by
  obtain ⟨hc, -⟩ | ⟨hc, -⟩ := currentHolder_cases hh
  · exact ⟨_, hc⟩
  · exact ⟨_, hc⟩

theorem vetoAttempt_holder (hh : currentHolder s = some h) (hv : h.vetoes + 1 < 16) :
    s.vetoAttempt = (vetoAdded s).endAttempt := by
  obtain ⟨r, hc⟩ := exists_current hh
  rw [vetoAdded_eq hc]
  exact vetoAttempt_below hc (vetoesOf_vetoAdded hh hc ▸ hv)

theorem HolderKept.of_vetoAdded {t : State} (hh : currentHolder s = some h) {n : Nat} (k : HolderKept (vetoAdded s) t n) :
    HolderKept s t n := by
  obtain ⟨beacon, flow⟩ := k
  obtain ⟨hc, hb⟩ | ⟨hc, hf⟩ := currentHolder_cases hh
  · rw [vetoAdded_eq hc] at beacon flow
    refine ⟨fun d _ hd => ?_, fun d hflow => ?_⟩
    · exact beacon { d with vetoes := d.vetoes + 1 } hc (congrArg (Option.map _) hd)
    · rw [hc] at hflow
      cases hflow
  · rw [vetoAdded_eq hc] at beacon flow
    refine ⟨fun d hbeacon => ?_, fun d _ hd => ?_⟩
    · rw [hc] at hbeacon
      cases hbeacon
    · exact flow { d with vetoes := d.vetoes + 1 } hc (congrArg (Option.map _) hd)

end Holders

/-- Settles O35: below 16 the frame keeps its place with one veto more. -/
theorem vetoCounted : Obligations.VetoCounted := by
  refine ⟨fun i o e s hv ha hc he hcount => ?entry, vetoedLink, fun i h s hi ha hh hcount => ?holder⟩
  case entry =>
    obtain ⟨l, taken, current, attempt, vetoCount⟩ := endsVetoed_of_vetoed hv ha hc he
    obtain ⟨link, entry, received⟩ := vetoAttempt_general hc he hcount
    rw [link] at current attempt vetoCount
    exact ⟨_, taken, entry, current.trans hc, attempt, vetoCount, received⟩
  case holder =>
    obtain ⟨l, taken, current, attempt, vetoCount⟩ := endsVetoed_of_endsInVeto hi ha
    have added := currentHolder_vetoAdded hh
    obtain ⟨addedLink, addedReceived, addedGeneral⟩ := vetoAdded_keeps hh
    obtain ⟨general, received, -, link⟩ := endAttempt_holderSide added
    rw [vetoAttempt_holder hh hcount] at taken current attempt vetoCount
    rw [link, addedLink] at attempt vetoCount
    refine ⟨_, taken, attempt, ?_, vetoCount, received.trans addedReceived, general.trans addedGeneral⟩
    have kept := HolderKept.of_vetoAdded hh (endAttempt_holderKept added)
    rw [HolderKept, State.withLink_traffic, State.withLink_link, current]
    exact kept

/-! ## The sixteenth veto (R92) -/

theorem abandonHeld_general {s : State} {o : Nat} {e : TxEntry} (hc : s.link.current = some (.general o))
    (he : s.entry o = some e) : s.abandonHeld (.general o) = (s.withCurrent none).abandonEntry e := by
  rw [State.abandonHeld, if_pos (by simp [State.isCurrent, hc])]
  simp only [State.abandon, hc, he]

theorem abandonEntry_link (s : State) (e : TxEntry) : (s.abandonEntry e).link = s.link := by
  unfold State.abandonEntry
  split
  · exact tell_link _ _ _
  · split
    · rfl
    · exact tell_link _ _ _

/-- R92, R93: a MARK stays queued with a count of 0, unless its cancellation was asked; every other frame goes. -/
theorem abandonEntry_entry {s : State} {o : Nat} {e : TxEntry} (he : s.entry o = some e) :
    (e.isMark = true → e.cancelAsked = false → (s.abandonEntry e).entry o = some { e with vetoes := 0 }) ∧
      (e.isMark = false ∨ e.cancelAsked = true → (s.abandonEntry e).entry o = none) := by
  obtain rfl := State.entry_order he
  have freed (f : Fate) : ((s.freeEntry e.order).tell e f).entry e.order = none := by
    rw [State.entry, tell_traffic]
    exact State.freeEntry_entry s e.order
  refine ⟨fun hm hcancel => ?_, fun hgoes => ?_⟩
  · rw [State.abandonEntry, if_neg (Bool.eq_false_iff.1 hcancel), if_pos hm]
    exact State.changeEntry_entry (f := fun e => { e with vetoes := 0 }) he fun _ => rfl
  · rw [State.abandonEntry]
    split
    · exact freed _
    next hcancel =>
      rw [if_neg]
      · exact freed _
      · obtain hm | hasked := hgoes
        · exact Bool.eq_false_iff.1 hm
        · exact absurd hasked hcancel

/-- R92: the abandoned frame of an entry. -/
theorem vetoAttempt_abandoned {s : State} {o : Nat} {e : TxEntry} (hc : s.link.current = some (.general o))
    (he : s.entry o = some e) (hv : e.vetoes = 15) :
    s.vetoAttempt.link = { s.link with attempt := false, current := none } ∧
      (e.isMark = true → e.cancelAsked = false → s.vetoAttempt.entry o = some { e with vetoes := 0, stale := false }) ∧
      (e.isMark = false ∨ e.cancelAsked = true → s.vetoAttempt.entry o = none) := by
  have counted : 16 ≤ (s.addVeto (.general o)).vetoesOf (.general o) := by
    simp only [State.vetoesOf, addVeto_entry he, Option.map_some, Option.getD_some]
    omega
  obtain ⟨link, entry, -⟩ := endAttempt_general (s := s.addVeto (.general o)) hc (addVeto_entry he)
  have abandoned := abandonHeld_general ((congrArg Link.current link).trans hc) entry
  obtain ⟨kept, gone⟩ := abandonEntry_entry (s := (s.addVeto (.general o)).endAttempt.withCurrent none) entry
  rw [vetoAttempt_sixteenth hc counted, abandoned]
  refine ⟨?_, kept, gone⟩
  rw [abandonEntry_link, State.withCurrent, State.withLink_link, link]
  rfl

/-- What the sixteenth veto leaves of a holder and the link: a frame that waits, none in the beacon holder, and the flow
state's in the flow holder. -/
structure HolderAbandoned (s t : State) : Prop where
  current : t.link.current = none
  attempt : t.link.attempt = false
  beacon : s.link.current = some .beacon →
    t.traffic.beacon = s.traffic.beaconNext.map (fun f => ⟨f, 0, false, false⟩) ∧ t.traffic.beaconNext = none
  unloaded : s.link.current = some .flow → s.traffic.flowNext = none →
    t.traffic.flow = some ⟨s.traffic.flowState.frame, 0, false, false⟩
  loaded : ∀ f, s.link.current = some .flow → s.traffic.flowNext = some f →
    t.traffic.flow = some ⟨f, 0, false, false⟩

theorem endAttempt_abandoned_beacon {s : State} (hc : s.link.current = some .beacon) :
    HolderAbandoned s (s.endAttempt.abandonHeld .beacon) := by
  rw [endAttempt_beacon hc]
  cases hn : s.traffic.beaconNext with
  | none =>
    have held : (s.withLink (idled s.link)).abandonHeld .beacon =
        ((s.withLink (idled s.link)).withCurrent none).withTraffic { s.traffic with beacon := none } := by
      rw [State.abandonHeld, if_pos (by simp [State.isCurrent, idled, hc])]
      simp only [State.abandon, show (s.withLink (idled s.link)).link.current = some .beacon from hc]
      rfl
    simp only [held]
    exact ⟨rfl, rfl, fun _ => ⟨by rw [hn]; rfl, hn⟩, fun h => (nomatch hc.symm.trans h), fun _ h => (nomatch hc.symm.trans h)⟩
  | some f =>
    refine ⟨rfl, rfl, fun _ => ⟨by rw [hn]; rfl, rfl⟩, fun h => (nomatch hc.symm.trans h), fun _ h => (nomatch hc.symm.trans h)⟩

theorem endAttempt_abandoned_flow {s : State} (hc : s.link.current = some .flow) (hclash : s.link.clash = false) :
    HolderAbandoned s (s.endAttempt.abandonHeld .flow) := by
  rw [endAttempt_flow hc]
  cases hn : s.traffic.flowNext with
  | none =>
    have held : (s.withLink (idled s.link)).abandonHeld .flow = ((s.withLink (idled s.link)).withCurrent none).loadFlow := by
      rw [State.abandonHeld, if_pos (by simp [State.isCurrent, idled, hc])]
      simp only [State.abandon, show (s.withLink (idled s.link)).link.current = some .flow from hc]
    have link := SentFrames.loadFlow_link (s := (s.withLink (idled s.link)).withCurrent none) rfl
    have traffic := loadFlow_between (s := (s.withLink (idled s.link)).withCurrent none) hclash
      (fun h => nomatch ((inAttempt_iff _ _).1 h).1)
    simp only [held]
    refine ⟨by rw [link]; rfl, by rw [link]; rfl, fun h => (nomatch hc.symm.trans h), fun _ _ => by rw [traffic]; rfl,
      fun _ _ h => (nomatch hn.symm.trans h)⟩
  | some f =>
    refine ⟨rfl, rfl, fun h => (nomatch hc.symm.trans h), fun _ h => (nomatch hn.symm.trans h), fun g _ hg => ?_⟩
    obtain rfl := Option.some.inj (hn.symm.trans hg)
    rfl

/-- R92, R95, R98: the abandoned frame of a holder. -/
theorem vetoAttempt_holderAbandoned {s : State} {h : Holder} (hh : currentHolder s = some h) (hv : h.vetoes = 15)
    (hclash : s.link.clash = false) : HolderAbandoned s s.vetoAttempt := by
  obtain ⟨r, hr⟩ := exists_current hh
  have counted : 16 ≤ (s.addVeto r).vetoesOf r := by
    rw [vetoesOf_vetoAdded hh hr]
    omega
  rw [vetoAttempt_sixteenth hr counted]
  obtain ⟨hc, -⟩ | ⟨hc, -⟩ := currentHolder_cases hh
  · obtain rfl := Option.some.inj (hr.symm.trans hc)
    obtain ⟨current, attempt, beacon, unloaded, loaded⟩ := endAttempt_abandoned_beacon (s := s.addVeto .beacon) hc
    exact ⟨current, attempt, beacon, unloaded, loaded⟩
  · obtain rfl := Option.some.inj (hr.symm.trans hc)
    obtain ⟨current, attempt, beacon, unloaded, loaded⟩ := endAttempt_abandoned_flow (s := s.addVeto .flow) hc hclash
    exact ⟨current, attempt, beacon, unloaded, loaded⟩

theorem flowState_frame (f : FlowState) : f.frame = ⟨if f = .asserted then .hold else .resume, []⟩ := by cases f <;> rfl

/-- Settles O36: the abandonment, by the frame's place and class. -/
theorem sixteenthVeto : Obligations.SixteenthVeto := by
  refine ⟨fun i o e s hv ha hc he hcount => ?entry, fun i h s hi ha hclash hh hcount => ?holder⟩
  case entry =>
    obtain ⟨l, taken, current, attempt, -⟩ := endsVetoed_of_vetoed hv ha hc he
    obtain ⟨link, kept, gone⟩ := vetoAttempt_abandoned hc he hcount
    rw [link] at current attempt
    exact ⟨_, taken, current, attempt, kept, gone⟩
  case holder =>
    obtain ⟨l, taken, current, attempt, -⟩ := endsVetoed_of_endsInVeto hi ha
    obtain ⟨hcurrent, hattempt, beacon, unloaded, loaded⟩ := vetoAttempt_holderAbandoned hh hcount hclash
    rw [← flowState_frame]
    exact ⟨_, taken, current.trans hcurrent, attempt.trans hattempt, beacon, unloaded, loaded⟩

end Sys2Proof.Proofs.EndedAttempts
end

