-- ==== Sys2Proof/Proofs/FailedFrames.lean ====
section
/-! SUPPORT. A frame with a line failure at a receiver (R79, R80, R83), and a line frame that meets an own attempt (R84, R105).
-/

namespace Sys2Proof.Proofs.FailedFrames

open Sys2Proof Sys2Proof.Machine
open Sys2Proof.Proofs.EndedAttempts Sys2Proof.Proofs.ReceiveQueue

/-! ## The receiver after a line failure -/

theorem exec_frameReceived {r : LineRead} {s : State} (hs : Receives s) (hr : readFrame r.bits ≠ .noFrame) :
    exec (.frameReceived r) s = .next (s.takeRead (readFrame r.bits) (slotReadOf r)) := by
  obtain ⟨hconn, hawait, hatt⟩ := hs
  have takes : (s.link.takes && !s.link.sendsRest && readFrame r.bits != .noFrame) = true := by
    simp [Link.takes, Link.sendsRest, hconn, hawait, hatt, hr]
  have yields : s.yieldLine = s := if_neg (by simp [hatt])
  show Host.Outcome.next (s.receive _ _) = _
  rw [State.receive, if_pos takes, yields]

/-- R80: a receiver that loses its place counts from the line, and is at its place again after 18 recessive bits. -/
theorem losePlace_spec (l : Link) (n : Nat) (d : SlotDrive) :
    (l.losePlace n d).vetoCount = l.vetoCount ∧ (l.losePlace n d).quiet = l.quiet ∧ (l.losePlace n d).idleCount = n ∧
      ((l.losePlace n d).lostPlace = true ↔ n < 18) ∧
      (n < 11 → (l.losePlace n d).phase = .receiving ∧ (l.losePlace n d).awaitIdle = true ∧ (l.losePlace n d).drive = d) ∧
      (11 ≤ n → (l.losePlace n d).phase = .idle ∧ (l.losePlace n d).awaitIdle = false ∧
        (l.losePlace n d).drive = ⟨false, false⟩) := by
  unfold Link.losePlace
  obtain hn | hn := Nat.lt_or_ge n 11
  · rw [Link.counted_below _ n hn]
    exact ⟨rfl, rfl, rfl, iff_of_true rfl (by omega), fun _ => ⟨rfl, rfl, rfl⟩, fun h => absurd hn (Nat.not_lt.2 h)⟩
  · rw [Link.counted_idle _ n hn]
    refine ⟨rfl, rfl, rfl, ?_, fun h => absurd h (Nat.not_lt.2 hn), fun _ => ⟨rfl, rfl, rfl⟩⟩
    show (true && decide (n < 18)) = true ↔ n < 18
    simp

/-- Of the link a report of FRAME-LOST changes the current frame and the attempt at most. -/
structure LinkReads (l : Link) (t : State) : Prop where
  link : t.link = { l with current := t.link.current, attempt := t.link.attempt }

theorem linkReads_frameLost (s : State) (l : Link) (k : Option Station) : LinkReads l ((s.withLink l).frameLost k) :=
  ⟨(frameLost_keeps (s.withLink l) k).link_eq⟩

theorem linkReads_withLink (s : State) (l : Link) : LinkReads l (s.withLink l) := ⟨rfl⟩

theorem LinkReads.countsFailure {s t : State} {l : Link} (h : LinkReads l t) (hv : l.vetoCount = s.link.countFailure.vetoCount)
    (hq : l.quiet = s.link.countFailure.quiet) (hr : t.traffic.received = s.traffic.received) : FailureCounted s t := by
  refine ⟨?_, ?_, hr⟩
  · rw [h.link]
    exact hv
  · rw [h.link]
    show l.quiet = true ↔ _
    rw [hq]
    show (s.link.quiet || decide (128 ≤ min 255 (s.link.vetoCount + 1))) = true ↔ _
    rw [Bool.or_eq_true, decide_eq_true_iff]

theorem LinkReads.lostPlace {t : State} {l : Link} {n : Nat} {d : SlotDrive} (h : LinkReads (l.losePlace n d) t) :
    LostPlace n t := by
  obtain ⟨-, -, idleCount, lost, below, idle⟩ := losePlace_spec l n d
  unfold LostPlace CountsFromLine
  rw [h.link]
  refine ⟨⟨idleCount, fun hn => ?_, idle⟩, lost⟩
  obtain ⟨phase, await, -⟩ := below hn
  exact ⟨phase, await⟩

theorem frameLost_aligned {s : State} (hm : s.mon.mode = .aligned) (l : Link) (k : Option Station) :
    ((s.withLink l).frameLost k).mon.mode = .resync .aligned ∧ ((s.withLink l).frameLost k).mon.retry = some 200 := by
  have lost : (s.withLink l).frameLost k = (s.withLink l).enterResync .aligned := by
    rw [State.frameLost, State.withLink_mon, hm]
  rw [lost]
  exact enterResync_mon _ .aligned

theorem frameLost_received (s : State) (l : Link) (k : Option Station) :
    ((s.withLink l).frameLost k).traffic.received = s.traffic.received :=
  (Safety.upkeep_frameLost (s.withLink l) k).received

/-! ## A failure with the veto slot placed (R80 1, R83) -/

/-- The link of a receiver that has taken a frame with a line failure whose veto slot was placed. -/
def failureLink (s : State) (v : SlotRead) : Link :=
  if v.lateDominant then s.link.countFailure.losePlace v.trailing (s.failureDrive v)
  else s.link.countFailure.placed (s.failureDrive v)

/-- The frame is reported lost: the place is, or the frame stood. -/
def reportsLost (s : State) (v : SlotRead) : Bool := v.lateDominant || !v.vetoed (s.failureDrive v)

theorem takeFailure_eq (s : State) (k : Station) (v : SlotRead) :
    s.takeFailure k v =
      if reportsLost s v then (s.withLink (failureLink s v)).frameLost (some k) else s.withLink (failureLink s v) := by
  unfold State.takeFailure reportsLost failureLink
  dsimp only
  cases v.lateDominant with
  | true => rfl
  | false => cases v.vetoed (s.failureDrive v) <;> rfl

theorem failureLink_counts (s : State) (v : SlotRead) :
    (failureLink s v).vetoCount = s.link.countFailure.vetoCount ∧ (failureLink s v).quiet = s.link.countFailure.quiet := by
  unfold failureLink
  split
  · obtain ⟨vetoCount, quiet, -⟩ := losePlace_spec s.link.countFailure v.trailing (s.failureDrive v)
    exact ⟨vetoCount, quiet⟩
  · exact ⟨rfl, rfl⟩

theorem failureLink_drive {s : State} {v : SlotRead} (h : v.lateDominant = false ∨ v.trailing < 11) :
    (failureLink s v).drive = s.failureDrive v := by
  unfold failureLink
  split
  next hlate =>
    obtain ⟨-, -, -, -, below, -⟩ := losePlace_spec s.link.countFailure v.trailing (s.failureDrive v)
    exact (below (h.resolve_left (by rw [hlate]; nofun))).2.2
  next => rfl

theorem linkReads_takeFailure (s : State) (k : Station) (v : SlotRead) : LinkReads (failureLink s v) (s.takeFailure k v) := by
  rw [takeFailure_eq]
  split
  · exact linkReads_frameLost s _ _
  · exact linkReads_withLink s _

theorem takeFailure_received (s : State) (k : Station) (v : SlotRead) :
    (s.takeFailure k v).traffic.received = s.traffic.received := by
  rw [takeFailure_eq]
  split
  · exact frameLost_received s _ _
  · rfl

/-- Settles O39: the counts, the drive and the report of a frame with a line failure. -/
theorem failedFrame : Obligations.FailedFrame := by
  refine ⟨fun r k s hs hr => ?failure, fun r k s hs hr => ?lost⟩
  case failure =>
    have taken := exec_frameReceived hs (r := r) (by rw [hr]; nofun)
    rw [hr] at taken
    have reads := linkReads_takeFailure s k (slotReadOf r)
    obtain ⟨vetoCount, quiet⟩ := failureLink_counts s (slotReadOf r)
    refine ⟨_, taken, reads.countsFailure vetoCount quiet (takeFailure_received s k _), fun hplaced => ?drive,
      fun hlate hvetoed => ?vetoed, fun hreport hm => ?reported, fun hlate => ?place⟩
    case drive =>
      have drive : (s.takeFailure k (slotReadOf r)).link.drive = s.failureDrive (slotReadOf r) := by
        rw [reads.link]
        exact failureLink_drive hplaced
      show ((s.takeFailure k _).link.drive.veto = true ↔ _) ∧ ((s.takeFailure k _).link.drive.echo = true ↔ _)
      rw [drive]
      simp [State.failureDrive, slotDrive, slotReadOf]
    case vetoed =>
      have quiet : reportsLost s (slotReadOf r) = false := by
        obtain h | h | h := hvetoed <;>
          simp [reportsLost, slotReadOf, hlate, SlotRead.vetoed, State.failureDrive, slotDrive, h]
      show (s.takeFailure k _).mon = _ ∧ (s.takeFailure k _).traffic = _
      rw [takeFailure_eq, quiet]
      exact ⟨rfl, rfl⟩
    case reported =>
      have lost : reportsLost s (slotReadOf r) = true := by
        obtain h | ⟨hq, hv, he⟩ := hreport
        · simp [reportsLost, slotReadOf, h]
        · simp [reportsLost, slotReadOf, SlotRead.vetoed, State.failureDrive, slotDrive, hq, hv, he]
      show (s.takeFailure k _).mon.mode = _ ∧ (s.takeFailure k _).mon.retry = _
      rw [takeFailure_eq, if_pos lost]
      exact frameLost_aligned hm _ _
    case place =>
      have link : failureLink s (slotReadOf r) =
          s.link.countFailure.losePlace r.trailing (s.failureDrive (slotReadOf r)) := if_pos hlate
      rw [link] at reads
      exact reads.lostPlace
  case lost =>
    have taken := exec_frameReceived hs (r := r) (by rw [hr]; nofun)
    rw [hr] at taken
    have reads := linkReads_frameLost s (s.link.countFailure.losePlace r.trailing .none) k
    obtain ⟨vetoCount, quiet, -, -, below, idle⟩ := losePlace_spec s.link.countFailure r.trailing .none
    refine ⟨_, taken, reads.countsFailure vetoCount quiet (frameLost_received s _ k), ?_, reads.lostPlace,
      fun hm => frameLost_aligned hm _ k⟩
    refine (congrArg Link.drive reads.link).trans ?_
    obtain hn | hn := Nat.lt_or_ge r.trailing 11
    · exact (below hn).2.2
    · exact (idle hn).2.2

/-! ## CLASH (R84, R105) -/

/-- Nothing is left to send under CLASH, and REFUSED has pulsed where `pulsed` holds. -/
structure Silenced (pulsed : Prop) (t : State) : Prop where
  clash : t.link.clash = true
  attempt : t.link.attempt = false
  current : t.link.current = none
  general : t.traffic.general = []
  beacon : t.traffic.beacon = none
  flow : t.traffic.flow = none
  recap : t.mon.ownRecap = .none
  refused : pulsed → t.contacts.refused = true

section Silence
variable {pulsed : Prop} {s : State}

theorem Silenced.addEntry (h : Silenced pulsed s) (o : Owner) (f : TxFrame) (st : Option Slot) (b : Bool) :
    Silenced pulsed (s.addEntry o f st b).1 := by
  unfold State.addEntry
  rw [h.clash]
  split
  · exact h
  · rw [Bool.true_or, if_pos rfl]
    dsimp only
    split
    · exact ⟨h.clash, h.attempt, h.current, h.general, h.beacon, h.flow, h.recap, fun _ => rfl⟩
    · exact h

theorem Silenced.withMon (h : Silenced pulsed s) {m : Monitor} (hm : m.ownRecap = s.mon.ownRecap) :
    Silenced pulsed (s.withMon m) :=
  ⟨h.clash, h.attempt, h.current, h.general, h.beacon, h.flow, hm.trans h.recap, h.refused⟩

theorem Silenced.withRetry (h : Silenced pulsed s) (r : Option Nat) : Silenced pulsed (s.withRetry r) := h.withMon rfl

theorem Silenced.drawHsn (h : Silenced pulsed s) : Silenced pulsed s.drawHsn.2 := by
  unfold State.drawHsn
  split
  · exact h
  · exact ⟨h.clash, h.attempt, h.current, h.general, h.beacon, h.flow, h.recap, h.refused⟩

theorem Silenced.addJoin (h : Silenced pulsed s) : Silenced pulsed s.addJoin := h.drawHsn.addEntry _ _ _ _

theorem Silenced.enterJoining (h : Silenced pulsed s) : Silenced pulsed s.enterJoining := by
  have asked : Silenced pulsed (s.withMon { s.mon with mode := .joining, listen := none }).addJoin :=
    Silenced.addJoin (Silenced.withMon h rfl)
  exact asked.withRetry _

theorem Silenced.enterResync (h : Silenced pulsed s) (o : Origin) : Silenced pulsed (s.enterResync o) := by
  have none (n : Nat) : s.entry n = none := by rw [State.entry, h.general]; rfl
  have kept : s.cancelProposal = s := by
    unfold State.cancelProposal
    split
    · split
      · rw [none]
      · rfl
    · rfl
  have left : s.leaveRecap = s := by rw [State.leaveRecap, h.recap]
  unfold State.enterResync
  have asked : Silenced pulsed (s.withMon { s.mon with mode := .resync o }).addJoin := Silenced.addJoin (Silenced.withMon h rfl)
  rw [kept, left]
  exact asked.withRetry _

theorem Silenced.compareBeacon (h : Silenced pulsed s) (k : Station) (b : Beacon) (o : Origin) :
    Silenced pulsed (s.compareBeacon k b o) := by
  unfold State.compareBeacon
  split
  · split
    · exact h.enterResync o
    · exact h
  · exact h

theorem Silenced.takeBeacon (h : Silenced pulsed s) (k : Station) (body : List Byte) :
    Silenced pulsed (s.takeBeacon k body) := by
  have acted {u : State} (hu : Silenced pulsed u) (b : Beacon) : Silenced pulsed (u.actOnBeacon k b) := by
    unfold State.actOnBeacon
    split
    · split
      · exact hu.enterJoining
      · exact hu
    · exact hu.compareBeacon k b _
    · exact hu.compareBeacon k b _
    · exact hu
  unfold State.takeBeacon
  split
  · exact h
  · split
    · exact h
    next b _ =>
      have filled : Silenced pulsed
          (s.drawHsn.2.withMon { s.drawHsn.2.mon with peers := setPeer s.drawHsn.2.mon.peers (b.peer k s.drawHsn.1) }) :=
        h.drawHsn.withMon rfl
      exact acted filled b

theorem Silenced.placeFrame (h : Silenced pulsed s) (f : RxFrame) : Silenced pulsed (s.placeFrame f) := by
  unfold State.placeFrame State.afterPlacement
  split
  · rw [loadFlow_clash (by exact h.clash)]
    exact ⟨h.clash, h.attempt, h.current, h.general, h.beacon, h.flow, h.recap, h.refused⟩
  · exact ⟨h.clash, h.attempt, h.current, h.general, h.beacon, h.flow, h.recap, h.refused⟩

theorem Silenced.takeClean (h : Silenced pulsed s) (k : Station) (kind : Kind) (body : List Byte) (v : SlotRead) :
    Silenced pulsed (s.takeClean k kind body v) := by
  have linked (d : SlotDrive) : Silenced pulsed (s.withLink (s.link.countClean.placed d)) :=
    ⟨h.clash, h.attempt, h.current, h.general, h.beacon, h.flow, h.recap, h.refused⟩
  unfold State.takeClean
  dsimp only
  split
  · exact linked _
  · unfold State.handOn
    split
    · exact ⟨h.clash, h.attempt, h.current, h.general, h.beacon, h.flow, h.recap, h.refused⟩
    · exact ⟨h.clash, h.attempt, h.current, h.general, h.beacon, h.flow, h.recap, h.refused⟩
    · exact (linked _).takeBeacon k body
    · exact (linked _).placeFrame _

end Silence

/-- R105: a MARK among the entries pulses REFUSED as they are told ABANDONED. -/
theorem foldl_abandoned_refused (es : List TxEntry) (s : State) :
    (es.foldl (fun s e => if e.isMark then (s.tell e .abandoned).pulseRefused else s.tell e .abandoned) s).contacts.refused =
      (s.contacts.refused || es.any TxEntry.isMark) := by
  induction es generalizing s with
  | nil => simp
  | cons e es ih =>
    rw [List.foldl_cons, ih, List.any_cons]
    cases hm : e.isMark with
    | true => simp [State.pulseRefused]
    | false => simp [tell_contacts]

theorem silenced_setClash (s : State) : Silenced (∃ e ∈ s.traffic.general, e.isMark = true) s.setClash := by
  refine ⟨rfl, rfl, rfl, rfl, rfl, rfl, rfl, fun hmark => ?_⟩
  show (List.foldl _ s s.traffic.general).contacts.refused = true
  rw [foldl_abandoned_refused, List.any_eq_true.2 hmark, Bool.or_true]

theorem endAttempt_general_mon {s : State} {o : Nat} (hc : s.link.current = some (.general o)) :
    s.endAttempt.mon = s.mon := by
  rw [endAttempt_current hc]
  unfold State.endHolderAttempt State.endStale
  dsimp only
  split <;> rfl

theorem vetoAttempt_general_mon {s : State} {o : Nat} {e : TxEntry} (hc : s.link.current = some (.general o))
    (he : s.entry o = some e) (hv : e.vetoes + 1 < 16) : s.vetoAttempt.mon = s.mon := by
  have below : (s.addVeto (.general o)).vetoesOf (.general o) < 16 := by
    simpa only [State.vetoesOf, addVeto_entry he, Option.map_some, Option.getD_some] using hv
  rw [vetoAttempt_below hc below]
  exact endAttempt_general_mon (s := s.addVeto (.general o)) hc

/-- R84: the attempt counts as a veto; of the link the place and the drive change, and neither count nor QUIET. -/
theorem exec_clash_failure {r : LineRead} {s : State} (ha : s.link.attempt = true)
    (hr : (∃ k, readFrame r.bits = .failure k) ∨ ∃ k, readFrame r.bits = .lostPlace k) :
    ∃ l : Link, exec (.clash r) s = .next (s.vetoAttempt.withLink l) ∧ l.clash = s.vetoAttempt.link.clash ∧
      l.attempt = s.vetoAttempt.link.attempt ∧ l.current = s.vetoAttempt.link.current ∧
      l.vetoCount = s.vetoAttempt.link.vetoCount ∧ l.quiet = s.vetoAttempt.link.quiet := by
  have taken : exec (.clash r) s = .next (s.clashWith r) := if_pos ha
  have lost (n : Nat) (d : SlotDrive) := Link.counted_keeps
    { s.vetoAttempt.link with phase := .receiving, awaitIdle := true, lostPlace := true, drive := d } n
  obtain ⟨k, hr⟩ | ⟨k, hr⟩ := hr
  · have failed : s.clashWith r = s.clashFailure (slotReadOf r) := by rw [State.clashWith, hr]
    rw [taken, failed, State.clashFailure]
    cases (slotReadOf r).lateDominant with
    | true =>
      obtain ⟨clash, -, current, attempt, vetoCount, quiet, -⟩ :=
        lost (slotReadOf r).trailing (s.failureDrive (slotReadOf r))
      exact ⟨_, rfl, clash, attempt, current, vetoCount, quiet⟩
    | false => exact ⟨_, rfl, rfl, rfl, rfl, rfl, rfl⟩
  · have failed : s.clashWith r = s.clashLost (slotReadOf r) := by rw [State.clashWith, hr]
    obtain ⟨clash, -, current, attempt, vetoCount, quiet, -⟩ := lost (slotReadOf r).trailing .none
    rw [taken, failed]
    exact ⟨_, rfl, clash, attempt, current, vetoCount, quiet⟩

/-- Settles O40: a clean line frame sets CLASH; one with a failure counts as a veto of the attempt. -/
theorem clashSet : Obligations.ClashSet := by
  refine ⟨fun r k kind body s ha hr => ?clean, fun r o e s ha hc he hv hr => ?failure⟩
  case clean =>
    have taken : exec (.clash r) s = .next (s.setClash.takeClean k kind body (slotReadOf r)) := by
      refine (if_pos ha).trans ?_
      rw [State.clashWith, hr]
    obtain ⟨clash, attempt, current, general, beacon, flow, recap, refused⟩ :=
      (silenced_setClash s).takeClean k kind body (slotReadOf r)
    exact ⟨_, taken, clash, attempt, current, general, beacon, flow, recap, refused, by simp [faultLit, clash]⟩
  case failure =>
    obtain ⟨l, taken, clash, attempt, current, vetoCount, quiet⟩ := exec_clash_failure ha hr
    obtain ⟨link, entry, received⟩ := vetoAttempt_general hc he hv
    rw [link] at clash attempt current vetoCount quiet
    exact ⟨_, taken, clash, attempt, current.trans hc, entry, vetoCount, quiet, vetoAttempt_general_mon hc he hv, received⟩

end Sys2Proof.Proofs.FailedFrames
end

