-- ==== Sys2Proof/Proofs/ArrivedFrames.lean ====
section
/-! SUPPORT. HOLD, RESUME and BEACON, which are handed on and enter no queue (R82, R87, R99, R162, R164). -/

namespace Sys2Proof.Proofs.ArrivedFrames

open Sys2Proof Sys2Proof.Machine

/-! ## The handing on -/

/-- A frame of a kind that enters no queue is handed on, in an attempt and as a whole reception; the reception changes of
the link the phase, the counts and the drive. -/
theorem arrive_handOn {s : State} (hconn : s.link.connected = true) (hawait : s.link.awaitIdle = false) {kind : Kind}
    (hq : kind.queued = false) (k : Station) (body : List Byte) :
    ∃ l : Link, s.arrive k kind body = (s.withLink l).handOn k kind body ∧ l.connected = s.link.connected ∧
      l.clash = s.link.clash := by
  have takes : s.link.takes = true := by rw [Link.takes, hconn, hawait]; rfl
  cases ha : s.link.attempt with
  | true => exact ⟨s.link, if_pos (by rw [takes, ha]; rfl), rfl, rfl⟩
  | false =>
    have whole : s.arrive k kind body = s.receive (.clean k kind body) .stands := if_neg (by rw [takes, ha]; nofun)
    have received : (s.link.takes && !s.link.sendsRest && ReadResult.clean k kind body != .noFrame) = true := by
      rw [takes, Link.sendsRest, ha]
      rfl
    have yields : s.yieldLine = s := if_neg (by rw [ha]; nofun)
    have taken : s.takeClean k kind body .stands =
        (s.withLink (s.link.countClean.placed (s.cleanDrive kind .stands))).handOn k kind body := by
      refine if_neg ?_
      simp [SlotRead.vetoed, SlotRead.stands, State.cleanDrive, slotDrive, State.vetoesFull, hq]
    rw [whole, State.receive, if_pos received, yields]
    exact ⟨_, taken, rfl, rfl⟩

theorem mem_insertHeld_iff (c d : HeldBy) (l : List HeldBy) : d ∈ insertHeld c l ↔ d = c ∨ d ∈ l := by
  induction l with
  | nil => exact List.mem_cons
  | cons a l ih =>
    unfold insertHeld
    split
    · exact List.mem_cons
    · rw [List.mem_cons, List.mem_cons, ih]
      exact or_left_comm

theorem mem_filter_station (k : Station) (d : HeldBy) (l : List HeldBy) :
    d ∈ l.filter (fun h => h.station != k) ↔ d ∈ l ∧ d.station ≠ k := by
  rw [List.mem_filter, bne_iff_ne]

/-- Settles O42: both frames change the held-by set alone. -/
theorem holdAndResume : Obligations.HoldAndResume := by
  intro k s hconn hawait
  refine ⟨?hold, ?resume⟩
  case hold =>
    obtain ⟨l, handed, -, -⟩ := arrive_handOn hconn hawait (kind := .hold) rfl k []
    refine ⟨_, congrArg Host.Outcome.next handed, fun h => ?_, rfl⟩
    exact (mem_insertHeld_iff _ _ _).trans (or_congr_right (mem_filter_station k h _))
  case resume =>
    obtain ⟨l, handed, -, -⟩ := arrive_handOn hconn hawait (kind := .resume) rfl k []
    exact ⟨_, congrArg Host.Outcome.next handed, fun h => mem_filter_station k h _, rfl⟩

/-! ## The peer table (R162) -/

theorem find_insertPeer (p : Peer) (l : List Peer) (h : ∀ d ∈ l, d.station ≠ p.station) :
    (insertPeer p l).find? (fun d => d.station == p.station) = some p := by
  induction l with
  | nil => simp [insertPeer]
  | cons a l ih =>
    unfold insertPeer
    split
    · simp
    · rw [List.find?_cons_of_neg (by simpa using h a List.mem_cons_self)]
      exact ih fun d hd => h d (List.mem_cons_of_mem a hd)

theorem find_setPeer (peers : List Peer) (p : Peer) :
    (setPeer peers p).find? (fun d => d.station == p.station) = some p :=
  find_insertPeer p _ fun d hd => by simpa using (List.mem_filter.1 hd).2

/-! ## The queue under cancellations -/

theorem changeEntry_length (s : State) (o : Nat) (f : TxEntry → TxEntry) :
    (s.changeEntry o f).traffic.general.length = s.traffic.general.length := List.length_map _

theorem freeEntry_length (s : State) (o : Nat) : (s.freeEntry o).traffic.general.length ≤ s.traffic.general.length :=
  List.length_filter_le _ _

theorem cancelEntry_length (s : State) (e : TxEntry) :
    (s.cancelEntry e).traffic.general.length ≤ s.traffic.general.length := by
  unfold State.cancelEntry
  split
  · exact (changeEntry_length s _ _).le
  · split
    · exact (changeEntry_length s _ _).le
    · rw [tell_traffic]
      exact freeEntry_length s _

theorem foldl_length {α : Type} {f : State → α → State}
    (hf : ∀ s a, (f s a).traffic.general.length ≤ s.traffic.general.length) (l : List α) (s : State) :
    (l.foldl f s).traffic.general.length ≤ s.traffic.general.length := by
  induction l generalizing s with
  | nil => exact Nat.le_refl _
  | cons a l ih => exact (ih _).trans (hf s a)

theorem cancelWhere_length (s : State) (p : TxEntry → Bool) :
    (s.cancelWhere p).traffic.general.length ≤ s.traffic.general.length := foldl_length cancelEntry_length _ s

theorem closeStream_length (s : State) : s.closeStream.traffic.general.length ≤ s.traffic.general.length := by
  refine foldl_length (f := fun s (e : TxEntry) => if e.frame.isNone then s.freeEntry e.order else s.cancelEntry e) (fun u e => ?_) _ s
  split
  · exact freeEntry_length u _
  · exact cancelEntry_length u e

theorem cancelProposal_length (s : State) : s.cancelProposal.traffic.general.length ≤ s.traffic.general.length := by
  unfold State.cancelProposal
  split
  · split
    · split
      · exact cancelEntry_length s _
      · exact Nat.le_refl _
    · exact Nat.le_refl _
  · exact Nat.le_refl _

theorem leaveRecap_length (s : State) : s.leaveRecap.traffic.general.length ≤ s.traffic.general.length := by
  unfold State.leaveRecap
  split
  · exact Nat.le_refl _
  · exact cancelWhere_length s _
  · exact closeStream_length s

/-! ## JOIN and RESYNC -/

/-- R167: a connected station without CLASH, with room in the queue, adds a JOIN stamped with the current HSN. -/
theorem addJoin_queued {s : State} {x : Slot} (hx : s.ref.hsn = some x) (hconn : s.link.connected = true)
    (hclash : s.link.clash = false) (hroom : s.traffic.general.length < 16) :
    ∃ e ∈ s.addJoin.traffic.general, e.frame = some ⟨.join, joinBody x s.mon.mode.isResync⟩ := by
  have drawn : s.drawHsn = (x, s) := by rw [State.drawHsn, hx]
  have added : s.addJoin = (s.addEntry .monitor ⟨.join, joinBody x s.mon.mode.isResync⟩ none false).1 := by
    unfold State.addJoin
    rw [drawn]
  rw [added, addEntry_queued hconn hclash hroom]
  exact ⟨_, List.mem_append_right _ List.mem_cons_self, rfl⟩

theorem enterJoining_mon (s : State) :
    s.enterJoining.mon = { s.mon with mode := .joining, listen := none, retry := some 200 } := by
  unfold State.enterJoining State.withRetry
  rw [State.withMon_mon, addJoin_mon]
  rfl

theorem leaveRecap_mon (s : State) : s.leaveRecap.mon = { s.mon with ownRecap := .none } := by
  unfold State.leaveRecap State.endOwnRecap State.cancelHead
  split
  next h => rw [← h]
  next => rw [State.withMon_mon, cancelWhere_mon]
  next => rw [State.withMon_mon, closeStream_mon]

theorem cancelProposal_mon (s : State) : s.cancelProposal.mon = s.mon := by
  unfold State.cancelProposal
  split
  · split
    · split
      · exact cancelEntry_mon s _
      · rfl
    · rfl
  · rfl

/-- R166: the monitor at the entry to RESYNC. -/
theorem enterResync_mon_eq (s : State) (o : Origin) :
    (s.enterResync o).mon = { s.mon with mode := .resync o, ownRecap := .none, retry := some 200 } := by
  unfold State.enterResync State.withRetry
  rw [State.withMon_mon, addJoin_mon, State.withMode, State.withMon_mon, leaveRecap_mon, cancelProposal_mon]

theorem enterResync_joins {s : State} {x : Slot} (hx : s.ref.hsn = some x) (hconn : s.link.connected = true)
    (hclash : s.link.clash = false) (hroom : s.traffic.general.length < 16) (o : Origin) :
    ∃ e ∈ (s.enterResync o).traffic.general, e.frame = some ⟨.join, joinBody x true⟩ := by
  have left := (cancelProposal_cueOnly s).trans (leaveRecap_cueOnly _)
  have link := left.keeps.link_eq
  have room := (leaveRecap_length s.cancelProposal).trans (cancelProposal_length s)
  exact addJoin_queued (s := s.cancelProposal.leaveRecap.withMode (.resync o)) ((congrArg RefUnit.hsn left.keeps.ref_eq).trans hx)
    ((congrArg Link.connected link).trans hconn) ((congrArg Link.clash link).trans hclash)
    (room.trans_lt hroom)

/-! ## BEACON_RECEIVED (R164) -/

theorem parseBeacon_length {body : List Byte} {b : Beacon} (h : parseBeacon body = some b) :
    body.length = Kind.beacon.bodyLength := by
  unfold parseBeacon at h
  split at h
  · rfl
  · cases h

/-- The station once the beacon has filled its sender's entry. -/
def peerFilled (s : State) (k : Station) (b : Beacon) (x : Slot) : State :=
  s.withMon { s.mon with peers := setPeer s.mon.peers (b.peer k x) }

theorem takeBeacon_eq {s : State} {k : Station} {body : List Byte} {b : Beacon} {x : Slot}
    (hm : s.mon.mode.takesBeacons = true) (hk : k ≠ s.station) (hb : parseBeacon body = some b) (hx : s.ref.hsn = some x) :
    s.takeBeacon k body = (peerFilled s k b x).actOnBeacon k b := by
  have drawn : s.drawHsn = (x, s) := by rw [State.drawHsn, hx]
  have takes : ¬ (!s.mon.mode.takesBeacons || k == s.station) = true := by simp [hm, hk]
  unfold State.takeBeacon
  rw [if_neg takes, hb, drawn]
  rfl

theorem onPlan_iff (p : PeerState) : p.onPlan = true ↔ p ≠ .resync := by cases p <;> simp [PeerState.onPlan]

/-- Whatever a beacon does besides, its entry of the peer table stays filled. -/
theorem actOnBeacon_peers (s : State) (k : Station) (b : Beacon) : (s.actOnBeacon k b).mon.peers = s.mon.peers := by
  have compared (o : Origin) : (s.compareBeacon k b o).mon.peers = s.mon.peers := by
    unfold State.compareBeacon
    split
    · split
      · rw [enterResync_mon_eq]
      · rfl
    · rfl
  unfold State.actOnBeacon
  split
  · split
    · rw [enterJoining_mon]
    · rfl
  · exact compared _
  · exact compared _
  · rfl

theorem actOnBeacon_listening {s : State} (hm : s.mon.mode = .listening) (k : Station) (b : Beacon) :
    s.actOnBeacon k b = if b.state.onPlan then s.enterJoining else s := by
  rw [State.actOnBeacon, hm]

theorem actOnBeacon_compared {s : State} {o : Origin} (hm : s.mon.mode = o.mode) (k : Station) (b : Beacon) :
    s.actOnBeacon k b = s.compareBeacon k b o := by
  rw [State.actOnBeacon, hm]
  cases o <;> rfl

section Comparison
variable {s : State} {k : Station} {b : Beacon}

theorem mismatchYields_iff (era : Era) (e : HistEntry) :
    (b.mismatch era e && yields era.founding b.founding s.station k) = true ↔ MismatchYields s k b era e := by
  rw [Bool.and_eq_true, yields_iff]
  refine and_congr ?_ Iff.rfl
  simp [Beacon.mismatch, or_assoc]

theorem compareBeacon_yields {era : Era} {e : HistEntry} (hstate : b.state ≠ .resync) (hera : s.mon.era = some era)
    (he : completeEntry s.egress.history b.stamp = some e) (hy : MismatchYields s k b era e) (o : Origin) :
    s.compareBeacon k b o = s.enterResync o := by
  simp only [State.compareBeacon, hera, he]
  refine if_pos ?_
  rw [Bool.and_assoc, Bool.and_eq_true]
  exact ⟨(onPlan_iff _).2 hstate, (mismatchYields_iff era e).2 hy⟩

theorem compareBeacon_kept
    (h : b.state = .resync ∨ completeEntry s.egress.history b.stamp = none ∨
      ∃ era e, s.mon.era = some era ∧ completeEntry s.egress.history b.stamp = some e ∧ ¬ MismatchYields s k b era e)
    (o : Origin) : s.compareBeacon k b o = s := by
  unfold State.compareBeacon
  split
  next era e hera he =>
    refine if_neg fun hcond => ?_
    rw [Bool.and_assoc, Bool.and_eq_true, onPlan_iff, mismatchYields_iff] at hcond
    obtain ⟨hstate, hy⟩ := hcond
    obtain hr | hn | ⟨era', e', hera', he', hnot⟩ := h
    · exact hstate hr
    · rw [hn] at he
      cases he
    · obtain rfl := Option.some.inj (hera.symm.trans hera')
      obtain rfl := Option.some.inj (he.symm.trans he')
      exact hnot hy
  next => rfl

end Comparison

theorem completeEntry_none {hist : List HistEntry} {y : Slot} (h : ∀ d ∈ hist, d.hsn = y → d.digest = none) :
    completeEntry hist y = none := by
  refine List.find?_eq_none.2 fun d hd hp => ?_
  obtain ⟨hy, hdig⟩ := Bool.and_eq_true_iff.1 hp
  rw [h d hd (beq_iff_eq.1 hy)] at hdig
  cases hdig

/-- Settles O43: the peer table takes the beacon, and the mode decides what it does besides. -/
theorem beaconTaken : Obligations.BeaconTaken := by
  intro k body b x s hconn hawait htakes hk hb hx
  obtain ⟨l, handed, connected, clash⟩ := arrive_handOn hconn hawait (kind := .beacon) rfl k body
  have filled : s.arrive k .beacon body = (peerFilled (s.withLink l) k b x).actOnBeacon k b :=
    handed.trans (takeBeacon_eq (s := s.withLink l) htakes hk hb hx)
  have taken : exec (.beaconReceived k body) s = .next ((peerFilled (s.withLink l) k b x).actOnBeacon k b) :=
    (if_pos (parseBeacon_length hb)).trans (congrArg Host.Outcome.next filled)
  refine ⟨_, taken, ?peers, fun hm hstate => ?joins, fun hm hstate => ?listens, fun o hm => ⟨?resync, ?kept⟩⟩
  case peers =>
    rw [actOnBeacon_peers]
    exact find_setPeer s.mon.peers (b.peer k x)
  case joins =>
    rw [actOnBeacon_listening (s := peerFilled (s.withLink l) k b x) hm, if_pos ((onPlan_iff _).2 hstate), enterJoining_mon]
    refine ⟨rfl, rfl, rfl, fun hc hroom => ?_⟩
    exact addJoin_queued (s := (peerFilled (s.withLink l) k b x).withMon
      { (peerFilled (s.withLink l) k b x).mon with mode := .joining, listen := none }) hx (connected.trans hconn)
      (clash.trans hc) hroom
  case listens =>
    rw [actOnBeacon_listening (s := peerFilled (s.withLink l) k b x) hm, if_neg (by rw [hstate]; nofun)]
    exact hm
  case resync =>
    intro era e hstate hera he hy
    rw [actOnBeacon_compared (s := peerFilled (s.withLink l) k b x) hm, compareBeacon_yields (s := peerFilled (s.withLink l) k b x) hstate hera he hy, enterResync_mon_eq]
    refine ⟨rfl, rfl, fun hc hroom => ?_⟩
    exact enterResync_joins (s := peerFilled (s.withLink l) k b x) hx (connected.trans hconn) (clash.trans hc) hroom o
  case kept =>
    intro h
    rw [actOnBeacon_compared (s := peerFilled (s.withLink l) k b x) hm, compareBeacon_kept (s := peerFilled (s.withLink l) k b x) (h.imp_right (Or.imp_left completeEntry_none))]
    exact ⟨rfl, rfl⟩

end Sys2Proof.Proofs.ArrivedFrames
end

