-- ==== Sys2Proof/Proofs/Expiries.lean ====
section
/-! SUPPORT. LISTEN_TIMER_EXPIRY, SPAN_TIMEOUT and MARK_STALE_WITHDRAWAL (R94, R126, R160). -/

namespace Sys2Proof.Proofs.Expiries

open Sys2Proof Sys2Proof.Machine
open Sys2Proof.Proofs.SpanContexts Sys2Proof.Proofs.ReceiveQueue

/-- Settles O50: the due timer founds an era. -/
theorem listenTimerExpiry : Obligations.ListenTimerExpiry := by
  intro c x s hc hx hm hl
  have due : s.mon.listenDue = true := by rw [Monitor.listenDue, hm, hl]; rfl
  have taken : exec .listenTimerExpiry s = .next (s.found c x) := by
    simp only [exec, execListenTimerExpiry, hc, hx, State.expireListen, due, if_true]
  exact ⟨_, taken, rfl, rfl, rfl, rfl, rfl, rfl⟩

/-! ## SPAN_TIMEOUT -/

/-- R138, R163: the completion of a history entry, with the beacon, leaves the plan and the tallies alone. -/
theorem completeEntryAt_plan_contacts (s : State) (c : Settings) (x : Slot) :
    (s.completeEntryAt c x).plan = s.plan ∧ (s.completeEntryAt c x).contacts = s.contacts := by
  have placed (u : State) (f : TxFrame) : (u.placeBeacon f).contacts = u.contacts := by
    unfold State.placeBeacon State.release
    split
    · rfl
    · split
      · rfl
      · split <;> rfl
  have built (u : State) : (u.buildBeacon c x).contacts = u.contacts := by
    unfold State.buildBeacon
    split
    · split
      · split
        · exact placed u _
        · rfl
      · rfl
    · rfl
  unfold State.completeEntryAt
  split
  · exact ⟨(buildBeacon_cueOnly (s.withEgress _) c x).plan_eq, built (s.withEgress _)⟩
  · exact ⟨rfl, rfl⟩

/-- Settles O52: the context of the origin goes to IDLE. -/
theorem spanTimeout : Obligations.SpanTimeout := by
  intro c x k d s hc hx hm hd hage
  have due : s.plan.spanDue k x = true := by
    rw [Plan.spanDue, hd]
    exact decide_eq_true hage
  have taken : exec (.spanTimeout k) s = .next ((s.withPlan (s.plan.idleSpan k)).completeEntryAt c x) := by
    simp only [exec, execSpanTimeout, hc, hx, hm, due, Bool.and_self, if_true]
  obtain ⟨plan, contacts⟩ := completeEntryAt_plan_contacts (s.withPlan (s.plan.idleSpan k)) c x
  refine ⟨_, taken, ?_, fun j hj => ?_, ?_, ?_, contacts⟩
  · rw [plan]
    exact spanOf_idleSpan_self s.plan k
  · rw [plan]
    exact spanOf_idleSpan_ne s.plan hj
  · rw [plan]
    rfl
  · rw [plan]
    rfl

/-! ## MARK_STALE_WITHDRAWAL -/

section Withdrawal
variable {s : State} {o : Nat} {e : TxEntry}

theorem withdrawEntry_queued (hlive : e.live = true) (hc : s.link.current ≠ some (.general e.order)) :
    s.withdrawEntry e = ((s.freeEntry e.order).tell e .cancelled).pulseRefused := by
  have notCurrent : ¬ s.isCurrent (.general e.order) = true := by simpa [State.isCurrent] using hc
  have between : ¬ s.inAttempt (.general e.order) = true := fun h => hc ((inAttempt_iff s _).1 h).2
  rw [State.withdrawEntry, hlive, if_neg nofun, if_neg between, if_neg notCurrent]

theorem withdrawEntry_between (hlive : e.live = true) (hc : s.link.current = some (.general e.order))
    (ha : s.link.attempt = false) :
    s.withdrawEntry e = (s.changeEntry e.order (fun e => { e with drop := true })).pulseRefused := by
  have current : s.isCurrent (.general e.order) = true := by simpa [State.isCurrent] using hc
  have between : ¬ s.inAttempt (.general e.order) = true := fun h =>
    Bool.eq_false_iff.1 ha ((inAttempt_iff s _).1 h).1
  rw [State.withdrawEntry, hlive, if_neg nofun, if_neg between, if_pos current]

theorem withdrawEntry_inAttempt (hlive : e.live = true) (hc : s.link.current = some (.general e.order))
    (ha : s.link.attempt = true) :
    s.withdrawEntry e = s.changeEntry e.order (fun e => { e with cancelAsked := true, stale := true }) := by
  rw [State.withdrawEntry, hlive, if_neg nofun, if_pos ((inAttempt_iff s _).2 ⟨ha, hc⟩)]

end Withdrawal

/-- Settles O54: the withdrawal by the frame's place. -/
theorem staleMark : Obligations.StaleMark := by
  intro x st o e s hx hflag he hmark hlive hst hstale
  obtain rfl := State.entry_order he
  have due : e.staleAt x = true := by
    rw [TxEntry.staleAt, hmark, hst]
    exact hstale
  have taken : exec (.markStaleWithdrawal e.order) s = .next (s.withdrawEntry e) := by
    simp only [exec, execMarkStaleWithdrawal, he, hx, hflag, due, and_self, if_true]
  refine ⟨_, taken, fun hc => ?queued, fun hc ha => ?between, fun hc ha => ?attempt⟩
  case queued =>
    rw [withdrawEntry_queued hlive hc]
    refine ⟨?_, rfl⟩
    show List.find? _ (State.tell _ e .cancelled).traffic.general = none
    rw [tell_traffic]
    exact State.freeEntry_entry s e.order
  case between =>
    rw [withdrawEntry_between hlive hc ha]
    exact ⟨State.changeEntry_entry (f := fun e => { e with drop := true }) he fun _ => rfl, rfl⟩
  case attempt =>
    rw [withdrawEntry_inAttempt hlive hc ha]
    exact ⟨State.changeEntry_entry (f := fun e => { e with cancelAsked := true, stale := true }) he fun _ => rfl, rfl⟩

end Sys2Proof.Proofs.Expiries
end

