-- ==== Sys2Proof/Proofs/ReadBack.lean ====
section
/-! SUPPORT. A receiver reads back a frame as it was sent, and every body reads back (R74 to R76, 12.1). -/

namespace Sys2Proof.Proofs.ReadBack

open Sys2Proof Sys2Proof.Machine

/-! ## The parts of a head (R74, R75) -/

section Head
variable (k : Station) (kind : Kind) (n : Nat)

theorem headBits_class : (headBits k kind n).take 3 = natBits 3 kind.cls := rfl

theorem headBits_sender : ((headBits k kind n).drop 3).take 5 = natBits 5 k.val := rfl

theorem headBits_kind : ((headBits k kind n).drop 8).take 5 = natBits 5 kind.code := rfl

theorem headBits_bodyLength : (headBits k kind n).drop 13 = natBits 5 n := rfl

theorem senderOf_headBits : senderOf (headBits k kind n) = k := by
  rw [senderOf, headBits_sender, bitsNat_natBits]
  exact Fin.ext (by rw [Fin.val_ofNat]; omega)

end Head

theorem bodyLength_le (k : Kind) : k.bodyLength ≤ 24 := by cases k <;> decide

theorem cls_lt (k : Kind) : k.cls < 2 ^ 3 := by cases k <;> decide

theorem code_lt (k : Kind) : k.code < 2 ^ 5 := by cases k <;> decide

/-! ## A frame (R76) -/

/-- The bits of the body and of the check. -/
def tailBits (k : Station) (kind : Kind) (body : List Byte) : List Bool :=
  bytesBits body ++ natBits 16 (crc16 (headBits k kind body.length ++ bytesBits body)).toNat

theorem dataBits_eq (k : Station) (kind : Kind) (body : List Byte) :
    dataBits k kind body = (false :: headBits k kind body.length) ++ tailBits k kind body := by
  rw [dataBits, tailBits, List.cons_append, List.cons_append, List.append_assoc]

theorem tailBits_length (k : Station) (kind : Kind) (body : List Byte) :
    (tailBits k kind body).length = 8 * body.length + 16 := by
  rw [tailBits, List.length_append, bytesBits_length, natBits_length]

theorem judgeFrame_sent (k : Station) {kind : Kind} {body : List Byte} (h : body.length = kind.bodyLength) :
    judgeFrame (headBits k kind body.length) (tailBits k kind body) body.length = .clean k kind body := by
  have bytes : (tailBits k kind body).take (8 * body.length) = bytesBits body := by
    rw [tailBits, ← bytesBits_length, List.take_left]
  have check : bitsNat ((tailBits k kind body).drop (8 * body.length)) =
      (crc16 (headBits k kind body.length ++ bytesBits body)).toNat := by
    rw [tailBits, ← bytesBits_length, List.drop_left, bitsNat_natBits, Nat.mod_eq_of_lt (BitVec.isLt _)]
  have code : kindOfCode (bitsNat (((headBits k kind body.length).drop 8).take 5)) = some kind := by
    rw [headBits_kind, bitsNat_natBits, Nat.mod_eq_of_lt (code_lt kind), kindOfCode_code]
  have cls : bitsNat ((headBits k kind body.length).take 3) = kind.cls := by
    rw [headBits_class, bitsNat_natBits, Nat.mod_eq_of_lt (cls_lt kind)]
  have fits : ¬ (False ∨ ¬body.length = kind.bodyLength) := fun hbad => hbad.elim id (absurd h)
  unfold judgeFrame
  simp only [bytes, check, code, cls, senderOf_headBits, bitsBytes_bytesBits, if_neg fits, ne_eq, not_true_eq_false, if_false]

/-- Settles O55: the head's 19 data bits give the length, which gives the number of the bits that follow. -/
theorem framesReadBack : Obligations.FramesReadBack := by
  intro k kind body h
  have fits : body.length ≤ 24 := h ▸ bodyLength_le kind
  have head := takeData_insertSync 0 (false :: headBits k kind body.length) (tailBits k kind body) (by omega)
  have tail := takeData_insertSync (phaseAfter 0 19) (tailBits k kind body) [] (Nat.mod_lt _ (by omega))
  rw [List.length_cons, headBits_length] at head
  rw [tailBits_length, List.append_nil] at tail
  have length : bitsNat ((headBits k kind body.length).drop 13) = body.length := by
    rw [headBits_bodyLength, bitsNat_natBits, Nat.mod_eq_of_lt (by omega)]
  have starts : insertSync 0 ((false :: headBits k kind body.length) ++ tailBits k kind body) =
      false :: insertSync 1 (headBits k kind body.length ++ tailBits k kind body) := rfl
  rw [starts] at head
  rw [frameBits, dataBits_eq, starts]
  unfold readFrame
  simp only [head, List.drop_succ_cons, List.drop_zero, length, if_neg (Nat.not_lt.2 fits), tail, judgeFrame_sent k h]

/-! ## The bodies (12.1) -/

theorem ofNat8_toNat {n : Nat} (h : n < 256) : (BitVec.ofNat 8 n).toNat = n := by
  rw [BitVec.toNat_ofNat, Nat.mod_eq_of_lt h]

theorem cutKindOf_bytes (k : CutKind) : ∃ a b, cutKindBytes k = [a, b] ∧ cutKindOf a b = some k := by
  cases k with
  | drop => exact ⟨_, _, rfl, cutKindOf_drop⟩
  | mask lanes => exact ⟨_, _, rfl, cutKindOf_mask lanes⟩

/-- A MARK's content reads back, and its body has its kind's length. -/
theorem parseMark_body (m : Mark) : parseMark m.kind m.body = some m ∧ m.body.length = m.kind.bodyLength := by
  cases m with
  | dump s n a b => simp [Mark.kind, Mark.body, parseMark, bytes32, be32_extract, Kind.bodyLength]
  | spanIn s p => simp [Mark.kind, Mark.body, parseMark, bytes32, be32_extract, Kind.bodyLength]
  | spanOut s q => simp [Mark.kind, Mark.body, parseMark, bytes32, be32_extract, Kind.bodyLength]
  | spanCommit s n kind =>
    obtain ⟨a, b, hbytes, hkind⟩ := cutKindOf_bytes kind
    simp [Mark.kind, Mark.body, parseMark, bytes32, be32_extract, Kind.bodyLength, hbytes, hkind]
  | spanAbandon s => simp [Mark.kind, Mark.body, parseMark, bytes32, be32_extract, Kind.bodyLength]
  | tagMask s n p m => simp [Mark.kind, Mark.body, parseMark, bytes32, be32_extract, Kind.bodyLength, lanesOf_setWidth]
  | rescind s id =>
    simp [Mark.kind, Mark.body, parseMark, bytes32, be32_extract, Kind.bodyLength, stationOf_stationByte]

theorem parsePace_body (stamp p : Slot) {n : Int} (h : n = -1 ∨ (1 ≤ n ∧ n ≤ 8)) :
    parsePace (paceBody stamp p n) = some (stamp, p, some n) := by
  simp [paceBody, parsePace, bytes32, be32_extract, paceCountOf_byte n h]

theorem parseHead_body (stamp founding : Slot) : parseHead (headBody stamp founding) = some (stamp, founding) := by
  simp [headBody, parseHead, bytes32, be32_extract]

theorem parseCut_bytes (c : Cut) : parseCut (cutBytes c) = some { c with state := .armed } := by
  obtain ⟨a, b, hbytes, hkind⟩ := cutKindOf_bytes c.kind
  simp [cutBytes, parseCut, bytes32, be32_extract, hbytes, hkind, stationOf_stationByte, sourceOf_sourceByte]

theorem parseRecapPace_bytes {p : Pace} (h : p.count = -1 ∨ (1 ≤ p.count ∧ p.count ≤ 8)) :
    parseRecapPace (paceBytes p) = some p := by
  simp [paceBytes, parseRecapPace, bytes32, be32_extract, paceCountOf_byte _ h]

/-- The age that a RECAP-SPAN carries gives the context's last frame back. -/
theorem sub_slots_age (x0 last : Slot) : x0 - slots (x0 - last).toNat = last := by
  rw [slots, BitVec.ofNat_toNat, BitVec.setWidth_eq, sub_sub_cancel]

theorem parseRecapSpan_body (x0 : Slot) {d : Span} (h : d.age x0 < 500) : parseRecapSpan x0 (recapSpanBody x0 d) = some d := by
  obtain ⟨origin, inPoint, outPoint, last⟩ := d
  have age : (x0 - last).toNat < 500 := h
  have carried := be16_bytes (x0 - last).toNat (by omega)
  cases outPoint with
  | none =>
    simp [recapSpanBody, spanBytes, parseRecapSpan, bytes32, bytes16, be32_extract, stationOf_stationByte, carried,
      Nat.le_of_lt_succ age, sub_slots_age, -BitVec.toNat_sub, -BitVec.ofNat_toNat]
  | some q =>
    simp [recapSpanBody, spanBytes, parseRecapSpan, bytes32, bytes16, be32_extract, stationOf_stationByte, carried,
      Nat.le_of_lt_succ age, sub_slots_age, -BitVec.toNat_sub, -BitVec.ofNat_toNat]

theorem parseRecapEnd_body {e : RecapEnd} (hdelay : e.delay < 65536) (hrep : e.rep ≤ 8) (hoffset : e.horizonOffset < 65536)
    (hcuts : e.cuts < 256) (hpaces : e.paces < 256) (hspans : e.spans < 256) (hera : 100 ≤ e.tEra ∧ e.tEra ≤ 3000) :
    parseRecapEnd (recapEndBody e) = some e := by
  have range : inRange 100 3000 e.tEra = true := by simp [inRange, hera]
  have rep := ofNat8_toNat (n := e.rep) (by omega)
  simp only [recapEndBody, parseRecapEnd, bytes32, bytes16, List.cons_append, List.nil_append, be32_extract,
    be16_bytes _ hdelay, be16_bytes _ hoffset, be16_bytes e.tEra (by omega), ofNat8_toNat hcuts, ofNat8_toNat hpaces,
    ofNat8_toNat hspans, rep, range, decide_eq_true hrep, Bool.and_self, if_true]

theorem parseJoin_body (stamp : Slot) (resync : Bool) : parseJoin (joinBody stamp resync) = some stamp := by
  cases resync <;> simp [joinBody, parseJoin, bytes32, be32_extract]

/-- The bits of a status byte, by the state and the four flags. -/
theorem statusByte_bits (b : Beacon) :
    peerStateOf (statusByte b) = some b.state ∧ (statusByte b).getLsbD 5 = b.pressure ∧ (statusByte b).getLsbD 4 = false ∧
      (statusByte b).getLsbD 3 = false ∧ (statusByte b).getLsbD 2 = b.exhausted ∧ (statusByte b).getLsbD 1 = b.quiet ∧
      (statusByte b).getLsbD 0 = b.clash := by
  unfold statusByte
  generalize b.pressure = p, b.exhausted = e, b.quiet = q, b.clash = c
  cases b.state <;> revert p e q c <;> decide

theorem parseBeacon_body {b : Beacon} (hrep : b.rep ≤ 8) (hdelay : b.delay < 65536)
    (hperiod : 10 ≤ b.period ∧ b.period ≤ 250) : parseBeacon (beaconBody b) = some b := by
  obtain ⟨state, pressure, bit4, bit3, exhausted, quiet, clash⟩ := statusByte_bits b
  have rep := ofNat8_toNat (n := b.rep) (by omega)
  have period := ofNat8_toNat (n := b.period) (by omega)
  have range : inRange 10 250 b.period = true := by simp [inRange, hperiod]
  simp only [beaconBody, parseBeacon, bytes32, bytes16, List.cons_append, List.nil_append, be32_extract, state, pressure,
    bit4, bit3, exhausted, quiet, clash, rep, period, range, be16_bytes _ hdelay, decide_eq_true hrep, Bool.not_false,
    Bool.and_self, if_true]

/-- Settles O56: each body by its own reading. -/
theorem bodiesReadBack : Obligations.BodiesReadBack :=
  ⟨parseMark_body, fun stamp p _ => parsePace_body stamp p, parseHead_body, parseCut_bytes, fun _ => parseRecapPace_bytes,
    fun x0 _ => parseRecapSpan_body x0, fun _ => parseRecapEnd_body, parseJoin_body, fun _ => parseBeacon_body⟩

end Sys2Proof.Proofs.ReadBack
end

