-- ==== Sys2Proof/Proofs/ReferenceReturn.lean ====
section
/-! SUPPORT. What a return of the reference leaves (R4, R47, R104, R143, R160), and a strobe of a station without settings
(R144, R180). -/

namespace Sys2Proof.Proofs.ReferenceReturn

open Sys2Proof Sys2Proof.Machine Sys2Proof.Safety Sys2Proof.Proofs.EndedBursts Sys2Proof.Proofs.LaneBursts
  Sys2Proof.Proofs.StrobeBursts Sys2Proof.Proofs.IndexOrder Sys2Proof.Proofs.ReceiveQueue

/-! ## The settling leaves the originator alone -/

theorem askAgain_orig (s : State) : s.askAgain.orig = s.orig := by
  have added : s.addJoin.orig = s.orig := by
    refine ((addEntry_cueOnly _ _ _ _ _).orig_eq).trans (b := s.drawHsn.2.orig) ?_
    unfold State.drawHsn
    split <;> rfl
  unfold State.askAgain
  split
  · rfl
  · exact added

theorem expireCollect_orig (s : State) : s.expireCollect.orig = s.orig := by
  unfold State.expireCollect
  split
  · exact askAgain_orig _
  · rfl

theorem expireRetry_orig (s : State) : s.expireRetry.orig = s.orig := by
  unfold State.expireRetry
  split
  · exact askAgain_orig s
  · rfl

theorem expireListen_orig (s : State) (c : Settings) (x : Slot) : (s.expireListen c x).orig = s.orig := by
  unfold State.expireListen
  split <;> rfl

theorem expireMonitor_orig (s : State) (c : Settings) (x : Slot) : (s.expireMonitor c x).orig = s.orig :=
  (expireListen_orig _ c x).trans ((expireRetry_orig _).trans
    ((expireForeign_cueOnly _).orig_eq.trans (expireCollect_orig s)))

theorem completeEntryAt_orig (s : State) (c : Settings) (x : Slot) : (s.completeEntryAt c x).orig = s.orig := by
  unfold State.completeEntryAt
  split
  · exact (buildBeacon_cueOnly _ c x).orig_eq
  · rfl

theorem settle_orig (s : State) (c : Settings) : (s.settle c).orig = s.orig := by
  unfold State.settle
  split
  · rfl
  · rename_i x _
    have expired := (expireMonitor_orig _ c x).trans
      ((withHeldBy_cueOnly s (dropLapsed s.traffic.heldBy)).trans (withdrawStale_cueOnly _ x)).orig_eq
    refine (completeEntryAt_orig _ c x).trans (Eq.trans ?_ expired)
    split <;> rfl

/-! ## The lanes with their hold buffers emptied (R139) -/

theorem clearHold_eq_withoutHold (l : EgressLane) : l.clearHold = withoutHold l := by cases l <;> rfl

theorem withoutHold_withoutHold (l : EgressLane) : withoutHold (withoutHold l) = withoutHold l := by cases l <;> rfl

/-- The end of a burst changes a hold buffer at most. -/
theorem withoutHold_of_laneEnded {bs : List OutBurst} {i : Nat} {l l' : EgressLane} (h : LaneEnded bs i l l') :
    withoutHold l' = withoutHold l := by
  cases h with
  | kept _ => rfl
  | held hl b _ _ _ n _ =>
    obtain ⟨hold, rfl⟩ := (isPicture_iff l).1 hl
    rfl

theorem map_withoutHold_of_lanesEnded {bs : List OutBurst} {before after : List EgressLane}
    (h : LanesEnded bs before after) : after.map withoutHold = before.map withoutHold := by
  obtain ⟨length, lanes⟩ := h
  refine List.ext_getElem? fun i => ?_
  rw [List.getElem?_map, List.getElem?_map]
  cases hl : before[i]? with
  | none =>
    rw [List.getElem?_eq_none (length ▸ List.getElem?_eq_none_iff.1 hl)]
  | some l =>
    obtain ⟨l', hl', ended⟩ := lanes i l hl
    rw [hl']
    exact congrArg some (withoutHold_of_laneEnded ended)

/-- The begin of substitute bursts changes no lane. -/
theorem zipWith_begin_substituteBursts (c : Settings) (x : Slot) (lanes : List EgressLane) :
    lanes.zipWith EgressLane.begin (substituteBursts c x lanes) = lanes := by
  refine List.ext_getElem (by simp [substituteBursts]) fun i hi hl => ?_
  rw [List.getElem_zipWith]
  exact if_neg (substituteBursts_ne_stored (List.getElem_mem _))

/-! ## The egress at a return (R143) -/

theorem substituteStep_idle {s : State} (h : s.egress.out = []) (c : Settings) (x : Slot) :
    s.substituteStep c x = s.withEgress { s.egress with out := substituteBursts c x s.egress.lanes } := by
  rw [State.substituteStep, endBursts_none (by simp [h]), bareBursts_eq_substituteBursts, Egress.begin,
    zipWith_begin_substituteBursts]

/-- R143: the schedule goes and substitutes begin on lanes with empty hold buffers. -/
theorem returnEgress_leaves (s : State) (c : Settings) (x : Slot) :
    (s.returnEgress c x).egress.lanes = s.egress.lanes.map withoutHold ∧
      (s.returnEgress c x).egress.out = substituteBursts c x (s.egress.lanes.map withoutHold) := by
  have lanes := map_withoutHold_of_lanesEnded (endBursts_lanes s fun _ => true)
  have cleared : ((s.endBursts fun _ => true).egress.lanes).map EgressLane.clearHold = s.egress.lanes.map withoutHold :=
    (List.map_congr_left fun l _ => clearHold_eq_withoutHold l).trans lanes
  rw [State.returnEgress, substituteStep_idle (by exact endBursts_all_out s)]
  exact ⟨cleared, congrArg (substituteBursts c x) cleared⟩

theorem returnEgress_orig (s : State) (c : Settings) (x : Slot) : (s.returnEgress c x).orig = s.orig := by
  have ended (u : State) : (u.endBursts fun _ => true).orig = u.orig := by rw [endBursts_storeSide u fun _ => true]
  exact (ended _).trans (ended s)

/-! ## The cue traffic at a return (R104) -/

theorem afterRemoval_nil_flowState {s : State} (h : s.traffic.received = []) : s.afterRemoval.traffic.flowState = .clear := by
  rw [afterRemoval_flowState, h]
  cases s.traffic.flowState <;> rfl

theorem afterRemoval_received (s : State) : s.afterRemoval.traffic.received = s.traffic.received := by
  unfold State.afterRemoval
  split
  · exact loadFlow_received _
  · rfl

theorem returnTraffic_leaves (s : State) :
    s.returnTraffic.traffic.received = [] ∧ s.returnTraffic.traffic.flowState = .clear := by
  have withdrawn := upkeep_withdrawMarks s.emptyReceived
  exact ⟨withdrawn.received.trans (afterRemoval_received _),
    withdrawn.flowState.trans (afterRemoval_nil_flowState rfl)⟩

/-! ## The return (R4) -/

/-- R160: the entry to LISTENING does the rest of a return. -/
theorem returnLeaves_enterListening {c : Settings} {h : Slot} {s v : State} (ref : v.ref = .strobe h)
    (index : v.index = []) (ingress : v.ingress = .opening c h 0)
    (store : v.store = ⟨fullLanes c.planCode, s.store.exhausted⟩) (orig : v.orig = s.orig) (mem : v.mem = s.mem)
    (received : v.traffic.received = []) (flowState : v.traffic.flowState = .clear)
    (lanes : v.egress.lanes = s.egress.lanes.map withoutHold)
    (out : v.egress.out = substituteBursts c h (s.egress.lanes.map withoutHold)) :
    ReturnLeaves c h s v.enterListening := by
  have kept : v.enterListening.egress.lanes = s.egress.lanes.map withoutHold := by
    show v.egress.lanes.map EgressLane.clearHold = _
    rw [lanes, List.map_map]
    exact List.map_congr_left fun l _ => (clearHold_eq_withoutHold _).trans (withoutHold_withoutHold l)
  have exhausted : v.store.exhausted = s.store.exhausted := by rw [store]
  have count : v.orig.count = s.orig.count := congrArg Originator.count orig
  exact ⟨ref, index, congrArg PageStore.lanes store, exhausted, congrArg Ingress.period ingress,
    congrArg Ingress.quietRun ingress, congrArg Ingress.peak ingress, rfl, rfl, count, received,
    flowState, rfl, rfl, rfl, rfl, rfl, rfl, rfl, rfl, mem, kept, out.trans (congrArg _ kept.symm)⟩

/-- The state of a return before the cue traffic's part. -/
def openedReturn (s : State) (c : Settings) (h : Slot) : State :=
  (((s.withRef (.strobe h)).returnEgress c h).discardStore c).withIngress (.opening c h 0)

theorem takeReturn_eq (s : State) (c : Settings) (h : Slot) :
    s.takeReturn c h = (openedReturn s c h).returnTraffic.enterListening := rfl

theorem openedReturn_leaves (s : State) (c : Settings) (h : Slot) :
    (openedReturn s c h).ref = .strobe h ∧ (openedReturn s c h).index = [] ∧
      (openedReturn s c h).ingress = .opening c h 0 ∧
      (openedReturn s c h).store = ⟨fullLanes c.planCode, s.store.exhausted⟩ ∧ (openedReturn s c h).orig = s.orig ∧
      (openedReturn s c h).mem = s.mem ∧ (openedReturn s c h).egress = ((s.withRef (.strobe h)).returnEgress c h).egress := by
  have essence := returnEgress_keeps (s.withRef (.strobe h)) c h
  have orig := returnEgress_orig (s.withRef (.strobe h)) c h
  unfold openedReturn State.discardStore PageStore.discard
  simp only [State.withIngress_ref, State.withStore_ref, State.withIndex_ref, essence.ref_eq, State.withRef_ref,
    State.withIngress_index, State.withStore_index, State.withIndex_index, State.withIngress_ingress,
    State.withIngress_store, State.withStore_store, essence.store_eq, State.withRef_store,
    State.withIngress_orig, State.withStore_orig, State.withIndex_orig, orig, State.withRef_orig, State.withIngress_mem,
    State.withStore_mem, State.withIndex_mem, essence.mem_eq, State.withRef_mem, State.withIngress_egress,
    State.withStore_egress, State.withIndex_egress, and_self]

/-- The state `u` in which the reference returns may differ from `s` in what the return does not keep. -/
theorem returnLeaves_takeReturn {s u : State} (hlanes : u.egress.lanes = s.egress.lanes) (hmem : u.mem = s.mem)
    (horig : u.orig = s.orig) (hstore : u.store.exhausted = s.store.exhausted) (c : Settings) (h : Slot) :
    ReturnLeaves c h s (u.takeReturn c h) := by
  have cue := returnTraffic_cueOnly (openedReturn u c h)
  obtain ⟨received, flowState⟩ := returnTraffic_leaves (openedReturn u c h)
  obtain ⟨ref, index, ingress, store, orig, mem, egress⟩ := openedReturn_leaves u c h
  obtain ⟨lanes, out⟩ := returnEgress_leaves (u.withRef (.strobe h)) c h
  rw [← egress, ← cue.egress_eq, State.withRef_egress, hlanes] at lanes out
  rw [hstore] at store
  rw [takeReturn_eq]
  exact returnLeaves_enterListening (cue.keeps.ref_eq.trans ref) (cue.keeps.index_eq.trans index)
    (cue.keeps.ingress_eq.trans ingress) (cue.keeps.store_eq.trans store) (cue.orig_eq.trans (orig.trans horig))
    (cue.keeps.mem_eq.trans (mem.trans hmem)) received flowState lanes out

/-! ## The loss before a break leaves these alone -/

theorem loseIngress_exhausted (s : State) (c : Settings) : (s.loseIngress c).store.exhausted = s.store.exhausted := by
  unfold State.loseIngress
  split
  · rfl
  · exact releaseLanes_exhausted _ _ _ _

theorem loseIngress_orig_egress (s : State) (c : Settings) :
    (s.loseIngress c).orig = s.orig ∧ (s.loseIngress c).egress = s.egress := by
  unfold State.loseIngress
  split <;> exact ⟨rfl, rfl⟩

theorem returnLeaves_break (s : State) (c : Settings) (h : Slot) :
    ReturnLeaves c h s ((s.loseReference c).takeReturn c h) := by
  obtain ⟨mem, -, -, -, -, -⟩ := loseReference_faults s c
  have cue := (loseTraffic_cueOnly (((s.settle c).withRef
    { (s.settle c).ref with flag := .lost, timerRunning := false }).loseIngress c)).trans (loseMonitor_cueOnly _)
  obtain ⟨orig, egress⟩ := loseIngress_orig_egress
    ((s.settle c).withRef { (s.settle c).ref with flag := .lost, timerRunning := false }) c
  refine returnLeaves_takeReturn ?lanes mem (cue.orig_eq.trans (orig.trans (settle_orig s c))) ?exhausted c h
  case lanes => exact (congrArg Egress.lanes (cue.egress_eq.trans egress)).trans (settle_output s c).lanes
  case exhausted =>
    refine (congrArg PageStore.exhausted cue.keeps.store_eq).trans ((loseIngress_exhausted _ c).trans ?_)
    exact congrArg PageStore.exhausted (settle_keeps s c).store_eq

/-! ## A strobe without settings (R144, R180) -/

theorem bareStrobe_leaves (s : State) (h : Slot) : BareStrobe h s (s.bareStrobe h) := by
  refine ⟨fun hm => if_neg hm, fun hm => ?_⟩
  have fault : s.bareStrobe h = (s.withRef (.strobe h)).faultOutput h := if_pos hm
  rw [fault]
  exact ⟨rfl, rfl⟩

/-- Settles O10: a strobe while LOST, a strobe that does not follow, and a strobe without settings. -/
theorem returnAndBreak : Obligations.ReturnAndBreak := by
  refine ⟨fun c h s hc => ⟨fun hlost => ?_, fun x hflag hx hne => ?_⟩, fun h o s hc => ?_⟩
  · refine ⟨s.takeReturn c h, ?_, returnLeaves_takeReturn rfl rfl rfl rfl c h⟩
    show Host.Outcome.next (s.takeStrobe h ⟨[], false⟩) = _
    simp only [State.takeStrobe, hc, State.configuredStrobe, if_pos hlost]
  · have present : ¬ s.ref.flag = .lost := by simp [hflag]
    have breaks : ¬ s.ref.follows h = true := by simpa [RefUnit.follows, hx] using hne
    refine ⟨(s.loseReference c).takeReturn c h, ?_, returnLeaves_break s c h⟩
    show Host.Outcome.next (s.takeStrobe h ⟨[], false⟩) = _
    simp only [State.takeStrobe, hc, State.configuredStrobe, if_neg present, if_neg breaks]
  · have taken (p : StrobeOrder) : s.takeStrobe h p = s.bareStrobe h := by rw [State.takeStrobe, hc]
    exact ⟨s.bareStrobe h, congrArg _ (taken o), congrArg _ (taken _), congrArg _ (taken _), bareStrobe_leaves s h⟩

end Sys2Proof.Proofs.ReferenceReturn
end

