-- ==== Sys2Proof/Proofs/ReferenceLost.lean ====
section
/-! SUPPORT. What a loss of reference leaves (R3, R46, R103, R161), and which entries a cancellation leaves live (R93). -/

namespace Sys2Proof.Proofs.ReferenceLost

open Sys2Proof Sys2Proof.Machine Sys2Proof.Safety Sys2Proof.Proofs.IndexOrder Sys2Proof.Proofs.SparedProposals

/-! ## Which entries stay live (R93, R96) -/

/-- R93: a live entry after a cancellation was queued before it, and is another entry. -/
theorem mem_of_live_cancelEntry {s : State} {d e : TxEntry} (he : e ∈ (s.cancelEntry d).traffic.general)
    (hlive : e.live = true) : e ∈ s.traffic.general ∧ e.order ≠ d.order := by
  have marked {f : TxEntry → TxEntry} (hf : ∀ a, (f a).live = false)
      (h : e ∈ (s.changeEntry d.order f).traffic.general) : e ∈ s.traffic.general ∧ e.order ≠ d.order := by
    obtain ⟨a, ha, rfl⟩ := List.mem_map.1 h
    split at hlive
    next => exact absurd hlive (by rw [hf]; exact Bool.false_ne_true)
    next hne => rw [if_neg hne]; exact ⟨ha, hne⟩
  unfold State.cancelEntry at he
  split_ifs at he
  · exact marked (fun a => by simp [TxEntry.live]) he
  · exact marked (fun a => by simp [TxEntry.live]) he
  · rw [tell_traffic] at he
    obtain ⟨he, hne⟩ := List.mem_filter.1 he
    exact ⟨he, bne_iff_ne.1 hne⟩

theorem mem_of_live_foldl_cancelEntry {l : List TxEntry} {s : State} {e : TxEntry}
    (he : e ∈ (l.foldl State.cancelEntry s).traffic.general) (hlive : e.live = true) :
    e ∈ s.traffic.general ∧ ∀ d ∈ l, e.order ≠ d.order := by
  induction l generalizing s with
  | nil => exact ⟨he, nofun⟩
  | cons d l ih =>
    obtain ⟨hmem, hrest⟩ := ih he
    obtain ⟨hmem, hne⟩ := mem_of_live_cancelEntry hmem hlive
    exact ⟨hmem, List.forall_mem_cons.2 ⟨hne, hrest⟩⟩

/-- R93: no entry that is picked stays live. -/
theorem mem_of_live_cancelWhere {s : State} {p : TxEntry → Bool} {e : TxEntry}
    (he : e ∈ (s.cancelWhere p).traffic.general) (hlive : e.live = true) : e ∈ s.traffic.general ∧ p e = false := by
  obtain ⟨hmem, hne⟩ := mem_of_live_foldl_cancelEntry he hlive
  refine ⟨hmem, Bool.eq_false_iff.2 fun hp => ?_⟩
  exact hne e (List.mem_filter.2 ⟨hmem, hp⟩) rfl

theorem mem_of_mem_foldl {f : State → TxEntry → State} {e : TxEntry}
    (hf : ∀ s d, e ∈ (f s d).traffic.general → e ∈ s.traffic.general) {l : List TxEntry} {s : State}
    (he : e ∈ (l.foldl f s).traffic.general) : e ∈ s.traffic.general := by
  induction l generalizing s with
  | nil => exact he
  | cons d l ih => exact hf s d (ih he)

theorem mem_of_live_closeStream {s : State} {e : TxEntry} (he : e ∈ s.closeStream.traffic.general)
    (hlive : e.live = true) : e ∈ s.traffic.general := by
  refine mem_of_mem_foldl (fun s d hd => ?_) he
  split at hd
  · exact (List.mem_filter.1 hd).1
  · exact (mem_of_live_cancelEntry hd hlive).1

theorem emptyBeacon_general (s : State) : s.emptyBeacon.traffic.general = s.traffic.general := by
  unfold State.emptyBeacon
  split_ifs <;> rfl

/-- R103: no PACE and no JOIN stays live. -/
theorem not_live_of_loseTraffic {s : State} {e : TxEntry} (he : e ∈ s.loseTraffic.traffic.general)
    (hclass : e.hasClass 2 = true ∨ e.hasClass 4 = true) : e.live = false := by
  refine Bool.eq_false_iff.2 fun hlive => ?_
  have closed := mem_of_live_closeStream (emptyBeacon_general _ ▸ he) hlive
  obtain ⟨-, hp⟩ := mem_of_live_cancelWhere closed hlive
  exact absurd (Bool.or_eq_true_iff.2 hclass) (Bool.eq_false_iff.1 hp)

/-! ## The loss (R3) -/

theorem loseIngress_received (s : State) (c : Settings) :
    (s.loseIngress c).traffic.received = s.traffic.received := by
  unfold State.loseIngress
  split <;> rfl

theorem loseReference_received (s : State) (c : Settings) :
    (s.loseReference c).traffic.received = s.traffic.received :=
  ((upkeep_loseTraffic _).trans (upkeep_loseMonitor _)).received.trans
    ((loseIngress_received _ c).trans (upkeep_settle s c).received)

/-- Settles O11: the loss, block by block. -/
theorem referenceLoss : Obligations.ReferenceLoss := by
  intro c s hc hrun
  obtain ⟨period, index, ref⟩ := loseReference_leaves s c
  obtain ⟨mem, -, -, -, -, -⟩ := loseReference_faults s c
  have taken : exec .referenceLossTimeout s = .next (s.loseReference c) := by
    refine (if_pos hrun).trans (congrArg Host.Outcome.next ?_)
    rw [State.timeoutReference, hc]
  exact ⟨s.loseReference c, taken, ref, period, index, mem, rfl, rfl, loseReference_received s c,
    fun e he hclass => not_live_of_loseTraffic he hclass, by simp [faultLit, ref]⟩

end Sys2Proof.Proofs.ReferenceLost
end

