-- ==== Sys2Proof/Proofs/ListeningStrobe.lean ====
section
/-! SUPPORT. The ordinary strobe of a LISTENING station (R14, R16, R41 to R43, R160): whatever the order of the parts, the
listen timer counts once and the record of the period just ended becomes the tail of the slot index. -/

namespace Sys2Proof.Proofs.ListeningStrobe

open Sys2Proof Sys2Proof.Machine Sys2Proof.Safety Sys2Proof.Proofs.OrdinaryStrobe Sys2Proof.Proofs.StrobeVerdict
  Sys2Proof.Proofs.EndedBursts Sys2Proof.Proofs.IndexOrder

/-! ## A LISTENING station -/

/-- LISTENING with the listen timer at `n`, and nothing of a join. -/
structure Listens (n : Nat) (m : Monitor) : Prop where
  mode : m.mode = .listening
  listen : m.listen = some n
  retry : m.retry = none
  collecting : m.collecting = none

/-- An operation that leaves a LISTENING station LISTENING, with its timer. -/
def KeepsListening (s t : State) : Prop := ∀ n, Listens n s.mon → Listens n t.mon

theorem KeepsListening.refl (s : State) : KeepsListening s s := fun _ => id

theorem KeepsListening.trans {s t u : State} (h : KeepsListening s t) (k : KeepsListening t u) : KeepsListening s u :=
  fun n hn => k n (h n hn)

theorem KeepsListening.of_mon {s t : State} (h : t.mon = s.mon) : KeepsListening s t := fun _ hn => h ▸ hn

theorem endOwnRecap_listening (s : State) : KeepsListening s s.endOwnRecap :=
  fun _ h => ⟨h.mode, h.listen, h.retry, h.collecting⟩

/-! ## The expiries (R160, R167, R168, R174) -/

theorem expireForeign_listening (s : State) : KeepsListening s s.expireForeign := by
  unfold State.expireForeign
  split
  · exact fun _ h => ⟨h.mode, h.listen, h.retry, h.collecting⟩
  · exact .refl s

/-- Only a foreign recap can expire while the listen timer runs. -/
theorem expireMonitor_listening {s : State} {n : Nat} (h : Listens (n + 1) s.mon) (c : Settings) (x : Slot) :
    Listens (n + 1) (s.expireMonitor c x).mon := by
  have collect : s.expireCollect = s := if_neg (by simp [Monitor.collectDue, h.collecting])
  have foreign := expireForeign_listening s _ h
  have retry : s.expireForeign.expireRetry = s.expireForeign := if_neg (by simp [Monitor.retryDue, foreign.retry])
  have listen : s.expireForeign.expireListen c x = s.expireForeign :=
    if_neg (by simp [Monitor.listenDue, foreign.listen])
  rw [State.expireMonitor, collect, retry, listen]
  exact foreign

theorem settle_listening {s : State} {n : Nat} (h : Listens (n + 1) s.mon) (c : Settings) :
    Listens (n + 1) (s.settle c).mon := by
  unfold State.settle
  split
  · exact h
  · rename_i x _
    have stale : ((s.withHeldBy (dropLapsed s.traffic.heldBy)).withdrawStale x).mon = s.mon := JudgedProposals.withdrawStale_mon _ x
    have expired := expireMonitor_listening (s := (s.withHeldBy (dropLapsed s.traffic.heldBy)).withdrawStale x)
      (stale.symm ▸ h) c x
    dsimp only
    rw [JudgedProposals.completeEntryAt_mon]
    split <;> exact expired

/-- R160: the listen timer counts at the monitor's strobe. -/
theorem monitorStrobe_listening {s : State} {n : Nat} (h : Listens (n + 2) s.mon) (c : Settings) (x : Slot) (own : Bool) :
    Listens (n + 1) (s.monitorStrobe c x own).mon := by
  have ticked : Listens (n + 1) (s.withMon s.mon.tick).mon :=
    ⟨h.mode, by simp [Monitor.tick, h.listen], by simp [Monitor.tick, h.retry], by simp [Monitor.tick, h.collecting]⟩
  have checked {u : State} (hu : Listens (n + 1) u.mon) : Listens (n + 1) (u.checkPeers x).mon := by
    unfold State.checkPeers
    split
    · exact hu
    · rw [hu.mode]
      exact hu
  unfold State.monitorStrobe
  dsimp only
  split
  · exact checked ticked
  · exact checked (expireMonitor_listening ticked c x)

/-! ## The intake (R100, R101) -/

theorem closeStream_endOwnRecap_listening (s : State) : KeepsListening s s.closeStream.endOwnRecap :=
  (KeepsListening.of_mon (closeStream_mon s)).trans (endOwnRecap_listening _)

/-- R168, R172: a head is noted at most; a LISTENING station starts no record. -/
theorem noteForeign_listening (s : State) (k : Station) (founding : Slot) :
    KeepsListening s (s.noteForeign k founding) := by
  intro n h
  unfold State.noteForeign
  split
  · split
    · exact ⟨h.mode, h.listen, h.retry, h.collecting⟩
    · exact h
  · exact h
  · rw [if_neg (by rw [h.mode]; exact Bool.false_ne_true)]
    exact h

theorem takeHead_listening (s : State) (b : Bounds) (f : RxFrame) : KeepsListening s (s.takeHead b f) := by
  have closed := closeStream_endOwnRecap_listening s
  have own : KeepsListening s (s.takeOwnHead b) := by
    intro n h
    unfold State.takeOwnHead
    split
    next aligned _ _ _ _ => exact absurd (h.mode.symm.trans aligned) nofun
    next => exact closed n h
  have other (founding : Slot) : KeepsListening s ((s.noteForeign f.sender founding).joinerHead b.x f.sender founding) := by
    intro n h
    have noted := noteForeign_listening s f.sender founding n h
    rw [State.joinerHead, if_neg (by simp [noted.mode, Mode.wantsRecap])]
    exact noted
  unfold State.takeHead
  split
  · split
    · exact closed
    · exact .refl s
  · split_ifs
    · exact closed
    · exact .refl s
    · exact own
    · exact other _

theorem takeImage_listening (s : State) (f : RxFrame) : KeepsListening s (s.takeImage f) := by
  intro n h
  have renewed : Listens n (s.renewForeign f.sender).mon := ⟨h.mode, h.listen, h.retry, h.collecting⟩
  unfold State.takeImage
  split
  · exact h
  · simp only [renewed.collecting]
    exact renewed

/-- R175: a RECAP-END is for a joiner. -/
theorem takeEnd_listening (s : State) (x : Slot) (f : RxFrame) : KeepsListening s (s.takeEnd x f).1 := by
  intro n h
  have ended : Listens n (s.endForeign f.sender).mon := ⟨h.mode, h.listen, h.retry, h.collecting⟩
  unfold State.takeEnd
  split
  · dsimp only
    split
    · exact endOwnRecap_listening s n h
    · exact h
  · dsimp only
    rw [if_pos (by rw [ended.mode]; rfl)]
    exact ended

/-- R168: only an ALIGNED station answers a JOIN. -/
theorem takeJoin_listening (s : State) (x : Slot) (f : RxFrame) : KeepsListening s (s.takeJoin x f) := by
  intro n h
  have away : s.mon.mode ≠ .aligned := by rw [h.mode]; nofun
  unfold State.takeJoin
  split
  · rw [if_pos (.inr (.inr (.inl away)))]
    exact h
  · exact h

theorem handle_listening (k : Intake) (c : Settings) (x : Slot) (f : RxFrame) :
    KeepsListening k.state (k.handle c x f).state := by
  unfold Intake.handle
  split
  case h_1 =>
    unfold Intake.pace
    split
    · split
      · exact KeepsListening.of_mon (handlePace_takes k.state c _ f).2
      · exact .refl _
    · exact .refl _
  case h_2 => exact takeHead_listening k.state _ f
  case h_3 | h_4 | h_5 => exact takeImage_listening k.state f
  case h_6 => exact takeEnd_listening k.state x f
  case h_7 => exact takeJoin_listening k.state x f
  case h_8 | h_9 | h_10 => exact .refl _
  case h_11 =>
    unfold Intake.mark
    split
    · split
      · exact KeepsListening.of_mon (handleMark_takes k.state _ f).2
      · exact .refl _
    · exact .refl _

theorem record_listening (k : Intake) (x : Slot) (place : Nat) (f : RxFrame) :
    KeepsListening k.state (k.record x place f).state := by
  intro n h
  rw [Intake.record, if_neg (by simp [h.mode, Mode.wantsRecap])]
  exact h

theorem close_mon (k : Intake) (c : Settings) : (k.close c).mon = k.state.mon := by
  unfold Intake.close
  split
  · unfold State.checkProposal
    split
    · split_ifs
      · exact ArrivedFrames.cancelProposal_mon _
      · rfl
    · rfl
  · rfl

theorem intake_listening (s : State) (c : Settings) (x : Slot) (own : Bool) : KeepsListening s (s.intake c x own) := by
  have opened : (s.openIntake x own).state.mon = s.mon := by
    unfold State.openIntake
    split
    · split <;> rfl
    · rfl
  exact intake_preserves KeepsListening .trans (.of_mon opened) (fun u => .of_mon (dropReceived_mon u))
    (fun f _ k => handle_listening k c x f) (fun k n f => record_listening k x n f) (fun k => .of_mon (close_mon k c))

/-! ## The output without a schedule (R16, R141) -/

theorem strobeOutput_listening {s : State} (hm : s.mon.mode = .listening) (c : Settings) (x : Slot) :
    s.strobeOutput c x = (s.substituteStep c x).removeAged c.planCode x :=
  if_neg (by rw [hm]; exact Bool.false_ne_true)

theorem substituteStep_mon (s : State) (c : Settings) (x : Slot) : (s.substituteStep c x).mon = s.mon :=
  show (s.endBursts fun _ => true).mon = s.mon from StoreSide.mon_eq (endBursts_storeSide s fun _ => true)

theorem getLast?_dropWhile_of_not {α : Type} {p : α → Bool} {l : List α} {a : α} (h : l.getLast? = some a) (ha : p a = false) :
    (l.dropWhile p).getLast? = some a := by
  obtain ⟨front, rfl⟩ := List.getLast?_eq_some_iff.1 h
  rw [List.dropWhile_append]
  split <;> simp [ha]

/-- R16: a record of the slot just ended is not removed by its age. -/
theorem strobeOutput_getLast? {s : State} (hm : s.mon.mode = .listening) {x : Slot} {r : SlotRecord} (hr : r.psn = x)
    (h : s.index.getLast? = some r) (c : Settings) : (s.strobeOutput c (x + 1)).index.getLast? = some r := by
  rw [strobeOutput_listening hm]
  refine getLast?_dropWhile_of_not (((substituteStep_keeps s c (x + 1)).index_eq).symm ▸ h) ?_
  have age : dist (x + 1) r.psn = 1 := by
    rw [hr, dist, add_sub_cancel_left]
    rfl
  rw [age]
  rfl

/-! ## The slot close (R14, R43) -/

theorem closeAndTag_ingress (s : State) (c : Settings) (x : Slot) :
    (s.closeAndTag c x).ingress = (s.closeSlot c x).ingress := by
  unfold State.closeAndTag
  split
  · split
    · exact (maskTagRequest_keeps _ c _).ingress_eq
    · rfl
  · rfl

/-- The record of the open period `x` becomes the tail of the index, and the quiet run is the record's. -/
theorem closeAndTag_leaves {s : State} {x : Slot} (h : s.ingress.period = some x) (c : Settings) (y : Slot) :
    (s.closeAndTag c y).index.getLast? = some (s.ingress.record c x).1 ∧
      (s.closeAndTag c y).ingress.quietRun = (s.ingress.record c x).2 := by
  rw [closeAndTag_index, closeAndTag_ingress, State.closeSlot, h]
  dsimp only
  rw [append_index, List.getLast?_append, List.getLast?_singleton, Option.some_or,
    (SameSlot.of_storeSide (append_storeSide _ _ _)).2]
  exact ⟨rfl, rfl⟩

theorem trafficStrobe_mon (s : State) (x : Slot) (own : Bool) : (s.trafficStrobe x own).mon = s.mon := by
  cases own with
  | true => rfl
  | false => exact JudgedProposals.trafficStrobe_mon s x

/-! ## The parts of the strobe (R2) -/

/-- The strobe of `x + 1`, its parts `todo` not yet taken, where the period `x` began as `g` and the timer is to end at
`n + 1`. -/
structure Midway (c : Settings) (x : Slot) (g : Ingress) (n : Nat) (todo : List StrobePart) (s : State) : Prop where
  listens : Listens (n + 1 + todo.count .monitor) s.mon
  once : todo.count .slotClose ≤ 1
  ingress : .slotClose ∈ todo → s.ingress = g
  closed : .slotClose ∉ todo → s.index.getLast? = some (g.record c x).1 ∧ s.ingress.quietRun = (g.record c x).2

section Parts

variable {c : Settings} {x : Slot} {g : Ingress} {n : Nat} {todo : List StrobePart} {s : State}

/-- A part that keeps the station LISTENING and leaves the ingress and the tail of the index. -/
theorem Midway.part {p : StrobePart} (h : Midway c x g n (p :: todo) s) (hmonitor : p ≠ .monitor) (hclose : p ≠ .slotClose)
    {t : State} (hl : KeepsListening s t) (hg : t.ingress = s.ingress)
    (ht : ∀ r, r.psn = x → s.index.getLast? = some r → t.index.getLast? = some r) : Midway c x g n todo t where
  listens := by
    have count := List.count_cons_of_ne (l := todo) hmonitor
    exact count ▸ hl _ h.listens
  once := (List.count_cons_of_ne (l := todo) hclose) ▸ h.once
  ingress hin := hg.trans (h.ingress (List.mem_cons_of_mem p hin))
  closed hout := by
    obtain ⟨last, run⟩ := h.closed (List.not_mem_cons_of_ne_of_not_mem (Ne.symm hclose) hout)
    exact ⟨ht _ (Ingress.record_psn g c x) last, (congrArg Ingress.quietRun hg).trans run⟩

theorem Midway.essence {p : StrobePart} (h : Midway c x g n (p :: todo) s) (hmonitor : p ≠ .monitor)
    (hclose : p ≠ .slotClose) {t : State} (hl : KeepsListening s t) (hk : KeepsEssence s t) : Midway c x g n todo t :=
  h.part hmonitor hclose hl hk.ingress_eq fun _ _ hr => hk.index_eq ▸ hr

theorem Midway.monitor (h : Midway c x g n (.monitor :: todo) s) (own : Bool) :
    Midway c x g n todo (s.monitorStrobe c (x + 1) own) := by
  have kept := monitorStrobe_keeps s c (x + 1) own
  have counted := h.listens
  have once := h.once
  rw [List.count_cons_self] at counted
  rw [List.count_cons_of_ne (by decide)] at once
  refine ⟨?_, once, fun hin => kept.ingress_eq.trans (h.ingress (List.mem_cons_of_mem _ hin)), fun hout => ?_⟩
  · have ticked := monitorStrobe_listening (n := n + todo.count .monitor)
      (by rw [show n + todo.count .monitor + 2 = n + 1 + (todo.count .monitor + 1) by omega]; exact counted) c (x + 1) own
    rwa [show n + todo.count .monitor + 1 = n + 1 + todo.count .monitor by omega] at ticked
  · rw [kept.index_eq, kept.ingress_eq]
    exact h.closed (List.not_mem_cons_of_ne_of_not_mem (by decide) hout)

/-- R14, R43: the slot close appends the record of the period. -/
theorem Midway.slotClose (h : Midway c x g n (.slotClose :: todo) s) (hg : g.period = some x) :
    Midway c x g n todo (s.closeAndTag c (x + 1)) := by
  have once := h.once
  have counted := h.listens
  rw [List.count_cons_self] at once
  rw [List.count_cons_of_ne (by decide)] at counted
  have absent : .slotClose ∉ todo := List.count_eq_zero.1 (by omega)
  obtain rfl := h.ingress List.mem_cons_self
  refine ⟨by rw [JudgedProposals.closeAndTag_mon]; exact counted, by omega, fun hin => absurd hin absent, fun _ =>
    closeAndTag_leaves hg c (x + 1)⟩

theorem Midway.takePart {p : StrobePart} (h : Midway c x g n (p :: todo) s) (hg : g.period = some x) (own : Bool) :
    Midway c x g n todo (s.takePart c (x + 1) own p) := by
  cases p with
  | traffic =>
    exact h.essence (by decide) (by decide) (.of_mon (trafficStrobe_mon s _ own))
      (trafficStrobe_cueOnly s _ own).keeps
  | slotClose => exact h.slotClose hg
  | outputStep =>
    have listening := h.listens.mode
    refine h.part (by decide) (by decide) (.of_mon ?_) (sameSlot_strobeOutput s c _).2 fun r hr hlast =>
      strobeOutput_getLast? listening hr hlast c
    show (s.strobeOutput c (x + 1)).mon = s.mon
    rw [strobeOutput_listening listening, StoreSide.mon_eq (removeAged_storeSide _ _ _), substituteStep_mon]
  | intake => exact h.essence (by decide) (by decide) (intake_listening s c _ own) (intake_keeps s c _ own)
  | proposal =>
    exact h.essence (by decide) (by decide) (.of_mon (ProposalForming.proposalEvent_mon s c _)) (proposalEvent_cueOnly s c _).keeps
  | monitor => exact h.monitor own

theorem Midway.takeParts (h : Midway c x g n todo s) (hg : g.period = some x) (own : Bool) (done : List StrobePart) :
    Midway c x g n [] (s.takeParts c (x + 1) own done todo) := by
  induction todo generalizing s done with
  | nil => exact h
  | cons p todo ih =>
    refine ih ?_ (p :: done)
    have taken := h.takePart hg own
    split
    · have kept := completeEntryAt_keeps (s.takePart c (x + 1) own p) c (x + 1)
      refine ⟨by rw [JudgedProposals.completeEntryAt_mon]; exact taken.listens, taken.once, fun hin => ?_, fun hout => ?_⟩
      · exact kept.ingress_eq.trans (taken.ingress hin)
      · rw [kept.index_eq, kept.ingress_eq]
        exact taken.closed hout
    · exact taken

end Parts

/-- Settles O8: the parts of the strobe one after another. -/
theorem ordinaryStrobeAppends : Obligations.OrdinaryStrobeAppends := by
  intro c x n o s hc hflag hx hperiod hmode hlisten hretry hcollecting
  have listens : Listens (n + 2) s.mon := ⟨hmode, hlisten, hretry, hcollecting⟩
  have settled := settle_keeps s c
  have start : Midway c x s.ingress n (partSequence o) ((s.settle c).withRef (.strobe (x + 1))) := by
    refine ⟨?_, (count_partSequence (by decide) o).le, fun _ => settled.ingress_eq, fun hout => ?_⟩
    · rw [count_partSequence (by decide) o]
      exact settle_listening listens c
    · exact absurd (List.count_pos_iff.1 (by rw [count_partSequence (by decide) o]; omega)) hout
  have final := start.takeParts hperiod o.ownSteps []
  obtain ⟨last, run⟩ := final.closed List.not_mem_nil
  exact ⟨_, exec_ordinaryStrobe hc hflag hx o, last, run, final.listens.mode, final.listens.listen⟩

end Sys2Proof.Proofs.ListeningStrobe
end

