-- ==== Sys2Proof/Proofs/ScheduledStrobe.lean ====
section
/-! SUPPORT. The ordinary strobe of a station with a schedule (R130, R138), whatever the order of its parts: the point moves
by one output step of the plan as the strobe finds it, and the history records the play. -/

namespace Sys2Proof.Proofs.ScheduledStrobe

open Sys2Proof Sys2Proof.Machine Sys2Proof.Safety Sys2Proof.Proofs.OrdinaryStrobe Sys2Proof.Proofs.StrobeVerdict
  Sys2Proof.Proofs.StrobeBursts Sys2Proof.Proofs.EndedBursts Sys2Proof.Proofs.Commands

/-! ## The intake leaves the egress alone but for the point (R100, R101) -/

theorem askAgain_planned (s : State) : KeepsPlanned s s.askAgain := by
  unfold State.askAgain
  split
  · exact .of_cueOnly (withRetry_cueOnly _ _)
  · exact (addJoin_planned s).trans (.of_cueOnly (withRetry_cueOnly _ _))

theorem failCollection_planned (s : State) : KeepsPlanned s s.failCollection :=
  (KeepsPlanned.of_cueOnly (withMon_cueOnly s _)).trans (askAgain_planned _)

theorem handleMark_egress (s : State) (b : Bounds) (f : RxFrame) : (s.handleMark b f).1.egress = s.egress := by
  have reported (u : State) (cut : Option Cut) : (u.reportCut cut).egress = u.egress := by
    unfold State.reportCut
    split
    · split <;> rfl
    · rfl
  exact (reported _ _).trans (pulseIfRefused_cueOnly _ f.own _).egress_eq

theorem takeImage_egress (s : State) (f : RxFrame) : (s.takeImage f).egress = s.egress := by
  have renewed := (renewForeign_cueOnly s f.sender).egress_eq
  unfold State.takeImage
  split
  · rfl
  · dsimp only
    split
    · exact renewed
    · split
      · exact renewed
      · split
        · exact (failCollection_planned _).egress.trans renewed
        · exact renewed

/-- R137: no frame but a RECAP-END reaches the egress. -/
theorem handle_egress (k : Intake) (c : Settings) (x : Slot) {f : RxFrame} (hf : f.kind ≠ .recapEnd) :
    (k.handle c x f).state.egress = k.state.egress := by
  unfold Intake.handle
  split
  case h_1 =>
    unfold Intake.pace
    split
    · split
      · exact (pulseIfRefused_cueOnly _ f.own _).egress_eq
      · rfl
    · rfl
  case h_2 => exact (takeHead_cueOnly k.state _ f).egress_eq
  case h_3 | h_4 | h_5 => exact takeImage_egress k.state f
  case h_6 hend => exact absurd hend hf
  case h_7 => exact (takeJoin_cueOnly k.state x f).egress_eq
  case h_8 | h_9 | h_10 => rfl
  case h_11 =>
    unfold Intake.mark
    split
    · split
      · exact handleMark_egress k.state _ f
      · rfl
    · rfl

theorem record_egress (k : Intake) (x : Slot) (place : Nat) (f : RxFrame) :
    (k.record x place f).state.egress = k.state.egress := by
  have recorded (u : State) : (u.recordFrame x place f).egress = u.egress := by
    unfold State.recordFrame
    split
    · rfl
    · split_ifs
      · exact (failCollection_planned u).egress
      · rfl
      · exact (failCollection_planned u).egress
      · rfl
  unfold Intake.record
  split
  · exact recorded k.state
  · rfl

theorem close_egress (k : Intake) (c : Settings) : (k.close c).egress = k.state.egress := by
  unfold Intake.close
  split
  · exact ((withReg_cueOnly _ _).trans (checkProposal_cueOnly _ c _ k.cuts)).egress_eq
  · rfl

/-- R100: with a schedule the intake of `x` moves the point to the play of `x`, and no further. -/
theorem intake_egress {s : State} {p : SchedPoint} (hm : s.mon.mode.hasSchedule = true) (hp : s.egress.point = some p)
    (h : ∀ f ∈ s.traffic.received.take 4, f.kind ≠ .recapEnd) (c : Settings) (x : Slot) (own : Bool) :
    (s.intake c x own).egress = s.egress.setPoint (s.plan.stepTo p x) := by
  have opened (u : State) (q : SchedPoint) (hu : u.mon.mode.hasSchedule = true) (hq : u.egress.point = some q) :
      (u.openIntake x own).state = u.beforeIntake (u.plan.stepTo q x) x (!own || !u.traffic.received.isEmpty) := by
    simp only [State.openIntake, hq, hu, if_true]
  have moved : s.openIntake x own = (s.withEgress (s.egress.setPoint (s.plan.stepTo p x))).openIntake x own := by
    simp only [State.openIntake, hp, hm, if_true, Egress.setPoint, State.withEgress_egress, State.withEgress_mon,
      State.withEgress_plan, Plan.stepTo_stepTo]
    rfl
  have same : s.intake c x own = (s.withEgress (s.egress.setPoint (s.plan.stepTo p x))).intake c x own := by
    rw [State.intake, moved]
    rfl
  rw [same]
  refine intake_preserves (fun s t => t.egress = s.egress) (fun h k => k.trans h) ?_
    (fun u => (dropReceived_cueOnly u).egress_eq) (fun f hf k => handle_egress k c x (h f hf))
    (fun k n f => record_egress k x n f) (fun k => close_egress k c)
  show ((s.withEgress (s.egress.setPoint (s.plan.stepTo p x))).openIntake x own).state.egress = _
  rw [opened (s.withEgress (s.egress.setPoint (s.plan.stepTo p x))) (s.plan.stepTo p x) hm rfl]
  show Egress.setPoint _ (s.plan.stepTo _ _) = _
  rw [Plan.stepTo_stepTo]
  rfl

/-- R57, R63, R126: an intake with nothing to take carries out the retirement and the expiry due. -/
theorem intake_nil {s : State} {p : SchedPoint} (hm : s.mon.mode.hasSchedule = true) (hp : s.egress.point = some p)
    (hplan : s.plan = .empty) (hreceived : s.traffic.received = []) (c : Settings) (x : Slot) (own : Bool) :
    (s.intake c x own).plan = .empty := by
  have batch : s.intake c x own = (s.openIntake x own).close c := by
    rw [State.intake, hreceived]
    rfl
  rw [batch, (keeps_close _ c).plan]
  simp only [State.openIntake, hp, hm, if_true]
  show s.plan.retireDue (s.plan.stepTo p x).psn x _ = _
  rw [hplan, Plan.retireDue]
  split <;> rfl

/-! ## The output step (R130, R132, R138) -/

theorem playStep_history (s : State) (c : Settings) (q : SchedPoint) :
    (s.playStep c q).egress.history = openEntry s.egress.history q := by
  have stored {u v : State} (h : StoreSide u v) : v.egress.history = u.egress.history := by
    unfold StoreSide at h
    rw [h]
  have held := congrArg Egress.history (scheduleHeld_cueOnly ((((s.endBursts fun _ => true).output c q).withPlan
    (((s.endBursts fun _ => true).output c q).plan.retire q.psn)).removePassed c q) q.psn).egress_eq
  refine held.trans ((stored (removePassed_storeSide _ c q)).trans ?_)
  exact congrArg (openEntry · q) (stored (endBursts_storeSide s fun _ => true))

theorem openEntry_getLast? (hist : List HistEntry) (q : SchedPoint) :
    (openEntry hist q).getLast? = some ⟨q.hsn, q.psn, q.rep, none⟩ := by
  have kept : (hist ++ [(⟨q.hsn, q.psn, q.rep, none⟩ : HistEntry)]).length - Config.historyCapacity ≤ hist.length := by
    rw [List.length_append, Config.historyCapacity]
    simp
  rw [openEntry, List.drop_append_of_le_length kept, List.getLast?_append]
  rfl

/-! ## The completion of the entry (R138) -/

theorem completeEntryAt_egress (s : State) (c : Settings) (x : Slot) :
    (s.completeEntryAt c x).egress.point = s.egress.point ∧
      ((s.completeEntryAt c x).egress.history = s.egress.history ∨
        (s.completeEntryAt c x).egress.history = fillDigest s.egress.history x s.plan.digest) := by
  unfold State.completeEntryAt
  split
  · rw [(buildBeacon_cueOnly _ c x).egress_eq]
    exact ⟨rfl, .inr rfl⟩
  · exact ⟨rfl, .inl rfl⟩

/-- A completion fills in a digest at most. -/
theorem completeEntryAt_getLast? {s : State} {e : HistEntry} (h : s.egress.history.getLast? = some e) (c : Settings)
    (x : Slot) : ∃ d, (s.completeEntryAt c x).egress.history.getLast? = some { e with digest := d } := by
  obtain ⟨-, same | filled⟩ := completeEntryAt_egress s c x
  · exact ⟨e.digest, by rw [same, h]⟩
  · rw [filled, fillDigest, List.getLast?_map, h, Option.map_some]
    split
    · exact ⟨_, rfl⟩
    · exact ⟨e.digest, rfl⟩

/-- With no span context, the entry of `x` has the plan's digest once it is completed. -/
theorem completeEntryAt_digest {s : State} {x p : Slot} {r : Nat} {d : Option Digest} (hspans : s.plan.spans = [])
    (h : s.egress.history.getLast? = some ⟨x, p, r, d⟩) (hd : d = none ∨ d = some s.plan.digest) (c : Settings) :
    (s.completeEntryAt c x).egress.history.getLast? = some ⟨x, p, r, some s.plan.digest⟩ := by
  obtain ⟨init, hist⟩ := List.getLast?_eq_some_iff.1 h
  obtain rfl | rfl := hd
  · have pending : (pendingAt s.egress.history x && !s.plan.spans.any (·.due x)) = true := by
      rw [pendingAt, hist, hspans]
      simp
    rw [State.completeEntryAt, if_pos pending, (buildBeacon_cueOnly _ c x).egress_eq]
    show (fillDigest s.egress.history x s.plan.digest).getLast? = _
    rw [fillDigest, List.getLast?_map, h]
    simp
  · obtain ⟨-, same | filled⟩ := completeEntryAt_egress s c x
    · rw [same, h]
    · rw [filled, fillDigest, List.getLast?_map, h]
      simp

/-! ## The parts that leave the schedule alone -/

/-- An operation that leaves the plan, the point, the history and the receive queue; the station keeps its schedule, and
stays ALIGNED. -/
structure KeepsCourse (s t : State) : Prop where
  plan : t.plan = s.plan
  point : t.egress.point = s.egress.point
  history : t.egress.history = s.egress.history
  received : t.traffic.received = s.traffic.received
  schedule : t.mon.mode.hasSchedule = true
  aligned : s.mon.mode = .aligned → t.mon.mode = .aligned

theorem KeepsCourse.trans {s t u : State} (h : KeepsCourse s t) (k : KeepsCourse t u) : KeepsCourse s u where
  plan := k.plan.trans h.plan
  point := k.point.trans h.point
  history := k.history.trans h.history
  received := k.received.trans h.received
  schedule := k.schedule
  aligned := k.aligned ∘ h.aligned

theorem KeepsCourse.of_mode {s t : State} (hm : s.mon.mode.hasSchedule = true) (hplan : t.plan = s.plan)
    (hpoint : t.egress.point = s.egress.point) (hhistory : t.egress.history = s.egress.history) (hu : Upkeep s t)
    (hmode : KeepsMode s t) : KeepsCourse s t :=
  ⟨hplan, hpoint, hhistory, hu.received, (congrArg Mode.hasSchedule hmode).trans hm, fun h => Eq.trans hmode h⟩

theorem maskTagRequest_history (s : State) (c : Settings) (p : Slot) :
    (s.maskTagRequest c p).egress.history = s.egress.history := by
  unfold State.maskTagRequest
  split
  · exact congrArg Egress.history (sendMark_cueOnly s.countGiven _).egress_eq
  · rfl

theorem closeSlot_history (s : State) (c : Settings) (x : Slot) :
    (s.closeSlot c x).egress.history = s.egress.history := by
  have appended (u : State) (r : SlotRecord) : (u.append c.planCode r).egress.history = u.egress.history := by
    have h := append_storeSide u c.planCode r
    unfold StoreSide at h
    rw [h]
  unfold State.closeSlot
  split
  · rfl
  · exact appended _ _

theorem closeAndTag_history (s : State) (c : Settings) (x : Slot) :
    (s.closeAndTag c x).egress.history = s.egress.history := by
  have closed := closeSlot_history s c x
  unfold State.closeAndTag
  split
  · split
    · exact (maskTagRequest_history _ c _).trans closed
    · exact closed
  · exact closed

/-- A station with a schedule has no listen timer. -/
theorem expireMonitor_egress {s : State} (hm : s.mon.mode.hasSchedule = true) (c : Settings) (x : Slot) :
    (s.expireMonitor c x).egress = s.egress := by
  have collect : s.expireCollect.egress = s.egress := by
    unfold State.expireCollect
    split
    · exact (failCollection_planned s).egress
    · rfl
  have retry (u : State) : u.expireRetry.egress = u.egress := by
    unfold State.expireRetry
    split
    · exact (askAgain_planned u).egress
    · rfl
  have notDue : ¬ s.expireCollect.expireForeign.expireRetry.mon.listenDue = true := by
    obtain ⟨mode, -⟩ := JudgedProposals.expireTimers_mode_era s
    rw [Monitor.listenDue, mode, Bool.and_eq_true, beq_iff_eq]
    rintro ⟨listening, -⟩
    rw [listening] at hm
    exact Bool.false_ne_true hm
  rw [State.expireMonitor, State.expireListen, if_neg notDue, retry, (expireForeign_cueOnly _).egress_eq, collect]

theorem hasSchedule_origin_mode (o : Origin) : o.mode.hasSchedule = true := by cases o <;> rfl

/-- A station with a schedule does not leave JOINING. -/
theorem checkPeers_course {s : State} (hm : s.mon.mode.hasSchedule = true) (x : Slot) : KeepsCourse s (s.checkPeers x) := by
  have refl : KeepsCourse s s := ⟨rfl, rfl, rfl, rfl, hm, id⟩
  unfold State.checkPeers
  split
  · exact refl
  · split
    next joining => exact absurd joining (not_joining_of_hasSchedule hm)
    next origin hresync =>
      have cue : CueOnly s (s.leaveResync origin) :=
        ((withMode_cueOnly s origin.mode).trans (cancelJoin_cueOnly _)).trans (withRetry_cueOnly _ none)
      have mode : (s.leaveResync origin).mon.mode = origin.mode := congrArg Monitor.mode (cancelWhere_mon _ _)
      refine ⟨cue.plan_eq, congrArg Egress.point cue.egress_eq, congrArg Egress.history cue.egress_eq,
        (upkeep_cancelJoin (s.withMode origin.mode)).received, mode ▸ hasSchedule_origin_mode origin, fun aligned => ?_⟩
      exact absurd (hresync.symm.trans aligned) nofun
    next => exact refl

theorem monitorStrobe_course {s : State} (hm : s.mon.mode.hasSchedule = true) (c : Settings) (x : Slot) (own : Bool) :
    KeepsCourse s (s.monitorStrobe c x own) := by
  have ticked : KeepsCourse s (s.withMon s.mon.tick) := ⟨rfl, rfl, rfl, rfl, hm, id⟩
  have expired : KeepsCourse s (if own then s.withMon s.mon.tick else (s.withMon s.mon.tick).expireMonitor c x) := by
    split
    · exact ticked
    · have kept := keeps_expireMonitor (s := s.withMon s.mon.tick) hm c x
      have egress := expireMonitor_egress (s := s.withMon s.mon.tick) hm c x
      exact ticked.trans (.of_mode hm kept.plan kept.point (congrArg Egress.history egress)
        (upkeep_expireMonitor _ c x) kept.mode)
  exact expired.trans (checkPeers_course expired.schedule x)

theorem takePart_course {s : State} (hm : s.mon.mode.hasSchedule = true) (c : Settings) (x : Slot) (own : Bool)
    {p : StrobePart} (houtput : p ≠ .outputStep) (hintake : p ≠ .intake) : KeepsCourse s (s.takePart c x own p) := by
  cases p with
  | traffic =>
    have cue := trafficStrobe_cueOnly s x own
    exact .of_mode hm cue.plan_eq (congrArg Egress.point cue.egress_eq) (congrArg Egress.history cue.egress_eq)
      (upkeep_trafficStrobe s x own) (.of_mon (ListeningStrobe.trafficStrobe_mon s x own))
  | slotClose =>
    have kept := keeps_closeAndTag s c x
    exact .of_mode hm kept.plan kept.point (closeAndTag_history s c x) (upkeep_closeAndTag s c x) kept.mode
  | outputStep => exact absurd rfl houtput
  | intake => exact absurd rfl hintake
  | proposal =>
    have cue := proposalEvent_cueOnly s c x
    exact .of_mode hm cue.plan_eq (congrArg Egress.point cue.egress_eq) (congrArg Egress.history cue.egress_eq)
      (upkeep_proposalEvent s c x) (.of_mon (ProposalForming.proposalEvent_mon s c x))
  | monitor => exact monitorStrobe_course hm c x own

/-! ## The parts of the strobe (R2) -/

/-- The strobe of `q.hsn`, its parts `done` taken, where `q` is the play. `calm`: an ALIGNED station with an empty plan and
nothing to take in. -/
structure Course (calm : Prop) (q : SchedPoint) (done : List StrobePart) (s : State) : Prop where
  schedule : s.mon.mode.hasSchedule = true
  received : .intake ∉ done → ∀ f ∈ s.traffic.received.take 4, f.kind ≠ .recapEnd
  next : ∃ p, s.egress.point = some p ∧ s.plan.stepTo p q.hsn = q
  played : .outputStep ∈ done → s.egress.point = some q ∧
    ∃ d, s.egress.history.getLast? = some ⟨q.hsn, q.psn, q.rep, d⟩ ∧
      (calm → d = if .intake ∈ done then some Plan.empty.digest else none)
  still : calm → s.mon.mode = .aligned ∧ s.plan = .empty ∧ s.traffic.received = []

section Course

variable {calm : Prop} {q : SchedPoint} {done : List StrobePart} {s : State}

theorem stepTo_self (pl : Plan) (q : SchedPoint) : pl.stepTo q q.hsn = q := if_pos rfl

/-- A part that is neither the output step nor the intake. -/
theorem Course.aside (h : Course calm q done s) {p : StrobePart} (houtput : p ≠ .outputStep) (hintake : p ≠ .intake)
    {t : State} (k : KeepsCourse s t) : Course calm q (p :: done) t where
  schedule := k.schedule
  received hout := k.received ▸ h.received (mt (List.mem_cons_of_mem p) hout)
  next := by
    rw [k.point, k.plan]
    exact h.next
  played hin := by
    obtain ⟨point, d, last, digest⟩ := h.played (List.mem_of_ne_of_mem (Ne.symm houtput) hin)
    refine ⟨k.point.trans point, d, k.history ▸ last, fun hcalm => (digest hcalm).trans ?_⟩
    simp only [List.mem_cons, Ne.symm hintake, false_or]
  still hcalm := by
    obtain ⟨aligned, plan, received⟩ := h.still hcalm
    exact ⟨k.aligned aligned, k.plan.trans plan, k.received.trans received⟩

/-- The completion of the history entry after a part. -/
theorem Course.completed (h : Course False q done s) (c : Settings)
    (hstill : calm → s.mon.mode = .aligned ∧ s.plan = .empty ∧ s.traffic.received = [])
    (hdigest : calm → ∃ d, s.egress.history.getLast? = some ⟨q.hsn, q.psn, q.rep, d⟩ ∧
      (d = none ∨ d = some Plan.empty.digest))
    (hin : .intake ∈ done) : Course calm q done (s.completeEntryAt c q.hsn) := by
  have kept := keeps_completeEntryAt s c q.hsn
  obtain ⟨point, -⟩ := completeEntryAt_egress s c q.hsn
  have received := (upkeep_completeEntryAt s c q.hsn).received
  refine ⟨(congrArg Mode.hasSchedule kept.mode).trans h.schedule, fun hout => absurd hin hout, ?_, fun hplayed => ?_,
    fun hcalm => ?_⟩
  · rw [point, kept.plan]
    exact h.next
  · obtain ⟨atPoint, d, last, -⟩ := h.played hplayed
    refine ⟨point.trans atPoint, ?_⟩
    by_cases hcalm : calm
    · obtain ⟨-, plan, -⟩ := hstill hcalm
      obtain ⟨d, last, hd⟩ := hdigest hcalm
      have filled := completeEntryAt_digest (s := s) (by rw [plan]; rfl) last (by rw [plan]; exact hd) c
      exact ⟨_, filled, fun _ => by rw [plan, if_pos hin]⟩
    · obtain ⟨d', last'⟩ := completeEntryAt_getLast? last c q.hsn
      exact ⟨d', last', fun h => absurd h hcalm⟩
  · obtain ⟨aligned, plan, none⟩ := hstill hcalm
    exact ⟨Eq.trans kept.mode aligned, kept.plan.trans plan, received.trans none⟩

theorem takePart_outputStep (h : Course calm q done s) (c : Settings) (own : Bool) :
    s.takePart c q.hsn own .outputStep = s.playStep c q := by
  obtain ⟨p, point, next⟩ := h.next
  show s.strobeOutput c q.hsn = _
  rw [State.strobeOutput, if_pos h.schedule, State.outputStep]
  simp only [point, next]

/-- R130, R138: the output step plays `q` and opens its history entry. -/
theorem Course.outputStep (h : Course calm q done s) (c : Settings) (own : Bool) :
    Course calm q (.outputStep :: done)
      (if done.contains .intake then (s.takePart c q.hsn own .outputStep).completeEntryAt c q.hsn
        else s.takePart c q.hsn own .outputStep) := by
  obtain ⟨plan, point⟩ := s.playStep_schedule c q
  have received := (upkeep_playStep s c q).received
  have opened : (s.playStep c q).egress.history.getLast? = some ⟨q.hsn, q.psn, q.rep, none⟩ := by
    rw [playStep_history, openEntry_getLast?]
  have still (hcalm : calm) : (s.playStep c q).mon.mode = .aligned ∧ (s.playStep c q).plan = .empty ∧
      (s.playStep c q).traffic.received = [] := by
    obtain ⟨aligned, empty, none⟩ := h.still hcalm
    exact ⟨(congrArg Monitor.mode (CalmStrobe.playStep_stepped aligned c q).mon).trans aligned,
      by rw [plan, empty]; rfl, received.trans none⟩
  have played (free : Prop) (hfree : free → .intake ∉ done ∧ calm) :
      Course free q (.outputStep :: done) (s.playStep c q) := by
    refine ⟨(s.playStep_hasSchedule c q).trans h.schedule, fun hout => ?_, ⟨q, point, stepTo_self _ q⟩,
      fun _ => ⟨point, none, opened, fun hf => ?_⟩, fun hf => still (hfree hf).2⟩
    · rw [received]
      exact h.received (mt (List.mem_cons_of_mem _) hout)
    · rw [if_neg (List.not_mem_cons_of_ne_of_not_mem (by decide) (hfree hf).1)]
  rw [takePart_outputStep h]
  by_cases hin : .intake ∈ done
  · rw [if_pos (List.contains_iff_mem.2 hin)]
    exact (played False False.elim).completed c still (fun _ => ⟨none, opened, .inl rfl⟩) (List.mem_cons_of_mem _ hin)
  · rw [if_neg (mt List.contains_iff_mem.1 hin)]
    exact played calm fun hcalm => ⟨hin, hcalm⟩

/-- R57, R100: the intake moves the point to `q` where the output step has not. -/
theorem Course.intake (h : Course calm q done s) (hout : .intake ∉ done) (c : Settings) (own : Bool) :
    Course calm q (.intake :: done)
      (if done.contains .outputStep then (s.takePart c q.hsn own .intake).completeEntryAt c q.hsn
        else s.takePart c q.hsn own .intake) := by
  obtain ⟨p, hp, next⟩ := h.next
  have egress : (s.intake c q.hsn own).egress = s.egress.setPoint q :=
    (intake_egress h.schedule hp (h.received hout) c q.hsn own).trans (by rw [next])
  have point : (s.intake c q.hsn own).egress.point = some q := congrArg Egress.point egress
  have history : (s.intake c q.hsn own).egress.history = s.egress.history := by
    rw [egress]
    rfl
  have mode := intake_mode (h.received hout) c q.hsn own
  have still (hcalm : calm) : (s.intake c q.hsn own).mon.mode = .aligned ∧ (s.intake c q.hsn own).plan = .empty ∧
      (s.intake c q.hsn own).traffic.received = [] := by
    obtain ⟨aligned, empty, none⟩ := h.still hcalm
    exact ⟨Eq.trans mode aligned, intake_nil h.schedule hp empty none c q.hsn own,
      by rw [intake_received, none, List.drop_nil]⟩
  have schedule := (congrArg Mode.hasSchedule mode).trans h.schedule
  show Course calm q _ (if _ then (s.intake c q.hsn own).completeEntryAt c q.hsn else s.intake c q.hsn own)
  by_cases hin : .outputStep ∈ done
  · obtain ⟨-, d, last, digest⟩ := h.played hin
    rw [← history] at last
    have taken : Course False q (.intake :: done) (s.intake c q.hsn own) :=
      ⟨schedule, fun h => absurd List.mem_cons_self h, ⟨q, point, stepTo_self _ q⟩,
        fun _ => ⟨point, d, last, False.elim⟩, False.elim⟩
    rw [if_pos (List.contains_iff_mem.2 hin)]
    exact taken.completed c still (fun hcalm => ⟨d, last, .inl ((digest hcalm).trans (if_neg hout))⟩) List.mem_cons_self
  · rw [if_neg (mt List.contains_iff_mem.1 hin)]
    exact ⟨schedule, fun h => absurd List.mem_cons_self h, ⟨q, point, stepTo_self _ q⟩,
      fun h => absurd (List.mem_of_ne_of_mem (by decide) h) hin, still⟩

/-- R2: the parts, whatever their order, with one intake among them. -/
theorem Course.takeParts {todo : List StrobePart} (h : Course calm q done s)
    (hone : done.count .intake + todo.count .intake ≤ 1) (c : Settings) (own : Bool) :
    Course calm q (todo.reverse ++ done) (s.takeParts c q.hsn own done todo) := by
  induction todo generalizing s done with
  | nil => exact h
  | cons p todo ih =>
    have counted : (p :: done).count .intake + todo.count .intake ≤ 1 := by
      simp only [List.count_cons] at hone ⊢
      omega
    rw [List.reverse_cons, List.append_assoc, List.singleton_append]
    refine ih ?_ counted
    by_cases houtput : p = .outputStep
    · subst houtput
      exact h.outputStep c own
    by_cases hintake : p = .intake
    · subst hintake
      have completes : completesEntry .intake done = done.contains .outputStep := by simp [completesEntry]
      rw [completes]
      refine Course.intake h (List.count_eq_zero.1 ?_) c own
      simp only [List.count_cons_self] at hone
      omega
    · have aside : completesEntry p done = false := by
        simp [completesEntry, houtput, hintake]
      rw [if_neg (Bool.eq_false_iff.1 aside)]
      exact h.aside houtput hintake (takePart_course h.schedule c q.hsn own houtput hintake)

end Course

/-! ## The strobe (R130, R138) -/

/-- The parts of a strobe leave the play `q` at the point and in the history. -/
theorem Course.leaves {calm : Prop} {q : SchedPoint} {s : State} (h : Course calm q [] s) (c : Settings) (o : StrobeOrder) :
    Course calm q ((partSequence o).reverse ++ []) (s.takeParts c q.hsn o.ownSteps [] (partSequence o)) ∧
      (s.takeParts c q.hsn o.ownSteps [] (partSequence o)).egress.point = some q ∧
      ∃ d, (s.takeParts c q.hsn o.ownSteps [] (partSequence o)).egress.history.getLast? = some ⟨q.hsn, q.psn, q.rep, d⟩ ∧
        (calm → d = some Plan.empty.digest) := by
  have taken (p : StrobePart) (hp : p ≠ .proposal) : p ∈ (partSequence o).reverse ++ [] := by
    rw [List.append_nil, List.mem_reverse]
    exact List.count_pos_iff.1 (by rw [count_partSequence hp o]; omega)
  have final := h.takeParts (todo := partSequence o) (by rw [count_partSequence (by decide) o]; rfl) c o.ownSteps
  obtain ⟨point, d, last, digest⟩ := final.played (taken _ (by decide))
  exact ⟨final, point, d, last, fun hcalm => (digest hcalm).trans (if_pos (taken _ (by decide)))⟩

theorem advance_empty (p : Slot) : Plan.empty.advance p = p + 1 := by
  have search (n : Nat) : Plan.empty.searchFrom (p + 1) n = p + 1 := by
    cases n with
    | zero => rfl
    | succ n => exact if_neg Bool.false_ne_true
  exact search _

/-- R130: with an empty plan and no repeat owed the step advances to the next PSN. -/
theorem outStep_empty (x p : Slot) (r : Nat) : Plan.empty.outStep ⟨x, p, r, 0⟩ = ⟨x + 1, p + 1, 0, 0⟩ := by
  rw [Plan.outStep, if_neg (Nat.lt_irrefl 0), advance_empty]
  rfl

/-- The strobe that follows starts with the point of the state before it. -/
theorem course_start {calm : Prop} {s : State} {x : Slot} {pt : SchedPoint} (hx : s.ref.hsn = some x) (hm : s.mon.mode.hasSchedule = true)
    (hpoint : s.egress.point = some pt) (h : ∀ f ∈ s.traffic.received.take 4, f.kind ≠ .recapEnd)
    (hcalm : calm → s.mon.mode = .aligned ∧ s.plan = .empty ∧ s.traffic.received = []) (c : Settings) :
    Course calm (s.plan.outStep pt) [] ((s.settle c).withRef (.strobe (pt.hsn + 1))) := by
  have settled := settle_keepsPlay hm c
  have received := (upkeep_settle s c).received
  refine ⟨(congrArg Mode.hasSchedule settled.mode).trans hm, fun _ => received.symm ▸ h, ⟨pt, ?_, ?_⟩, nofun, fun hc => ?_⟩
  · exact settled.point.trans hpoint
  · rw [outStep_hsn]
    exact (stepTo_next _ pt).trans (outStep_congr settled.cuts settled.paces pt)
  · obtain ⟨aligned, plan, none⟩ := hcalm hc
    have kept := keeps_settle hx hm (by rw [plan]; nofun) (c := c)
    exact ⟨Eq.trans kept.mode aligned, Eq.trans kept.plan plan, Eq.trans received none⟩

/-- Settles O9: the point and the history entry after the parts, and the calm station's. -/
theorem ordinaryStrobeAdvances : Obligations.OrdinaryStrobeAdvances := by
  refine ⟨fun c x pt o s hc hflag hx hm hpoint hpt hreceived => ?_, fun c x p r o s hc hflag hx hm hplan hreceived hpoint => ?_⟩
  · subst hpt
    obtain ⟨-, point, d, last, -⟩ :=
      (course_start (calm := False) hx hm hpoint hreceived False.elim c).leaves c o
    rw [outStep_hsn] at point last
    exact ⟨_, exec_ordinaryStrobe hc hflag hx o, point, d, last⟩
  · have play : s.plan.outStep ⟨x, p, r, 0⟩ = ⟨x + 1, p + 1, 0, 0⟩ := by
      rw [hplan]
      exact outStep_empty x p r
    have start := course_start (calm := True) hx (by rw [hm]; rfl) hpoint (by rw [hreceived]; nofun)
      (fun _ => ⟨hm, hplan, hreceived⟩) c
    rw [play] at start
    obtain ⟨final, point, d, last, digest⟩ := start.leaves c o
    obtain ⟨aligned, plan, -⟩ := final.still trivial
    obtain rfl := digest trivial
    exact ⟨_, exec_ordinaryStrobe hc hflag hx o, point, last, plan, aligned⟩

end Sys2Proof.Proofs.ScheduledStrobe
end

