-- ==== Sys2Proof/Proofs/RecapFrames.lean ====
section
/-! SUPPORT. The frames of a recap that a station takes at its intake (R167 to R174): another's JOIN, a RECAP-HEAD, and the
entries of the image. -/

namespace Sys2Proof.Proofs.RecapFrames

open Sys2Proof Sys2Proof.Machine Sys2Proof.Proofs.StrobeBursts

/-! ## A JOIN (R167, R168) -/

section Join

variable {s : State} {x stamp : Slot} {era : Era} {f : RxFrame}

theorem takeJoin_answered (hbody : parseJoin f.body = some stamp) (hera : s.mon.era = some era)
    (hserves : later stamp x = false ∧ f.own = false ∧ s.mon.mode = .aligned ∧ s.mon.ownRecap = .none ∧
      s.mon.foreign = none ∧ s.link.clash = false) : s.takeJoin x f = s.answerJoin x era := by
  obtain ⟨hstamp, hown, hmode, hrecap, hforeign, hclash⟩ := hserves
  have serves : ¬ (later stamp x ∨ f.own ∨ s.mon.mode ≠ .aligned ∨ s.mon.ownRecap ≠ .none ∨ s.mon.foreign.isSome ∨
      s.link.clash) := by
    simp [hstamp, hown, hmode, hrecap, hforeign, hclash]
  unfold State.takeJoin
  rw [hbody, hera]
  exact if_neg serves

theorem takeJoin_discarded (hbody : parseJoin f.body = some stamp) (hera : s.mon.era = some era)
    (hserves : ¬ (later stamp x = false ∧ f.own = false ∧ s.mon.mode = .aligned ∧ s.mon.ownRecap = .none ∧
      s.mon.foreign = none ∧ s.link.clash = false)) : s.takeJoin x f = s := by
  have discards : later stamp x ∨ f.own ∨ s.mon.mode ≠ .aligned ∨ s.mon.ownRecap ≠ .none ∨ s.mon.foreign.isSome ∨
      s.link.clash := by
    by_contra hno
    refine hserves ?_
    simpa only [not_or, Bool.not_eq_true, not_not, Option.isSome_eq_false_iff, Option.isNone_iff_eq_none, ne_eq] using hno
  unfold State.takeJoin
  rw [hbody, hera]
  exact if_pos discards

theorem answerJoin_queued (hconn : s.link.connected = true) (hclash : s.link.clash = false)
    (hroom : s.traffic.general.length < 16) (x : Slot) (era : Era) :
    (s.answerJoin x era).traffic.general =
        s.traffic.general ++
          [⟨s.traffic.nextOrder, some ⟨.recapHead, headBody x era.founding⟩, .monitor, 0, false, false, false, none, true⟩] ∧
      (s.answerJoin x era).mon = { s.mon with ownRecap := .headPending } := by
  unfold State.answerJoin
  rw [addEntry_queued hconn hclash hroom]
  exact ⟨rfl, rfl⟩

theorem answerJoin_full (hfull : 16 ≤ s.traffic.general.length) (x : Slot) (era : Era) : s.answerJoin x era = s := by
  have refused : s.addEntry .monitor ⟨.recapHead, headBody x era.founding⟩ none true = (s, none) := by
    cases hconn : s.link.connected with
    | true => exact addEntry_refused hconn (.inr hfull) _ _ _ _
    | false => exact if_pos (by rw [hconn]; rfl)
  rw [State.answerJoin, refused]

end Join

theorem joinAnswered : JoinAnswered := by
  intro s x stamp era f hbody hera
  refine ⟨fun hserves hconn hroom => ?_, fun hserves hfull => ?_, takeJoin_discarded hbody hera⟩
  · obtain ⟨-, -, -, -, -, hclash⟩ := id hserves
    rw [takeJoin_answered hbody hera hserves]
    exact answerJoin_queued hconn hclash hroom x era
  · rw [takeJoin_answered hbody hera hserves, answerJoin_full hfull]
    exact ⟨rfl, rfl⟩

/-! ## A RECAP-HEAD (R168 to R172) -/

/-- R171: a recap has a next frame, the RECAP-END at the least. -/
theorem frames_ne_nil (n : Snapshot) : ∃ f, n.frames[0]? = some f := by
  have pos : 0 < n.frames.length := by
    simp [Snapshot.frames]
  exact ⟨_, List.getElem?_eq_getElem pos⟩

theorem nextStream_mon_first {s : State} {n : Snapshot} (h : s.mon.ownRecap = .inProgress n 0) :
    s.nextStream.mon = { s.mon with ownRecap := .inProgress n 1 } := by
  obtain ⟨f, hf⟩ := frames_ne_nil n
  unfold State.nextStream
  rw [h]
  dsimp only
  rw [hf]
  rfl

theorem takeOwnHead_starts {s : State} {pt : SchedPoint} {era : Era} (hm : s.mon.mode = .aligned)
    (hrecap : s.mon.ownRecap = .headPending) (hforeign : s.mon.foreign = none) (hpoint : s.egress.point = some pt)
    (hera : s.mon.era = some era) (b : Bounds) :
    (s.takeOwnHead b).mon = { s.mon with ownRecap := .inProgress (s.snapshot b pt era) 1 } := by
  have started : s.takeOwnHead b =
      (s.withMon { s.mon with ownRecap := .inProgress (s.snapshot b pt era) 0 }).nextStream := by
    unfold State.takeOwnHead
    rw [hm, hrecap, hforeign, hpoint, hera]
  rw [started, nextStream_mon_first rfl]
  rfl

theorem closeStream_endOwnRecap_mon (s : State) : s.closeStream.endOwnRecap.mon = { s.mon with ownRecap := .none } := by
  unfold State.endOwnRecap
  rw [State.withMon_mon, closeStream_mon]

theorem takeOwnHead_ends {s : State}
    (h : s.mon.mode ≠ .aligned ∨ s.mon.ownRecap ≠ .headPending ∨ s.mon.foreign ≠ none) (b : Bounds) :
    (s.takeOwnHead b).mon = { s.mon with ownRecap := .none } := by
  unfold State.takeOwnHead
  split
  next hmode hrecap hforeign _ _ => exact absurd h (by simp [hmode, hrecap, hforeign])
  next => exact closeStream_endOwnRecap_mon s

/-- R168: the head of another station's recap of the own era is noted, and ends an own recap that is HEAD PENDING. -/
theorem noteForeign_noted {s : State} {era : Era} (hm : s.mon.mode.hasSchedule = true) (hera : s.mon.era = some era)
    (hforeign : s.mon.foreign = none) (hown : s.mon.ownRecap = .none ∨ s.mon.ownRecap = .headPending) (k : Station) :
    (s.noteForeign k era.founding).mon = { s.mon with foreign := some ⟨k, 100⟩, ownRecap := .none } := by
  have same : (s.mon.mode.hasSchedule && s.mon.era.any fun e => e.founding == era.founding) = true := by
    simp [hm, hera]
  obtain hown | hown := hown
  · unfold State.noteForeign
    rw [hforeign, hown]
    simp only [same, if_true]
    rw [if_neg nofun, State.withMon_mon, ← hown]
  · unfold State.noteForeign State.cancelHead State.endOwnRecap
    rw [hforeign, hown]
    simp only [same, if_true]
    rw [State.withMon_mon, cancelWhere_mon]
    rfl

/-- A head noted changes the recaps alone. -/
theorem noteForeign_mon (s : State) (k : Station) (founding : Slot) :
    ∃ foreign own, (s.noteForeign k founding).mon = { s.mon with foreign := foreign, ownRecap := own } := by
  unfold State.noteForeign
  split
  · split
    · exact ⟨_, s.mon.ownRecap, rfl⟩
    · exact ⟨s.mon.foreign, s.mon.ownRecap, rfl⟩
  · exact ⟨s.mon.foreign, s.mon.ownRecap, rfl⟩
  · split
    · dsimp only
      split
      · refine ⟨some ⟨k, 100⟩, .none, ?_⟩
        unfold State.cancelHead State.endOwnRecap
        rw [State.withMon_mon, cancelWhere_mon]
        rfl
      · exact ⟨_, s.mon.ownRecap, rfl⟩
    · exact ⟨s.mon.foreign, s.mon.ownRecap, rfl⟩

theorem onPlan_iff (p : PeerState) : p.onPlan = true ↔ p ≠ .resync := by cases p <;> simp [PeerState.onPlan]

/-- R172: the head's era yields to no peer that can serve. -/
theorem headYields_eq_false {peers : List Peer} {x founding : Slot} {k : Station}
    (h : ∀ p ∈ peers, p.validAt x = true → p.state ≠ .resync → p.founding ≠ founding →
      ¬ (later founding p.founding = true ∨ later p.founding founding = false ∧ p.station.val < k.val)) :
    headYields peers x k founding = false := by
  refine Bool.eq_false_iff.2 fun hyields => ?_
  obtain ⟨p, hp, hserves⟩ := List.any_eq_true.1 hyields
  simp only [Bool.and_eq_true, Peer.canServe, onPlan_iff, bne_iff_ne, yields_iff] at hserves
  obtain ⟨⟨⟨hvalid, hplan⟩, hera⟩, hyield⟩ := hserves
  exact h p hp hvalid hplan hera hyield

/-- R172: a station that asks for a recap, and collects none, starts its record from the head. -/
theorem joinerHead_starts {s : State} {x founding : Slot} {k : Station} (hm : s.mon.mode.wantsRecap = true)
    (hcollecting : s.mon.collecting = none) (hyields : headYields s.mon.peers x k founding = false) :
    (s.joinerHead x k founding).mon =
      { s.mon with collecting := some ⟨k, x, ⟨[], [], []⟩, [], [], 100, false⟩, retry := none } := by
  rw [State.joinerHead, if_pos (by simp [hm, hcollecting, hyields])]
  unfold State.startCollecting State.cancelJoin
  rw [cancelWhere_mon]
  rfl

theorem headTaken : HeadTaken := by
  intro s b f stamp founding hbody hstamp
  have taken : s.takeHead b f =
      if f.own then s.takeOwnHead b else (s.noteForeign f.sender founding).joinerHead b.x f.sender founding := by
    unfold State.takeHead
    rw [hbody]
    exact if_neg (by rw [hstamp]; exact Bool.false_ne_true)
  have foreign (hown : f.own = false) :
      s.takeHead b f = (s.noteForeign f.sender founding).joinerHead b.x f.sender founding :=
    taken.trans (if_neg (by rw [hown]; exact Bool.false_ne_true))
  refine ⟨fun pt era hown hm hrecap hforeign hpoint hera => ?starts, fun hown hends => ?ends,
    fun era hown hm hera hfounding hforeign hrecap => ?noted, fun hown hwants hcollecting hpeers => ?joiner⟩
  case starts =>
    rw [taken, if_pos hown, takeOwnHead_starts hm hrecap hforeign hpoint hera]
    rfl
  case ends => rw [taken, if_pos hown, takeOwnHead_ends hends]
  case noted =>
    obtain ⟨schedule, settled⟩ : s.mon.mode.hasSchedule = true ∧ s.mon.mode.wantsRecap = false := by
      obtain hm | hm := hm <;> rw [hm] <;> exact ⟨rfl, rfl⟩
    subst hfounding
    have noted := noteForeign_noted schedule hera hforeign hrecap f.sender
    have wants : (s.noteForeign f.sender era.founding).mon.mode.wantsRecap = false := by rw [noted, ← settled]
    rw [foreign hown, State.joinerHead, if_neg (by simp [wants]), noted]
  case joiner =>
    obtain ⟨fr, own, noted⟩ := noteForeign_mon s f.sender founding
    have started := joinerHead_starts (s := s.noteForeign f.sender founding) (x := b.x) (founding := founding)
      (k := f.sender) (by rw [noted]; exact hwants) (by rw [noted]; exact hcollecting)
      (by rw [noted]; exact headYields_eq_false hpeers)
    rw [foreign hown, started, noted]
    exact ⟨rfl, rfl, rfl⟩

/-! ## The image (R172) -/

section Image

variable {s : State} {f : RxFrame} {r : Collecting}

/-- R174: an entry of the head's sender joins the image, and the silence count is loaded. -/
theorem takeImage_collects (hown : f.own = false) (hr : s.mon.collecting = some r) (hsender : r.sender = f.sender)
    {image : Plan} (himage : imageWith r f = some image) :
    (s.takeImage f).mon.collecting = some { r with image := image, silence := 100 } := by
  have collecting : (s.renewForeign f.sender).mon.collecting = some r := hr
  unfold State.takeImage
  rw [if_neg (by rw [hown]; exact Bool.false_ne_true)]
  dsimp only
  rw [collecting]
  dsimp only
  rw [if_neg (not_not.2 hsender), himage]
  rfl

end Image

theorem imageCut_rules (pl : Plan) (c : Cut) :
    (imageCut pl c).paces = pl.paces ∧ (imageCut pl c).spans = pl.spans ∧
      ((∃ d ∈ pl.cuts, d.id = c.id) ∨ 32 ≤ pl.cuts.length → imageCut pl c = pl) ∧
      ((∀ d ∈ pl.cuts, d.id ≠ c.id) → pl.cuts.length < 32 → (imageCut pl c).cuts.Perm (c :: pl.cuts)) := by
  have skipped := findCut_isSome_iff pl.cuts c.id
  unfold imageCut
  split
  next hskip =>
    refine ⟨rfl, rfl, fun _ => rfl, fun hnew hroom => ?_⟩
    obtain hheld | hfull := hskip
    · obtain ⟨d, hd, hid⟩ := skipped.1 hheld
      exact absurd hid (hnew d hd)
    · exact absurd hfull (Nat.not_le.2 hroom)
  next hjoin => exact ⟨rfl, rfl, fun hskip => absurd (hskip.imp_left skipped.2) hjoin, fun _ _ => insertCut_perm c pl.cuts⟩

theorem imagePace_rules (pl : Plan) (p : Pace) :
    (imagePace pl p).cuts = pl.cuts ∧ (imagePace pl p).spans = pl.spans ∧
      ((∃ d ∈ pl.paces, d.psn = p.psn) ∨ 64 ≤ pl.paces.length → imagePace pl p = pl) ∧
      ((∀ d ∈ pl.paces, d.psn ≠ p.psn) → pl.paces.length < 64 → (imagePace pl p).paces.Perm (p :: pl.paces)) := by
  have skipped := paceAt_isSome_iff pl.paces p.psn
  unfold imagePace
  split
  next hskip =>
    refine ⟨rfl, rfl, fun _ => rfl, fun hnew hroom => ?_⟩
    obtain hheld | hfull := hskip
    · obtain ⟨d, hd, hpsn⟩ := skipped.1 hheld
      exact absurd hpsn (hnew d hd)
    · exact absurd hfull (Nat.not_le.2 hroom)
  next hjoin => exact ⟨rfl, rfl, fun hskip => absurd (hskip.imp_left skipped.2) hjoin, fun _ _ => insertPace_perm p pl.paces⟩

theorem imageSpan_rules (pl : Plan) (d : Span) :
    (imageSpan pl d).cuts = pl.cuts ∧ (imageSpan pl d).paces = pl.paces ∧
      (∀ held, pl.spanOf d.origin = some held → imageSpan pl d = pl) ∧
      (pl.spanOf d.origin = none → (imageSpan pl d).spanOf d.origin = some d) := by
  unfold imageSpan
  split
  next hheld =>
    exact ⟨rfl, rfl, fun _ _ => rfl, fun hnone => by rw [hnone] at hheld; exact absurd hheld Bool.false_ne_true⟩
  next hidle =>
    exact ⟨rfl, rfl, fun held h => absurd (by rw [h]; rfl) hidle, fun _ => SpanContexts.spanOf_setSpan_self pl d⟩

theorem imageTaken : ImageTaken := by
  intro s f r hown hr hsender
  refine ⟨fun c hk hc => ?cut, fun p hk hp => ?pace, fun d hk hd => ?span⟩
  case cut =>
    obtain ⟨paces, spans, skips, joins⟩ := imageCut_rules r.image c
    exact ⟨_, takeImage_collects hown hr hsender (by rw [imageWith, hk, hc]; rfl), paces, spans, skips, joins⟩
  case pace =>
    obtain ⟨cuts, spans, skips, joins⟩ := imagePace_rules r.image p
    exact ⟨_, takeImage_collects hown hr hsender (by rw [imageWith, hk, hp]; rfl), cuts, spans, skips, joins⟩
  case span =>
    obtain ⟨cuts, paces, skips, joins⟩ := imageSpan_rules r.image d
    exact ⟨_, takeImage_collects hown hr hsender (by rw [imageWith, hk, hd]; rfl), cuts, paces, skips, joins⟩

end Sys2Proof.Proofs.RecapFrames
end

