-- ==== Sys2Proof/Proofs/RecapAdoption.lean ====
section
/-! SUPPORT. The end of a recap and the adoption of the replayed plan (R137, R140, R174 to R176), and the timers of a station
that joins (R167, R168, R174). -/

namespace Sys2Proof.Proofs.RecapAdoption

open Sys2Proof Sys2Proof.Machine Sys2Proof.Proofs.RecapFrames Sys2Proof.Proofs.ArrivedFrames

/-! ## The replay (R176) -/

theorem replayOf_snapshot (r : Collecting) (e : RecapEnd) :
    replayOf r e e.x0 = ⟨r.image.takeFrames e.bounds (r.framesAt e.x0), e.point r.image, e.bounds⟩ := by
  rw [replayOf, sub_self]
  rfl

theorem slots_succ (n : Nat) : slots (n + 1) = 1 + slots n := by
  rw [slots, slots, Nat.add_comm, BitVec.ofNat_add]
  rfl

/-- R176: one HSN more is one step more. -/
theorem replayOf_succ (r : Collecting) (e : RecapEnd) {n : Nat} (h : n + 1 < 4294967296) :
    replayOf r e (e.x0 + slots (n + 1)) = (replayOf r e (e.x0 + slots n)).step r (e.x0 + slots (n + 1)) := by
  have count {m : Nat} (hm : m < 4294967296) : (e.x0 + slots m - e.x0).toNat = m := by
    rw [add_sub_cancel_left, slots, BitVec.toNat_ofNat, Nat.mod_eq_of_lt hm]
  rw [replayOf, replayOf, count h, count (Nat.lt_of_succ_lt h), Replay.steps_succ, slots_succ, add_assoc]

theorem replayRule : ReplayRule := fun r e => ⟨replayOf_snapshot r e, fun _ h => replayOf_succ r e h⟩

/-! ## The jump (R137) -/

theorem jumps_iff (old new : Plan) (pt pt' : SchedPoint) (y : Slot) :
    jumps old new pt pt' y = true ↔
      (old.playAt pt y).psn ≠ (new.playAt pt' y).psn ∨ (old.playAt pt y).rep ≠ (new.playAt pt' y).rep := by
  simp only [jumps, Bool.or_eq_true, bne_iff_ne]

theorem tookStrobe_iff (e : Egress) (x : Slot) :
    e.tookStrobe x = true ↔ (∃ d ∈ e.history, d.hsn = x) ∨ ∃ b ∈ e.out, b.hsn = x := by
  simp only [Egress.tookStrobe, Bool.or_eq_true, List.any_eq_true, beq_iff_eq]

theorem nextStepHsn_eq {e : Egress} {x y : Slot}
    (htaken : ((∃ d ∈ e.history, d.hsn = x) ∨ ∃ b ∈ e.out, b.hsn = x) → y = x + 1)
    (hopen : ¬ ((∃ d ∈ e.history, d.hsn = x) ∨ ∃ b ∈ e.out, b.hsn = x) → y = x) : e.nextStepHsn x = y := by
  rw [← tookStrobe_iff] at htaken hopen
  unfold Egress.nextStepHsn
  split
  next h => exact (htaken h).symm
  next h => exact (hopen h).symm

section Point

variable {s : State} (pl : Plan) (pt : SchedPoint) (x : Slot)

theorem adoptPoint_point : (s.adoptPoint pl pt x).point = some pt := by
  unfold State.adoptPoint
  dsimp only
  split
  · split <;> rfl
  · rfl

/-- R137: in RESYNC the jump flag is set where the next play changes. -/
theorem adoptPoint_jump_resync {origin : Origin} {old : SchedPoint} (hm : s.mon.mode = .resync origin)
    (hpoint : s.egress.point = some old) :
    (s.adoptPoint pl pt x).jump = true ↔
      s.egress.jump = true ∨ jumps s.plan pl old pt (s.egress.nextStepHsn x) = true := by
  have resync : s.mon.mode.isResync = true := by rw [hm]; rfl
  unfold State.adoptPoint
  rw [hpoint]
  simp only [resync, Bool.true_and]
  split
  next h => simp [h]
  next h => simp [h, Egress.setPoint]

/-- R137: outside RESYNC the jump flag stays. -/
theorem adoptPoint_jump_joining (hm : s.mon.mode = .joining) : (s.adoptPoint pl pt x).jump = s.egress.jump := by
  have other : s.mon.mode.isResync = false := by rw [hm]; rfl
  unfold State.adoptPoint
  simp only [other, Bool.false_and]
  split <;> rfl

end Point

/-! ## The adoption (R176) -/

/-- The station as the adoption of `p` leaves it, before its JOIN is cancelled. -/
def adopted (s : State) (e : RecapEnd) (p : Replay) (x : Slot) : State :=
  (((s.withEgress (s.adoptPoint (p.plan.retire p.point.psn) p.point x)).withPlan (p.plan.retire p.point.psn)).withReg
    (s.reg.takePlan (p.plan.retire p.point.psn).paces)).withMon
      { s.mon with
        mode := s.mon.mode.adopted, era := some ⟨e.founding, e.tEra⟩, collecting := none, retry := none }

theorem adopt_whole {r : Collecting} (h : r.lost = false) (s : State) (e : RecapEnd) (p : Replay) (x : Slot) :
    s.adopt r e p x = (adopted s e p x).cancelJoin := if_neg (by rw [h]; exact Bool.false_ne_true)

theorem adopt_lost {r : Collecting} (h : r.lost = true) (s : State) (e : RecapEnd) (p : Replay) (x : Slot) :
    s.adopt r e p x = (adopted s e p x).cancelJoin.enterResync (adopted s e p x).cancelJoin.mon.mode.origin := if_pos h

theorem cancelJoin_mon (s : State) : s.cancelJoin.mon = s.mon := cancelWhere_mon s _

theorem origin_mode_origin (o : Origin) : o.mode.origin = o := by cases o <;> rfl

/-! ## A RECAP-END (R174 to R176) -/

section End

variable {s : State} {f : RxFrame} {r : Collecting} {e : RecapEnd}

theorem takeEnd_of_record (hown : f.own = false) (hwants : s.mon.mode.wantsRecap = true)
    (hr : s.mon.collecting = some r) (hsender : r.sender = f.sender) (hbody : parseRecapEnd f.body = some e) (x : Slot) :
    s.takeEnd x f =
      if endChecks r e then
        ((s.endForeign f.sender).adopt r e (replayOf r e x) x, some (replayOf r e x).bounds)
      else ((s.endForeign f.sender).failCollection, none) := by
  have wants : (s.endForeign f.sender).mon.mode.wantsRecap = true := hwants
  have collecting : (s.endForeign f.sender).mon.collecting = some r := hr
  unfold State.takeEnd
  rw [if_neg (by rw [hown]; exact Bool.false_ne_true)]
  simp only [wants, collecting, hsender, hbody, Bool.not_true, Bool.false_eq_true, if_false, ne_eq, not_true_eq_false]

theorem failCollection_leaves (s : State) :
    s.failCollection.plan = s.plan ∧ s.failCollection.egress = s.egress ∧ s.failCollection.mon =
      { s.mon with collecting := none, retry := some 200 } := by
  have planned := ScheduledStrobe.failCollection_planned s
  refine ⟨planned.plan, planned.egress, ?_⟩
  unfold State.failCollection
  rw [askAgain_mon]
  rfl

end End

theorem endTaken : EndTaken := by
  intro s x f r e hown hwants hr hsender hbody
  have taken := takeEnd_of_record hown hwants hr hsender hbody x
  have checks : endChecks r e = true ↔ EndHolds r e := endChecks_iff r e
  refine ⟨fun hholds hwhole => ?adopts, fun hholds hlost => ?marked, fun hfails => ?fails⟩
  case adopts =>
    rw [if_pos (checks.2 hholds), adopt_whole hwhole] at taken
    have cue := cancelJoin_cueOnly (adopted (s.endForeign f.sender) e (replayOf r e x) x)
    have mon := cancelJoin_mon (adopted (s.endForeign f.sender) e (replayOf r e x) x)
    rw [taken]
    dsimp only
    rw [mon, cue.plan_eq, cue.egress_eq, cue.orig_eq]
    refine ⟨rfl, adoptPoint_point _ _ x, rfl, rfl, rfl, rfl, rfl, fun hm => ⟨?_, ?_⟩, fun origin hm => ?_,
      fun origin old hm hpoint y htaken hopen => ?_⟩
    · exact congrArg Mode.adopted hm
    · exact adoptPoint_jump_joining (s := s.endForeign f.sender) _ _ x hm
    · exact congrArg Mode.adopted hm
    · refine (adoptPoint_jump_resync (s := s.endForeign f.sender) _ _ x hm hpoint).trans (or_congr Iff.rfl ?_)
      rw [show (s.endForeign f.sender).egress.nextStepHsn x = y from nextStepHsn_eq htaken hopen]
      exact jumps_iff _ _ _ _ y
  case marked =>
    rw [if_pos (checks.2 hholds), adopt_lost hlost, cancelJoin_mon] at taken
    obtain ⟨mode, retry⟩ := enterResync_mon (adopted (s.endForeign f.sender) e (replayOf r e x) x).cancelJoin
      (adopted (s.endForeign f.sender) e (replayOf r e x) x).mon.mode.origin
    rw [taken]
    refine ⟨retry, fun hm => mode.trans ?_, fun origin hm => mode.trans ?_⟩
    · exact congrArg (fun m : Mode => Mode.resync m.adopted.origin) hm
    · refine (congrArg (fun m : Mode => Mode.resync m.adopted.origin) hm).trans ?_
      exact congrArg Mode.resync (origin_mode_origin origin)
  case fails =>
    rw [if_neg (mt checks.1 hfails)] at taken
    obtain ⟨plan, egress, mon⟩ := failCollection_leaves (s.endForeign f.sender)
    rw [taken]
    dsimp only
    rw [plan, egress, mon]
    exact ⟨rfl, rfl, rfl, rfl, rfl, rfl⟩

/-! ## The timers (R167, R168, R174) -/

section Timers

variable {s : State}

theorem askAgain_asks {x : Slot} (hx : s.ref.hsn = some x) (hqueued : s.joinQueued = false)
    (hconn : s.link.connected = true) (hclash : s.link.clash = false) (hroom : s.traffic.general.length < 16) :
    ∃ e ∈ s.askAgain.traffic.general, e.frame = some ⟨.join, joinBody x s.mon.mode.isResync⟩ := by
  have added : s.askAgain = s.addJoin.withRetry (some 200) := by
    rw [State.askAgain, hqueued]
    rfl
  rw [added]
  exact addJoin_queued hx hconn hclash hroom

theorem askAgain_queued (hqueued : s.joinQueued = true) :
    s.askAgain = s.withMon { s.mon with retry := some 200 } := by
  rw [State.askAgain, if_pos hqueued]
  rfl

theorem exec_joinRetryExpiry (h : s.mon.retry = some 0) : exec .joinRetryExpiry s = .next s.askAgain :=
  congrArg Host.Outcome.next (if_pos (by simp [Monitor.retryDue, h]))

theorem exec_collectSilenceExpiry {r : Collecting} (hr : s.mon.collecting = some r) (h : r.silence = 0) :
    exec .collectSilenceExpiry s = .next s.failCollection :=
  congrArg Host.Outcome.next (if_pos (by simp [Monitor.collectDue, hr, h]))

theorem exec_foreignRecapExpiry {r : ForeignRecap} (hr : s.mon.foreign = some r) (h : r.silence = 0) :
    exec .foreignRecapExpiry s = .next (s.withMon { s.mon with foreign := none }) :=
  congrArg Host.Outcome.next (if_pos (by simp [Monitor.foreignDue, hr, h]))

end Timers

/-- Settles O51: the timers, and the frames of a recap each by its rule. -/
theorem monitorExpiries : Obligations.MonitorExpiries := by
  refine ⟨fun x s hx hqueued hconn hclash hroom => ⟨fun hretry => ?retry, fun r hr hsilence => ?silence,
    fun r hr hsilence => exec_foreignRecapExpiry hr hsilence⟩, fun s hqueued => ⟨fun hretry => ?retryQueued,
    fun r hr hsilence => ?silenceQueued⟩, joinAnswered, headTaken, imageTaken, endTaken, replayRule⟩
  case retry =>
    exact ⟨_, exec_joinRetryExpiry hretry, askAgain_mon s, askAgain_asks hx hqueued hconn hclash hroom⟩
  case silence =>
    obtain ⟨-, -, mon⟩ := failCollection_leaves s
    exact ⟨_, exec_collectSilenceExpiry hr hsilence, mon,
      askAgain_asks (s := s.withMon { s.mon with collecting := none }) hx hqueued hconn hclash hroom⟩
  case retryQueued => rw [exec_joinRetryExpiry hretry, askAgain_queued hqueued]
  case silenceQueued =>
    rw [exec_collectSilenceExpiry hr hsilence, State.failCollection, askAgain_queued (by exact hqueued)]
    rfl

end Sys2Proof.Proofs.RecapAdoption
end
